-- ==== Sys2Proof/Word.lean ====
section
/-! DEFINITION. The word of the Uskon 2608: 16 bits (00_scope.md, Words and addresses), and the byte in which the exchange
memory is written out. -/

namespace Sys2Proof

/-- A word is 16 bits. -/
abbrev Word := BitVec 16

/-- A byte: half a word. No access of the part is narrower than a word (R177). -/
abbrev Byte := BitVec 8

end Sys2Proof
end

