-- ==== Sys2Proof/Syntax.lean ====
section
/-! DEFINITION. The commands of the block: one constructor for each row of spec/opcode_table.json, with the operands the row's
rule needs. The table gives no row any bits and no operands, so the operands are the model's reading of the rules. -/

namespace Sys2Proof

/-- A card position, 0–7. -/
abbrev CardId := Fin 8
/-- A slot number, 0–31. -/
abbrev SlotId := Fin 32
/-- A data page number, 0–127. -/
abbrev PageId := Fin 128
/-- A card register number as it stands on RS0–RS5, 0–63. -/
abbrev Reg := BitVec 6
/-- A word address HA1–HA14: the byte address divided by 2 (R177). -/
abbrev WordAddr := BitVec 14

/-- Where an ignored window write goes: IDENT (R193), window word 3 (R177), or an access with both HMS and HWS asserted (R177). -/
inductive IgnoredTarget where
  | ident
  | word3
  | bothSelects
  deriving DecidableEq, Repr

/-- The 51 commands of the operation table. Each is one step, whole and indivisible (95_what_each_step_holds.md). -/
inductive Instr where
  /-- FILE: a host write of 0x0011 to a slot control word (R5). -/
  | file (slot : SlotId)
  /-- CANCEL: a host write of 0x0012 to a slot control word (R12). -/
  | cancel (slot : SlotId)
  /-- RELEASE: a host write of 0x0013 to a slot control word (R15). -/
  | release (slot : SlotId)
  /-- UNKNOWN_REQUEST: a host write of any other value to a slot control word (R16). -/
  | unknownRequest (slot : SlotId) (value : Word)
  /-- HOST_EXCHANGE_WRITE: a host write to a word that is not guarded (R182). -/
  | hostExchangeWrite (address : WordAddr) (value : Word)
  /-- PRESENCE_TALLY_WRITE: a host write to header word 2 (R203). -/
  | presenceTallyWrite (value : Word)
  /-- NOTICES_CONSUMED_WRITE: a host write to header word 4 (R171). -/
  | noticesConsumedWrite (value : Word)
  /-- NOTICES_LOST_WRITE: a host write to header word 5 (R173). -/
  | noticesLostWrite (value : Word)
  /-- RUN_SET: a CTRL write that carries RUN set (R199); `ctrl` is the whole word written. -/
  | runSet (ctrl : Word)
  /-- RUN_CLEAR: a CTRL write that carries RUN clear (R200). -/
  | runClear (ctrl : Word)
  /-- PRESENCE_LEVEL: a CTRL write, seen for its PRESENCE level (R198). -/
  | presenceLevel (ctrl : Word)
  /-- INTERRUPT_LEVEL: a CTRL write, seen for its INTERRUPT level (R175). -/
  | interruptLevel (ctrl : Word)
  /-- RESUME: a CTRL write that carries RESUME set (R206). -/
  | resume (ctrl : Word)
  /-- ENGINE_RESET: a CTRL write that carries ENGINE_RESET set (R207). -/
  | engineReset (ctrl : Word)
  /-- STAT_CLEAR_DISCARD: a STAT write with bit 8 set (R192); `stat` is the whole word written. -/
  | statClearDiscard (stat : Word)
  /-- STAT_CLEAR_REFUSED: a STAT write with bit 9 set (R192). -/
  | statClearRefused (stat : Word)
  /-- IGNORED_WINDOW_WRITE: a host write that no register takes (R193, R177). -/
  | ignoredWindowWrite (target : IgnoredTarget) (value : Word)
  /-- HARDWARE_RESET: assertion of the RESET pin, or power-on (R197). -/
  | hardwareReset
  /-- RESET_RELEASE: release of the RESET pin (R195). -/
  | resetRelease
  /-- BCLR_PULSE_END: the BCLR pulse runs out (R121). -/
  | bclrPulseEnd
  /-- JOB_START: the dispatcher starts a job on the card (R61). -/
  | jobStart (card : CardId)
  /-- CANCEL_NOTICE_TAKEN: the card's sequencer takes a cancel notice (R13). -/
  | cancelNoticeTaken (card : CardId)
  /-- END_REPORT_TAKEN: slot intake takes the end report of the card's job (R18). -/
  | endReportTaken (card : CardId)
  /-- BUS_GRANT: the arbiter grants one waiting request (R117). -/
  | busGrant
  /-- REGISTER_WRITE_END: a register write tenure ends (R103). -/
  | registerWriteEnd
  /-- REGISTER_READ_END: a register read tenure ends with its value (R104). -/
  | registerReadEnd
  /-- ATTENTION_READ_END: an attention read ends with its values (R130). -/
  | attentionReadEnd
  /-- BURST_END: a burst ends with every word moved (R83). -/
  | burstEnd
  /-- BURST_STOP: a burst ends with STOP (R89). -/
  | burstStop
  /-- STALL_TIMEOUT: the stall timeout runs out on a held burst strobe (R101). -/
  | stallTimeout
  /-- BURST_STALL_END: a stalled burst ends (R90). -/
  | burstStallEnd
  /-- CHECK_OUT_END: a check out tenure ends (R85). -/
  | checkOutEnd
  /-- CHECK_IN_END: a check in tenure ends with the card's check word (R86). -/
  | checkInEnd
  /-- ABANDON_END: an abandon tenure ends (R93). -/
  | abandonEnd
  /-- READY_TIMEOUT: the ready timeout runs out on a held strobe (R112). -/
  | readyTimeout
  /-- RECOVERY_WIDTH_END: the recovery width after a cut or faulted tenure runs out (R111). -/
  | recoveryWidthEnd
  /-- POLL_INTERVAL_END: the card's POLL interval runs out (R40). -/
  | pollIntervalEnd (card : CardId)
  /-- AWAIT_TIMEOUT: the card's AWAIT timeout runs out (R45). -/
  | awaitTimeout (card : CardId)
  /-- PAUSE_END: the card's PAUSE runs out (R47). -/
  | pauseEnd (card : CardId)
  /-- PULSE_END: the card's reset pulse runs out (R157). -/
  | pulseEnd (card : CardId)
  /-- SETTLE_WAIT_END: the card's settle wait runs out (R158). -/
  | settleWaitEnd (card : CardId)
  /-- PRESENCE_TICK: the 10 ms tick (R202). -/
  | presenceTick
  /-- STANDSTILL_ENTRY: the tick that runs the tally out (R204). -/
  | standstillEntry
  /-- MS_CLOCK_TICK: the 1 ms increment of the millisecond clock (R188). -/
  | msClockTick
  /-- PRESENCE_SAMPLE: the sample of one present line; the eight of one instant are eight events (R143). -/
  | presenceSample (card : CardId) (present : Bool)
  /-- CARD_ARRIVAL: the present sample that takes the settle count to 50 (R145). -/
  | cardArrival (card : CardId)
  /-- ATN_CHANGE: the card's attention line takes a level, `true` for high (R124). -/
  | atnChange (card : CardId) (level : Bool)
  /-- LEASE_GRANT_TAKEN: the card's sequencer takes a lease grant (R78). -/
  | leaseGrantTaken (card : CardId)
  /-- STROBE_WIDTH_END: the strobe width runs out; RDY high, STOP and D0–D15 as they stand then (R98). -/
  | strobeWidthEnd (rdy : Bool) (stop : Bool) (data : Word)
  /-- RDY_RISE: RDY rises on a stretched strobe; STOP and D0–D15 as they stand then (R98). -/
  | rdyRise (stop : Bool) (data : Word)
  /-- STROBE_RECOVERY_END: the recovery width between two strobes of a tenure runs out (R99). -/
  | strobeRecoveryEnd
  deriving DecidableEq, Repr

end Sys2Proof
end

