-- ==== Sys2Proof/Decode.lean ====
section
/-! DEFINITION. Decoding of table words. No row of spec/opcode_table.json gives any bits ("fields" is empty and no row has
"fixed" bits): a command of this block is an event, not a word. So no word spells a command. -/

namespace Sys2Proof

/-- The command a word of the table spells: none, since no row gives bits. -/
def decodeTableWord (_nbits _w : Nat) : Option Instr := none

end Sys2Proof
end

