-- ==== Sys2Proof/Config.lean ====
section
/-! DEFINITION. What the part fixes: its constants, the exchange memory map of 11.1 and the time units of its own timings.
The spec leaves no value undefined after a step, so this file holds no free value. -/

namespace Sys2Proof.Config

/-- Header word 0 after initialisation (R187). -/
def signature : Word := 0x554B
/-- Header word 1 after initialisation (R187). -/
def revision : Word := 1
/-- IDENT: family code 0x26, silicon revision 0x01 (11.10, R193). -/
def ident : Word := 0x2601

/-- First byte address of the slot directory (11.1). -/
def slotBase : Nat := 0x0020
/-- First byte address of the card profiles (11.1). -/
def profileBase : Nat := 0x0420
/-- First byte address of the notice list (11.1). -/
def noticeBase : Nat := 0x0520
/-- First byte address of the step area (11.1). -/
def stepBase : Nat := 0x0920
/-- Last byte address of the step area (11.1). -/
def stepLast : Nat := 0x3FFF
/-- First byte address of the data pages (11.1). -/
def pageBase : Nat := 0x4000

/-- Entries of the notice ring (R162). -/
def ringSize : Nat := 64
/-- The settle count at which a card arrives (R144, R145). -/
def settleFull : Nat := 50
/-- Words of one data page, which is the longest burst (R73). -/
def pageWords : Nat := 64

/-- The BCLR pulse, in µs (R121). -/
def bclrMicros : Nat := 10
/-- The interval of the presence samples, in µs (R143). -/
def sampleMicros : Nat := 1000
/-- The interval of the millisecond clock, in µs (R188). -/
def clockMicros : Nat := 1000
/-- The interval of the presence tick, in µs (R202). -/
def tickMicros : Nat := 10000
/-- The unit of strobe and recovery widths, in ns (R66). -/
def strobeUnitNs : Nat := 20
/-- The unit of POLL intervals, PAUSE durations and PULSE fields, in µs (R40, R47, R157). -/
def waitUnitMicros : Nat := 10

end Sys2Proof.Config
end

