-- ==== Sys2Proof/Machine/State.lean ====
section
/-! DEFINITION. The state of the part, as plain data, and the state right after hardware reset.
One home for each piece of state: header words 2–11, slot word 0 and the card state word are views of the fields below
(Machine/Flags.lean); every other word of the exchange memory lives in `mem`. -/

namespace Sys2Proof.Machine

/-- The engine states (R196). -/
inductive EngineState where
  | initializing | halted | running | draining | standstill | resetting
  deriving DecidableEq, Repr

/-- The slot states (R3). -/
inductive SlotState where
  | free | filed | active | cancelling | done
  deriving DecidableEq, Repr

/-- The cancel causes (R3); no cause is `none`. -/
inductive CancelCause where
  | cancel | hostLost
  deriving DecidableEq, Repr

/-- What slot intake keeps of a slot beside its words (R3). -/
structure SlotCtl where
  state : SlotState
  cause : Option CancelCause
  deriving DecidableEq, Repr

/-- The 19 outcomes (1.5). -/
inductive JobOutcome where
  | complete | rejected | cancelled | profileInvalid | stepInvalid | pollExhausted | awaitTimeout | awaitMismatch
  | busTimeout | streamStalled | shortStream | checkMismatch | checkRefused | leaseBreach | cardRemoved | cardAbsent
  | cardFaulted | hostLost | engineReset
  deriving DecidableEq, Repr

/-- Presence states (R142). -/
inductive Presence where
  | absent | settling | ready | faulted
  deriving DecidableEq, Repr

/-- Attention senses (R64). -/
inductive Sense where
  | off | rising | falling | levelHigh | levelLow
  deriving DecidableEq, Repr

/-- A card's latched profile (R64). -/
structure Profile where
  strobeWidth : Word
  recoveryWidth : Word
  readyTimeout : Word
  stallTimeout : Word
  sense : Sense
  readCount : Nat
  reg0 : Reg
  reg1 : Reg
  reg2 : Reg
  reg3 : Reg
  deriving DecidableEq, Repr

/-- The default latched profile (R68). -/
def Profile.default : Profile :=
  { strobeWidth := 10, recoveryWidth := 5, readyTimeout := 100, stallTimeout := 100, sense := .off, readCount := 0,
    reg0 := 0, reg1 := 0, reg2 := 0, reg3 := 0 }

/-- The four words of a step record (11.8). -/
structure StepRecord where
  w0 : Word
  w1 : Word
  w2 : Word
  w3 : Word
  deriving DecidableEq, Repr

/-- The step phases of a sequencer (R26). -/
inductive SeqPhase where
  | idle | busWait | tenure | timedWait | attentionWait | leaseWait | pulsing | settleWait
  deriving DecidableEq, Repr

/-- A card sequencer (R26), with the attempt count of a POLL (R40). -/
structure Sequencer where
  active : Option SlotId
  listAddr : Word
  stepCount : Nat
  stepIndex : Nat
  copy : Option StepRecord
  phase : SeqPhase
  stop : Bool
  attempts : Nat
  deriving DecidableEq, Repr

/-- Why a stream step is abandoning: a breach found at a burst end (R92), a stall (R90), or the stop flag (R94). -/
inductive AbandonReason where
  | breach | stall | stop
  deriving DecidableEq, Repr

/-- The stages of a stream step (R74); ABANDONING carries the reason its end needs. -/
inductive StreamStage where
  | leasing | bursting | closing
  | abandoning (why : AbandonReason)
  deriving DecidableEq, Repr

/-- The direction of a stream: STREAM-IN or STREAM-OUT. -/
inductive StreamDir where
  | into | out
  deriving DecidableEq, Repr

/-- The stream unit's record of a stream step in progress (R74). -/
structure StreamRec where
  stage : StreamStage
  dir : StreamDir
  nextBurst : Nat
  wordsMoved : Nat
  check : Word
  begun : Bool
  deriving DecidableEq, Repr

/-- Detector states (R122). -/
inductive Detector where
  | disarmed | armed | masked
  deriving DecidableEq, Repr

/-- Attention phases (R122). -/
inductive AttnPhase where
  | quiet | waiting | reading | held
  deriving DecidableEq, Repr

/-- The eight tenure kinds of the chapter The backplane bus. -/
inductive TenureKind where
  | registerWrite | registerRead | attentionRead | burstOut | burstIn | checkOut | checkIn | abandon
  deriving DecidableEq, Repr

/-- A tenure request (R97): the card, the kind, the register number or numbers, the number of strobes' words for a burst, the
data word of a register write or check out, and FIRST (`opening`) or NEXT for a burst (R80). -/
structure Request where
  card : CardId
  kind : TenureKind
  regs : List Reg
  count : Nat
  data : Word
  opening : Bool
  deriving DecidableEq, Repr

/-- The timing a tenure copies from the latched profile at its grant (R97). -/
structure Timing where
  strobeWidth : Word
  recoveryWidth : Word
  readyTimeout : Word
  stallTimeout : Word
  deriving DecidableEq, Repr

/-- The phases of a tenure in flight (R110). -/
inductive TenurePhase where
  | strobe | stretch | recovery
  deriving DecidableEq, Repr

/-- How a tenure stands: going on; STOP seen in a burst (R102); stalled (R101); check word refused (R102, END_STOP); ended by a
bus fault (R112); cut (R111). The last five are seen only in RECOVERY. -/
inductive TenureMark where
  | going | stopped | stalled | refused | faulted | cut
  deriving DecidableEq, Repr

/-- The tenure in flight (R110). `driven` is the word on D0–D15 while a WR strobe is held. -/
structure Tenure where
  req : Request
  timing : Timing
  phase : TenurePhase
  mark : TenureMark
  strobe : Nat
  moved : Nat
  values : List Word
  driven : Word
  deriving DecidableEq, Repr

/-- A lease request waiting at the lease table (R75). -/
structure LeaseRequest where
  slot : SlotId
  card : CardId
  first : Nat
  count : Nat
  deriving DecidableEq, Repr

/-- How a job's run ended (R18). -/
inductive Ending where
  | complete
  | failure (outcome : JobOutcome) (detail : Option Word)
  | stopped
  deriving DecidableEq, Repr

/-- An end report made by a sequencer and not yet taken by slot intake (R18, R32). -/
structure EndReport where
  slot : SlotId
  ending : Ending
  stepsDone : Nat
  deriving DecidableEq, Repr

/-- Everything the part holds for one card position. -/
structure Card where
  /-- Card detect unit (R142). -/
  presence : Presence
  settle : Nat
  crst : Bool
  /-- Dispatcher: queue (R53), latched profile (R64), and whether the card's job started while the card was FAULTED (R154). -/
  queue : List SlotId
  profile : Profile
  startedFaulted : Bool
  /-- Sequencer (R26). -/
  seq : Sequencer
  /-- Stream unit (R74). -/
  stream : Option StreamRec
  /-- Attention unit (R122); the sense and read list are those of `profile`. -/
  detector : Detector
  baseline : Bool
  attnPhase : AttnPhase
  voidRead : Bool
  claimable : Bool
  /-- The level of the ATN line, an input pin; `true` is high. -/
  atnLine : Bool
  /-- Requests waiting at the arbiter on the attention side and the job side (R115). -/
  attnReq : Option Request
  jobReq : Option Request
  /-- Messages under way: end report (R32), cancel notice naming a slot (R13), lease grant (R78). -/
  endReport : Option EndReport
  cancelNotice : Option SlotId
  leaseGrant : Bool
  deriving DecidableEq, Repr

/-- The exchange memory, written out as bytes: addresses strictly rising, no byte equal to 0, which is what an unlisted address
reads as (log 13, log 14). -/
abbrev Memory := List Host.Cell

/-- The whole part. -/
structure State where
  /-- Commands waiting, first in, first out. -/
  pending : List Instr
  /-- The RESET pin is asserted (R197). -/
  resetPin : Bool
  /-- BCLR is asserted (R121). -/
  bclr : Bool
  /-- Engine control (R196). -/
  engine : EngineState
  /-- The three CTRL levels (R191, R196). -/
  ctrlRun : Bool
  ctrlPresence : Bool
  ctrlInterrupt : Bool
  /-- STAT sticky flags (R192). -/
  statDiscard : Bool
  statRefused : Bool
  /-- Presence timer (R202). -/
  tally : Word
  /-- Notice writer (R162). -/
  produced : Word
  consumed : Word
  lost : Word
  /-- Slot intake's acceptance sequence counter (R6). -/
  acceptSeq : Word
  /-- Millisecond clock (R188). -/
  msClock : Word
  /-- Refused request count (R189). -/
  refusedCount : Word
  /-- Discarded write count and last discarded address (R184). -/
  discardCount : Word
  discardAddr : Word
  /-- Slot intake: state and cause of each slot (R3). -/
  slots : Vector SlotCtl 32
  /-- Dispatcher: the acceptance-order list, oldest first (R56). -/
  acceptOrder : List SlotId
  /-- The eight card positions. -/
  cards : Vector Card 8
  /-- Lease table (R75): page entries, breach records, waiting list. -/
  pageHolder : Vector (Option SlotId) 128
  breach : Vector (Option PageId) 32
  leaseWaiting : List LeaseRequest
  /-- Bus controller (R110). -/
  tenure : Option Tenure
  /-- Arbiter pointers: last card granted an attention read, last card granted a job tenure (R115). -/
  attnPtr : CardId
  jobPtr : CardId
  /-- Exchange memory words that no field above is the home of. -/
  mem : Memory
  deriving DecidableEq, Repr

/-- No command of this block stops the part: the spec gives every step an effect, so there is no fault to name (log 27). -/
inductive Fault where
  deriving DecidableEq, Repr

/-- Reasons the model gives no meaning. -/
inductive Refusal where
  /-- A row of the table that has no meaning yet; safe. No arm of exec raises it. -/
  | notModelled (mnemonic : String)
  deriving DecidableEq, Repr

/-- An IDLE sequencer after hardware reset (R26). The list address, step count and attempt count have no stated reset value:
DESIGN CHOICE 0 (log 15). -/
def Sequencer.reset : Sequencer :=
  { active := none, listAddr := 0, stepCount := 0, stepIndex := 0, copy := none, phase := .idle, stop := false, attempts := 0 }

/-- A card position after hardware reset (R26, R53, R68, R74, R115, R122, R142). -/
def Card.reset : Card :=
  { presence := .absent, settle := 0, crst := false, queue := [], profile := Profile.default, startedFaulted := false,
    seq := Sequencer.reset, stream := none, detector := .disarmed, baseline := false, attnPhase := .quiet, voidRead := false,
    claimable := false, atnLine := false, attnReq := none, jobReq := none, endReport := none, cancelNotice := none,
    leaseGrant := false }

/-- A FREE slot with no cause (R3). -/
def SlotCtl.reset : SlotCtl := { state := .free, cause := none }

/-- The part right after hardware reset, with RESET still asserted (R197, log 12): RESET_RELEASE comes next. -/
def State.reset : State :=
  { pending := [], resetPin := true, bclr := false, engine := .initializing, ctrlRun := false,
    ctrlPresence := false, ctrlInterrupt := false, statDiscard := false, statRefused := false, tally := 0, produced := 0, consumed := 0, lost := 0,
    acceptSeq := 0, msClock := 0, refusedCount := 0, discardCount := 0, discardAddr := 0,
    slots := Vector.replicate 32 SlotCtl.reset, acceptOrder := [], cards := Vector.replicate 8 Card.reset,
    pageHolder := Vector.replicate 128 none, breach := Vector.replicate 32 none, leaseWaiting := [], tenure := none,
    attnPtr := 7, jobPtr := 7, mem := [] }

end Sys2Proof.Machine
end

