-- ==== Sys2Proof/Machine/Memory.lean ====
section
/-! DEFINITION. The exchange memory as a canonical list of bytes, its word accesses, and the fixed tables (vectors) the state
holds its records in. The order of the two bytes of a word is not visible to any access (log 14). -/

namespace Sys2Proof.Machine

/-- A table given by its entries. -/
def tab {α : Type} {n : Nat} (f : Fin n → α) : Vector α n := ⟨(List.ofFn f).toArray, by simp⟩

/-- A table with one entry replaced. -/
def upd {α : Type} {n : Nat} (v : Vector α n) (i : Fin n) (x : α) : Vector α n := v.set i.val x i.isLt

/-- What an unlisted byte of the exchange memory reads as (R195: the zero-fill; log 13). -/
def unlistedByte : Byte := 0

/-- One byte of the exchange memory. -/
def readByte : Memory → Nat → Byte
  | [], _ => unlistedByte
  | (k, b) :: rest, a => if k = a then b else readByte rest a

/-- Put a byte at its place in a list that has no entry for the address. -/
def insertByte (a : Nat) (b : Byte) : Memory → Memory
  | [] => [(a, b)]
  | (k, c) :: rest => if a < k then (a, b) :: (k, c) :: rest else (k, c) :: insertByte a b rest

/-- Write one byte, keeping the canonical form. -/
def writeByte (m : Memory) (a : Nat) (b : Byte) : Memory :=
  let others := m.filter fun cell => cell.1 ≠ a
  if b = unlistedByte then others else insertByte a b others

/-- One word access: the word at an even byte address (R177, R178). -/
def readWord (m : Memory) (a : Nat) : Word := readByte m (a + 1) ++ readByte m a

/-- One word write (R178). -/
def writeWord (m : Memory) (a : Nat) (w : Word) : Memory :=
  writeByte (writeByte m a (w.extractLsb' 0 8)) (a + 1) (w.extractLsb' 8 8)

/-- Write 0 into every byte from `lo` to `hi - 1`. -/
def zeroRange (m : Memory) (lo hi : Nat) : Memory := m.filter fun cell => cell.1 < lo || hi ≤ cell.1

/-- The canonical form: addresses strictly rising, inside the 32 KiB, no byte equal to what an unlisted one reads as. -/
def memoryWf : Memory → Bool
  | [] => true
  | (k, b) :: rest => decide (k < 0x8000) && b != unlistedByte && rest.all (fun cell => k < cell.1) && memoryWf rest

end Sys2Proof.Machine
end

