-- ==== Sys2Proof/Machine/Operands.lean ====
section
/-! DEFINITION. Record layouts (11_record_layouts.md): every code, every field position, the step records and the card profile. -/

namespace Sys2Proof.Machine

/-- Bits 7:0 of a word. -/
def lowByte (w : Word) : Nat := w.toNat % 256
/-- Bits 15:8 of a word. -/
def highByte (w : Word) : Nat := w.toNat / 256
/-- Bit `n` of a word. -/
def bitOf (w : Word) (n : Nat) : Bool := w.getLsbD n
/-- A number written into a word. -/
def wordOf (n : Nat) : Word := BitVec.ofNat 16 n

/-! ## Codes -/

/-- 11.7. -/
def EngineState.code : EngineState → Word
  | .initializing => 0 | .halted => 1 | .running => 2 | .draining => 3 | .standstill => 4 | .resetting => 5

/-- 11.3, slot states. -/
def SlotState.code : SlotState → Word
  | .free => 0 | .filed => 1 | .active => 2 | .cancelling => 3 | .done => 4

/-- 11.3, outcomes; 0 is none. -/
def JobOutcome.code : JobOutcome → Word
  | .complete => 1 | .rejected => 2 | .cancelled => 3 | .profileInvalid => 4 | .stepInvalid => 5 | .pollExhausted => 6
  | .awaitTimeout => 7 | .awaitMismatch => 8 | .busTimeout => 9 | .streamStalled => 10 | .shortStream => 11
  | .checkMismatch => 12 | .checkRefused => 13 | .leaseBreach => 14 | .cardRemoved => 15 | .cardAbsent => 16
  | .cardFaulted => 17 | .hostLost => 18 | .engineReset => 19

/-- 11.4, presence states. -/
def Presence.code : Presence → Word
  | .absent => 0 | .settling => 1 | .ready => 2 | .faulted => 3

/-- The reasons of 11.6. -/
inductive Reason where
  | cardRange | cardNotReady | badClass | countRange | listPlace | stepKind | stepField | pageRange | wordCount
  | unknownRequest
  deriving DecidableEq, Repr

/-- 11.6; 0 is none. -/
def Reason.code : Reason → Word
  | .cardRange => 1 | .cardNotReady => 2 | .badClass => 3 | .countRange => 4 | .listPlace => 5 | .stepKind => 6
  | .stepField => 7 | .pageRange => 8 | .wordCount => 9 | .unknownRequest => 10

/-- The tenure kind codes of the fault detail (11.5). -/
def TenureKind.code : TenureKind → Nat
  | .registerWrite => 1 | .registerRead => 2 | .attentionRead => 3 | .burstOut => 4 | .burstIn => 5 | .checkOut => 6
  | .checkIn => 7 | .abandon => 8

/-- The fault detail of 11.5: bits 5:0 the register, bits 11:8 the tenure kind (R212). -/
def faultDetail (r : Reg) (k : TenureKind) : Word := wordOf (r.toNat + 256 * k.code)

/-- The request codes of 11.3. -/
def fileCode : Word := 0x0011
def cancelCode : Word := 0x0012
def releaseCode : Word := 0x0013

/-! ## The job header, slot word 1 (11.3) -/

/-- The card a slot names, none for card field values 8–255. -/
def headerCard (w1 : Word) : Option CardId := if h : lowByte w1 < 8 then some ⟨lowByte w1, h⟩ else none
/-- The class field, bits 11:8. -/
def headerClass (w1 : Word) : Nat := highByte w1 % 16
/-- Class URGENT. -/
def headerUrgent (w1 : Word) : Bool := headerClass w1 == 1
/-- NOTIFY, bit 14. -/
def headerNotify (w1 : Word) : Bool := bitOf w1 14
/-- RECOVERY, bit 15. -/
def headerRecovery (w1 : Word) : Bool := bitOf w1 15

/-! ## Step records (11.8, R9, R213) -/

/-- The nine step kinds. -/
inductive StepKind where
  | put | get | poll | await | pause | mark | pulse | streamIn | streamOut
  deriving DecidableEq, Repr

/-- The kind of a record, none for codes 0 and 10–255. -/
def stepKindOf (code : Nat) : Option StepKind :=
  if code = 1 then some .put else if code = 2 then some .get else if code = 3 then some .poll
  else if code = 4 then some .await else if code = 5 then some .pause else if code = 6 then some .mark
  else if code = 7 then some .pulse else if code = 8 then some .streamIn else if code = 9 then some .streamOut else none

/-- The step kind a record holds, bits 7:0 of its word 0. -/
def StepRecord.kind (r : StepRecord) : Option StepKind := stepKindOf (lowByte r.w0)
/-- The register or stream register field, bits 15:8 of word 0. -/
def StepRecord.regField (r : StepRecord) : Nat := highByte r.w0
/-- The register number as it is driven on RS0–RS5. -/
def StepRecord.reg (r : StepRecord) : Reg := BitVec.ofNat 6 r.regField
/-- The capture index of a GET. -/
def StepRecord.captureIndex (r : StepRecord) : Nat := r.w1.toNat
/-- The capture base of an AWAIT. -/
def StepRecord.captureBase (r : StepRecord) : Nat := highByte r.w0
/-- POLL attempts, bits 7:0 of word 3. -/
def StepRecord.attempts (r : StepRecord) : Nat := lowByte r.w3
/-- POLL interval, bits 15:8 of word 3. -/
def StepRecord.interval (r : StepRecord) : Nat := highByte r.w3
/-- First page of a stream step. -/
def StepRecord.firstPage (r : StepRecord) : Nat := r.w1.toNat
/-- Page count of a stream step. -/
def StepRecord.pageCount (r : StepRecord) : Nat := r.w2.toNat
/-- Word count of a stream step. -/
def StepRecord.wordCount (r : StepRecord) : Nat := r.w3.toNat

/-- Check 2 of R9: the fields of the kind lie in range. -/
def StepRecord.fieldsOk (r : StepRecord) : StepKind → Bool
  | .put => r.regField < 64
  | .get => r.regField < 64 && r.captureIndex < 8
  | .poll => r.regField < 64 && r.attempts != 0 && r.interval != 0
  | .await => r.w1 != 0 && r.captureBase < 8
  | .pause => r.w1 != 0
  | .mark => true
  | .pulse => r.w1 != 0
  | .streamIn | .streamOut => r.regField < 64

/-- Check 3 of R9: the pages of a stream step. -/
def StepRecord.pagesOk (r : StepRecord) : Bool :=
  r.pageCount != 0 && r.pageCount ≤ 32 && r.firstPage ≤ 127 && r.firstPage + r.pageCount - 1 ≤ 127

/-- Check 4 of R9: the word count of a stream step. -/
def StepRecord.wordsOk (r : StepRecord) : Bool := r.wordCount != 0 && r.wordCount ≤ r.pageCount * 64

/-- A kind that is STREAM-IN or STREAM-OUT. -/
def StepKind.isStream : StepKind → Bool
  | .streamIn | .streamOut => true
  | .put | .get | .poll | .await | .pause | .mark | .pulse => false

/-- The checks of R9 on one record, in order: the reason of the first that fails. -/
def StepRecord.invalid (r : StepRecord) : Option Reason :=
  match r.kind with
  | none => some .stepKind
  | some k =>
    if !r.fieldsOk k then some .stepField
    else if k.isStream && !r.pagesOk then some .pageRange
    else if k.isStream && !r.wordsOk then some .wordCount
    else none

/-! ## The card profile (11.4, R66) -/

/-- The attention sense of a profile word 4. -/
def senseOf (w : Word) : Option Sense :=
  if w = 0 then some .off else if w = 1 then some .rising else if w = 2 then some .falling
  else if w = 3 then some .levelHigh else if w = 4 then some .levelLow else none

/-- The eight host-owned words of a card profile as the dispatcher reads them (R65). -/
structure ProfileWords where
  w0 : Word
  w1 : Word
  w2 : Word
  w3 : Word
  w4 : Word
  w5 : Word
  w6 : Word
  w7 : Word
  deriving DecidableEq, Repr

/-- Both register bytes of a word are 0–63. -/
def registersOk (w : Word) : Bool := lowByte w < 64 && highByte w < 64

/-- The checks of R66 in word order: the number of the first word out of range. -/
def ProfileWords.invalid (p : ProfileWords) : Option Nat :=
  if p.w0.toNat < 2 || 63 < p.w0.toNat then some 0
  else if p.w1.toNat < 1 || 63 < p.w1.toNat then some 1
  else if p.w2.toNat < 1 || 1000 < p.w2.toNat then some 2
  else if p.w3.toNat < 1 || 1000 < p.w3.toNat then some 3
  else if 4 < p.w4.toNat then some 4
  else if 4 < p.w5.toNat then some 5
  else if !registersOk p.w6 then some 6
  else if !registersOk p.w7 then some 7
  else none

/-- The profile latched from words that pass R66 (R67). -/
def ProfileWords.latch (p : ProfileWords) : Profile :=
  { strobeWidth := p.w0, recoveryWidth := p.w1, readyTimeout := p.w2, stallTimeout := p.w3,
    sense := (senseOf p.w4).getD .off, readCount := p.w5.toNat,
    reg0 := BitVec.ofNat 6 (lowByte p.w6), reg1 := BitVec.ofNat 6 (highByte p.w6),
    reg2 := BitVec.ofNat 6 (lowByte p.w7), reg3 := BitVec.ofNat 6 (highByte p.w7) }

/-- The read list: attention read registers 0 to n−1, n the latched read count (R122). -/
def Profile.readList (p : Profile) : List Reg := [p.reg0, p.reg1, p.reg2, p.reg3].take p.readCount

/-- The timing a tenure copies (R97). -/
def Profile.timing (p : Profile) : Timing :=
  { strobeWidth := p.strobeWidth, recoveryWidth := p.recoveryWidth, readyTimeout := p.readyTimeout,
    stallTimeout := p.stallTimeout }

/-! ## The register window (11.10) -/

/-- CTRL bit 0. -/
def ctrlRunBit (w : Word) : Bool := bitOf w 0
/-- CTRL bit 1. -/
def ctrlPresenceBit (w : Word) : Bool := bitOf w 1
/-- CTRL bit 2. -/
def ctrlInterruptBit (w : Word) : Bool := bitOf w 2
/-- CTRL bit 8. -/
def ctrlResumeBit (w : Word) : Bool := bitOf w 8
/-- CTRL bit 9. -/
def ctrlResetBit (w : Word) : Bool := bitOf w 9

end Sys2Proof.Machine
end

