-- ==== Sys2Proof/Machine/Ops.lean ====
section
/-! DEFINITION. Named operations the blocks share: access to cards, slots and records, the write monitor's discard, the notice
writer, refusal, and the passage of a slot to DONE. -/

namespace Sys2Proof.Machine

/-! ## Cards and slots -/

/-- What the part holds for a card position. -/
def State.card (s : State) (c : CardId) : Card := s.cards.get c
/-- Change what the part holds for one card position. -/
def State.updCard (s : State) (c : CardId) (f : Card → Card) : State := { s with cards := upd s.cards c (f (s.card c)) }
/-- State and cause of a slot (R3). -/
def State.slot (s : State) (i : SlotId) : SlotCtl := s.slots.get i
/-- Set state and cause of a slot. -/
def State.setSlot (s : State) (i : SlotId) (x : SlotCtl) : State := { s with slots := upd s.slots i x }

/-- All card positions. -/
def allCards : List CardId := List.finRange 8
/-- All slots, in number order. -/
def allSlots : List SlotId := List.finRange 32
/-- All data pages. -/
def allPages : List PageId := List.finRange 128

/-- The active slot of a card (R50, R132): from a valid start until slot intake takes the end report, so the sequencer's active
slot, or the slot of the report under way. -/
def Card.activeSlot (k : Card) : Option SlotId :=
  match k.seq.active with
  | some i => some i
  | none => k.endReport.map EndReport.slot

/-- The slot is ACTIVE or CANCELLING. -/
def SlotState.inProgress : SlotState → Bool
  | .active | .cancelling => true
  | .free | .filed | .done => false

/-- Some slot is ACTIVE or CANCELLING (R196). -/
def State.anyInProgress (s : State) : Bool := allSlots.any fun i => (s.slot i).state.inProgress

/-- The engine is INITIALIZING or RESETTING. -/
def EngineState.closed : EngineState → Bool
  | .initializing | .resetting => true
  | .halted | .running | .draining | .standstill => false

/-! ## Words of the exchange memory -/

/-- A word that lives in the exchange memory, by byte address. -/
def State.word (s : State) (a : Nat) : Word := readWord s.mem a
/-- The part stores a word. -/
def State.setWord (s : State) (a : Nat) (w : Word) : State := { s with mem := writeWord s.mem a w }

/-- Byte address of word `w` of slot `i` (R180). -/
def slotAddr (i : SlotId) (w : Nat) : Nat := Config.slotBase + 32 * i.val + 2 * w
/-- Byte address of word `w` of the profile record of card `c` (R180). -/
def profileAddr (c : CardId) (w : Nat) : Nat := Config.profileBase + 32 * c.val + 2 * w
/-- Byte address of word `w` of notice entry `n` (R162). -/
def noticeAddr (n w : Nat) : Nat := Config.noticeBase + 16 * (n % Config.ringSize) + 2 * w

/-- A slot word other than word 0. -/
def State.slotWord (s : State) (i : SlotId) (w : Nat) : Word := s.word (slotAddr i w)
def State.setSlotWord (s : State) (i : SlotId) (w : Nat) (v : Word) : State := s.setWord (slotAddr i w) v
/-- A profile word other than word 8. -/
def State.profileWord (s : State) (c : CardId) (w : Nat) : Word := s.word (profileAddr c w)
def State.setProfileWord (s : State) (c : CardId) (w : Nat) (v : Word) : State := s.setWord (profileAddr c w) v

/-- The card slot `i` names, none if its card field is out of range. -/
def State.slotCard (s : State) (i : SlotId) : Option CardId := headerCard (s.slotWord i 1)

/-- A GET or AWAIT writes capture `n` of slot `i`; a word that would fall past capture 7 is not kept (R44). -/
def State.setCapture (s : State) (i : SlotId) (n : Nat) (v : Word) : State :=
  if n < 8 then s.setSlotWord i (8 + n) v else s

/-- A running job writes the detail word of its slot (R35). -/
def State.setDetail (s : State) (i : SlotId) (v : Word) : State := s.setSlotWord i 6 v

/-! ## The notice writer -/

/-- The eight notice kinds (8.4). -/
inductive NoticeKind where
  | jobDone | mark | unsolicited | cardArrived | cardRemoved | cardFaulted | requestRefused | standstill
  deriving DecidableEq, Repr

/-- 11.9. -/
def NoticeKind.code : NoticeKind → Nat
  | .jobDone => 1 | .mark => 2 | .unsolicited => 3 | .cardArrived => 4 | .cardRemoved => 5 | .cardFaulted => 6
  | .requestRefused => 7 | .standstill => 8

/-- What a block hands the notice writer: words 0 to 5 of an entry, by field (R167). -/
structure Notice where
  kind : NoticeKind
  card : Option CardId
  slot : Option SlotId
  jobSeq : Word
  code : Word
  valueA : Word
  valueB : Word
  deriving DecidableEq, Repr

/-- Word 0 of an entry: kind in bits 7:0, card or 15 in bits 11:8 (11.9). -/
def Notice.word0 (n : Notice) : Word :=
  wordOf (n.kind.code + 256 * (match n.card with | some c => c.val | none => 15))
/-- Word 1 of an entry: the slot, or 0x00FF (11.9). -/
def Notice.word1 (n : Notice) : Word :=
  match n.slot with
  | some i => wordOf i.val
  | none => 0x00FF

/-- The eight words of an entry, with the time and count the notice writer fills in (R167). -/
def Notice.entry (n : Notice) (time count : Word) : List Word :=
  [n.word0, n.word1, n.jobSeq, n.code, n.valueA, n.valueB, time, count]

/-- Write words from a byte address upward. -/
def State.setWords (s : State) (a : Nat) : List Word → State
  | [] => s
  | w :: ws => (s.setWord a w).setWords (a + 2) ws

/-- Notices in the list: produced − consumed modulo 65536 (R163). -/
def State.inList (s : State) : Nat := (s.produced - s.consumed).toNat

/-- Saturating increment (R166). -/
def satInc (w : Word) : Word := if w = 0xFFFF then w else w + 1

/-- The notice writer takes one notice, whole (R164): dropped uncounted in RESETTING and INITIALIZING (R176), lost if the list is
full (R166), posted otherwise (R165). -/
def State.post (s : State) (n : Notice) : State :=
  if s.engine.closed then s
  else if s.inList = Config.ringSize then { s with lost := satInc s.lost }
  else
    let t := s.setWords (noticeAddr s.produced.toNat 0) (n.entry s.msClock s.produced)
    { t with produced := t.produced + 1 }

/-! ## The write monitor -/

/-- A discarded host write is recorded (R184). -/
def State.discard (s : State) (a : Nat) : State :=
  { s with discardAddr := wordOf a, discardCount := s.discardCount + 1, statDiscard := true }

/-- A host write to the exchange memory by engine state (R182 step 1, R186): discarded uncounted in INITIALIZING, discarded and
counted in RESETTING, otherwise judged. -/
def State.hostAccess (s : State) (a : Nat) (judge : State → State) : State :=
  match s.engine with
  | .initializing => s
  | .resetting => s.discard a
  | .halted | .running | .draining | .standstill => judge s

/-! ## Refusals -/

/-- A refusal is counted in header word 9 and flagged in STAT (R189). -/
def State.countRefusal (s : State) : State := { s with refusedCount := s.refusedCount + 1, statRefused := true }

/-- The code of a reason that may be none (11.6). -/
def reasonCode : Option Reason → Word
  | none => 0
  | some r => r.code

/-- The card a REQUEST_REFUSED notice of slot `i` names: none if the slot is FREE (R16, R214). -/
def State.refusalCard (s : State) (i : SlotId) : Option CardId :=
  if (s.slot i).state = .free then none else s.slotCard i

/-- A refused slot request (R16). -/
def State.refuseRequest (s : State) (i : SlotId) (value : Word) (why : Option Reason) : State :=
  s.countRefusal.post
    { kind := .requestRefused, card := s.refusalCard i, slot := some i, jobSeq := s.slotWord i 7, code := value,
      valueA := (s.slot i).state.code, valueB := reasonCode why }

/-! ## The passage to DONE -/

/-- Write a slot word if the outcome calls for a new value. -/
def State.setSlotWord? (s : State) (i : SlotId) (w : Nat) : Option Word → State
  | some v => s.setSlotWord i w v
  | none => s

/-- A cancel notice naming a slot that has passed to DONE can reach no job any more (R13, log 19). -/
def Card.dropCancel (i : SlotId) (k : Card) : Card :=
  if k.cancelNotice = some i then { k with cancelNotice := none } else k

/-- Drop the cancel notice under way for slot `i` to the card it names. -/
def State.dropCancel (s : State) (i : SlotId) : State :=
  match s.slotCard i with
  | some c => s.updCard c (Card.dropCancel i)
  | none => s

/-- The passage of a slot to DONE without its notice (R20): word 6, word 5, word 4, then the state; cause none; the
acceptance-order list drops the slot (R56). -/
def State.passDone (s : State) (i : SlotId) (o : JobOutcome) (w5 w6 : Option Word) : State :=
  let t := (((s.setSlotWord? i 6 w6).setSlotWord? i 5 w5).setSlotWord i 4 o.code).setSlot i { state := .done, cause := none }
  ({ t with acceptOrder := t.acceptOrder.filter fun j => j ≠ i }).dropCancel i

/-- The JOB_DONE notice of a slot that has passed to DONE, where NOTIFY asks for it (R20). -/
def State.postJobDone (s : State) (i : SlotId) : State :=
  if headerNotify (s.slotWord i 1) then
    s.post { kind := .jobDone, card := s.slotCard i, slot := some i, jobSeq := s.slotWord i 7, code := s.slotWord i 4,
             valueA := s.slotWord i 5, valueB := s.slotWord i 6 }
  else s

/-- In DRAINING, the last slot in progress passing to DONE takes the engine to HALTED (R201). -/
def State.drainCheck (s : State) : State :=
  if s.engine = .draining && !s.anyInProgress then { s with engine := .halted } else s

/-- The end of a slot that was not in progress (FREE or FILED): passage, then notice. -/
def State.endWaiting (s : State) (i : SlotId) (o : JobOutcome) (w5 w6 : Option Word) : State :=
  (s.passDone i o w5 w6).postJobDone i

/-- The end of a slot that was in progress: passage, the engine's judgement, then notice (R20, R201). -/
def State.endInProgress (s : State) (i : SlotId) (o : JobOutcome) (w5 w6 : Option Word) : State :=
  (s.passDone i o w5 w6).drainCheck.postJobDone i

end Sys2Proof.Machine
end

