-- ==== Sys2Proof/Machine/Flags.lean ====
section
/-! DEFINITION. Views: what the host reads (header words, slot control word, card state word, the register window), INTR, and the
backplane lines the part drives. Nothing here changes the state (R179). -/

namespace Sys2Proof.Machine

/-! ## STAT, CTRL, INTR -/

/-- NOTICES_WAITING: produced differs from consumed (R175). -/
def State.noticesWaiting (s : State) : Bool := s.produced != s.consumed
/-- LOST_NONZERO: lost is not 0 (R175). -/
def State.lostNonzero (s : State) : Bool := s.lost != 0
/-- INTR (R175). -/
def State.intr (s : State) : Bool := s.ctrlInterrupt && (s.noticesWaiting || s.lostNonzero)

/-- A flag at a bit position of a word. -/
def flagAt (b : Bool) (n : Nat) : Word := if b then wordOf (2 ^ n) else 0

/-- STAT as read (11.10, R192, R215). -/
def State.statWord (s : State) : Word :=
  s.engine.code ||| flagAt s.noticesWaiting 4 ||| flagAt s.lostNonzero 5 ||| flagAt s.statDiscard 8
    ||| flagAt s.statRefused 9

/-- CTRL as read (11.10, R191, R215). -/
def State.ctrlWord (s : State) : Word :=
  flagAt s.ctrlRun 0 ||| flagAt s.ctrlPresence 1 ||| flagAt s.ctrlInterrupt 2

/-- A read of a window word, HA2 HA1 as a number (R177, R194); while RESET is asserted a read returns 0 (R197). -/
def State.windowRead (s : State) (position : Fin 4) : Word :=
  if s.resetPin then 0
  else if position = 0 then s.ctrlWord
  else if position = 1 then s.statWord
  else if position = 2 then Config.ident
  else 0

/-! ## The card state word -/

/-- The sense the attention unit works with (R122). -/
def Card.sense (k : Card) : Sense := k.profile.sense
/-- The read list the attention unit works with (R122). -/
def Card.readList (k : Card) : List Reg := k.profile.readList

/-- The pending flag: set exactly while the phase is WAITING, READING or HELD (R122). -/
def Card.pendingFlag (k : Card) : Bool := k.attnPhase != .quiet

/-- The card state word (11.4, R69): presence 1:0, pending 2, claimable 3, active slot 8:4 and 9, queue length 15:10. -/
def Card.stateWord (k : Card) : Word :=
  k.presence.code ||| flagAt k.pendingFlag 2 ||| flagAt k.claimable 3
    ||| (match k.activeSlot with | some i => wordOf (16 * i.val) ||| flagAt true 9 | none => 0)
    ||| wordOf (1024 * k.queue.length)

/-! ## Exchange reads -/

/-- Content of header word `n` (9.4). -/
def State.headerWord (s : State) (n : Nat) : Word :=
  if n = 2 then s.tally
  else if n = 3 then s.produced
  else if n = 4 then s.consumed
  else if n = 5 then s.lost
  else if n = 6 then s.acceptSeq
  else if n = 7 then s.engine.code
  else if n = 8 then s.msClock
  else if n = 9 then s.refusedCount
  else if n = 10 then s.discardCount
  else if n = 11 then s.discardAddr
  else s.word (2 * n)

/-- The content of the exchange memory at a word address: the views of header words, slot control words and card state words, and
the stored word anywhere else. -/
def State.content (s : State) (a : WordAddr) : Word :=
  let n := a.toNat
  if n < 16 then s.headerWord n
  else if h : n < 0x210 then
    if n % 16 = 0 then (s.slot ⟨(n - 16) / 16, by omega⟩).state.code else s.word (2 * n)
  else if h : n < 0x290 then
    if n % 16 = 8 then (s.card ⟨(n - 0x210) / 16, by omega⟩).stateWord else s.word (2 * n)
  else s.word (2 * n)

/-- A host read of the exchange memory: 0 while RESET is asserted and during INITIALIZING, the content otherwise (R179, R197). -/
def State.exchangeRead (s : State) (a : WordAddr) : Word :=
  if s.resetPin || s.engine = .initializing then 0 else s.content a

/-- What the selects and address lines of a host access name (R177): a word of the exchange memory by HMS, a position of the register
window by HWS, or, with both asserted, nothing. -/
inductive HostTarget where
  | exchange (address : WordAddr)
  | window (position : Fin 4)
  | bothSelects
  deriving DecidableEq, Repr

/-- What a host read returns (R177): an access with both selects asserted is not taken, and its read returns 0. -/
def State.hostRead (s : State) (target : HostTarget) : Word :=
  match target with
  | .exchange address => s.exchangeRead address
  | .window position => s.windowRead position
  | .bothSelects => 0

/-! ## The backplane lines -/

/-- What the two kind lines name (5.1). -/
inductive KindLines where
  | access | first | next | close
  deriving DecidableEq, Repr

/-- The kind lines of a request (the table of tenures, R80). -/
def Request.kindLines (r : Request) : KindLines :=
  match r.kind with
  | .registerWrite | .registerRead | .attentionRead => .access
  | .burstOut | .burstIn => if r.opening then .first else .next
  | .checkOut | .checkIn | .abandon => .close

/-- KIND1 and KIND0 (11.5). -/
def KindLines.code : KindLines → Nat
  | .access => 0 | .first => 1 | .next => 2 | .close => 3

/-- A kind whose strobes are WR. -/
def TenureKind.writes : TenureKind → Bool
  | .registerWrite | .burstOut | .checkOut => true
  | .registerRead | .attentionRead | .burstIn | .checkIn | .abandon => false

/-- A kind whose strobes are RD. -/
def TenureKind.reads : TenureKind → Bool
  | .registerRead | .attentionRead | .burstIn | .checkIn => true
  | .registerWrite | .burstOut | .checkOut | .abandon => false

/-- The register on RS0–RS5: of an attention read the one of the strobe in progress, of any other tenure its one (R97, R105). -/
def Tenure.reg (t : Tenure) : Reg :=
  match t.req.kind with
  | .attentionRead => t.req.regs.getD t.strobe 0
  | .registerWrite | .registerRead | .burstOut | .burstIn | .checkOut | .checkIn | .abandon => t.req.regs.headD 0

/-- A strobe is held. -/
def Tenure.strobing (t : Tenure) : Bool := t.phase != .recovery

/-- The tenure still drives its lines: it has not been cut (R111). -/
def Tenure.driving (t : Tenure) : Bool := t.mark != .cut

/-- SEL0–SEL7 (R97). -/
def State.sel (s : State) (c : CardId) : Bool :=
  match s.tenure with
  | some t => t.driving && t.req.card = c
  | none => false

/-- RD (R98). -/
def State.rdLine (s : State) : Bool :=
  match s.tenure with
  | some t => t.driving && t.strobing && t.req.kind.reads
  | none => false

/-- WR (R98). -/
def State.wrLine (s : State) : Bool :=
  match s.tenure with
  | some t => t.driving && t.strobing && t.req.kind.writes
  | none => false

/-- The kind lines, none when not driven (R97). -/
def State.kindOut (s : State) : Option KindLines :=
  match s.tenure with
  | some t => if t.driving then some t.req.kindLines else none
  | none => none

/-- RS0–RS5, none when not driven (R97). -/
def State.rsOut (s : State) : Option Reg :=
  match s.tenure with
  | some t => if t.driving then some t.reg else none
  | none => none

/-- D0–D15 as the part drives them: from a WR strobe's start to its release (R98). -/
def State.dataOut (s : State) : Option Word :=
  match s.tenure with
  | some t => if t.driving && t.strobing && t.req.kind.writes then some t.driven else none
  | none => none

/-- CRST0–CRST7 (R142). -/
def State.crstLine (s : State) (c : CardId) : Bool := (s.card c).crst

end Sys2Proof.Machine
end

