-- ==== Sys2Proof/Machine/Attention.lean ====
section
/-! DEFINITION. The attention unit without its hand-over to a sequencer: detector, re-arm, claimable flag, snapshot, and the acts
at a latch, a pulse, a fault and a removal (6.2–6.6). -/

namespace Sys2Proof.Machine

/-- The active level of a level sense (R125). -/
def Sense.activeLevel : Sense → Option Bool
  | .levelHigh => some true
  | .levelLow => some false
  | .off | .rising | .falling => none

/-- The detector a re-arm leaves, from the sense and the line's level (R126). -/
def rearmed (sense : Sense) (line : Bool) : Detector :=
  match sense with
  | .off => .disarmed
  | .rising | .falling => .armed
  | .levelHigh => if line then .masked else .armed
  | .levelLow => if line then .armed else .masked

/-- A re-arm: the line's present level is the baseline; a card not READY stays DISARMED (R126). -/
def Card.rearm (k : Card) : Card :=
  { k with baseline := k.atnLine, detector := if k.presence = .ready then rearmed k.sense k.atnLine else .disarmed }

/-- A change of the line to `level` is a detection (R124, R125). -/
def Card.detects (k : Card) (level : Bool) : Bool :=
  k.detector = .armed &&
    match k.sense with
    | .off => false
    | .rising => level && !k.baseline
    | .falling => !level && k.baseline
    | .levelHigh => level
    | .levelLow => !level

/-- The detector and baseline after a change of the line to `level` (R124, R125): a level detector passes to MASKED at the active
level and back to ARMED when the line leaves it. -/
def Card.takeLine (k : Card) (level : Bool) : Card :=
  let d :=
    match k.sense.activeLevel with
    | some act =>
      if k.detector = .armed && level == act then Detector.masked
      else if k.detector = .masked && level != act then Detector.armed
      else k.detector
    | none => k.detector
  { k with atnLine := level, baseline := level, detector := d }

/-- Word 14 is incremented (R123). -/
def State.countUnclaimed (s : State) (c : CardId) : State := s.setProfileWord c 14 (s.profileWord c 14 + 1)
/-- Word 13 is incremented (R123). -/
def State.countCompleted (s : State) (c : CardId) : State := s.setProfileWord c 13 (s.profileWord c 13 + 1)

/-- The claimable flag is cleared and, where it was set, counted in word 14 (R135). -/
def State.clearClaimable (s : State) (c : CardId) : State :=
  if (s.card c).claimable then (s.countUnclaimed c).updCard c fun k => { k with claimable := false } else s

/-- The values of an attention read go to the snapshot words of their positions in the list (R131, R139). -/
def State.writeSnapshot (s : State) (c : CardId) (values : List Word) : State :=
  s.setWords (profileAddr c 9) (values.take 4)

/-- The UNSOLICITED_ATTENTION notice with the snapshot as it stands (R132 case 3). -/
def State.postUnsolicited (s : State) (c : CardId) : State :=
  s.post { kind := .unsolicited, card := some c, slot := none, jobSeq := 0, code := 0, valueA := s.profileWord c 9,
           valueB := s.profileWord c 10 }

/-- The end of a read takes the phase to QUIET; a newer attention detected meanwhile stays pending (R131, R136, log 18). -/
def Card.readOver (k : Card) : Card := if k.attnPhase = .reading then { k with attnPhase := .quiet } else k

/-- An attention disposed of with a job that does not wait for it: claimable is set, and an earlier one it stood for is counted
unclaimed (R132 case 2). -/
def State.disposeToJob (s : State) (c : CardId) : State :=
  let t := if (s.card c).claimable then s.countUnclaimed c else s
  t.updCard c fun k => { k.readOver with claimable := true }

/-- An attention disposed of with no active slot (R132 case 3). -/
def State.disposeUnsolicited (s : State) (c : CardId) : State :=
  ((s.countUnclaimed c).updCard c Card.readOver).postUnsolicited c

/-- A void read that ended with its values (R136). -/
def State.completeVoid (s : State) (c : CardId) (values : List Word) : State :=
  let t := (s.writeSnapshot c values).countCompleted c
  ((t.countUnclaimed c).updCard c fun k => { k with voidRead := false }).postUnsolicited c

/-- The request of an attention read for the card's read list (R127). -/
def attentionRequest (c : CardId) (regs : List Reg) : Request :=
  { card := c, kind := .attentionRead, regs := regs, count := regs.length, data := 0, opening := false }

/-- The pulse's start at the attention unit (R138). -/
def Card.attnPulseStart (k : Card) : Card :=
  if k.attnPhase = .waiting then { k with detector := .disarmed, attnReq := none, attnPhase := .held }
  else { k with detector := .disarmed }

/-- A fault of the card as the attention unit takes it before word 8 is rewritten: after a faulted attention read the phase is
QUIET, with no request and no void mark (R139 act 3); after a fault of a job tenure a waiting attention is dropped (R140). -/
def Card.attnFault (k : Card) (attentionRead : Bool) : Card :=
  if attentionRead then { k with detector := .disarmed, attnPhase := .quiet, attnReq := none, voidRead := false }
  else if k.attnPhase = .waiting then { k with detector := .disarmed, attnPhase := .quiet, attnReq := none }
  else { k with detector := .disarmed }

/-- Pending flag, void mark, request and detector as removal and engine reset leave them (R141). -/
def Card.attnClear (k : Card) : Card :=
  { k with detector := .disarmed, attnPhase := .quiet, attnReq := none, voidRead := false }

/-- A latch with another sense, at the card's attention phase (R136): the re-arm follows. -/
def Card.latchNewSense (k : Card) : Card :=
  match k.attnPhase with
  | .waiting => { k with attnReq := none, attnPhase := .quiet }.rearm
  | .reading => { k with voidRead := true, attnPhase := .quiet }.rearm
  | .quiet | .held => k.rearm

end Sys2Proof.Machine
end

