-- ==== Sys2Proof/Machine/Leases.lean ====
section
/-! DEFINITION. The lease table (4.2, R75–R79, R91). -/

namespace Sys2Proof.Machine

/-- Page `p` lies among `count` pages from `first`. -/
def inPages (first count : Nat) (p : PageId) : Bool := first ≤ p.val && p.val < first + count

/-- Every named page has the entry none (R76). -/
def State.pagesFree (s : State) (first count : Nat) : Bool :=
  allPages.all fun p => !inPages first count p || s.pageHolder.get p = none

/-- The table writes the slot's number into each named entry and sets its breach record to none (R76). -/
def State.holdPages (s : State) (i : SlotId) (first count : Nat) : State :=
  { s with pageHolder := tab fun p => if inPages first count p then some i else s.pageHolder.get p
           breach := upd s.breach i none }

/-- Slot `a` stands nearer the head of the acceptance-order list than slot `b` (R56). -/
def State.older (s : State) (a b : SlotId) : Bool := s.acceptOrder.idxOf a < s.acceptOrder.idxOf b

/-- The place of a request in the waiting list is its slot's in the acceptance-order list (R76). -/
def State.waitLease (s : State) (r : LeaseRequest) : State :=
  let ahead := fun q : LeaseRequest => s.older q.slot r.slot
  { s with leaseWaiting := s.leaseWaiting.takeWhile ahead ++ r :: s.leaseWaiting.dropWhile ahead }

/-- The examination grants a waiting request: it takes its pages and leaves the list, and the grant is under way to the card's
sequencer (R77, R78). -/
def State.grantWaiting (s : State) (r : LeaseRequest) : State :=
  let t := s.holdPages r.slot r.first r.count
  ({ t with leaseWaiting := t.leaseWaiting.filter fun q => q.slot ≠ r.slot }).updCard r.card fun k =>
    { k with leaseGrant := true }

/-- The examination of the waiting list, from its head to its tail (R77 step 3). -/
def examineLeases : List LeaseRequest → State → State
  | [], s => s
  | r :: rest, s => examineLeases rest (if s.pagesFree r.first r.count then s.grantWaiting r else s)

/-- Steps 1 and 2 of a release (R77). -/
def State.freePages (s : State) (i : SlotId) : State :=
  { s with pageHolder := tab fun p => if s.pageHolder.get p = some i then none else s.pageHolder.get p
           breach := upd s.breach i none }

/-- The release of a slot's leases (R77). -/
def State.releaseLeases (s : State) (i : SlotId) : State := examineLeases s.leaseWaiting (s.freePages i)

/-- A stream step of card `c`, slot `i`, gives up its lease or its request: a request that still waits is withdrawn and starts no
examination, anything else is released (R77, R79). -/
def State.dropLease (s : State) (c : CardId) (i : SlotId) : State :=
  let t :=
    if s.leaseWaiting.any fun q => q.slot = i then
      { s with leaseWaiting := s.leaseWaiting.filter fun q => q.slot ≠ i }
    else s.releaseLeases i
  t.updCard c fun k => { k with leaseGrant := false }

/-- The page of a byte address of the data pages (R183). -/
def pageOf (a : Nat) : PageId := ⟨(a - Config.pageBase) / 128 % 128, by omega⟩

/-- A host write into a data page reaches the lease table (R91). -/
def State.reportPageWrite (s : State) (p : PageId) : State :=
  match s.pageHolder.get p with
  | some i => if s.breach.get i = none then { s with breach := upd s.breach i (some p) } else s
  | none => s

end Sys2Proof.Machine
end

