-- ==== Sys2Proof/Machine/Sequencer.lean ====
section
/-! DEFINITION. The card sequencer: fetch, revalidation, the start of each step kind, completion, the step boundary, and the end of
a job's run (chapter Steps; R72–R80 for the start of a stream step; R156 for the start of a pulse). -/

namespace Sys2Proof.Machine

/-- The sequencer returns to IDLE (R26, R32). What the list address, step count and attempt count hold afterwards the spec leaves open;
they keep their values (DESIGN CHOICE, log 15). -/
def Sequencer.toIdle (q : Sequencer) : Sequencer :=
  { q with active := none, stepIndex := 0, copy := none, phase := .idle, stop := false }

/-- The card's sequencer is in the given phase with an active slot. -/
def Card.runningIn (k : Card) (p : SeqPhase) : Bool := k.seq.active.isSome && k.seq.phase = p

/-- The step copy, a record of zeros when there is none. -/
def Sequencer.record (q : Sequencer) : StepRecord := q.copy.getD { w0 := 0, w1 := 0, w2 := 0, w3 := 0 }

/-- The current step copy of a card. -/
def State.record (s : State) (c : CardId) : StepRecord := (s.card c).seq.record

/-- Change a card's sequencer. -/
def State.updSeq (s : State) (c : CardId) (f : Sequencer → Sequencer) : State :=
  s.updCard c fun k => { k with seq := f k.seq }

/-- Change a card's stream record. -/
def State.updStream (s : State) (c : CardId) (f : StreamRec → StreamRec) : State :=
  s.updCard c fun k => { k with stream := k.stream.map f }

/-! ## The end of a job's run -/

/-- The sequencer makes its end report and returns to IDLE (R32); it holds no request and no stream record after it. -/
def Card.report (e : Ending) (steps : Nat) (k : Card) : Card :=
  match k.seq.active with
  | some i =>
    { k with endReport := some { slot := i, ending := e, stepsDone := steps }, seq := k.seq.toIdle, jobReq := none
             stream := none }
  | none => k

/-- What a stream step in progress holds in the lease table is given up (R33, R96). -/
def State.dropStream (s : State) (c : CardId) : State :=
  match (s.card c).seq.active, (s.card c).stream with
  | some i, some _ => (s.dropLease c i).updCard c fun k => { k with stream := none }
  | _, _ => s

/-- A job's run ends: the request is withdrawn, the leases are released, then the report is made (R32, R33). Steps done is the step
index: the steps completed. -/
def State.endJob (s : State) (c : CardId) (e : Ending) : State :=
  (s.dropStream c).updCard c fun k => k.report e k.seq.stepIndex

/-- A step fails (R33). -/
def State.failJob (s : State) (c : CardId) (o : JobOutcome) (detail : Option Word) : State :=
  s.endJob c (.failure o detail)

/-- A step fails with a detail that is handed to slot intake for word 6 before the report (R33, R44, R85–R90). -/
def State.failWithDetail (s : State) (c : CardId) (o : JobOutcome) (detail : Word) : State :=
  match (s.card c).seq.active with
  | some i => (s.setDetail i detail).failJob c o (some detail)
  | none => s

/-! ## The step boundary -/

/-- A step completes and the boundary is taken (R31): word 5 counts the step, the index rises; the flag says that the job goes on
to its next step. -/
def State.boundary (s : State) (c : CardId) : State × Bool :=
  match (s.card c).seq.active with
  | none => (s, false)
  | some i =>
    let done := (s.card c).seq.stepIndex + 1
    let t := (s.setSlotWord i 5 (wordOf done)).updSeq c fun q => { q with stepIndex := done }
    if (s.card c).seq.stepCount ≤ done then (t.endJob c .complete, false)
    else if (s.card c).seq.stop then (t.endJob c .stopped, false)
    else (t, true)

/-! ## Tenure requests -/

/-- The sequencer enters BUS_WAIT and hands the arbiter a request (R36). -/
def State.requestJob (s : State) (c : CardId) (kind : TenureKind) (count : Nat) (data : Word) (opening : Bool) : State :=
  s.updCard c fun k =>
    { k with jobReq := some { card := c, kind := kind, regs := [k.seq.record.reg], count := count, data := data
                              opening := opening }
             seq := { k.seq with phase := .busWait } }

/-- Words of burst `b` of a stream of `n` words (R73). -/
def burstWords (n b : Nat) : Nat := min Config.pageWords (n - Config.pageWords * b)
/-- Bursts of a stream of `n` words (R73). -/
def burstCount (n : Nat) : Nat := (n + (Config.pageWords - 1)) / Config.pageWords

/-- The burst tenure kind of a direction (R80). -/
def StreamDir.burstKind : StreamDir → TenureKind
  | .into => .burstIn
  | .out => .burstOut

/-- Request burst `b` (R80). -/
def State.requestBurst (s : State) (c : CardId) (dir : StreamDir) (b : Nat) : State :=
  s.requestJob c dir.burstKind (burstWords (s.record c).wordCount b) 0 (b == 0)

/-- The stage becomes ABANDONING and one abandon tenure is requested (R93). -/
def State.beginAbandon (s : State) (c : CardId) (why : AbandonReason) : State :=
  (s.updStream c fun m => { m with stage := .abandoning why }).requestJob c .abandon 0 0 false

/-! ## AWAIT -/

/-- Snapshot words `j` and on go to captures while words remain (R44 step 1). -/
def State.copySnapshot (s : State) (c : CardId) (i : SlotId) (base : Nat) : List Nat → State
  | [] => s
  | j :: js => (s.setCapture i (base + j) (s.profileWord c (9 + j))).copySnapshot c i base js

/-- An AWAIT consumes an attention (R44): captures, then the mask test. The flag says that the step completes; otherwise it has
failed with AWAIT_MISMATCH. -/
def State.awaitConsume (s : State) (c : CardId) : State × Bool :=
  match (s.card c).seq.active with
  | none => (s, false)
  | some i =>
    let r := s.record c
    let t := s.copySnapshot c i r.captureBase (List.range (s.card c).profile.readCount)
    let v := t.profileWord c 9
    if r.w2 = 0 || (v &&& r.w2) = r.w3 then (t, true) else (t.failWithDetail c .awaitMismatch v, false)

/-! ## The start of a step -/

/-- The fetch reads the four words of a record, word 0 first (R28). -/
def State.readRecord (s : State) (a : Nat) : StepRecord :=
  { w0 := s.word a, w1 := s.word (a + 2), w2 := s.word (a + 4), w3 := s.word (a + 6) }

/-- The record a stream step starts with (R74). -/
def StreamRec.start (dir : StreamDir) : StreamRec :=
  { stage := .leasing, dir := dir, nextBurst := 0, wordsMoved := 0, check := 0, begun := false }

/-- A grant takes the step to BURSTING with burst 0 requested (R78). -/
def State.beginBursts (s : State) (c : CardId) (dir : StreamDir) : State :=
  (s.updStream c fun m => { m with stage := .bursting }).requestBurst c dir 0

/-- A stream step begins: its record is created and its pages are asked for (R74, R76). -/
def State.startStream (s : State) (c : CardId) (i : SlotId) (dir : StreamDir) : State :=
  let r := s.record c
  let t := s.updCard c fun k => { k with stream := some (StreamRec.start dir), leaseGrant := false }
  if t.pagesFree r.firstPage r.pageCount then (t.holdPages i r.firstPage r.pageCount).beginBursts c dir
  else
    (t.waitLease { slot := i, card := c, first := r.firstPage, count := r.pageCount }).updSeq c fun q =>
      { q with phase := .leaseWait }

/-- A PULSE begins (R156): PULSING, CRST asserted, the attention unit's acts of R138. -/
def State.startPulse (s : State) (c : CardId) : State :=
  s.updCard c fun k => { k.attnPulseStart with crst := true, seq := { k.seq with phase := .pulsing } }

/-- A MARK hands the notice writer its notice (R49). -/
def State.postMark (s : State) (c : CardId) (i : SlotId) : State :=
  s.post { kind := .mark, card := some c, slot := some i, jobSeq := s.slotWord i 7, code := 0, valueA := (s.record c).w1,
           valueB := wordOf (s.card c).seq.stepIndex }

/-- An AWAIT begins (R43, R133): a claimable attention is consumed at once, otherwise the sequencer waits. -/
def State.startAwait (s : State) (c : CardId) : State × Bool :=
  if (s.card c).claimable then (s.updCard c fun k => { k with claimable := false }).awaitConsume c
  else (s.updSeq c fun q => { q with phase := .attentionWait }, false)

/-- A valid step begins in the first phase of its kind (R29). The flag says that it has completed already. -/
def State.beginKind (s : State) (c : CardId) (i : SlotId) (kind : StepKind) : State × Bool :=
  match kind with
  | .put => (s.requestJob c .registerWrite 1 (s.record c).w1 false, false)
  | .get => (s.requestJob c .registerRead 1 0 false, false)
  | .poll => ((s.updSeq c fun q => { q with attempts := 0 }).requestJob c .registerRead 1 0 false, false)
  | .await => s.startAwait c
  | .pause => (s.updSeq c fun q => { q with phase := .timedWait }, false)
  | .mark => (s.postMark c i, true)
  | .pulse => (s.startPulse c, false)
  | .streamIn => (s.startStream c i .into, false)
  | .streamOut => (s.startStream c i .out, false)

/-- A step begins: fetch (R28), revalidation (R29), and the first phase of its kind. The flag says that it has completed already. -/
def State.startStep (s : State) (c : CardId) : State × Bool :=
  match (s.card c).seq.active with
  | none => (s, false)
  | some i =>
    let q := (s.card c).seq
    let r := s.readRecord (q.listAddr.toNat + 8 * q.stepIndex)
    let t := s.updSeq c fun q => { q with copy := some r }
    match r.invalid, r.kind with
    | none, some kind => t.beginKind c i kind
    | some why, _ => (t.failJob c .stepInvalid (some why.code), false)
    | none, none => (t, false)

/-- Steps run one after another as long as each completes as it begins (R31: MARK, and an AWAIT that finds an attention). The
number is the steps that remain, so it never cuts a run short. -/
def runSteps : Nat → CardId → State → State
  | 0, _, s => s
  | n + 1, c, s =>
    match s.startStep c with
    | (t, false) => t
    | (t, true) =>
      match t.boundary c with
      | (u, true) => runSteps n c u
      | (u, false) => u

/-- The steps of a card's job that remain to be begun. -/
def State.stepsLeft (s : State) (c : CardId) : Nat := (s.card c).seq.stepCount - (s.card c).seq.stepIndex

/-- The step in flight completes, the boundary is taken, and the job goes on (R31). -/
def State.finishStep (s : State) (c : CardId) : State :=
  match s.boundary c with
  | (t, true) => runSteps (t.stepsLeft c) c t
  | (t, false) => t

/-- An attention is handed to the AWAIT that waits for it (R44). -/
def State.awaitHandOver (s : State) (c : CardId) : State :=
  match s.awaitConsume c with
  | (t, true) => t.finishStep c
  | (t, false) => t

end Sys2Proof.Machine
end

