-- ==== Sys2Proof/Machine/Bus.lean ====
section
/-! DEFINITION. The bus arbiter and the bus controller's strobes (chapter The backplane bus): BUS_GRANT, STROBE_WIDTH_END, RDY_RISE,
STROBE_RECOVERY_END, STALL_TIMEOUT, RECOVERY_WIDTH_END, and the ends of register tenures. -/

namespace Sys2Proof.Machine

/-! ## Grants -/

/-- The bus is free (R116). -/
def State.busFree (s : State) : Bool := s.tenure.isNone && !s.engine.closed

/-- The first card that wants the bus, from the one after `last` round to `last` itself (R117). -/
def roundRobin (last : CardId) (wants : CardId → Bool) : Option CardId :=
  (allCards.map fun i => last + 1 + i).find? wants

/-- A kind that is a burst. -/
def TenureKind.isBurst : TenureKind → Bool
  | .burstOut | .burstIn => true
  | .registerWrite | .registerRead | .attentionRead | .checkOut | .checkIn | .abandon => false

/-- Byte address of stream word `j` of a card's stream step (R72). A valid copy names pages 0–127 only (R9), so the stream stays in
the data pages. -/
def State.streamAddr (s : State) (c : CardId) (j : Nat) : Nat :=
  Config.pageBase + (128 * (s.record c).firstPage + 2 * j) % 0x4000

/-- Words moved so far by the card's stream step (R74). -/
def Card.wordsMoved (k : Card) : Nat := (k.stream.map StreamRec.wordsMoved).getD 0

/-- The stream word a burst out drives next (R81). -/
def State.streamWord (s : State) (c : CardId) : Word := s.word (s.streamAddr c (s.card c).wordsMoved)

/-- The word the part drives on D0–D15 for the strobe about to begin: the stream word of a burst out, read from its page now
(R81), and the request's own word otherwise (R103, R108). -/
def State.wordToDrive (s : State) (r : Request) : Word := if r.kind = .burstOut then s.streamWord r.card else r.data

/-- The bus controller takes a granted request: timing copied from the latched profile as it stands (R97), first strobe begun, or,
for an abandon tenure, its one recovery width (R109). -/
def State.beginTenure (s : State) (r : Request) : State :=
  { s with tenure := some { req := r, timing := (s.card r.card).profile.timing
                            phase := if r.kind = .abandon then .recovery else .strobe
                            mark := .going, strobe := 0, moved := 0, values := [], driven := s.wordToDrive r } }

/-- The arbiter grants a card's attention read: the phase passes to READING (R117, R129). -/
def State.grantAttention (s : State) (c : CardId) (r : Request) : State :=
  { (s.beginTenure r).updCard c fun k => { k with attnReq := none, attnPhase := .reading } with attnPtr := c }

/-- The arbiter grants a card's job tenure: the sequencer enters TENURE, and a burst opens the stream (R36, R80, R117). -/
def State.grantJob (s : State) (c : CardId) (r : Request) : State :=
  { (s.beginTenure r).updCard c fun k =>
      { k with jobReq := none, seq := { k.seq with phase := .tenure }
               stream := if r.kind.isBurst then k.stream.map fun m => { m with begun := true } else k.stream }
    with jobPtr := c }

/-- The arbiter's choice on the attention side (R117). -/
def State.attentionChoice (s : State) : Option CardId := roundRobin s.attnPtr fun c => (s.card c).attnReq.isSome
/-- The arbiter's choice on the job side (R117). -/
def State.jobChoice (s : State) : Option CardId := roundRobin s.jobPtr fun c => (s.card c).jobReq.isSome

/-- One grant with the bus free: attention side first (R117). -/
def State.grantBus (s : State) : State :=
  if s.busFree then
    match s.attentionChoice with
    | some c =>
      match (s.card c).attnReq with
      | some r => s.grantAttention c r
      | none => s
    | none =>
      match s.jobChoice with
      | some c =>
        match (s.card c).jobReq with
        | some r => s.grantJob c r
        | none => s
      | none => s
  else s

/-! ## Strobes -/

/-- Strobes of a tenure (R97, the table of tenures). -/
def Request.strobes (r : Request) : Nat :=
  match r.kind with
  | .attentionRead => r.regs.length
  | .burstOut | .burstIn => r.count
  | .registerWrite | .registerRead | .checkOut | .checkIn => 1
  | .abandon => 0

/-- The running check takes a word: rotate left by one, then exclusive OR (R84). -/
def foldCheck (check w : Word) : Word := check.rotateLeft 1 ^^^ w

/-- The stream unit counts a moved word and folds it into the check (R81, R82, R84). -/
def StreamRec.move (w : Word) (m : StreamRec) : StreamRec :=
  { m with wordsMoved := m.wordsMoved + 1, check := foldCheck m.check w }

/-- A word of a burst out has crossed (R81). -/
def State.moveOut (s : State) (c : CardId) (w : Word) : State := s.updStream c (StreamRec.move w)
/-- A word of a burst in has crossed: written into its page, counted, folded (R82). -/
def State.moveIn (s : State) (c : CardId) (w : Word) : State :=
  (s.setWord (s.streamAddr c (s.card c).wordsMoved) w).updStream c (StreamRec.move w)

/-- The tenure in flight is replaced. -/
def State.setTenure (s : State) (t : Tenure) : State := { s with tenure := some t }

/-- A strobe is released normally with STOP and D0–D15 as given (R98, R102): read values are kept, a burst word moves unless STOP is
asserted, a check word is refused by STOP, and the recovery width begins. -/
def State.releaseStrobe (s : State) (t : Tenure) (stop : Bool) (data : Word) : State :=
  let u := { t with phase := TenurePhase.recovery }
  match t.req.kind with
  | .registerWrite | .abandon => s.setTenure u
  | .registerRead | .attentionRead | .checkIn => s.setTenure { u with values := t.values ++ [data] }
  | .checkOut => s.setTenure { u with mark := if stop then .refused else .going }
  | .burstOut =>
    if stop then s.setTenure { u with mark := .stopped }
    else (s.moveOut t.req.card t.driven).setTenure { u with moved := t.moved + 1 }
  | .burstIn =>
    if stop then s.setTenure { u with mark := .stopped }
    else (s.moveIn t.req.card data).setTenure { u with moved := t.moved + 1 }

/-- A strobe held, of a tenure going on, in the given phase. -/
def Tenure.held (t : Tenure) (p : TenurePhase) : Bool := t.phase = p && t.mark = .going

/-- STROBE_WIDTH_END: RDY high releases the strobe, RDY low stretches it (R98). -/
def State.strobeWidthEnd (s : State) (rdy stop : Bool) (data : Word) : State :=
  match s.tenure with
  | some t =>
    if t.held .strobe then
      if rdy then s.releaseStrobe t stop data else s.setTenure { t with phase := .stretch }
    else s
  | none => s

/-- RDY_RISE on a stretched strobe (R98, R100). -/
def State.rdyRise (s : State) (stop : Bool) (data : Word) : State :=
  match s.tenure with
  | some t => if t.held .stretch then s.releaseStrobe t stop data else s
  | none => s

/-- STALL_TIMEOUT: a stretched burst strobe is released, its word not moved, and the burst will end with STALL (R101). -/
def State.stallTimeout (s : State) : State :=
  match s.tenure with
  | some t =>
    if t.held .stretch && t.req.kind.isBurst then s.setTenure { t with phase := .recovery, mark := .stalled } else s
  | none => s

/-- A tenure going on whose last strobe has been released. -/
def Tenure.over (t : Tenure) : Bool := t.held .recovery && t.req.strobes ≤ t.strobe + 1

/-- STROBE_RECOVERY_END: the next strobe of the tenure begins (R99), with the next word of a burst out (R81). -/
def State.strobeRecoveryEnd (s : State) : State :=
  match s.tenure with
  | some t =>
    if t.held .recovery && t.strobe + 1 < t.req.strobes then
      s.setTenure { t with strobe := t.strobe + 1, phase := .strobe, driven := s.wordToDrive t.req }
    else s
  | none => s

/-- RECOVERY_WIDTH_END after a cut or a bus fault: the bus is free, and an engine reset that waited for it pulses BCLR
(R111, R112, R208 step 3). -/
def State.recoveryWidthEnd (s : State) : State :=
  match s.tenure with
  | some t =>
    if t.phase = .recovery && (t.mark = .cut || t.mark = .faulted) then
      { s with tenure := none, bclr := s.bclr || s.engine = .resetting }
    else s
  | none => s

/-- Cut the tenure in flight (R111): every line is released and the record stays for one recovery width. -/
def Tenure.cut (t : Tenure) : Tenure := { t with phase := .recovery, mark := .cut }

/-! ## The ends of register tenures -/

/-- The tenure of a job ends if it satisfies `p`: the bus is free (R116), and the sequencer, in TENURE, takes the result. -/
def State.jobTenureEnd (s : State) (p : Tenure → Bool) (take : Tenure → SlotId → State → State) : State :=
  match s.tenure with
  | some t =>
    if p t then
      let u := { s with tenure := none }
      match (s.card t.req.card).seq.active, (s.card t.req.card).seq.phase with
      | some i, .tenure => take t i u
      | _, _ => u
    else s
  | none => s

/-- REGISTER_WRITE_END: the PUT completes (R38, R103). -/
def State.registerWriteEnd (s : State) : State :=
  s.jobTenureEnd (fun t => t.over && t.req.kind = .registerWrite) fun t _ u => u.finishStep t.req.card

/-- A POLL judges the value read (R40, R41, R42). -/
def State.judgePoll (s : State) (c : CardId) (i : SlotId) (v : Word) : State :=
  let r := s.record c
  let n := (s.card c).seq.attempts + 1
  let t := (s.updSeq c fun q => { q with attempts := n }).setDetail i v
  if (v &&& r.w1) = r.w2 then t.finishStep c
  else if n < r.attempts then
    if (s.card c).seq.stop then t.endJob c .stopped else t.updSeq c fun q => { q with phase := .timedWait }
  else t.failJob c .pollExhausted (some v)

/-- A GET captures the value read and completes (R39). -/
def State.captureGet (s : State) (c : CardId) (i : SlotId) (v : Word) : State :=
  (s.setCapture i (s.record c).captureIndex v).finishStep c

/-- REGISTER_READ_END: the value goes to a POLL's judgement or a GET's capture (R39, R40, R104). -/
def State.registerReadEnd (s : State) : State :=
  s.jobTenureEnd (fun t => t.over && t.req.kind = .registerRead) fun t i u =>
    let v := t.values.headD 0
    if (u.record t.req.card).kind = some .poll then u.judgePoll t.req.card i v else u.captureGet t.req.card i v

/-! ## Meanings -/

/-- BUS_GRANT (R116, R117). -/
def execBusGrant (s : State) : Host.Outcome State Fault Refusal := .next s.grantBus
/-- STROBE_WIDTH_END (R98). -/
def execStrobeWidthEnd (rdy stop : Bool) (data : Word) (s : State) : Host.Outcome State Fault Refusal :=
  .next (s.strobeWidthEnd rdy stop data)
/-- RDY_RISE (R98). -/
def execRdyRise (stop : Bool) (data : Word) (s : State) : Host.Outcome State Fault Refusal := .next (s.rdyRise stop data)
/-- STROBE_RECOVERY_END (R99). -/
def execStrobeRecoveryEnd (s : State) : Host.Outcome State Fault Refusal := .next s.strobeRecoveryEnd
/-- STALL_TIMEOUT (R101). -/
def execStallTimeout (s : State) : Host.Outcome State Fault Refusal := .next s.stallTimeout
/-- RECOVERY_WIDTH_END (R111). -/
def execRecoveryWidthEnd (s : State) : Host.Outcome State Fault Refusal := .next s.recoveryWidthEnd
/-- REGISTER_WRITE_END (R103). -/
def execRegisterWriteEnd (s : State) : Host.Outcome State Fault Refusal := .next s.registerWriteEnd
/-- REGISTER_READ_END (R104). -/
def execRegisterReadEnd (s : State) : Host.Outcome State Fault Refusal := .next s.registerReadEnd

end Sys2Proof.Machine
end

