-- ==== Sys2Proof/Machine/Attending.lean ====
section
/-! DEFINITION. Detection, completion and disposition of attentions: ATN_CHANGE and ATTENTION_READ_END (6.2–6.4). -/

namespace Sys2Proof.Machine

/-- A completed attention is disposed of by what the card's sequencer is doing (R132). -/
def State.dispose (s : State) (c : CardId) : State :=
  if (s.card c).seq.phase = .attentionWait then (s.updCard c Card.readOver).awaitHandOver c
  else if (s.card c).activeSlot.isSome then s.disposeToJob c
  else s.disposeUnsolicited c

/-- An attention completes with the values read (R131): snapshot, word 13, disposition. -/
def State.completeAttention (s : State) (c : CardId) (values : List Word) : State :=
  ((s.writeSnapshot c values).countCompleted c).dispose c

/-- A detection, by the card's attention phase (R127, R128). -/
def State.detection (s : State) (c : CardId) : State :=
  if (s.card c).attnPhase = .quiet then
    if (s.card c).readList = [] then s.completeAttention c []
    else
      s.updCard c fun k => { k with attnPhase := .waiting, attnReq := some (attentionRequest c k.readList) }
  else s

/-- ATN_CHANGE: the line takes a level. The detector runs in HALTED, RUNNING, DRAINING and STANDSTILL (R124–R126); in the other
states only the pin moves (log 16). -/
def State.atnChange (s : State) (c : CardId) (level : Bool) : State :=
  if (s.card c).atnLine = level then s
  else if s.engine.closed then s.updCard c fun k => { k with atnLine := level }
  else
    let t := s.updCard c fun k => k.takeLine level
    if (s.card c).detects level then t.detection c else t

/-- ATTENTION_READ_END: the read's values complete the attention (R130), or the void read it was (R136). -/
def State.attentionReadEnd (s : State) : State :=
  match s.tenure with
  | some t =>
    if t.over && t.req.kind = .attentionRead then
      let u := { s with tenure := none }
      if (u.card t.req.card).voidRead then u.completeVoid t.req.card t.values else u.completeAttention t.req.card t.values
    else s
  | none => s

/-- ATN_CHANGE (R124). -/
def execAtnChange (card : CardId) (level : Bool) (s : State) : Host.Outcome State Fault Refusal :=
  .next (s.atnChange card level)
/-- ATTENTION_READ_END (R130). -/
def execAttentionReadEnd (s : State) : Host.Outcome State Fault Refusal := .next s.attentionReadEnd

end Sys2Proof.Machine
end

