-- ==== Sys2Proof/Machine/SlotIntake.lean ====
section
/-! DEFINITION. Slot intake (chapter Jobs and the slot directory): FILE with its validation, CANCEL, RELEASE, UNKNOWN_REQUEST, and
END_REPORT_TAKEN. -/

namespace Sys2Proof.Machine

/-! ## Filing validation -/

/-- Check 2 of R8: the card is READY or FAULTED. -/
def Presence.inService : Presence → Bool
  | .ready | .faulted => true
  | .absent | .settling => false

/-- Check 5 of R8 on a list of `n` steps at byte address `a`. -/
def listPlaceOk (a n : Nat) : Bool :=
  a % 8 = 0 && Config.stepBase ≤ a && a ≤ Config.stepLast && a + 8 * n - 1 ≤ Config.stepLast

/-- Check 6 of R8: the step records in list order from index `idx`; the first failure gives its reason and index (R9). -/
def State.stepsInvalid (s : State) (a idx : Nat) : Nat → Option (Reason × Nat)
  | 0 => none
  | n + 1 =>
    match (s.readRecord (a + 8 * idx)).invalid with
    | some why => some (why, idx)
    | none => s.stepsInvalid a (idx + 1) n

/-- Filing validation (R8): the reason and step index of the first failing check, index 0 for a reason that names no step (R7). -/
def State.filingInvalid (s : State) (i : SlotId) : Option (Reason × Nat) :=
  let w1 := s.slotWord i 1
  let a := (s.slotWord i 2).toNat
  let n := (s.slotWord i 3).toNat
  match headerCard w1 with
  | none => some (.cardRange, 0)
  | some c =>
    if !(s.card c).presence.inService then some (.cardNotReady, 0)
    else if 2 ≤ headerClass w1 then some (.badClass, 0)
    else if n < 1 || 64 < n then some (.countRange, 0)
    else if !listPlaceOk a n then some (.listPlace, 0)
    else s.stepsInvalid a 0 n

/-! ## Requests -/

/-- A slot joins a card queue: URGENT after the last URGENT slot, NORMAL at the tail (R54). -/
def State.enqueue (s : State) (c : CardId) (i : SlotId) : State :=
  s.updCard c fun k =>
    let urgent := fun j : SlotId => headerUrgent (s.slotWord j 1)
    if urgent i then { k with queue := k.queue.takeWhile urgent ++ i :: k.queue.dropWhile urgent }
    else { k with queue := k.queue ++ [i] }

/-- An accepted filing (R5, R6): the number, FILED, the card queue and the acceptance-order list (R56). -/
def State.acceptFiling (s : State) (c : CardId) (i : SlotId) : State :=
  let seq := s.acceptSeq + 1
  let t := ({ s.setSlotWord i 7 seq with acceptSeq := seq }).setSlot i { state := .filed, cause := none }
  let u := t.enqueue c i
  { u with acceptOrder := u.acceptOrder ++ [i] }

/-- A FILE request in a FREE slot is taken (R5, R7). -/
def State.takeFile (s : State) (i : SlotId) : State :=
  match s.filingInvalid i, s.slotCard i with
  | some (why, idx), _ => s.endWaiting i .rejected (some (wordOf idx)) (some why.code)
  | none, some c => s.acceptFiling c i
  | none, none => s

/-- FILE (R5, R16). -/
def State.requestFile (s : State) (i : SlotId) : State :=
  match (s.slot i).state with
  | .free => s.takeFile i
  | .filed | .active | .cancelling | .done => s.refuseRequest i fileCode none

/-- A slot leaves the queue of the card it names (R55). -/
def State.dequeue (s : State) (i : SlotId) : State :=
  match s.slotCard i with
  | some c => s.updCard c fun k => { k with queue := k.queue.filter fun j => j ≠ i }
  | none => s

/-- The sequencer of the slot's card is told of the cancel (R13). -/
def State.tellCancel (s : State) (i : SlotId) : State :=
  match s.slotCard i with
  | some c => s.updCard c fun k => { k with cancelNotice := some i }
  | none => s

/-- CANCEL (R12, R13, R14). -/
def State.requestCancel (s : State) (i : SlotId) : State :=
  match (s.slot i).state with
  | .filed => (s.dequeue i).endWaiting i .cancelled (some 0) none
  | .active => (s.setSlot i { state := .cancelling, cause := some .cancel }).tellCancel i
  | .free | .cancelling | .done => s.refuseRequest i cancelCode none

/-- A RELEASE request taken: words 4–15 hold 0 and the slot is FREE (R15). -/
def State.takeRelease (s : State) (i : SlotId) : State :=
  ({ s with mem := zeroRange s.mem (slotAddr i 4) (slotAddr i 16) }).setSlot i { state := .free, cause := none }

/-- RELEASE (R15). -/
def State.requestRelease (s : State) (i : SlotId) : State :=
  match (s.slot i).state with
  | .done => s.takeRelease i
  | .free | .filed | .active | .cancelling => s.refuseRequest i releaseCode none

/-- Slot intake takes the value written to a slot control word (R2, R185). -/
def State.slotRequest (s : State) (i : SlotId) (value : Word) : State :=
  if value = fileCode then s.requestFile i
  else if value = cancelCode then s.requestCancel i
  else if value = releaseCode then s.requestRelease i
  else s.refuseRequest i value (some .unknownRequest)

/-- A host write to the control word of slot `i` (R182, R186). -/
def State.writeControl (s : State) (i : SlotId) (value : Word) : State :=
  s.hostAccess (slotAddr i 0) fun s => s.slotRequest i value

/-! ## End reports -/

/-- The outcome a cancel cause gives (R19). -/
def CancelCause.outcome : CancelCause → JobOutcome
  | .cancel => .cancelled
  | .hostLost => .hostLost

/-- The outcome of an end report and its detail, by the slot's state and cause (R18, R19). A STOPPED report in ACTIVE does not arise
(R18). -/
def reportOutcome (ctl : SlotCtl) (e : Ending) : Option (JobOutcome × Option Word) :=
  match ctl.state, ctl.cause, e with
  | .active, _, .failure o d => some (o, d)
  | .cancelling, _, .failure o d => some (o, d)
  | .active, _, .complete => some (.complete, none)
  | .cancelling, some cause, _ => some (cause.outcome, none)
  | _, _, _ => none

/-- The card detect unit and the attention unit at the end of a job (R135, R154): a COMPLETE job that started on the FAULTED card
returns it to READY; the claimable flag is cleared and counted; a return re-arms the detector. -/
def State.jobEndAtCard (s : State) (c : CardId) (o : JobOutcome) : State :=
  if o = .complete && (s.card c).startedFaulted && (s.card c).presence = .faulted then
    ((s.updCard c fun k => { k with presence := .ready }).clearClaimable c).updCard c Card.rearm
  else s.clearClaimable c

/-- Slot intake takes an end report (R18–R20, R154, R201): the slot's words and DONE, the card's part, the engine's judgement, then
the notice. -/
def State.takeReport (s : State) (c : CardId) (r : EndReport) : State :=
  let t := s.updCard c fun k => { k with endReport := none }
  match reportOutcome (s.slot r.slot) r.ending with
  | none => t
  | some (o, detail) =>
    (((t.passDone r.slot o (some (wordOf r.stepsDone)) detail).jobEndAtCard c o).drainCheck).postJobDone r.slot

/-- END_REPORT_TAKEN (R18). -/
def State.endReportTaken (s : State) (c : CardId) : State :=
  match (s.card c).endReport with
  | some r => s.takeReport c r
  | none => s

/-- FILE (R5). -/
def execFile (slot : SlotId) (s : State) : Host.Outcome State Fault Refusal := .next (s.writeControl slot fileCode)
/-- CANCEL (R12). -/
def execCancel (slot : SlotId) (s : State) : Host.Outcome State Fault Refusal := .next (s.writeControl slot cancelCode)
/-- RELEASE (R15). -/
def execRelease (slot : SlotId) (s : State) : Host.Outcome State Fault Refusal := .next (s.writeControl slot releaseCode)
/-- UNKNOWN_REQUEST (R16). -/
def execUnknownRequest (slot : SlotId) (value : Word) (s : State) : Host.Outcome State Fault Refusal :=
  .next (s.writeControl slot value)
/-- END_REPORT_TAKEN (R18). -/
def execEndReportTaken (card : CardId) (s : State) : Host.Outcome State Fault Refusal := .next (s.endReportTaken card)

end Sys2Proof.Machine
end

