-- ==== Sys2Proof/Machine/Dispatcher.lean ====
section
/-! DEFINITION. The dispatcher (chapter Card queues and dispatch): JOB_START, with profile latching. -/

namespace Sys2Proof.Machine

/-- The slot that starts on a card (R59): the head of the queue on a READY card, the first slot with RECOVERY on a FAULTED card. -/
def State.startChoice (s : State) (c : CardId) : Option SlotId :=
  match (s.card c).presence with
  | .ready => (s.card c).queue.head?
  | .faulted => (s.card c).queue.find? fun i => headerRecovery (s.slotWord i 1)
  | .absent | .settling => none

/-- Conditions 1 and 2 of R57: the engine is RUNNING, and the card has no slot in progress and its sequencer is IDLE. -/
def State.mayStart (s : State) (c : CardId) : Bool :=
  s.engine = .running && (s.card c).activeSlot.isNone && (s.card c).seq.phase = .idle

/-- Profile words 0–7 as the dispatcher reads them (R65). -/
def State.profileWords (s : State) (c : CardId) : ProfileWords :=
  { w0 := s.profileWord c 0, w1 := s.profileWord c 1, w2 := s.profileWord c 2, w3 := s.profileWord c 3
    w4 := s.profileWord c 4, w5 := s.profileWord c 5, w6 := s.profileWord c 6, w7 := s.profileWord c 7 }

/-- The latched profile is replaced and handed to the attention unit (R67): another sense acts as R136 gives; the same sense acts on a
waiting attention as R137 gives, completing it at once when the new read list is empty. -/
def State.latchProfile (s : State) (c : CardId) (p : Profile) : State :=
  let t := s.updCard c fun k => { k with profile := p }
  if p.sense ≠ (s.card c).profile.sense then t.updCard c Card.latchNewSense
  else if (s.card c).attnPhase = .waiting then
    if p.readList = [] then
      (t.updCard c fun k => { k with attnReq := none, attnPhase := .quiet }).completeAttention c []
    else t.updCard c fun k => { k with attnReq := some (attentionRequest c p.readList) }
  else t

/-- The sequencer takes the slot as its active slot (R27). -/
def State.activate (s : State) (c : CardId) (i : SlotId) : State :=
  (s.setSlot i { state := .active, cause := none }).updCard c fun k =>
    { k with
      startedFaulted := k.presence = .faulted
      seq := { k.seq with active := some i, listAddr := s.slotWord i 2, stepCount := (s.slotWord i 3).toNat, stepIndex := 0
                          copy := none, stop := false } }

/-- A start of slot `i` on card `c` (R61): out of the queue, profile read and checked, then ACTIVE and step 0, or PROFILE_INVALID
with the number of the first word out of range (R17, R66). -/
def State.startSlot (s : State) (c : CardId) (i : SlotId) : State :=
  let t := s.updCard c fun k => { k with queue := k.queue.filter fun j => j ≠ i }
  match (s.profileWords c).invalid with
  | some n => t.endWaiting i .profileInvalid none (some (wordOf n))
  | none =>
    let u := (t.latchProfile c (s.profileWords c).latch).activate c i
    runSteps (u.stepsLeft c) c u

/-- JOB_START: a start if the conditions of R57 hold (R61). -/
def State.jobStart (s : State) (c : CardId) : State :=
  if s.mayStart c then
    match s.startChoice c with
    | some i => s.startSlot c i
    | none => s
  else s

/-- JOB_START (R61). -/
def execJobStart (card : CardId) (s : State) : Host.Outcome State Fault Refusal := .next (s.jobStart card)

end Sys2Proof.Machine
end

