-- ==== Sys2Proof/Machine/Streams.lean ====
section
/-! DEFINITION. The stream unit after a grant (chapter Streams and page leases): BURST_END, BURST_STOP, BURST_STALL_END,
CHECK_OUT_END, CHECK_IN_END, ABANDON_END, LEASE_GRANT_TAKEN. -/

namespace Sys2Proof.Machine

/-- A breach record as the word it is reported in: the page number. -/
def breachWord (b : Option PageId) : Word :=
  match b with
  | some p => wordOf p.val
  | none => 0

/-- The closing tenure is requested: check out carries the running check, check in carries nothing (R85, R86). -/
def State.beginClosing (s : State) (c : CardId) (m : StreamRec) : State :=
  let t := s.updStream c fun m => { m with stage := .closing }
  match m.dir with
  | .out => t.requestJob c .checkOut 1 m.check false
  | .into => t.requestJob c .checkIn 1 0 false

/-- The next burst is requested (R83 step 4). -/
def State.nextBurst (s : State) (c : CardId) (m : StreamRec) : State :=
  (s.updStream c fun m => { m with nextBurst := m.nextBurst + 1 }).requestBurst c m.dir (m.nextBurst + 1)

/-- The end of a burst with every word moved (R83): words moved to word 6; then a breach, the stop flag, the next burst, or the
closing tenure. -/
def State.takeBurstEnd (s : State) (c : CardId) (i : SlotId) : State :=
  match (s.card c).stream with
  | none => s
  | some m =>
    let t := s.setDetail i (wordOf m.wordsMoved)
    if (t.breach.get i).isSome then t.beginAbandon c .breach
    else if (t.card c).seq.stop then t.beginAbandon c .stop
    else if m.nextBurst + 1 < burstCount (t.record c).wordCount then t.nextBurst c m
    else t.beginClosing c m

/-- BURST_END (R83). -/
def State.burstEnd (s : State) : State :=
  s.jobTenureEnd (fun t => t.over && t.req.kind.isBurst) fun t i u => u.takeBurstEnd t.req.card i

/-- A burst of the tenure in flight ended with the given mark and its recovery width has run out. -/
def Tenure.burstEnded (t : Tenure) (m : TenureMark) : Bool := t.phase = .recovery && t.mark = m && t.req.kind.isBurst

/-- BURST_STOP: the step fails with SHORT_STREAM (R89). -/
def State.burstStop (s : State) : State :=
  s.jobTenureEnd (fun t => t.burstEnded .stopped) fun t _ u =>
    u.failWithDetail t.req.card .shortStream (wordOf (u.card t.req.card).wordsMoved)

/-- BURST_STALL_END: one abandon tenure is requested (R90). -/
def State.burstStallEnd (s : State) : State :=
  s.jobTenureEnd (fun t => t.burstEnded .stalled) fun t _ u => u.beginAbandon t.req.card .stall

/-- The recheck of an accepted or matched stream (R87): LEASE_BREACH if the breach record names a page, else the check word goes to
word 6, the leases are released and the step completes. -/
def State.recheck (s : State) (c : CardId) (i : SlotId) (check : Word) : State :=
  if (s.breach.get i).isSome then s.failWithDetail c .leaseBreach (breachWord (s.breach.get i))
  else ((s.setDetail i check).dropStream c).finishStep c

/-- CHECK_OUT_END: STOP refuses the check word, otherwise the stream is accepted (R85). -/
def State.checkOutEnd (s : State) : State :=
  s.jobTenureEnd
    (fun t => t.phase = .recovery && (t.mark = .going || t.mark = .refused) && t.req.kind = .checkOut)
    fun t i u =>
      if t.mark = .refused then u.failWithDetail t.req.card .checkRefused t.req.data
      else u.recheck t.req.card i t.req.data

/-- The running check of a card's stream step. -/
def Card.runningCheck (k : Card) : Word := (k.stream.map StreamRec.check).getD 0

/-- CHECK_IN_END: the card's check word is compared with the running check (R86). -/
def State.checkInEnd (s : State) : State :=
  s.jobTenureEnd (fun t => t.over && t.req.kind = .checkIn) fun t i u =>
    let v := t.values.headD 0
    if v = (u.card t.req.card).runningCheck then u.recheck t.req.card i v
    else u.failWithDetail t.req.card .checkMismatch v

/-- The end of an abandon tenure, by the reason for abandoning (R90, R92, R94). -/
def State.takeAbandonEnd (s : State) (c : CardId) (i : SlotId) : State :=
  match (s.card c).stream.map StreamRec.stage with
  | some (.abandoning .breach) => s.failWithDetail c .leaseBreach (breachWord (s.breach.get i))
  | some (.abandoning .stall) => s.failWithDetail c .streamStalled (wordOf (s.card c).wordsMoved)
  | some (.abandoning .stop) => s.endJob c .stopped
  | some .leasing | some .bursting | some .closing | none => s

/-- ABANDON_END (R93). -/
def State.abandonEnd (s : State) : State :=
  s.jobTenureEnd (fun t => t.over && t.req.kind = .abandon) fun t i u => u.takeAbandonEnd t.req.card i

/-- LEASE_GRANT_TAKEN: the sequencer leaves LEASE_WAIT and requests burst 0 (R78). -/
def State.leaseGrantTaken (s : State) (c : CardId) : State :=
  match (s.card c).stream with
  | some m =>
    if (s.card c).leaseGrant && (s.card c).runningIn .leaseWait then
      (s.updCard c fun k => { k with leaseGrant := false }).beginBursts c m.dir
    else s
  | none => s

/-- BURST_END (R83). -/
def execBurstEnd (s : State) : Host.Outcome State Fault Refusal := .next s.burstEnd
/-- BURST_STOP (R89). -/
def execBurstStop (s : State) : Host.Outcome State Fault Refusal := .next s.burstStop
/-- BURST_STALL_END (R90). -/
def execBurstStallEnd (s : State) : Host.Outcome State Fault Refusal := .next s.burstStallEnd
/-- CHECK_OUT_END (R85). -/
def execCheckOutEnd (s : State) : Host.Outcome State Fault Refusal := .next s.checkOutEnd
/-- CHECK_IN_END (R86). -/
def execCheckInEnd (s : State) : Host.Outcome State Fault Refusal := .next s.checkInEnd
/-- ABANDON_END (R93). -/
def execAbandonEnd (s : State) : Host.Outcome State Fault Refusal := .next s.abandonEnd
/-- LEASE_GRANT_TAKEN (R78). -/
def execLeaseGrantTaken (card : CardId) (s : State) : Host.Outcome State Fault Refusal := .next (s.leaseGrantTaken card)

end Sys2Proof.Machine
end

