-- ==== Sys2Proof/Machine/Faults.lean ====
section
/-! DEFINITION. The bus fault: READY_TIMEOUT (5.5, R37, R50, R88, R139, R140, R152, R160). -/

namespace Sys2Proof.Machine

/-- A kind whose strobes the ready timeout applies to (R100). -/
def TenureKind.faults : TenureKind → Bool
  | .registerWrite | .registerRead | .attentionRead | .checkOut | .checkIn => true
  | .burstOut | .burstIn | .abandon => false

/-- The fault detail of a tenure's strobe in progress (R212). -/
def Tenure.fault (t : Tenure) : Word := faultDetail t.reg t.req.kind

/-- The job sequence a notice names for a slot that may be none: its word 7, or 0 (R113, R149). -/
def State.jobSeqOf (s : State) (i : Option SlotId) : Word :=
  match i with
  | some i => s.slotWord i 7
  | none => 0

/-- The fault is recorded (R112 steps 1 to 3): word 15, the attention unit's acts, FAULTED, the CARD_FAULTED notice. -/
def State.recordFault (s : State) (c : CardId) (detail : Word) (attentionRead : Bool) : State :=
  let slot := (s.card c).activeSlot
  let before := (s.card c).presence
  let t := (s.setProfileWord c 15 detail).updCard c fun k => { k.attnFault attentionRead with presence := .faulted }
  t.post { kind := .cardFaulted, card := some c, slot := slot, jobSeq := s.jobSeqOf slot, code := 0, valueA := detail
           valueB := before.code }

/-- The fault of an attention read reaches the attention unit and the card's job (R139, R50, R160): the values read before the strobe
go to the snapshot, CRST is released, and a job the sequencer still runs fails with CARD_FAULTED. -/
def State.takeAttentionFault (s : State) (c : CardId) (values : List Word) (detail : Word) : State :=
  ((s.writeSnapshot c values).updCard c fun k => { k with crst := false }).failJob c .cardFaulted (some detail)

/-- The fault of a job tenure reaches the sequencer that holds it, in TENURE: BUS_TIMEOUT, with the detail handed over for word 6
by a closing tenure (R36, R37, R88). -/
def State.takeJobFault (s : State) (c : CardId) (kind : TenureKind) (detail : Word) : State :=
  if (s.card c).runningIn .tenure then
    match kind with
    | .checkOut | .checkIn => s.failWithDetail c .busTimeout detail
    | .registerWrite | .registerRead | .attentionRead | .burstOut | .burstIn | .abandon =>
      s.failJob c .busTimeout (some detail)
  else s

/-- READY_TIMEOUT (R112): the fault is recorded and reported, and the tenure stays for one recovery width. -/
def State.readyTimeout (s : State) : State :=
  match s.tenure with
  | some t =>
    if t.held .stretch && t.req.kind.faults then
      let c := t.req.card
      let attentionRead : Bool := t.req.kind = .attentionRead
      let u := (s.setTenure { t with phase := .recovery, mark := .faulted }).recordFault c t.fault attentionRead
      if attentionRead then u.takeAttentionFault c t.values t.fault else u.takeJobFault c t.req.kind t.fault
    else s
  | none => s

/-- READY_TIMEOUT (R112). -/
def execReadyTimeout (s : State) : Host.Outcome State Fault Refusal := .next s.readyTimeout

end Sys2Proof.Machine
end

