-- ==== Sys2Proof/Machine/CardDetect.lean ====
section
/-! DEFINITION. The card detect unit (chapter Card presence, faults and recovery): PRESENCE_SAMPLE and CARD_ARRIVAL, with settling,
arrival and removal. -/

namespace Sys2Proof.Machine

/-- The arrival of a card (R145): READY, settle count 0, default profile, detector re-armed, CARD_ARRIVED with word 15. -/
def State.arrive (s : State) (c : CardId) : State :=
  let t := s.updCard c fun k => { k with presence := .ready, settle := 0, profile := Profile.default }.rearm
  t.post { kind := .cardArrived, card := some c, slot := none, jobSeq := 0, code := 0, valueA := t.profileWord c 15
           valueB := 0 }

/-- The tenure in flight is cut if it is made for card `c` (R111, R148 step 1). -/
def State.cutTenure (s : State) (c : CardId) : State :=
  match s.tenure with
  | some t => if t.req.card = c then s.setTenure t.cut else s
  | none => s

/-- What a removal clears in the card's own record (R148): requests, CRST, sequencer, stream record, messages, attention state,
latched profile. -/
def Card.takeDown (k : Card) : Card :=
  { k.attnClear with
    jobReq := none, crst := false, seq := k.seq.toIdle, stream := none, endReport := none, cancelNotice := none
    leaseGrant := false, profile := Profile.default }

/-- The removal takes down what the part was doing for the card (R148). -/
def State.takeDown (s : State) (c : CardId) : State :=
  let t := (s.cutTenure c).dropStream c
  (t.clearClaimable c).updCard c Card.takeDown

/-- FILED slots of a removed card end CARD_ABSENT in queue order, each leaving the queue as it ends (R22, R149). -/
def State.drainQueue (s : State) (c : CardId) : List SlotId → State
  | [] => s
  | i :: rest =>
    ((s.updCard c fun k => { k with queue := rest }).endWaiting i .cardAbsent (some 0) none).drainQueue c rest

/-- The active slot of a removed card ends CARD_REMOVED, words 5 and 6 kept (R22). -/
def State.endRemoved (s : State) (slot : Option SlotId) : State :=
  match slot with
  | some i => s.endInProgress i .cardRemoved none none
  | none => s

/-- The removal of a card (R147–R149): ABSENT, the backplane and memory work taken down, the slots ended, the CARD_REMOVED notice. -/
def State.remove (s : State) (c : CardId) : State :=
  let slot := (s.card c).activeSlot
  let before := (s.card c).presence
  let queue := (s.card c).queue
  let t := (s.updCard c fun k => { k with presence := .absent }).takeDown c
  let u := (t.endRemoved slot).drainQueue c queue
  u.post { kind := .cardRemoved, card := some c, slot := slot, jobSeq := u.jobSeqOf slot, code := 0
           valueA := wordOf queue.length, valueB := before.code }

/-- The sample of a card's present line (R143–R147). -/
def State.sample (s : State) (c : CardId) (present : Bool) : State :=
  match (s.card c).presence, present with
  | .absent, true => s.updCard c fun k => { k with presence := .settling, settle := 1 }
  | .absent, false => s
  | .settling, true =>
    if Config.settleFull ≤ (s.card c).settle + 1 then s.arrive c
    else s.updCard c fun k => { k with settle := k.settle + 1 }
  | .settling, false => s.updCard c fun k => { k with presence := .absent, settle := 0 }
  | .ready, true | .faulted, true => s
  | .ready, false | .faulted, false => s.remove c

/-- PRESENCE_SAMPLE: sampling runs in HALTED, RUNNING, DRAINING and STANDSTILL (R143). -/
def State.presenceSample (s : State) (c : CardId) (present : Bool) : State :=
  if s.engine.closed then s else s.sample c present

/-- CARD_ARRIVAL: the present sample that takes a SETTLING position's count to 50 (R145, log 7). -/
def State.cardArrival (s : State) (c : CardId) : State :=
  if !s.engine.closed && (s.card c).presence = .settling && Config.settleFull ≤ (s.card c).settle + 1 then s.arrive c
  else s

/-- PRESENCE_SAMPLE (R143). -/
def execPresenceSample (card : CardId) (present : Bool) (s : State) : Host.Outcome State Fault Refusal :=
  .next (s.presenceSample card present)
/-- CARD_ARRIVAL (R145). -/
def execCardArrival (card : CardId) (s : State) : Host.Outcome State Fault Refusal := .next (s.cardArrival card)

end Sys2Proof.Machine
end

