-- ==== Sys2Proof/Machine/Engine.lean ====
section
/-! DEFINITION. Engine control, the presence timer and the resets (chapter Engine states, presence tally and engine reset): the CTRL
commands, the ticks, STANDSTILL, HARDWARE_RESET, RESET_RELEASE, BCLR_PULSE_END. -/

namespace Sys2Proof.Machine

/-! ## Engine reset -/

/-- What an engine reset makes of a card position (R208, R209, R141): ABSENT, CRST released, sequencer IDLE, attention cleared with
baseline low (R122), default profile, queue empty, nothing under way. -/
def Card.engineReset (k : Card) : Card :=
  { k.takeDown with presence := .absent, settle := 0, queue := [], claimable := false, baseline := false }

/-- Word 14 of each card whose claimable flag is cleared counts it (R141, R209 step 3). -/
def State.countAllClaimable (s : State) : List CardId → State
  | [] => s
  | c :: rest => (if (s.card c).claimable then s.countUnclaimed c else s).countAllClaimable rest

/-- A slot the reset ends: FILED, ACTIVE and CANCELLING pass to DONE (R23). -/
def SlotCtl.engineReset (x : SlotCtl) : SlotCtl :=
  match x.state with
  | .filed | .active | .cancelling => { state := .done, cause := none }
  | .free | .done => x

/-- Word 4 of each slot the reset ends reads ENGINE_RESET; the other words keep (R23, R209 step 4). -/
def State.writeResetOutcomes (s : State) : List SlotId → State
  | [] => s
  | i :: rest =>
    (match (s.slot i).state with
     | .filed | .active | .cancelling => s.setSlotWord i 4 JobOutcome.engineReset.code
     | .free | .done => s).writeResetOutcomes rest

/-- An engine reset begins and takes everything down (R207–R210); BCLR is asserted at once if no tenure was in flight (R208 step 3),
and at RECOVERY_WIDTH_END otherwise. -/
def State.engineReset (s : State) : State :=
  let t := (s.countAllClaimable allCards).writeResetOutcomes allSlots
  { t with
    engine := .resetting, ctrlRun := false, ctrlPresence := false, ctrlInterrupt := false
    bclr := s.tenure.isNone, tenure := s.tenure.map Tenure.cut, attnPtr := 7, jobPtr := 7
    cards := tab fun c => (t.card c).engineReset
    pageHolder := tab fun _ => none, breach := tab fun _ => none, leaseWaiting := []
    slots := tab fun i => (t.slot i).engineReset, acceptOrder := []
    produced := 0, consumed := 0, lost := 0
    mem := zeroRange t.mem (noticeAddr 0 0) Config.stepBase }

/-! ## CTRL -/

/-- A change of RUN acts on the engine state (R199, R200). -/
def State.runChange (s : State) (was now : Bool) : EngineState :=
  match was, now with
  | false, true =>
    (match s.engine with
     | .halted | .draining => .running
     | .initializing | .running | .standstill | .resetting => s.engine)
  | true, false =>
    (match s.engine with
     | .running => if s.anyInProgress then .draining else .halted
     | .initializing | .halted | .draining | .standstill | .resetting => s.engine)
  | true, true | false, false => s.engine

/-- RESUME in STANDSTILL, judged with the levels and tally as they stand (R206). -/
def State.takeResume (s : State) : State :=
  if s.engine = .standstill then
    if s.ctrlPresence && s.tally = 0 then s.countRefusal
    else { s with engine := if s.ctrlRun then .running else if s.anyInProgress then .draining else .halted }
  else s

/-- The levels of a CTRL write and the change of RUN (R198 steps 2 and 3). -/
def State.takeLevels (s : State) (w : Word) : State :=
  { s with ctrlRun := ctrlRunBit w, ctrlPresence := ctrlPresenceBit w, ctrlInterrupt := ctrlInterruptBit w
           engine := s.runChange s.ctrlRun (ctrlRunBit w) }

/-- A host write to CTRL, taken whole (R198, R215): ignored in INITIALIZING and RESETTING; ENGINE_RESET first; then the levels, RUN,
and RESUME. -/
def State.writeCtrl (s : State) (w : Word) : State :=
  if s.engine.closed then s
  else if ctrlResetBit w then s.engineReset
  else if ctrlResumeBit w then (s.takeLevels w).takeResume
  else s.takeLevels w

/-! ## The presence timer -/

/-- A slot at standstill entry: ACTIVE passes to CANCELLING with cause HOST_LOST (R21). -/
def SlotCtl.standstill (x : SlotCtl) : SlotCtl :=
  if x.state = .active then { state := .cancelling, cause := some .hostLost } else x

/-- A card at standstill entry: the sequencer of each slot that leaves ACTIVE is told (R21). -/
def State.standstillCard (s : State) (c : CardId) : Card :=
  match (s.card c).activeSlot with
  | some i => if (s.slot i).state = .active then { s.card c with cancelNotice := some i } else s.card c
  | none => s.card c

/-- Slots in ACTIVE state (R204 step 2). -/
def State.activeCount (s : State) : Nat := (allSlots.filter fun i => (s.slot i).state = .active).length

/-- STANDSTILL is entered (R204): the state, the slots and their sequencers, the STANDSTILL notice. -/
def State.enterStandstill (s : State) : State :=
  let t := { s with engine := .standstill, slots := tab fun i => (s.slot i).standstill
                    cards := tab fun c => s.standstillCard c }
  t.post { kind := .standstill, card := none, slot := none, jobSeq := 0, code := 0, valueA := wordOf s.activeCount
           valueB := s.engine.code }

/-- The tick counts the tally: PRESENCE set, the engine RUNNING or DRAINING (R202). -/
def State.tickCounts (s : State) : Bool := s.ctrlPresence && (s.engine = .running || s.engine = .draining)

/-- The next counted tick runs the tally out (R202). -/
def State.tallyEnds (s : State) : Bool := s.tally.toNat ≤ 1

/-- PRESENCE_TICK (R202, R204). -/
def State.presenceTick (s : State) : State :=
  if s.tickCounts then
    if s.tallyEnds then ({ s with tally := 0 }).enterStandstill else { s with tally := s.tally - 1 }
  else s

/-- STANDSTILL_ENTRY: the tick that runs the tally out (R204, log 8). -/
def State.standstillEntry (s : State) : State :=
  if s.tickCounts && s.tallyEnds then ({ s with tally := 0 }).enterStandstill else s

/-- MS_CLOCK_TICK: the clock stands at 0 through INITIALIZING and runs in every other state (R188). -/
def State.msClockTick (s : State) : State :=
  if s.engine = .initializing then s else { s with msClock := s.msClock + 1 }

/-! ## Hardware reset -/

/-- HARDWARE_RESET: every block is held in its initial state (R197). The exchange memory keeps its bytes until the zero-fill (log 13),
the ATN lines are inputs, and the queue of commands is the sender's (log 25). -/
def State.hardwareReset (s : State) : State :=
  { State.reset with
    pending := s.pending, mem := s.mem
    cards := tab fun c => { Card.reset with atnLine := (s.card c).atnLine } }

/-- RESET_RELEASE: INITIALIZING zero-fills the memory, writes the signature and revision, and begins the BCLR pulse (R195, R197). -/
def State.resetRelease (s : State) : State :=
  if s.resetPin then
    (({ s with resetPin := false, engine := .initializing, bclr := true, mem := [] }).setWord 0 Config.signature).setWord 2
      Config.revision
  else s

/-- BCLR_PULSE_END: initialisation or engine reset ends and the engine passes to HALTED (R121, R197, R211). -/
def State.bclrPulseEnd (s : State) : State :=
  if s.bclr && s.engine.closed then { s with bclr := false, engine := .halted } else s

/-! ## Meanings -/

/-- RUN_SET (R199): the CTRL write that carries it. -/
def execRunSet (ctrl : Word) (s : State) : Host.Outcome State Fault Refusal := .next (s.writeCtrl ctrl)
/-- RUN_CLEAR (R200). -/
def execRunClear (ctrl : Word) (s : State) : Host.Outcome State Fault Refusal := .next (s.writeCtrl ctrl)
/-- PRESENCE_LEVEL (R198). -/
def execPresenceLevel (ctrl : Word) (s : State) : Host.Outcome State Fault Refusal := .next (s.writeCtrl ctrl)
/-- INTERRUPT_LEVEL (R175, R198): INTR is a view of the level and the counts. -/
def execInterruptLevel (ctrl : Word) (s : State) : Host.Outcome State Fault Refusal := .next (s.writeCtrl ctrl)
/-- RESUME (R206). -/
def execResume (ctrl : Word) (s : State) : Host.Outcome State Fault Refusal := .next (s.writeCtrl ctrl)
/-- ENGINE_RESET (R207). -/
def execEngineReset (ctrl : Word) (s : State) : Host.Outcome State Fault Refusal := .next (s.writeCtrl ctrl)
/-- PRESENCE_TICK (R202). -/
def execPresenceTick (s : State) : Host.Outcome State Fault Refusal := .next s.presenceTick
/-- STANDSTILL_ENTRY (R204). -/
def execStandstillEntry (s : State) : Host.Outcome State Fault Refusal := .next s.standstillEntry
/-- MS_CLOCK_TICK (R188). -/
def execMsClockTick (s : State) : Host.Outcome State Fault Refusal := .next s.msClockTick
/-- HARDWARE_RESET (R197). -/
def execHardwareReset (s : State) : Host.Outcome State Fault Refusal := .next s.hardwareReset
/-- RESET_RELEASE (R195). -/
def execResetRelease (s : State) : Host.Outcome State Fault Refusal := .next s.resetRelease
/-- BCLR_PULSE_END (R121). -/
def execBclrPulseEnd (s : State) : Host.Outcome State Fault Refusal := .next s.bclrPulseEnd

end Sys2Proof.Machine
end

