-- ==== Sys2Proof/Machine/HostPort.lean ====
section
/-! DEFINITION. The host port and the write monitor (chapter The exchange memory and the host port), and the notice writer's host side:
HOST_EXCHANGE_WRITE, PRESENCE_TALLY_WRITE, NOTICES_CONSUMED_WRITE, NOTICES_LOST_WRITE, the STAT writes and the ignored window write. -/

namespace Sys2Proof.Machine

/-! ## Guarded header words -/

/-- The presence timer takes every value (R203). -/
def State.takeTally (s : State) (v : Word) : State := { s with tally := v }

/-- The notice writer takes or refuses a consumed count (R171, R174). -/
def State.takeConsumed (s : State) (v : Word) : State :=
  if (v - s.consumed).toNat ≤ (s.produced - s.consumed).toNat then { s with consumed := v } else s.countRefusal

/-- The notice writer takes 0 as the lost count and refuses any other value (R173, R174). -/
def State.takeLost (s : State) (v : Word) : State := if v = 0 then { s with lost := 0 } else s.countRefusal

/-! ## The ownership map -/

/-- The classes of R180; a guarded word names its owner. -/
inductive WordClass where
  | hostOwned
  | dataPage (p : PageId)
  | partOwned
  | slotControl (i : SlotId)
  | presenceTally
  | noticesConsumed
  | noticesLost
  deriving DecidableEq, Repr

/-- The class of header word `n` (R180). -/
def headerClassOf (n : Nat) : WordClass :=
  if n = 2 then .presenceTally else if n = 4 then .noticesConsumed else if n = 5 then .noticesLost else .partOwned

/-- The class of word `w` of slot `i` (R1, R180). -/
def State.slotClassOf (s : State) (i : SlotId) (w : Nat) : WordClass :=
  if w = 0 then .slotControl i
  else if w ≤ 3 then if (s.slot i).state = .free then .hostOwned else .partOwned
  else .partOwned

/-- The class of a word by its word address (R180, R181). -/
def State.classOf (s : State) (a : WordAddr) : WordClass :=
  let n := a.toNat
  if n < 16 then headerClassOf n
  else if h : n < 0x210 then s.slotClassOf ⟨(n - 16) / 16, by omega⟩ (n % 16)
  else if n < 0x290 then if n % 16 < 8 then .hostOwned else .partOwned
  else if n < 0x490 then .partOwned
  else if n < 0x2000 then .hostOwned
  else .dataPage (pageOf (2 * n))

/-- The write monitor's action on a write's class (R182 step 3, R183–R185). -/
def State.judgeWrite (s : State) (a : WordAddr) (v : Word) : State :=
  match s.classOf a with
  | .hostOwned => s.setWord (2 * a.toNat) v
  | .dataPage p => (s.setWord (2 * a.toNat) v).reportPageWrite p
  | .partOwned => s.discard (2 * a.toNat)
  | .slotControl i => s.slotRequest i v
  | .presenceTally => s.takeTally v
  | .noticesConsumed => s.takeConsumed v
  | .noticesLost => s.takeLost v

/-- A host write to the exchange memory (R182, R186). -/
def State.writeExchange (s : State) (a : WordAddr) (v : Word) : State :=
  s.hostAccess (2 * a.toNat) fun s => s.judgeWrite a v

/-! ## STAT -/

/-- A host write to STAT clears each sticky flag whose bit is written 1 (R192, R215). -/
def State.writeStat (s : State) (w : Word) : State :=
  { s with statDiscard := s.statDiscard && !bitOf w 8, statRefused := s.statRefused && !bitOf w 9 }

/-! ## Meanings -/

/-- HOST_EXCHANGE_WRITE (R182). -/
def execHostExchangeWrite (address : WordAddr) (value : Word) (s : State) : Host.Outcome State Fault Refusal :=
  .next (s.writeExchange address value)
/-- PRESENCE_TALLY_WRITE (R203), header word 2. -/
def execPresenceTallyWrite (value : Word) (s : State) : Host.Outcome State Fault Refusal :=
  .next (s.hostAccess 4 fun s => s.takeTally value)
/-- NOTICES_CONSUMED_WRITE (R171), header word 4. -/
def execNoticesConsumedWrite (value : Word) (s : State) : Host.Outcome State Fault Refusal :=
  .next (s.hostAccess 8 fun s => s.takeConsumed value)
/-- NOTICES_LOST_WRITE (R173), header word 5. -/
def execNoticesLostWrite (value : Word) (s : State) : Host.Outcome State Fault Refusal :=
  .next (s.hostAccess 10 fun s => s.takeLost value)
/-- STAT_CLEAR_DISCARD (R192): the STAT write that carries it. -/
def execStatClearDiscard (stat : Word) (s : State) : Host.Outcome State Fault Refusal := .next (s.writeStat stat)
/-- STAT_CLEAR_REFUSED (R192): the STAT write that carries it. -/
def execStatClearRefused (stat : Word) (s : State) : Host.Outcome State Fault Refusal := .next (s.writeStat stat)
/-- IGNORED_WINDOW_WRITE: no register takes it, and it is counted nowhere (R177, R193). -/
def execIgnoredWindowWrite (_target : IgnoredTarget) (_value : Word) (s : State) : Host.Outcome State Fault Refusal := .next s

end Sys2Proof.Machine
end

