-- ==== Sys2Proof/Machine/Waits.lean ====
section
/-! DEFINITION. What ends a wait of a sequencer: POLL_INTERVAL_END, AWAIT_TIMEOUT, PAUSE_END, PULSE_END, SETTLE_WAIT_END, and
CANCEL_NOTICE_TAKEN, which brings the step in flight to its stopping point. -/

namespace Sys2Proof.Machine

/-- POLL_INTERVAL_END: the next attempt is requested (R40 step 4). -/
def State.pollIntervalEnd (s : State) (c : CardId) : State :=
  if (s.card c).runningIn .timedWait && (s.record c).kind = some .poll then s.requestJob c .registerRead 1 0 false else s

/-- AWAIT_TIMEOUT: the step fails; word 6 keeps what the job last wrote (R45). -/
def State.awaitTimeout (s : State) (c : CardId) : State :=
  if (s.card c).runningIn .attentionWait then s.failJob c .awaitTimeout none else s

/-- PAUSE_END: the step completes (R47). -/
def State.pauseEnd (s : State) (c : CardId) : State :=
  if (s.card c).runningIn .timedWait && (s.record c).kind = some .pause then s.finishStep c else s

/-- The pulse's end at the card detect unit and the attention unit (R157 steps 1 and 2, R138): CRST released, pending cleared,
claimable cleared and counted, detector re-armed. -/
def State.endPulse (s : State) (c : CardId) : State :=
  let t := s.updCard c fun k => { k with crst := false, attnPhase := .quiet, attnReq := none }
  (t.clearClaimable c).updCard c Card.rearm

/-- PULSE_END: after the pulse's end the step goes on by its settle field and the stop flag (R157, R158, R159). -/
def State.pulseEnd (s : State) (c : CardId) : State :=
  if (s.card c).runningIn .pulsing then
    let t := s.endPulse c
    if (s.record c).w2 = 0 then t.finishStep c
    else if (s.card c).seq.stop then t.endJob c .stopped
    else t.updSeq c fun q => { q with phase := .settleWait }
  else s

/-- SETTLE_WAIT_END: the step completes (R158). -/
def State.settleWaitEnd (s : State) (c : CardId) : State :=
  if (s.card c).runningIn .settleWait then s.finishStep c else s

/-- The stopping point of a step in BUS_WAIT (R36, R42, R94): a register request is withdrawn and the job stops; a stream step
whose burst has begun makes an abandon tenure first; an abandon request stays. -/
def State.stopInBusWait (s : State) (c : CardId) : State :=
  match (s.card c).stream with
  | none => s.endJob c .stopped
  | some m =>
    match m.stage with
    | .abandoning _ => s
    | .leasing | .bursting | .closing => if m.begun then s.beginAbandon c .stop else s.endJob c .stopped

/-- The stop flag set, the step in flight is brought to its stopping point by the sequencer's phase (R13, R42, R46, R48, R79, R94,
R159). -/
def State.stopStep (s : State) (c : CardId) : State :=
  match (s.card c).seq.phase with
  | .idle | .tenure | .pulsing => s
  | .timedWait | .attentionWait | .leaseWait | .settleWait => s.endJob c .stopped
  | .busWait => s.stopInBusWait c

/-- CANCEL_NOTICE_TAKEN: a notice that does not name the active slot is ignored (R13). -/
def State.cancelNoticeTaken (s : State) (c : CardId) : State :=
  match (s.card c).cancelNotice with
  | none => s
  | some i =>
    let t := s.updCard c fun k => { k with cancelNotice := none }
    if (s.card c).seq.active = some i then (t.updSeq c fun q => { q with stop := true }).stopStep c else t

/-- POLL_INTERVAL_END (R40). -/
def execPollIntervalEnd (card : CardId) (s : State) : Host.Outcome State Fault Refusal := .next (s.pollIntervalEnd card)
/-- AWAIT_TIMEOUT (R45). -/
def execAwaitTimeout (card : CardId) (s : State) : Host.Outcome State Fault Refusal := .next (s.awaitTimeout card)
/-- PAUSE_END (R47). -/
def execPauseEnd (card : CardId) (s : State) : Host.Outcome State Fault Refusal := .next (s.pauseEnd card)
/-- PULSE_END (R157). -/
def execPulseEnd (card : CardId) (s : State) : Host.Outcome State Fault Refusal := .next (s.pulseEnd card)
/-- SETTLE_WAIT_END (R158). -/
def execSettleWaitEnd (card : CardId) (s : State) : Host.Outcome State Fault Refusal := .next (s.settleWaitEnd card)
/-- CANCEL_NOTICE_TAKEN (R13). -/
def execCancelNoticeTaken (card : CardId) (s : State) : Host.Outcome State Fault Refusal :=
  .next (s.cancelNoticeTaken card)

end Sys2Proof.Machine
end

