-- ==== Sys2Proof/Machine/Dispatch.lean ====
section
/-! DEFINITION. exec: one arm for each command, in the order of spec/opcode_table.json. -/

namespace Sys2Proof.Machine

def exec (i : Instr) (s : State) : Host.Outcome State Fault Refusal :=
  match i with
  | .file slot => Sys2Proof.Machine.execFile slot s
  | .cancel slot => Sys2Proof.Machine.execCancel slot s
  | .release slot => Sys2Proof.Machine.execRelease slot s
  | .unknownRequest slot value => Sys2Proof.Machine.execUnknownRequest slot value s
  | .hostExchangeWrite address value => Sys2Proof.Machine.execHostExchangeWrite address value s
  | .presenceTallyWrite value => Sys2Proof.Machine.execPresenceTallyWrite value s
  | .noticesConsumedWrite value => Sys2Proof.Machine.execNoticesConsumedWrite value s
  | .noticesLostWrite value => Sys2Proof.Machine.execNoticesLostWrite value s
  | .runSet ctrl => Sys2Proof.Machine.execRunSet ctrl s
  | .runClear ctrl => Sys2Proof.Machine.execRunClear ctrl s
  | .presenceLevel ctrl => Sys2Proof.Machine.execPresenceLevel ctrl s
  | .interruptLevel ctrl => Sys2Proof.Machine.execInterruptLevel ctrl s
  | .resume ctrl => Sys2Proof.Machine.execResume ctrl s
  | .engineReset ctrl => Sys2Proof.Machine.execEngineReset ctrl s
  | .statClearDiscard stat => Sys2Proof.Machine.execStatClearDiscard stat s
  | .statClearRefused stat => Sys2Proof.Machine.execStatClearRefused stat s
  | .ignoredWindowWrite target value => Sys2Proof.Machine.execIgnoredWindowWrite target value s
  | .hardwareReset => Sys2Proof.Machine.execHardwareReset s
  | .resetRelease => Sys2Proof.Machine.execResetRelease s
  | .bclrPulseEnd => Sys2Proof.Machine.execBclrPulseEnd s
  | .jobStart card => Sys2Proof.Machine.execJobStart card s
  | .cancelNoticeTaken card => Sys2Proof.Machine.execCancelNoticeTaken card s
  | .endReportTaken card => Sys2Proof.Machine.execEndReportTaken card s
  | .busGrant => Sys2Proof.Machine.execBusGrant s
  | .registerWriteEnd => Sys2Proof.Machine.execRegisterWriteEnd s
  | .registerReadEnd => Sys2Proof.Machine.execRegisterReadEnd s
  | .attentionReadEnd => Sys2Proof.Machine.execAttentionReadEnd s
  | .burstEnd => Sys2Proof.Machine.execBurstEnd s
  | .burstStop => Sys2Proof.Machine.execBurstStop s
  | .stallTimeout => Sys2Proof.Machine.execStallTimeout s
  | .burstStallEnd => Sys2Proof.Machine.execBurstStallEnd s
  | .checkOutEnd => Sys2Proof.Machine.execCheckOutEnd s
  | .checkInEnd => Sys2Proof.Machine.execCheckInEnd s
  | .abandonEnd => Sys2Proof.Machine.execAbandonEnd s
  | .readyTimeout => Sys2Proof.Machine.execReadyTimeout s
  | .recoveryWidthEnd => Sys2Proof.Machine.execRecoveryWidthEnd s
  | .pollIntervalEnd card => Sys2Proof.Machine.execPollIntervalEnd card s
  | .awaitTimeout card => Sys2Proof.Machine.execAwaitTimeout card s
  | .pauseEnd card => Sys2Proof.Machine.execPauseEnd card s
  | .pulseEnd card => Sys2Proof.Machine.execPulseEnd card s
  | .settleWaitEnd card => Sys2Proof.Machine.execSettleWaitEnd card s
  | .presenceTick => Sys2Proof.Machine.execPresenceTick s
  | .standstillEntry => Sys2Proof.Machine.execStandstillEntry s
  | .msClockTick => Sys2Proof.Machine.execMsClockTick s
  | .presenceSample card present => Sys2Proof.Machine.execPresenceSample card present s
  | .cardArrival card => Sys2Proof.Machine.execCardArrival card s
  | .atnChange card level => Sys2Proof.Machine.execAtnChange card level s
  | .leaseGrantTaken card => Sys2Proof.Machine.execLeaseGrantTaken card s
  | .strobeWidthEnd rdy stop data => Sys2Proof.Machine.execStrobeWidthEnd rdy stop data s
  | .rdyRise stop data => Sys2Proof.Machine.execRdyRise stop data s
  | .strobeRecoveryEnd => Sys2Proof.Machine.execStrobeRecoveryEnd s

end Sys2Proof.Machine
end

