-- ==== Sys2Proof/Machine/Timing.lean ====
section
/-! DEFINITION. The times the spec gives the timed events, as views of the state. The machine does not count time: a timed command may
come at any moment at which its wait is in force (log 4), and these views say when the part would send it. -/

namespace Sys2Proof.Machine

/-- A time that runs out no earlier than `least` and before `bound`, in µs from the start of the wait. -/
structure Window where
  least : Nat
  bound : Nat
  deriving DecidableEq, Repr

/-- A wait of `n` units of `unit` µs runs out no earlier than that and within one further unit (R40, R45, R47, R157, R158). -/
def waitOf (n unit : Nat) : Window := { least := n * unit, bound := (n + 1) * unit }

/-- The wait a sequencer is in: POLL interval (R40), PAUSE (R47), AWAIT timeout (R45), pulse (R157), settle wait (R158). -/
def State.waitWindow (s : State) (c : CardId) : Option Window :=
  let r := s.record c
  match (s.card c).seq.phase with
  | .timedWait =>
    (match r.kind with
     | some .poll => some (waitOf r.interval Config.waitUnitMicros)
     | some .pause => some (waitOf r.w1.toNat Config.waitUnitMicros)
     | _ => none)
  | .attentionWait => some (waitOf r.w1.toNat 1000)
  | .pulsing => some (waitOf r.w1.toNat Config.waitUnitMicros)
  | .settleWait => some (waitOf r.w2.toNat Config.waitUnitMicros)
  | .idle | .busWait | .tenure | .leaseWait => none

/-- The timeout that runs while RDY stretches a strobe, from the end of the strobe width: the stall timeout in bursts, the ready
timeout in the other strobing kinds (R100, R101). -/
def Tenure.timeoutWindow (t : Tenure) : Option Window :=
  if t.phase = .stretch then
    some (waitOf (if t.req.kind.isBurst then t.timing.stallTimeout else t.timing.readyTimeout).toNat 1)
  else none

/-- The length of a tenure no strobe of which is stretched, in ns (R99): each strobe's width and recovery, and one recovery width for
an abandon tenure (R109). -/
def Tenure.unstretchedNs (t : Tenure) : Nat :=
  if t.req.kind = .abandon then t.timing.recoveryWidth.toNat * Config.strobeUnitNs
  else t.req.strobes * (t.timing.strobeWidth.toNat + t.timing.recoveryWidth.toNat) * Config.strobeUnitNs

end Sys2Proof.Machine
end

