-- ==== Sys2Proof/Safety.lean ====
section
/-! DEFINITION. What counts as a safe run, in the terms the claims use: a run is a run of steps (no command stops it), and the part
keeps the invariants below. Each is stated of every state, not only of states a run from reset reaches. Below them stand the words in which
statements say what a command leaves unchanged, and what a slot's end and a hardware reset leave. -/

namespace Sys2Proof.Machine

/-- The machine goes on: an outcome is a next state. -/
def goesOn (o : Host.Outcome State Fault Refusal) : Prop := ∃ t, o = .next t

/-- The exchange memory is in canonical form. -/
def State.memOk (s : State) : Prop := memoryWf s.mem = true

/-- The ring holds between 0 and 64 notices (R163). -/
def State.ringOk (s : State) : Prop := s.inList ≤ Config.ringSize

/-- A slot has a cancel cause exactly when it is CANCELLING (R3). -/
def State.causesOk (s : State) : Prop := ∀ i, (s.slot i).cause.isSome = true ↔ (s.slot i).state = .cancelling

/-- A card that is not in service has an empty queue and no active slot, its detector is DISARMED, its CRST line is released and no
request of it waits (R146). -/
def Card.outOfServiceOk (k : Card) : Prop :=
  k.presence.inService = false →
    k.queue = [] ∧ k.activeSlot = none ∧ k.detector = .disarmed ∧ k.crst = false ∧ k.attnReq = none ∧ k.jobReq = none

/-- The detector is on only while the card is READY (R126). -/
def Card.detectorOk (k : Card) : Prop := k.detector ≠ .disarmed → k.presence = .ready

/-- The settle count is 0 unless the card is SETTLING, and then 1 to 49 (R144, R145). -/
def Card.settleOk (k : Card) : Prop :=
  (k.presence ≠ .settling → k.settle = 0) ∧
    (k.presence = .settling → 1 ≤ k.settle ∧ k.settle < Config.settleFull)

/-- The sequencer's phase agrees with what it drives and asks for: IDLE without an active slot (R26), a request waiting at the arbiter
only in BUS_WAIT (R36), CRST asserted only in PULSING (R156, R161). -/
def Card.phaseOk (k : Card) : Prop :=
  (k.seq.active = none → k.seq.phase = .idle) ∧ (k.jobReq.isSome = true → k.seq.phase = .busWait) ∧
    (k.crst = true → k.seq.phase = .pulsing)

/-- The requests a card has waiting are its own, an attention read on the attention side and another kind on the job side (R115). -/
def Card.requestsOk (c : CardId) (k : Card) : Prop :=
  (∀ r, k.attnReq = some r → r.card = c ∧ r.kind = .attentionRead) ∧
    (∀ r, k.jobReq = some r → r.card = c ∧ r.kind ≠ .attentionRead)

/-- The five together, for card position `c`. -/
def Card.ok (c : CardId) (k : Card) : Prop :=
  k.outOfServiceOk ∧ k.detectorOk ∧ k.settleOk ∧ k.phaseOk ∧ k.requestsOk c

/-- Every card position is as R26, R36, R115, R126, R144, R146 and R161 leave it. -/
def State.cardsOk (s : State) : Prop := ∀ c, (s.card c).ok c

/-- A tenure in flight that has not been cut is made for a card in READY or FAULTED state (R116). -/
def State.tenureOk (s : State) : Prop :=
  ∀ t, s.tenure = some t → t.mark ≠ .cut → (s.card t.req.card).presence.inService = true

/-- The card positions and the bus together. -/
def State.serviceOk (s : State) : Prop := s.cardsOk ∧ s.tenureOk

/-- RUN agrees with the engine state: RUNNING has it set; HALTED, DRAINING, RESETTING and INITIALIZING have it clear (R199, R200,
R206, R210). While RESET is asserted the engine is INITIALIZING (R197). BCLR is asserted only in INITIALIZING, RESET released, and in
RESETTING (R121). -/
def State.runOk (s : State) : Prop :=
  (s.engine = .running → s.ctrlRun = true) ∧
    (s.engine = .halted ∨ s.engine = .draining ∨ s.engine = .resetting ∨ s.engine = .initializing → s.ctrlRun = false) ∧
    (s.resetPin = true → s.engine = .initializing) ∧ (s.bclr = true → s.engine.closed = true ∧ s.resetPin = false)

/-- While RESET is released the constant header words stand as initialisation wrote them: the signature, the revision, and 0 in words
12–15 (R187, R190, R195). -/
def State.headerOk (s : State) : Prop :=
  s.resetPin = false →
    s.word 0 = 0x554B ∧ s.word 2 = 1 ∧ s.word 24 = 0 ∧ s.word 26 = 0 ∧ s.word 28 = 0 ∧ s.word 30 = 0

/-! ## The slots and the lists that hold them -/

/-- A card queue has no duplicates and holds exactly the FILED slots that name the card (R55). -/
def State.queuesOk (s : State) : Prop :=
  ∀ c, (s.card c).queue.Nodup ∧ ∀ i, i ∈ (s.card c).queue ↔ (s.slot i).state = .filed ∧ s.slotCard i = some c

/-- The acceptance-order list has no duplicates and holds exactly the FILED, ACTIVE and CANCELLING slots (R56). -/
def State.orderOk (s : State) : Prop :=
  s.acceptOrder.Nodup ∧
    ∀ i, i ∈ s.acceptOrder ↔ (s.slot i).state = .filed ∨ (s.slot i).state = .active ∨ (s.slot i).state = .cancelling

/-- The active slot of a card is ACTIVE or CANCELLING and names the card, and every such slot is its card's active slot, so a card has
at most one (R57). -/
def State.activeOk (s : State) : Prop :=
  ∀ c i, (s.card c).activeSlot = some i ↔ ((s.slot i).state = .active ∨ (s.slot i).state = .cancelling) ∧ s.slotCard i = some c

/-- A slot that is FILED, ACTIVE or CANCELLING names a card (R8, R55, R57). -/
def State.namesOk (s : State) : Prop :=
  ∀ i, (s.slot i).state = .filed ∨ (s.slot i).state = .active ∨ (s.slot i).state = .cancelling → (s.slotCard i).isSome = true

/-- What tells a card's sequencer to stop, and a STOPPED report, belong to a slot that is CANCELLING (R13, R18); an IDLE sequencer has no
stream record, and an end report under way leaves no active slot at the sequencer (R32). -/
def Card.stopsOk (k : Card) (cancelling : SlotId → Prop) : Prop :=
  (∀ i, k.seq.active = some i → k.seq.stop = true ∨ k.stream.map StreamRec.stage = some (.abandoning .stop) → cancelling i) ∧
    (∀ r, k.endReport = some r → r.ending = .stopped → cancelling r.slot) ∧
    (k.seq.active = none → k.stream = none) ∧ (k.seq.active.isSome = true → k.endReport = none)

/-- Every card is so, and a cancel notice under way names a CANCELLING slot of its card. -/
def State.stopsOk (s : State) : Prop :=
  ∀ c, (s.card c).stopsOk (fun i => (s.slot i).state = .cancelling) ∧
    ∀ i, (s.card c).cancelNotice = some i → (s.slot i).state = .cancelling ∧ s.slotCard i = some c

/-- RESET holds the engine in INITIALIZING with BCLR released, and there every slot is FREE or DONE (R3, R121, R197). -/
def State.startOk (s : State) : Prop :=
  (s.resetPin = true → s.engine = .initializing ∧ s.bclr = false) ∧
    (s.engine = .initializing → ∀ i, (s.slot i).state = .free ∨ (s.slot i).state = .done)

/-- The slots and every list that holds them agree. -/
def State.listsOk (s : State) : Prop :=
  s.queuesOk ∧ s.orderOk ∧ s.activeOk ∧ s.namesOk ∧ s.stopsOk ∧ s.startOk ∧ s.causesOk

/-! ## Frames -/

/-- Every card position but `c` is as before. -/
def State.sameCardsBut (s t : State) (c : CardId) : Prop := ∀ d, d ≠ c → t.card d = s.card d

/-- Every slot but `i` has the state and cause it had. -/
def State.sameSlotsBut (s t : State) (i : SlotId) : Prop := ∀ j, j ≠ i → t.slot j = s.slot j

/-- Every byte of the exchange memory below `lo` and from `hi` on reads as before. -/
def State.sameBytesBut (s t : State) (lo hi : Nat) : Prop := ∀ a, a < lo ∨ hi ≤ a → readByte t.mem a = readByte s.mem a

/-- Every byte of the exchange memory reads as before. -/
def State.sameBytes (s t : State) : Prop := ∀ a, readByte t.mem a = readByte s.mem a

/-! ## The end of a slot -/

/-- The passage of slot `i` to DONE from `s` to `u` (R20, R56): words 4, 5 and 6, the slot's state and cause, the acceptance-order list,
and of the cards at most a cancel notice under way. -/
def State.endsSlot (s u : State) (i : SlotId) (o : JobOutcome) (w5 w6 : Word) : Prop :=
  u.slot i = { state := .done, cause := none } ∧ s.sameSlotsBut u i ∧
    u.slotWord i 4 = o.code ∧ u.slotWord i 5 = w5 ∧ u.slotWord i 6 = w6 ∧ s.sameBytesBut u (slotAddr i 4) (slotAddr i 7) ∧
    u.acceptOrder = (s.acceptOrder.filter fun j => j ≠ i) ∧
    (∀ d, { u.card d with cancelNotice := (s.card d).cancelNotice } = s.card d) ∧
    { u with mem := s.mem, slots := s.slots, acceptOrder := s.acceptOrder, cards := s.cards } = s

/-- The JOB_DONE notice of slot `i` as it stood in `s`, handed on if its word 1 has NOTIFY set (R20). -/
def State.notifyDone (s u : State) (i : SlotId) (o : JobOutcome) (w5 w6 : Word) : State :=
  if headerNotify (s.slotWord i 1) then
    u.post { kind := .jobDone, card := s.slotCard i, slot := some i, jobSeq := s.slotWord i 7, code := o.code, valueA := w5
             valueB := w6 }
  else u

/-- The JOB_DONE notice of slot `i`, if its word 1 has NOTIFY set (R20). -/
def State.doneNotices (s : State) (i : SlotId) (o : JobOutcome) (w5 w6 : Word) : List Notice :=
  if headerNotify (s.slotWord i 1) then
    [{ kind := .jobDone, card := s.slotCard i, slot := some i, jobSeq := s.slotWord i 7, code := o.code, valueA := w5, valueB := w6 }]
  else []

/-- The notice list of `t` is what it is after notices `ns`, in this order, have been handed on from `s` (R164). -/
def State.postsInOrder (s t : State) (ns : List Notice) : Prop :=
  let u := ns.foldl State.post s
  t.produced = u.produced ∧ t.lost = u.lost ∧ ∀ a, 0x0520 ≤ a → a ≤ 0x091F → readByte t.mem a = readByte u.mem a

/-! ## The slot a start takes -/

/-- The slot that starts on card `c`: the head of a READY card's queue, the first slot with RECOVERY set of a FAULTED card's (R59). -/
def State.startsSlot (s : State) (c : CardId) (i : SlotId) : Prop :=
  ((s.card c).presence = .ready ∧ (s.card c).queue.head? = some i) ∨
    ((s.card c).presence = .faulted ∧ ∃ front back, (s.card c).queue = front ++ i :: back ∧
      headerRecovery (s.slotWord i 1) = true ∧ ∀ j ∈ front, headerRecovery (s.slotWord j 1) = false)

/-! ## The bus -/

/-- The word a strobe that begins in `s` for request `r` drives: the request's own, or of a burst out the stream word next to move,
read from its page (R81, R103, R108). -/
def State.drives (s : State) (r : Request) (w : Word) : Prop :=
  (r.kind ≠ .burstOut → w = r.data) ∧
    (r.kind = .burstOut → ∀ (e : StepRecord) (m : StreamRec), (s.card r.card).seq.copy = some e → (s.card r.card).stream = some m →
      64 * e.w1.toNat + m.wordsMoved < 8192 → w = s.word (0x4000 + 128 * e.w1.toNat + 2 * m.wordsMoved))

/-- The tenure that begins in `s` for a granted request, timed by the latched profile as it stands (R97, R109, R110). -/
def State.begins (s : State) (r : Request) (t : Tenure) : Prop :=
  let p := (s.card r.card).profile
  t.req = r ∧ t.timing.strobeWidth = p.strobeWidth ∧ t.timing.recoveryWidth = p.recoveryWidth ∧
    t.timing.readyTimeout = p.readyTimeout ∧ t.timing.stallTimeout = p.stallTimeout ∧
    t.phase = (if r.kind = .abandon then .recovery else .strobe) ∧ t.mark = .going ∧ t.strobe = 0 ∧ t.moved = 0 ∧ t.values = [] ∧
    s.drives r t.driven

/-- The release of the strobe of tenure `t` with STOP and D0–D15 as given: by STROBE_WIDTH_END with RDY high, or by RDY_RISE on a
stretched strobe (R98). -/
def State.releases (s : State) (t : Tenure) (stop : Bool) (data : Word) (c : Instr) : Prop :=
  s.tenure = some t ∧ t.mark = .going ∧
    (t.phase = .strobe ∧ c = .strobeWidthEnd true stop data ∨ t.phase = .stretch ∧ c = .rdyRise stop data)

/-- The tenure in flight of card `c` has run out its last recovery width with nothing against it, and the sequencer of `c` is in TENURE
with slot `i` active and step copy `e`. -/
def State.jobTenureOver (s : State) (t : Tenure) (i : SlotId) (e : StepRecord) : Prop :=
  s.tenure = some t ∧ t.phase = .recovery ∧ (s.card t.req.card).seq.active = some i ∧ (s.card t.req.card).seq.phase = .tenure ∧
    (s.card t.req.card).seq.copy = some e

/-- A card whose sequencer enters BUS_WAIT with request `r` at the arbiter (R36). -/
def Card.asks (k : Card) (r : Request) : Card := { k with jobReq := some r, seq := { k.seq with phase := .busWait } }

/-- The register number of a step copy, as every request of the step names it. -/
def StepRecord.register (e : StepRecord) : Reg := BitVec.ofNat 6 (highByte e.w0)

/-- The abandon tenure's request (R93, R109). -/
def abandonRequest (c : CardId) (e : StepRecord) : Request :=
  { card := c, kind := .abandon, regs := [e.register], count := 0, data := 0, opening := false }

/-! ## Attention -/

/-- The detector a re-arm leaves (R126). -/
def Card.rearmsTo (k : Card) (d : Detector) : Prop :=
  (k.presence ≠ .ready ∨ k.profile.sense = .off → d = .disarmed) ∧
    (k.presence = .ready → k.profile.sense = .rising ∨ k.profile.sense = .falling → d = .armed) ∧
    (k.presence = .ready → k.profile.sense = .levelHigh → d = if k.atnLine then .masked else .armed) ∧
    (k.presence = .ready → k.profile.sense = .levelLow → d = if k.atnLine then .armed else .masked)

/-- The detector and the judgement of a change of the line to `level` in a READY card's engine states: the detector after it, and whether
it is a detection (R124, R125). -/
def Card.judges (k : Card) (level : Bool) (d : Detector) (detected : Bool) : Prop :=
  (k.detector = .disarmed ∧ d = .disarmed ∧ detected = false) ∨
    (k.detector = .armed ∧ k.profile.sense = .rising ∧ d = .armed ∧ detected = (level && !k.baseline)) ∨
    (k.detector = .armed ∧ k.profile.sense = .falling ∧ d = .armed ∧ detected = (!level && k.baseline)) ∨
    (k.detector = .armed ∧ (k.profile.sense = .levelHigh ∧ level = true ∨ k.profile.sense = .levelLow ∧ level = false) ∧
      d = .masked ∧ detected = true) ∨
    (k.detector = .masked ∧ (k.profile.sense = .levelHigh ∧ level = false ∨ k.profile.sense = .levelLow ∧ level = true) ∧
      d = .armed ∧ detected = false)

/-- The end of an attention's read takes READING to QUIET, and leaves a newer attention as it is (log 18). -/
def Card.quieted (k : Card) : Card := { k with attnPhase := if k.attnPhase = .reading then .quiet else k.attnPhase }

/-- From `s` to `u` the values read stand in the snapshot words of their places, word 13 counts the attention, and nothing else has
changed (R131). -/
def State.snapshotTaken (s u : State) (c : CardId) (values : List Word) : Prop :=
  (∀ n v, values[n]? = some v → u.profileWord c (9 + n) = v) ∧ u.profileWord c 13 = s.profileWord c 13 + 1 ∧
    (∀ a, (a < profileAddr c 9 ∨ profileAddr c (9 + values.length) ≤ a) → (a < profileAddr c 13 ∨ profileAddr c 14 ≤ a) →
      readByte u.mem a = readByte s.mem a) ∧
    { u with mem := s.mem } = s

/-! ## Hardware reset -/

/-- A card position as the chapters give it after hardware reset (R26, R53, R68, R74, R115, R122, R142), with no message under way to or
from its sequencer (R69: no active slot; log 19, log 20). -/
def Card.initial (k : Card) : Prop :=
  k.presence = .absent ∧ k.settle = 0 ∧ k.crst = false ∧ k.queue = [] ∧
    k.profile.strobeWidth = 10 ∧ k.profile.recoveryWidth = 5 ∧ k.profile.readyTimeout = 100 ∧ k.profile.stallTimeout = 100 ∧
    k.profile.sense = .off ∧ k.profile.readList = [] ∧
    k.seq.active = none ∧ k.seq.stepIndex = 0 ∧ k.seq.copy = none ∧ k.seq.phase = .idle ∧ k.seq.stop = false ∧ k.stream = none ∧
    k.detector = .disarmed ∧ k.baseline = false ∧ k.attnPhase = .quiet ∧ k.voidRead = false ∧ k.claimable = false ∧
    k.attnReq = none ∧ k.jobReq = none ∧ k.startedFaulted = false ∧ k.endReport = none ∧ k.cancelNotice = none ∧
    k.leaseGrant = false

/-- The part as the chapters give it while RESET is asserted (R3, R6, R53, R75, R110, R115, R162, R188, R189, R192, R196, R202). -/
def State.initial (s : State) : Prop :=
  s.engine = .initializing ∧ s.ctrlRun = false ∧ s.ctrlPresence = false ∧ s.ctrlInterrupt = false ∧
    s.statDiscard = false ∧ s.statRefused = false ∧ s.tally = 0 ∧ s.produced = 0 ∧ s.consumed = 0 ∧ s.lost = 0 ∧
    s.acceptSeq = 0 ∧ s.msClock = 0 ∧ s.refusedCount = 0 ∧ s.discardCount = 0 ∧ s.discardAddr = 0 ∧
    (∀ i, s.slot i = { state := .free, cause := none }) ∧ s.acceptOrder = [] ∧ (∀ c, (s.card c).initial) ∧
    (∀ p, s.pageHolder.get p = none) ∧ (∀ i, s.breach.get i = none) ∧ s.leaseWaiting = [] ∧ s.tenure = none ∧
    s.attnPtr = 7 ∧ s.jobPtr = 7

end Sys2Proof.Machine
end

