-- ==== Sys2Proof/Certificates/Slice0/Obligations.lean ====
section
/-! DEFINITION. The statements for the provers. A statement about a command says, of every state and operands that meet its hypotheses,
that exec answers a next state and what that state holds, with what it leaves unchanged. -/

open Sys2Proof Sys2Proof.Machine

/-! ## The machine -/

/-- A step runs the command at the front of the queue on the state with the queue's rest; with no command waiting nothing changes (the idle
step is the model's choice, log 3). -/
def Obligations.StepRunsFrontCommand : Prop :=
  (∀ (s : State) (c : Instr) (rest : List Instr), s.pending = c :: rest → step s = exec c { s with pending := rest }) ∧
    ∀ s : State, s.pending = [] → step s = .next s

/-- No command faults or is refused, and no command reaches into the queue of those that wait (the model's choice, log 27). -/
def Obligations.EveryStepGoesOn : Prop :=
  (∀ (c : Instr) (s : State), ∃ t, exec c s = .next t ∧ t.pending = s.pending) ∧
    ∀ s : State, ∃ t, step s = .next t ∧ t.pending = s.pending.tail

/-! ## Invariants -/

/-- Every step keeps the exchange memory in canonical form, and, while RESET is released, the constant header words as initialisation wrote
them: signature, revision, and 0 in words 12–15 (R187, R190). The canonical form is the model's own (log 14). -/
def Obligations.StepKeepsMemoryCanonical : Prop :=
  ∀ s t : State, step s = .next t → (s.memOk → t.memOk) ∧ (s.headerOk → t.headerOk)

/-- Every step keeps the notices in the list between 0 and 64 (R163), a cancel cause at the CANCELLING slots and at no other (R3), and RUN,
RESET and BCLR in agreement with the engine state (R121, R197, R199, R200). -/
def Obligations.StepKeepsCountsCausesLevels : Prop :=
  ∀ s t : State, step s = .next t → (s.ringOk → t.ringOk) ∧ (s.causesOk → t.causesOk) ∧ (s.runOk → t.runOk)

/-- Every step keeps every card position and the tenure in flight as R26, R36, R115, R116, R126, R144, R146 and R161 leave them. -/
def Obligations.StepKeepsCardsInOrder : Prop := ∀ s t : State, s.serviceOk → step s = .next t → t.serviceOk

/-- Every step keeps the slots and the lists that hold them in agreement: the card queues hold exactly the FILED slots, each in the queue of
the card it names (R55), the acceptance-order list exactly the FILED, ACTIVE and CANCELLING slots (R56), neither with duplicates, and the
slots in progress are the active slots of the cards they name. So a card has at most one slot in progress (R57). -/
def Obligations.StepKeepsSlotsListed : Prop :=
  (∀ s t : State, s.listsOk → step s = .next t → t.listsOk) ∧
    ∀ (s : State) (c : CardId) (i j : SlotId), s.listsOk → s.slotCard i = some c → s.slotCard j = some c →
      ((s.slot i).state = .active ∨ (s.slot i).state = .cancelling) → ((s.slot j).state = .active ∨ (s.slot j).state = .cancelling) →
      i = j

/-- The invariants hold at reset. -/
def Obligations.InvariantsHoldAtReset : Prop :=
  State.reset.memOk ∧ State.reset.headerOk ∧ State.reset.ringOk ∧ State.reset.causesOk ∧ State.reset.runOk ∧ State.reset.serviceOk ∧
    State.reset.listsOk

/-- Only a host write, a hardware reset's zero-fill and the strobes of a burst in change a byte that is the host's to write: words 1–3 of a
slot, words 0–7 of a profile, the step area, and, the burst strobes set aside, the data pages (R180, R183). That HARDWARE_RESET itself
leaves the bytes until the zero-fill is the model's choice (log 13). -/
def Obligations.PartLeavesHostWordsAlone : Prop :=
  ∀ (c : Instr) (s t : State) (a : Nat), exec c s = .next t →
    (∀ (adr : WordAddr) (v : Word), c ≠ .hostExchangeWrite adr v) → c ≠ .resetRelease →
    ((∃ (i : SlotId) (w : Nat), 1 ≤ w ∧ w ≤ 3 ∧ (a = slotAddr i w ∨ a = slotAddr i w + 1)) ∨
      (∃ (k : CardId) (w : Nat), w ≤ 7 ∧ (a = profileAddr k w ∨ a = profileAddr k w + 1)) ∨ (0x0920 ≤ a ∧ a ≤ 0x3FFF) ∨
      (0x4000 ≤ a ∧ (∀ r p d, c ≠ .strobeWidthEnd r p d) ∧ ∀ p d, c ≠ .rdyRise p d)) →
    readByte t.mem a = readByte s.mem a

/-! ## Resets -/

/-- HARDWARE_RESET puts every block in its initial state, with no message between blocks under way, which State.reset has too (R197). That
State.reset is the moment at which RESET is asserted (log 12), that the memory keeps its bytes until the zero-fill (log 13), and that the
attention lines and the queue are not the reset's (log 25), is the model's choice. -/
def Obligations.HardwareResetHoldsInitialState : Prop :=
  (∀ s : State, ∃ t, exec .hardwareReset s = .next t ∧ t.initial ∧ t.resetPin = true ∧ t.bclr = false ∧ s.sameBytes t ∧
    ∀ c, (t.card c).atnLine = (s.card c).atnLine) ∧
    State.reset.initial ∧ State.reset.resetPin = true ∧ State.reset.pending = []

/-- RESET_RELEASE zero-fills the exchange memory, writes signature and revision and begins the BCLR pulse; BCLR_PULSE_END releases BCLR and
passes the engine to HALTED, ending initialisation or an engine reset (R121, R187, R195, R197, R211). -/
def Obligations.InitialisationRunsToHalted : Prop :=
  (∀ s : State, s.resetPin = true → ∃ t, exec .resetRelease s = .next t ∧
    t.resetPin = false ∧ t.engine = .initializing ∧ t.bclr = true ∧ t.word 0 = 0x554B ∧ t.word 2 = 1 ∧
    (∀ a, 4 ≤ a → readByte t.mem a = 0) ∧
    { t with resetPin := s.resetPin, engine := s.engine, bclr := s.bclr, mem := s.mem } = s) ∧
  ∀ s : State, s.bclr = true → (s.engine = .initializing ∨ s.engine = .resetting) →
    exec .bclrPulseEnd s = .next { s with bclr := false, engine := .halted }

/-- ENGINE_RESET: what it ends, clears and cuts (R23, R122, R141, R161, R176, R207–R209). -/
def Obligations.EngineResetTakesDown : Prop :=
  ∀ (s : State) (w : Word), s.engine.closed = false → w.getLsbD 9 = true → ∃ t, exec (.engineReset w) s = .next t ∧
    t.engine = .resetting ∧ t.ctrlRun = false ∧ t.ctrlPresence = false ∧ t.ctrlInterrupt = false ∧
    (∀ i, t.slot i = (if (s.slot i).state = .filed ∨ (s.slot i).state = .active ∨ (s.slot i).state = .cancelling
      then { state := .done, cause := none } else s.slot i)) ∧
    (∀ i, t.slotWord i 4 = (if (s.slot i).state = .filed ∨ (s.slot i).state = .active ∨ (s.slot i).state = .cancelling
      then JobOutcome.engineReset.code else s.slotWord i 4)) ∧
    t.acceptOrder = [] ∧
    (∀ c, (t.card c).presence = .absent ∧ (t.card c).settle = 0 ∧ (t.card c).crst = false ∧ (t.card c).queue = [] ∧
      (t.card c).activeSlot = none ∧ (t.card c).seq.phase = .idle ∧ (t.card c).stream = none ∧ (t.card c).attnReq = none ∧
      (t.card c).jobReq = none ∧ (t.card c).detector = .disarmed ∧ (t.card c).attnPhase = .quiet ∧ (t.card c).voidRead = false ∧
      (t.card c).claimable = false ∧ (t.card c).profile = Profile.default ∧ (t.card c).atnLine = (s.card c).atnLine ∧
      (t.card c).seq.active = none ∧ (t.card c).seq.copy = none ∧ (t.card c).seq.stop = false ∧ (t.card c).seq.stepIndex = 0 ∧
      (t.card c).baseline = false ∧ (t.card c).endReport = none ∧ (t.card c).cancelNotice = none ∧ (t.card c).leaseGrant = false ∧
      t.profileWord c 14 = (if (s.card c).claimable then s.profileWord c 14 + 1 else s.profileWord c 14)) ∧
    (∀ p, t.pageHolder.get p = none) ∧ (∀ i, t.breach.get i = none) ∧ t.leaseWaiting = [] ∧ t.attnPtr = 7 ∧ t.jobPtr = 7 ∧
    t.tenure = s.tenure.map (fun x => { x with phase := .recovery, mark := .cut }) ∧ t.bclr = s.tenure.isNone ∧
    t.produced = 0 ∧ t.consumed = 0 ∧ t.lost = 0 ∧ (∀ a, 0x0520 ≤ a → a ≤ 0x091F → readByte t.mem a = 0) ∧
    t.tally = s.tally ∧ t.msClock = s.msClock ∧ t.acceptSeq = s.acceptSeq ∧ t.refusedCount = s.refusedCount ∧
    t.discardCount = s.discardCount ∧ t.discardAddr = s.discardAddr ∧ t.statDiscard = s.statDiscard ∧
    t.statRefused = s.statRefused ∧
    (∀ a, (∀ i, a < slotAddr i 4 ∨ slotAddr i 5 ≤ a) → (∀ c, a < profileAddr c 14 ∨ profileAddr c 15 ≤ a) →
      (a < 0x0520 ∨ 0x091F < a) → readByte t.mem a = readByte s.mem a)

/-! ## Slot intake -/

/-- The checks of a step record, kind by kind and in order: the kind, its fields, the pages of a stream step, its word count, with the
reason of the first that fails; a record that fails none is valid (R9, 11.8). -/
def Obligations.StepRecordChecks : Prop :=
  ∀ r : StepRecord,
    let kind := lowByte r.w0
    let fields : Prop :=
      (kind = 1 ∧ highByte r.w0 ≤ 63) ∨ (kind = 2 ∧ highByte r.w0 ≤ 63 ∧ r.w1.toNat ≤ 7) ∨
      (kind = 3 ∧ highByte r.w0 ≤ 63 ∧ 1 ≤ lowByte r.w3 ∧ 1 ≤ highByte r.w3) ∨
      (kind = 4 ∧ 1 ≤ r.w1.toNat ∧ highByte r.w0 ≤ 7) ∨ (kind = 5 ∧ 1 ≤ r.w1.toNat) ∨ kind = 6 ∨ (kind = 7 ∧ 1 ≤ r.w1.toNat) ∨
      ((kind = 8 ∨ kind = 9) ∧ highByte r.w0 ≤ 63)
    let pages : Prop := 1 ≤ r.w2.toNat ∧ r.w2.toNat ≤ 32 ∧ r.w1.toNat ≤ 127 ∧ r.w1.toNat + r.w2.toNat - 1 ≤ 127
    let words : Prop := 1 ≤ r.w3.toNat ∧ r.w3.toNat ≤ r.w2.toNat * 64
    ((kind = 0 ∨ 9 < kind) → r.invalid = some .stepKind) ∧
      (1 ≤ kind → kind ≤ 9 → ¬ fields → r.invalid = some .stepField) ∧
      (fields → kind = 8 ∨ kind = 9 → ¬ pages → r.invalid = some .pageRange) ∧
      (fields → kind = 8 ∨ kind = 9 → pages → ¬ words → r.invalid = some .wordCount) ∧
      (fields → (kind = 8 ∨ kind = 9 → pages ∧ words) → r.invalid = none)

/-- Filing validation: what passes, and the reason and step index of the first check that fails (R7, R8, R9). `n` steps at byte address `a`
are those words 2 and 3 name. -/
def Obligations.FilingChecksInOrder : Prop :=
  ∀ (s : State) (i : SlotId) (w1 : Word) (a n : Nat), w1 = s.slotWord i 1 → a = (s.slotWord i 2).toNat → n = (s.slotWord i 3).toNat →
    (7 < lowByte w1 → s.filingInvalid i = some (.cardRange, 0)) ∧
    ∀ c : CardId, lowByte w1 = c.val →
      (((s.card c).presence = .absent ∨ (s.card c).presence = .settling) → s.filingInvalid i = some (.cardNotReady, 0)) ∧
      (((s.card c).presence = .ready ∨ (s.card c).presence = .faulted) →
        (1 < headerClass w1 → s.filingInvalid i = some (.badClass, 0)) ∧
        (headerClass w1 ≤ 1 → (n < 1 ∨ 64 < n) → s.filingInvalid i = some (.countRange, 0)) ∧
        (headerClass w1 ≤ 1 → 1 ≤ n → n ≤ 64 →
          ((a % 8 ≠ 0 ∨ a < 0x0920 ∨ 0x3FFF < a ∨ 0x3FFF < a + 8 * n - 1) → s.filingInvalid i = some (.listPlace, 0)) ∧
          (a % 8 = 0 → 0x0920 ≤ a → a ≤ 0x3FFF → a + 8 * n - 1 ≤ 0x3FFF →
            ((∀ k, k < n → (s.readRecord (a + 8 * k)).invalid = none) → s.filingInvalid i = none) ∧
            ∀ (k : Nat) (why : Reason), k < n → (∀ j, j < k → (s.readRecord (a + 8 * j)).invalid = none) →
              (s.readRecord (a + 8 * k)).invalid = some why → s.filingInvalid i = some (why, k))))

/-- FILE in a FREE slot whose filing passes: the acceptance number, FILED, the card queue and the acceptance-order list (R5, R6, R54, R56).
-/
def Obligations.FileAccepted : Prop :=
  ∀ (s : State) (i : SlotId) (c : CardId), s.engine.closed = false → (s.slot i).state = .free → s.filingInvalid i = none →
    s.slotCard i = some c → ∃ t, exec (.file i) s = .next t ∧
      t.acceptSeq = s.acceptSeq + 1 ∧ t.slotWord i 7 = s.acceptSeq + 1 ∧ s.sameBytesBut t (slotAddr i 7) (slotAddr i 8) ∧
      t.slot i = { state := .filed, cause := none } ∧ s.sameSlotsBut t i ∧ t.acceptOrder = s.acceptOrder ++ [i] ∧
      (headerUrgent (s.slotWord i 1) = false → (t.card c).queue = (s.card c).queue ++ [i]) ∧
      (headerUrgent (s.slotWord i 1) = true → ∃ front back, (s.card c).queue = front ++ back ∧
        (t.card c).queue = front ++ i :: back ∧ (∀ j ∈ front, headerUrgent (s.slotWord j 1) = true) ∧
        ∀ j, back.head? = some j → headerUrgent (s.slotWord j 1) = false) ∧
      { t.card c with queue := (s.card c).queue } = s.card c ∧ s.sameCardsBut t c ∧
      { t with acceptSeq := s.acceptSeq, mem := s.mem, slots := s.slots, acceptOrder := s.acceptOrder, cards := s.cards } = s

/-- FILE in a FREE slot whose filing fails a check: DONE with REJECTED, reason and index in words 6 and 5 (R7). -/
def Obligations.FileRejected : Prop :=
  ∀ (s : State) (i : SlotId) (why : Reason) (idx : Nat), s.engine.closed = false → (s.slot i).state = .free →
    s.filingInvalid i = some (why, idx) → ∃ u,
      exec (.file i) s = .next (s.notifyDone u i .rejected (wordOf idx) why.code) ∧
      s.endsSlot u i .rejected (wordOf idx) why.code

/-- A request that its slot's state does not allow, and a value that is no request, are refused and change nothing else (R16, R189). -/
def Obligations.RequestsRefused : Prop :=
  ∀ (s : State) (i : SlotId) (v : Word), s.engine.closed = false →
    let refused : Word → Word → Host.Outcome State Fault Refusal := fun code reason =>
      .next (({ s with refusedCount := s.refusedCount + 1, statRefused := true } : State).post
        { kind := .requestRefused, card := if (s.slot i).state = .free then none else s.slotCard i, slot := some i
          jobSeq := s.slotWord i 7, code := code, valueA := (s.slot i).state.code, valueB := reason })
    ((s.slot i).state ≠ .free → exec (.file i) s = refused 0x0011 0) ∧
      ((s.slot i).state ≠ .filed → (s.slot i).state ≠ .active → exec (.cancel i) s = refused 0x0012 0) ∧
      ((s.slot i).state ≠ .done → exec (.release i) s = refused 0x0013 0) ∧
      (v ≠ 0x0011 → v ≠ 0x0012 → v ≠ 0x0013 → exec (.unknownRequest i v) s = refused v 10)

/-- CANCEL in FILED: out of the queue, word 5 is 0, word 4 CANCELLED, DONE, the notice. CANCEL in ACTIVE: CANCELLING with cause CANCEL, and
the cancel notice that names the slot is on its way to the card's sequencer (R12, R13). -/
def Obligations.CancelByState : Prop :=
  ∀ (s : State) (i : SlotId) (c : CardId), s.engine.closed = false → s.slotCard i = some c →
    ((s.slot i).state = .filed → ∃ u,
      exec (.cancel i) s = .next (s.notifyDone u i .cancelled 0 (s.slotWord i 6)) ∧
      (s.updCard c fun k => { k with queue := k.queue.filter fun j => j ≠ i }).endsSlot u i .cancelled 0 (s.slotWord i 6)) ∧
    ((s.slot i).state = .active → ∃ t, exec (.cancel i) s = .next t ∧
      t.slot i = { state := .cancelling, cause := some .cancel } ∧ s.sameSlotsBut t i ∧
      t.card c = { s.card c with cancelNotice := some i } ∧ s.sameCardsBut t c ∧ s.sameBytes t ∧
      { t with slots := s.slots, cards := s.cards } = s)

/-- RELEASE in DONE: words 4–15 hold 0 and the slot is FREE; words 1–3 and everything else keep (R15). -/
def Obligations.ReleaseFreesDoneSlot : Prop :=
  ∀ (s : State) (i : SlotId), s.engine.closed = false → (s.slot i).state = .done → ∃ t, exec (.release i) s = .next t ∧
    t.slot i = { state := .free, cause := none } ∧ s.sameSlotsBut t i ∧ (∀ w, 4 ≤ w → w < 16 → t.slotWord i w = 0) ∧
    s.sameBytesBut t (slotAddr i 4) (slotAddr i 16) ∧ { t with mem := s.mem, slots := s.slots } = s

/-- END_REPORT_TAKEN: the outcome by the slot's state, its cancel cause and the report's ending, words 5 and 6, DONE, the notice (R18, R19,
R20). A failure stands in CANCELLING; a COMPLETE or STOPPED report there gives the cause's outcome. -/
def Obligations.EndReportEndsSlot : Prop :=
  ∀ (s : State) (c : CardId) (i : SlotId) (e : Ending) (n : Nat) (o : JobOutcome) (w6 : Word),
    (s.card c).endReport = some { slot := i, ending := e, stepsDone := n } →
    (((s.slot i).state = .active ∨ (s.slot i).state = .cancelling) ∧
        ((∃ d, e = .failure o (some d) ∧ w6 = d) ∨ (e = .failure o none ∧ w6 = s.slotWord i 6)) ∨
      (s.slot i).state = .active ∧ e = .complete ∧ o = .complete ∧ w6 = s.slotWord i 6 ∨
      (s.slot i).state = .cancelling ∧ (e = .complete ∨ e = .stopped) ∧ w6 = s.slotWord i 6 ∧
        ((s.slot i).cause = some .cancel ∧ o = .cancelled ∨ (s.slot i).cause = some .hostLost ∧ o = .hostLost)) →
    ∃ u, exec (.endReportTaken c) s = .next (s.notifyDone u i o (wordOf n) w6) ∧
      u.slot i = { state := .done, cause := none } ∧ s.sameSlotsBut u i ∧
      u.slotWord i 4 = o.code ∧ u.slotWord i 5 = wordOf n ∧ u.slotWord i 6 = w6 ∧
      u.acceptOrder = (s.acceptOrder.filter fun j => j ≠ i) ∧ (u.card c).endReport = none ∧
      (u.card c).seq = (s.card c).seq ∧ (u.card c).queue = (s.card c).queue ∧ (u.card c).profile = (s.card c).profile ∧
      (∀ d, d ≠ c → { u.card d with cancelNotice := (s.card d).cancelNotice } = s.card d) ∧
      (∀ a, (a < slotAddr i 4 ∨ slotAddr i 7 ≤ a) → (a < profileAddr c 14 ∨ profileAddr c 15 ≤ a) →
        readByte u.mem a = readByte s.mem a) ∧
      { u with mem := s.mem, slots := s.slots, acceptOrder := s.acceptOrder, cards := s.cards, engine := s.engine } = s

/-- END_REPORT_TAKEN at the card and the engine: an unclaimed attention is cleared and counted (R135), a COMPLETE job that started on the
FAULTED card returns it to READY and re-arms its detector (R126, R154), and in DRAINING the last slot in progress takes the engine to HALTED
(R201). A failure report names an outcome other than COMPLETE (R18). -/
def Obligations.EndReportAtCardAndEngine : Prop :=
  ∀ (s t : State) (c : CardId) (i : SlotId) (e : Ending) (n : Nat),
    (s.card c).endReport = some { slot := i, ending := e, stepsDone := n } →
    ((s.slot i).state = .active ∧ e ≠ .stopped ∨ (s.slot i).state = .cancelling ∧ (s.slot i).cause.isSome = true) →
    (∀ d, e ≠ .failure .complete d) → exec (.endReportTaken c) s = .next t →
    (t.card c).claimable = false ∧
      t.profileWord c 14 = (if (s.card c).claimable then s.profileWord c 14 + 1 else s.profileWord c 14) ∧
      (t.card c).presence = (if (s.slot i).state = .active ∧ e = .complete ∧ (s.card c).startedFaulted = true ∧
        (s.card c).presence = .faulted then .ready else (s.card c).presence) ∧
      ((s.slot i).state = .active → e = .complete → (s.card c).startedFaulted = true → (s.card c).presence = .faulted →
        ({ s.card c with presence := .ready } : Card).rearmsTo (t.card c).detector ∧ (t.card c).baseline = (s.card c).atnLine) ∧
      (¬ ((s.slot i).state = .active ∧ e = .complete ∧ (s.card c).startedFaulted = true ∧ (s.card c).presence = .faulted) →
        (t.card c).detector = (s.card c).detector ∧ (t.card c).baseline = (s.card c).baseline) ∧
      (s.engine = .draining → (∀ j, j ≠ i → (s.slot j).state ≠ .active ∧ (s.slot j).state ≠ .cancelling) → t.engine = .halted) ∧
      (s.engine = .draining → (∃ j, j ≠ i ∧ ((s.slot j).state = .active ∨ (s.slot j).state = .cancelling)) →
        t.engine = .draining) ∧
      (s.engine ≠ .draining → t.engine = s.engine)

/-! ## The host port and the write monitor -/

/-- A host write to a host-owned word, or to a data page, is stored as written and read back by the next host read (R178, R182, R183). -/
def Obligations.HostWriteStored : Prop :=
  ∀ (s : State) (a : WordAddr) (v : Word), s.engine.closed = false → s.resetPin = false →
    ((∃ (i : SlotId) (w : Nat), (s.slot i).state = .free ∧ 1 ≤ w ∧ w ≤ 3 ∧ 2 * a.toNat = slotAddr i w) ∨
      (∃ (c : CardId) (w : Nat), w ≤ 7 ∧ 2 * a.toNat = profileAddr c w) ∨ 0x0920 ≤ 2 * a.toNat) →
    ∃ t, exec (.hostExchangeWrite a v) s = .next t ∧ t.exchangeRead a = v ∧
      s.sameBytesBut t (2 * a.toNat) (2 * a.toNat + 2) ∧
      { t with mem := s.mem, breach := s.breach } = s ∧ (2 * a.toNat < 0x4000 → t.breach = s.breach)

/-- A host write into a leased page is the breach of the lease, the first one only (R91). `p` is the page of the word written. -/
def Obligations.PageWriteBreachesLease : Prop :=
  ∀ (s : State) (a : WordAddr) (v : Word) (p : PageId), s.engine.closed = false → 0x4000 + 128 * p.val ≤ 2 * a.toNat →
    2 * a.toNat < 0x4000 + 128 * (p.val + 1) → ∃ t, exec (.hostExchangeWrite a v) s = .next t ∧
      (s.pageHolder.get p = none → t.breach = s.breach) ∧
      ∀ i, s.pageHolder.get p = some i →
        t.breach.get i = (if s.breach.get i = none then some p else s.breach.get i) ∧
        ∀ j, j ≠ i → t.breach.get j = s.breach.get j

/-- A host write to a part-owned word is discarded and recorded, and changes nothing else (R184). -/
def Obligations.HostWriteDiscarded : Prop :=
  ∀ (s : State) (a : WordAddr) (v : Word), s.engine.closed = false →
    (2 * a.toNat < 0x0020 ∧ 2 * a.toNat ≠ 4 ∧ 2 * a.toNat ≠ 8 ∧ 2 * a.toNat ≠ 10 ∨
      (∃ (i : SlotId) (w : Nat), 1 ≤ w ∧ w ≤ 15 ∧ ((s.slot i).state ≠ .free ∨ 4 ≤ w) ∧ 2 * a.toNat = slotAddr i w) ∨
      (∃ (c : CardId) (w : Nat), 8 ≤ w ∧ w ≤ 15 ∧ 2 * a.toNat = profileAddr c w) ∨
      0x0520 ≤ 2 * a.toNat ∧ 2 * a.toNat ≤ 0x091F) →
    exec (.hostExchangeWrite a v) s =
      .next { s with discardAddr := wordOf (2 * a.toNat), discardCount := s.discardCount + 1, statDiscard := true }

/-- In INITIALIZING a host write to the exchange memory changes nothing; in RESETTING it is discarded and recorded, a request or a guarded
word's write like any other; and a CTRL write is ignored in both (R2, R186, R191, R198). -/
def Obligations.ClosedStatesTakeNoWrite : Prop :=
  ∀ (s : State) (i : SlotId) (a : WordAddr) (v : Word),
    (s.engine = .initializing →
      exec (.file i) s = .next s ∧ exec (.cancel i) s = .next s ∧ exec (.release i) s = .next s ∧
      exec (.unknownRequest i v) s = .next s ∧ exec (.hostExchangeWrite a v) s = .next s ∧
      exec (.presenceTallyWrite v) s = .next s ∧ exec (.noticesConsumedWrite v) s = .next s ∧
      exec (.noticesLostWrite v) s = .next s) ∧
    (s.engine = .resetting →
      let kept : Nat → Host.Outcome State Fault Refusal := fun adr =>
        .next { s with discardAddr := wordOf adr, discardCount := s.discardCount + 1, statDiscard := true }
      exec (.file i) s = kept (slotAddr i 0) ∧ exec (.cancel i) s = kept (slotAddr i 0) ∧
      exec (.release i) s = kept (slotAddr i 0) ∧ exec (.unknownRequest i v) s = kept (slotAddr i 0) ∧
      exec (.hostExchangeWrite a v) s = kept (2 * a.toNat) ∧ exec (.presenceTallyWrite v) s = kept 4 ∧
      exec (.noticesConsumedWrite v) s = kept 8 ∧ exec (.noticesLostWrite v) s = kept 10) ∧
    ((s.engine = .initializing ∨ s.engine = .resetting) →
      exec (.runSet v) s = .next s ∧ exec (.runClear v) s = .next s ∧ exec (.presenceLevel v) s = .next s ∧
      exec (.interruptLevel v) s = .next s ∧ exec (.resume v) s = .next s ∧ exec (.engineReset v) s = .next s)

/-- PRESENCE_TALLY_WRITE: every value is taken (R203). NOTICES_CONSUMED_WRITE: a count whose advance on the present consumed count is not
greater than the span is taken, and any other refused (R171). NOTICES_LOST_WRITE: 0 is taken, any other value refused (R173). A refusal
counts in header word 9 and sets REFUSED (R174). Nothing else changes. -/
def Obligations.GuardedHeaderWritesJudged : Prop :=
  ∀ (s : State) (v : Word), s.engine.closed = false →
    let refused : Host.Outcome State Fault Refusal := .next { s with refusedCount := s.refusedCount + 1, statRefused := true }
    exec (.presenceTallyWrite v) s = .next { s with tally := v } ∧
    ((v - s.consumed).toNat ≤ (s.produced - s.consumed).toNat →
      exec (.noticesConsumedWrite v) s = .next { s with consumed := v }) ∧
    ((s.produced - s.consumed).toNat < (v - s.consumed).toNat → exec (.noticesConsumedWrite v) s = refused) ∧
    (v = 0 → exec (.noticesLostWrite v) s = .next { s with lost := 0 }) ∧ (v ≠ 0 → exec (.noticesLostWrite v) s = refused)

/-- STAT writes clear the sticky flags whose bits are written 1, and nothing else (R192). A window write that no register takes, IDENT's
among them, changes nothing, and IDENT reads the same in every state (R177, R193). -/
def Obligations.StatAndIgnoredWrites : Prop :=
  ∀ (s : State) (w : Word),
    (w.getLsbD 8 = true → exec (.statClearDiscard w) s =
      .next { s with statDiscard := false, statRefused := s.statRefused && !w.getLsbD 9 }) ∧
    (w.getLsbD 9 = true → exec (.statClearRefused w) s =
      .next { s with statDiscard := s.statDiscard && !w.getLsbD 8, statRefused := false }) ∧
    (∀ target : IgnoredTarget, exec (.ignoredWindowWrite target w) s = .next s) ∧ (s.resetPin = false → s.windowRead 2 = 0x2601)

/-- What the host reads: in the exchange memory the header, the slot control words, the card state words and every other word as stored; in
the register window STAT, CTRL and the fourth position; with both selects asserted 0. With them INTR, the fields of the card state word, and
the bits of CTRL and STAT that read 0 (R69, R175, R177, R179, R187, R190, R192, R194, R196, R215, 11.4). -/
def Obligations.HostReadsShowState : Prop :=
  (∀ s : State, s.hostRead .bothSelects = 0 ∧ (∀ a, s.hostRead (.exchange a) = s.exchangeRead a) ∧
    ∀ p, s.hostRead (.window p) = s.windowRead p) ∧
  (∀ s : State, s.resetPin = false →
    (s.engine = .initializing → ∀ a, s.exchangeRead a = 0) ∧
    (s.engine ≠ .initializing →
      (s.headerOk → s.exchangeRead 0 = 0x554B ∧ s.exchangeRead 1 = 1 ∧ s.exchangeRead 12 = 0 ∧ s.exchangeRead 13 = 0 ∧
        s.exchangeRead 14 = 0 ∧ s.exchangeRead 15 = 0) ∧
      s.exchangeRead 2 = s.tally ∧ s.exchangeRead 3 = s.produced ∧ s.exchangeRead 4 = s.consumed ∧ s.exchangeRead 5 = s.lost ∧
      s.exchangeRead 6 = s.acceptSeq ∧ s.exchangeRead 7 = s.engine.code ∧ s.exchangeRead 8 = s.msClock ∧
      s.exchangeRead 9 = s.refusedCount ∧ s.exchangeRead 10 = s.discardCount ∧ s.exchangeRead 11 = s.discardAddr ∧
      ∀ a : WordAddr,
        (∀ i : SlotId, 2 * a.toNat = slotAddr i 0 → s.exchangeRead a = (s.slot i).state.code) ∧
        (∀ c : CardId, 2 * a.toNat = profileAddr c 8 → s.exchangeRead a = (s.card c).stateWord) ∧
        (0x0020 ≤ 2 * a.toNat → (∀ i : SlotId, 2 * a.toNat ≠ slotAddr i 0) → (∀ c : CardId, 2 * a.toNat ≠ profileAddr c 8) →
          s.exchangeRead a = s.word (2 * a.toNat))) ∧
    ((s.windowRead 1).extractLsb' 0 4 = s.engine.code.extractLsb' 0 4 ∧
      (s.windowRead 1).getLsbD 4 = (s.produced != s.consumed) ∧ (s.windowRead 1).getLsbD 5 = (s.lost != 0) ∧
      (s.windowRead 1).getLsbD 8 = s.statDiscard ∧ (s.windowRead 1).getLsbD 9 = s.statRefused ∧
      ∀ n, n = 3 ∨ n = 6 ∨ n = 7 ∨ 10 ≤ n → (s.windowRead 1).getLsbD n = false) ∧
    ((s.windowRead 0).getLsbD 0 = s.ctrlRun ∧ (s.windowRead 0).getLsbD 1 = s.ctrlPresence ∧
      (s.windowRead 0).getLsbD 2 = s.ctrlInterrupt ∧ ∀ n, 3 ≤ n → (s.windowRead 0).getLsbD n = false) ∧
    s.windowRead 3 = 0 ∧
    s.intr = (s.ctrlInterrupt && (s.produced != s.consumed || s.lost != 0))) ∧
  ∀ k : Card, k.queue.length ≤ 32 →
    (k.stateWord).extractLsb' 0 2 = k.presence.code.extractLsb' 0 2 ∧
    k.stateWord.getLsbD 2 = (k.attnPhase != .quiet) ∧ k.stateWord.getLsbD 3 = k.claimable ∧
    k.stateWord.getLsbD 9 = k.activeSlot.isSome ∧ (∀ i, k.activeSlot = some i → (k.stateWord.extractLsb' 4 5).toNat = i.val) ∧
    (k.activeSlot = none → k.stateWord.extractLsb' 4 5 = 0) ∧ (k.stateWord.extractLsb' 10 6).toNat = k.queue.length

/-! ## CTRL -/

/-- RUN_SET with RUN 0: HALTED and DRAINING pass to RUNNING, STANDSTILL stays. RUN_CLEAR with RUN 1: RUNNING passes to DRAINING while a slot
is ACTIVE or CANCELLING and to HALTED otherwise, STANDSTILL stays. A CTRL write that keeps RUN leaves the engine state. The three levels
take the values written, and INTR follows (R175, R198, R199, R200). -/
def Obligations.RunChangesEngineState : Prop :=
  (∀ (s : State) (w : Word), w.getLsbD 8 = false → w.getLsbD 9 = false →
    let next : EngineState → Host.Outcome State Fault Refusal := fun e =>
      .next { s with ctrlRun := w.getLsbD 0, ctrlPresence := w.getLsbD 1, ctrlInterrupt := w.getLsbD 2, engine := e }
    (w.getLsbD 0 = true → s.ctrlRun = false →
      ((s.engine = .halted ∨ s.engine = .draining) → exec (.runSet w) s = next .running) ∧
      (s.engine = .standstill → exec (.runSet w) s = next .standstill)) ∧
    (w.getLsbD 0 = false → s.ctrlRun = true →
      (s.engine = .running → (∃ i, (s.slot i).state = .active ∨ (s.slot i).state = .cancelling) →
        exec (.runClear w) s = next .draining) ∧
      (s.engine = .running → (∀ i, (s.slot i).state ≠ .active ∧ (s.slot i).state ≠ .cancelling) →
        exec (.runClear w) s = next .halted) ∧
      (s.engine = .standstill → exec (.runClear w) s = next .standstill))) ∧
  ∀ (s : State) (w : Word), s.engine.closed = false → w.getLsbD 0 = s.ctrlRun → w.getLsbD 8 = false → w.getLsbD 9 = false →
    exec (.presenceLevel w) s = .next { s with ctrlPresence := w.getLsbD 1, ctrlInterrupt := w.getLsbD 2 } ∧
    ∃ t, exec (.interruptLevel w) s = .next t ∧ t = { s with ctrlPresence := w.getLsbD 1, ctrlInterrupt := w.getLsbD 2 } ∧
      t.intr = (w.getLsbD 2 && (s.produced != s.consumed || s.lost != 0))

/-- RESUME in STANDSTILL: refused with PRESENCE set and the tally 0; else RUNNING with RUN set, and DRAINING or HALTED with RUN clear. The
levels of the same write are taken first. In HALTED, RUNNING and DRAINING a RESUME has no effect: the write does what it would do without it
(R198, R206). -/
def Obligations.ResumeLeavesStandstill : Prop :=
  (∀ (s : State) (w : Word), s.engine = .standstill → w.getLsbD 8 = true → w.getLsbD 9 = false →
    let levels : State := { s with ctrlRun := w.getLsbD 0, ctrlPresence := w.getLsbD 1, ctrlInterrupt := w.getLsbD 2 }
    (w.getLsbD 1 = true → s.tally = 0 → exec (.resume w) s =
      .next { levels with refusedCount := s.refusedCount + 1, statRefused := true }) ∧
    (w.getLsbD 1 = false ∨ s.tally ≠ 0 →
      (w.getLsbD 0 = true → exec (.resume w) s = .next { levels with engine := .running }) ∧
      (w.getLsbD 0 = false → (∃ i, (s.slot i).state = .active ∨ (s.slot i).state = .cancelling) →
        exec (.resume w) s = .next { levels with engine := .draining }) ∧
      (w.getLsbD 0 = false → (∀ i, (s.slot i).state ≠ .active ∧ (s.slot i).state ≠ .cancelling) →
        exec (.resume w) s = .next { levels with engine := .halted }))) ∧
  ∀ (s : State) (w v : Word), (s.engine = .halted ∨ s.engine = .running ∨ s.engine = .draining) → w.getLsbD 8 = true →
    w.getLsbD 9 = false → v = w &&& 0x0007 →
    exec (.resume w) s = exec (.presenceLevel v) s ∧
      (w.getLsbD 0 = s.ctrlRun → exec (.resume w) s = .next { s with ctrlPresence := w.getLsbD 1, ctrlInterrupt := w.getLsbD 2 })

/-! ## Ticks -/

/-- MS_CLOCK_TICK: the millisecond clock stands in INITIALIZING and rises by one, wrapping, in every other state (R188). PRESENCE_TICK
counts the tally down while PRESENCE is set and the engine is RUNNING or DRAINING, and does nothing otherwise (R202). -/
def Obligations.TicksCount : Prop :=
  ∀ s : State, (s.engine = .initializing → exec .msClockTick s = .next s) ∧
    (s.engine ≠ .initializing → exec .msClockTick s = .next { s with msClock := s.msClock + 1 }) ∧
    (s.ctrlPresence = true → (s.engine = .running ∨ s.engine = .draining) → 2 ≤ s.tally.toNat →
      exec .presenceTick s = .next { s with tally := s.tally - 1 }) ∧
    ((s.ctrlPresence = false ∨ (s.engine ≠ .running ∧ s.engine ≠ .draining)) → exec .presenceTick s = .next s)

/-- The tick that finds the tally at 1 or 0 enters STANDSTILL: every ACTIVE slot is CANCELLING with cause HOST_LOST, its card's sequencer is
told, and the STANDSTILL notice carries the count of slots and the state left (R21, R202, R204). That STANDSTILL_ENTRY and that
PRESENCE_TICK are one event under two names is the model's choice (log 8). -/
def Obligations.TallyRunsOutToStandstill : Prop :=
  ∀ s : State, s.ctrlPresence = true → (s.engine = .running ∨ s.engine = .draining) → s.tally.toNat ≤ 1 → ∃ u,
    (let t := u.post { kind := .standstill, card := none, slot := none, jobSeq := 0
                       code := 0, valueA := wordOf ((List.finRange 32).filter fun i => (s.slot i).state = .active).length
                       valueB := s.engine.code }
     exec .presenceTick s = .next t ∧ exec .standstillEntry s = .next t) ∧
    u.engine = .standstill ∧ u.tally = 0 ∧
    (∀ i, u.slot i = (if (s.slot i).state = .active then { state := .cancelling, cause := some .hostLost } else s.slot i)) ∧
    (∀ c i, (s.card c).activeSlot = some i → (s.slot i).state = .active → u.card c = { s.card c with cancelNotice := some i }) ∧
    (∀ c, (∀ i, (s.card c).activeSlot = some i → (s.slot i).state ≠ .active) → u.card c = s.card c) ∧ s.sameBytes u ∧
    { u with engine := s.engine, tally := s.tally, slots := s.slots, cards := s.cards } = s

/-! ## The notice writer -/

/-- A notice with room in the list is posted in the entry of its number modulo 64, with the millisecond clock and the notice count; one to a
full list is counted lost, up to 65535; one handed on in RESETTING or INITIALIZING is dropped uncounted (R162, R165, R166, R167, R176,
11.9). -/
def Obligations.NoticePostedLostOrDropped : Prop :=
  (∀ (s : State) (n : Notice), s.engine.closed = false → s.inList ≠ 64 →
    let entry := 0x0520 + 16 * (s.produced.toNat % 64)
    let t := s.post n
    t.produced = s.produced + 1 ∧
      (t.word entry).toNat = n.kind.code + 256 * (match n.card with | some c => c.val | none => 15) ∧
      (t.word (entry + 2)).toNat = (match n.slot with | some i => i.val | none => 0x00FF) ∧
      t.word (entry + 4) = n.jobSeq ∧ t.word (entry + 6) = n.code ∧ t.word (entry + 8) = n.valueA ∧
      t.word (entry + 10) = n.valueB ∧ t.word (entry + 12) = s.msClock ∧ t.word (entry + 14) = s.produced ∧
      s.sameBytesBut t entry (entry + 16) ∧ { t with mem := s.mem, produced := s.produced } = s) ∧
  ∀ (s : State) (n : Notice),
    (s.engine.closed = false → s.inList = 64 → s.lost.toNat < 65535 → s.post n = { s with lost := s.lost + 1 }) ∧
    (s.engine.closed = false → s.inList = 64 → s.lost.toNat = 65535 → s.post n = s) ∧
    ((s.engine = .resetting ∨ s.engine = .initializing) → s.post n = s)

/-! ## The dispatcher -/

/-- The checks of a profile in word order (R66): what passes, and the number of the first word out of range. -/
def Obligations.ProfileChecksInOrder : Prop :=
  ∀ p : ProfileWords,
    let ok : List Bool :=
      [decide (2 ≤ p.w0.toNat ∧ p.w0.toNat ≤ 63), decide (1 ≤ p.w1.toNat ∧ p.w1.toNat ≤ 63),
       decide (1 ≤ p.w2.toNat ∧ p.w2.toNat ≤ 1000), decide (1 ≤ p.w3.toNat ∧ p.w3.toNat ≤ 1000), decide (p.w4.toNat ≤ 4),
       decide (p.w5.toNat ≤ 4), decide (lowByte p.w6 ≤ 63 ∧ highByte p.w6 ≤ 63), decide (lowByte p.w7 ≤ 63 ∧ highByte p.w7 ≤ 63)]
    (p.invalid = none ↔ ∀ b ∈ ok, b = true) ∧
      ∀ n : Nat, p.invalid = some n ↔ ok[n]? = some false ∧ ∀ m, m < n → ok[m]? = some true

/-- JOB_START makes no start where a condition of R57 fails, and then nothing changes. With a profile word out of range the slot leaves the
queue and ends PROFILE_INVALID with the word's number, and the latched profile is kept (R17, R57, R61, R66). -/
def Obligations.StartNotMadeOrInvalid : Prop :=
  (∀ (s : State) (c : CardId),
    (s.engine ≠ .running ∨ (s.card c).activeSlot.isSome = true ∨ (s.card c).seq.phase ≠ .idle ∨ (s.card c).queue = [] ∨
      (s.card c).presence = .absent ∨ (s.card c).presence = .settling ∨
      ((s.card c).presence = .faulted ∧ ∀ i ∈ (s.card c).queue, headerRecovery (s.slotWord i 1) = false)) →
    exec (.jobStart c) s = .next s) ∧
  ∀ (s : State) (c : CardId) (i : SlotId) (n : Nat), s.engine = .running → (s.card c).activeSlot = none →
    (s.card c).seq.phase = .idle → s.startsSlot c i → (s.profileWords c).invalid = some n → ∃ u,
      exec (.jobStart c) s = .next (s.notifyDone u i .profileInvalid (s.slotWord i 5) (wordOf n)) ∧
      (s.updCard c fun k => { k with queue := k.queue.filter fun j => j ≠ i }).endsSlot u i .profileInvalid (s.slotWord i 5)
        (wordOf n)

/-- JOB_START with a valid profile: the slot is ACTIVE, out of the queue, still in its place in the acceptance-order list, and the card's
latched profile is what its profile words say (R17, R56, R61, R67). -/
def Obligations.StartActivatesSlot : Prop :=
  ∀ (s : State) (c : CardId) (i : SlotId), s.engine = .running → (s.card c).activeSlot = none → (s.card c).seq.phase = .idle →
    s.startsSlot c i → (s.profileWords c).invalid = none → ∃ t, exec (.jobStart c) s = .next t ∧
      t.slot i = { state := .active, cause := none } ∧ s.sameSlotsBut t i ∧ t.acceptOrder = s.acceptOrder ∧
      (t.card c).activeSlot = some i ∧ (t.card c).queue = ((s.card c).queue.filter fun j => j ≠ i) ∧
      (t.card c).presence = (s.card c).presence ∧ (t.card c).startedFaulted = decide ((s.card c).presence = .faulted) ∧
      (t.card c).profile.strobeWidth = s.profileWord c 0 ∧ (t.card c).profile.recoveryWidth = s.profileWord c 1 ∧
      (t.card c).profile.readyTimeout = s.profileWord c 2 ∧ (t.card c).profile.stallTimeout = s.profileWord c 3 ∧
      senseOf (s.profileWord c 4) = some (t.card c).profile.sense ∧
      (t.card c).profile.readList = ([BitVec.ofNat 6 (lowByte (s.profileWord c 6)), BitVec.ofNat 6 (highByte (s.profileWord c 6)),
        BitVec.ofNat 6 (lowByte (s.profileWord c 7)), BitVec.ofNat 6 (highByte (s.profileWord c 7))].take
          (s.profileWord c 5).toNat) ∧
      (∀ d, d ≠ c → (t.card d).queue = (s.card d).queue ∧ (t.card d).presence = (s.card d).presence ∧
        (t.card d).activeSlot = (s.card d).activeSlot ∧ (t.card d).profile = (s.card d).profile) ∧
      { t with mem := s.mem, slots := s.slots, cards := s.cards, produced := s.produced, lost := s.lost
               pageHolder := s.pageHolder, breach := s.breach, leaseWaiting := s.leaseWaiting } = s

/-- What a start's latch does at the attention unit, before the first step begins. With another sense a WAITING attention is dropped, a
READING one is made void and QUIET, and the detector is re-armed (R126, R136). With the same sense a WAITING request is given the new read
list, or, the list empty, the attention completes at once; any other phase stays as it is (R67, R137). -/
def Obligations.LatchActsOnAttention : Prop :=
  ∀ (s : State) (c : CardId) (i : SlotId), s.engine = .running → (s.card c).activeSlot = none → (s.card c).seq.phase = .idle →
    s.startsSlot c i → (s.profileWords c).invalid = none →
    let k := s.card c
    let p := (s.profileWords c).latch
    let latched : Card := { k with queue := k.queue.filter fun j => j ≠ i, profile := p }
    ∃ u v : State,
      exec (.jobStart c) s = .next (runSteps (s.slotWord i 3).toNat c v) ∧
      v.card c = { u.card c with
        startedFaulted := decide (k.presence = .faulted)
        seq := { k.seq with active := some i, listAddr := s.slotWord i 2, stepCount := (s.slotWord i 3).toNat, stepIndex := 0
                            copy := none, stop := false } } ∧
      u.sameCardsBut v c ∧ v.slot i = { state := .active, cause := none } ∧ u.sameSlotsBut v i ∧
      { v with cards := u.cards, slots := u.slots } = u ∧
      (p.sense ≠ k.profile.sense → ∃ d, ({ k with profile := p } : Card).rearmsTo d ∧
        u = s.updCard c fun _ => { latched with
          detector := d
          baseline := k.atnLine
          attnPhase := if k.attnPhase = .waiting ∨ k.attnPhase = .reading then .quiet else k.attnPhase
          attnReq := if k.attnPhase = .waiting then none else k.attnReq
          voidRead := if k.attnPhase = .reading then true else k.voidRead }) ∧
      (p.sense = k.profile.sense → k.attnPhase ≠ .waiting → u = s.updCard c fun _ => latched) ∧
      (p.sense = k.profile.sense → k.attnPhase = .waiting → p.readList ≠ [] → u = s.updCard c fun _ => { latched with
        attnReq := some { card := c, kind := .attentionRead, regs := p.readList, count := p.readList.length, data := 0
                          opening := false } }) ∧
      (p.sense = k.profile.sense → k.attnPhase = .waiting → p.readList = [] →
        u = (s.updCard c fun _ => { latched with attnReq := none, attnPhase := .quiet }).completeAttention c [])

/-! ## Steps -/

/-- The first step of a started job: the record at the list address is fetched and checked, and its kind's first phase begins (R27, R28,
R29, R36, R38, R39, R40, R47, R138, R156). The list lies in the step area, as filing validation requires (R8). -/
def Obligations.StartBeginsFirstStep : Prop :=
  ∀ (s : State) (c : CardId) (i : SlotId) (r : StepRecord), s.engine = .running → (s.card c).activeSlot = none →
    (s.card c).seq.phase = .idle → s.startsSlot c i → (s.profileWords c).invalid = none → 1 ≤ (s.slotWord i 3).toNat →
    0x0920 ≤ (s.slotWord i 2).toNat → (s.slotWord i 2).toNat + 7 ≤ 0x3FFF → r = s.readRecord (s.slotWord i 2).toNat →
    ∃ t, exec (.jobStart c) s = .next t ∧
      let k := t.card c
      let request : TenureKind → Word → Option Request := fun kind data =>
        some { card := c, kind := kind, regs := [BitVec.ofNat 6 (highByte r.w0)], count := 1, data := data, opening := false }
      (∀ why, r.invalid = some why →
        k.endReport = some { slot := i, ending := .failure .stepInvalid (some why.code), stepsDone := 0 } ∧ k.seq.active = none ∧
        k.seq.phase = .idle) ∧
      (r.invalid = none → r.kind = some .put → k.seq.phase = .busWait ∧ k.jobReq = request .registerWrite r.w1 ∧
        k.seq.copy = some r ∧ k.seq.stepIndex = 0 ∧ k.seq.stop = false) ∧
      (r.invalid = none → (r.kind = some .get ∨ r.kind = some .poll) → k.seq.phase = .busWait ∧
        k.jobReq = request .registerRead 0 ∧ k.seq.copy = some r ∧ k.seq.stepIndex = 0 ∧ k.seq.stop = false) ∧
      (r.invalid = none → r.kind = some .poll → k.seq.attempts = 0) ∧
      (r.invalid = none → r.kind = some .pause → k.seq.phase = .timedWait ∧ k.seq.copy = some r ∧ k.seq.stepIndex = 0) ∧
      (r.invalid = none → r.kind = some .pulse → k.seq.phase = .pulsing ∧ k.crst = true ∧ k.detector = .disarmed ∧
        k.seq.copy = some r ∧ k.seq.stepIndex = 0 ∧ k.attnPhase ≠ .waiting ∧
        ((s.card c).attnPhase = .waiting → senseOf (s.profileWord c 4) = some (s.card c).profile.sense →
          s.profileWord c 5 ≠ 0 → k.attnPhase = .held ∧ k.attnReq = none))

/-- MARK: the notice is handed on and the step is complete as it begins (R49). POLL: the attempt count starts at 0 and the first read is
requested (R40). PULSE: CRST is asserted and the detector is off; a WAITING attention is withdrawn and HELD (R138, R156). AWAIT with no
claimable attention: the sequencer waits in ATTENTION_WAIT. With one, the flag is cleared, the snapshot words go to the captures from the
base on, as many as the latched read count and none past capture 7, and the mask test decides: the step completes, or fails with
AWAIT_MISMATCH and the snapshot word (R43, R44, R133). -/
def Obligations.MarkPollPulseAwaitBegin : Prop :=
  (∀ (s : State) (c : CardId) (i : SlotId) (r : StepRecord), (s.card c).seq.active = some i →
    r = s.readRecord ((s.card c).seq.listAddr.toNat + 8 * (s.card c).seq.stepIndex) → lowByte r.w0 = 6 →
    s.startStep c = ((s.updSeq c fun q => { q with copy := some r }).post
      { kind := .mark, card := some c, slot := some i, jobSeq := s.slotWord i 7, code := 0, valueA := r.w1
        valueB := wordOf (s.card c).seq.stepIndex }, true)) ∧
  (∀ (s : State) (c : CardId) (i : SlotId) (r : StepRecord), (s.card c).seq.active = some i →
    r = s.readRecord ((s.card c).seq.listAddr.toNat + 8 * (s.card c).seq.stepIndex) → r.invalid = none →
    (r.kind = some .poll → s.startStep c = (s.updCard c fun k =>
      { k with jobReq := some { card := c, kind := .registerRead, regs := [r.register], count := 1, data := 0, opening := false }
               seq := { k.seq with copy := some r, attempts := 0, phase := .busWait } }, false)) ∧
    (r.kind = some .pulse → s.startStep c = (s.updCard c fun k =>
      { k with crst := true, detector := .disarmed, seq := { k.seq with copy := some r, phase := .pulsing }
               attnPhase := if k.attnPhase = .waiting then .held else k.attnPhase
               attnReq := if k.attnPhase = .waiting then none else k.attnReq }, false))) ∧
  ∀ (s : State) (c : CardId) (i : SlotId) (r : StepRecord), (s.card c).seq.active = some i →
    r = s.readRecord ((s.card c).seq.listAddr.toNat + 8 * (s.card c).seq.stepIndex) → r.invalid = none → r.kind = some .await →
    (s.card c).profile.readCount ≤ 4 →
    ((s.card c).claimable = false →
      s.startStep c = (s.updSeq c fun q => { q with copy := some r, phase := .attentionWait }, false)) ∧
    ((s.card c).claimable = true → ∃ t ok, s.startStep c = (t, ok) ∧ (t.card c).claimable = false ∧
      (∀ n, n < (s.card c).profile.readCount → highByte r.w0 + n < 8 →
        t.slotWord i (8 + (highByte r.w0 + n)) = s.profileWord c (9 + n)) ∧
      (∀ n, n < 8 → (n < highByte r.w0 ∨ highByte r.w0 + (s.card c).profile.readCount ≤ n) →
        t.slotWord i (8 + n) = s.slotWord i (8 + n)) ∧
      (ok = true ↔ (r.w2 = 0 ∨ s.profileWord c 9 &&& r.w2 = r.w3)) ∧
      (ok = false → t.slotWord i 6 = s.profileWord c 9 ∧ (t.card c).endReport =
        some { slot := i, ending := .failure .awaitMismatch (some (s.profileWord c 9)), stepsDone := (s.card c).seq.stepIndex }))

/-- STREAM-IN and STREAM-OUT: pages that are all free are leased at once and burst 0 is requested; otherwise the request waits, behind the
older slots of the acceptance-order list and ahead of the younger. LEASE_GRANT_TAKEN: the sequencer leaves LEASE_WAIT, the stage is BURSTING
and burst 0 is requested (R73, R74, R76, R78, R80). -/
def Obligations.StreamAsksForPages : Prop :=
  (∀ (s : State) (c : CardId) (i : SlotId) (r : StepRecord) (way : StreamDir), (s.card c).seq.active = some i →
    r = s.readRecord ((s.card c).seq.listAddr.toNat + 8 * (s.card c).seq.stepIndex) → r.invalid = none →
    r.kind = some (match way with | .into => .streamIn | .out => .streamOut) →
    ∃ t, s.startStep c = (t, false) ∧
      let named : PageId → Prop := fun p => r.w1.toNat ≤ p.val ∧ p.val < r.w1.toNat + r.w2.toNat
      ((∀ p, named p → s.pageHolder.get p = none) →
        (∀ p, named p → t.pageHolder.get p = some i) ∧ (∀ p, ¬ named p → t.pageHolder.get p = s.pageHolder.get p) ∧
        t.breach.get i = none ∧ t.leaseWaiting = s.leaseWaiting ∧ (t.card c).seq.phase = .busWait ∧
        (t.card c).stream = some { stage := .bursting, dir := way, nextBurst := 0, wordsMoved := 0, check := 0, begun := false } ∧
        (t.card c).jobReq = some { card := c, kind := (match way with | .into => .burstIn | .out => .burstOut)
                                   regs := [BitVec.ofNat 6 (highByte r.w0)], count := min 64 r.w3.toNat, data := 0, opening := true }) ∧
      ((∃ p, named p ∧ s.pageHolder.get p ≠ none) →
        t.pageHolder = s.pageHolder ∧ (t.card c).seq.phase = .leaseWait ∧
        (t.card c).stream = some { stage := .leasing, dir := way, nextBurst := 0, wordsMoved := 0, check := 0, begun := false } ∧
        ∃ front back, s.leaseWaiting = front ++ back ∧
          t.leaseWaiting = front ++ { slot := i, card := c, first := r.w1.toNat, count := r.w2.toNat } :: back ∧
          (∀ q ∈ front, s.acceptOrder.idxOf q.slot < s.acceptOrder.idxOf i) ∧
          ∀ q, back.head? = some q → s.acceptOrder.idxOf i ≤ s.acceptOrder.idxOf q.slot)) ∧
  ∀ (s : State) (c : CardId) (e : StepRecord) (m : StreamRec), (s.card c).leaseGrant = true → (s.card c).stream = some m →
    (s.card c).seq.active.isSome = true → (s.card c).seq.phase = .leaseWait → (s.card c).seq.copy = some e →
    exec (.leaseGrantTaken c) s = .next (s.updCard c fun k =>
      { k.asks { card := c, kind := (match m.dir with | .into => .burstIn | .out => .burstOut), regs := [e.register]
                 count := min 64 e.w3.toNat, data := 0, opening := true } with
        leaseGrant := false, stream := some { m with stage := .bursting } })

/-- A step that completes is counted in word 5, and the boundary ends the job with COMPLETE after the last step, with STOPPED where the stop
flag is set, and begins the next step otherwise (R31, R32). That an index past the step count ends the job as one equal to it does is the
model's choice (log 29). -/
def Obligations.CompletedStepTakesBoundary : Prop :=
  ∀ (s : State) (c : CardId) (i : SlotId), (s.card c).seq.active = some i → (s.card c).stream = none →
    let n := (s.card c).seq.stepIndex + 1
    let t := s.finishStep c
    (((s.card c).seq.stepCount ≤ n ∨ (s.card c).seq.stop = true) →
      t.slotWord i 5 = wordOf n ∧ (t.card c).endReport =
        some { slot := i, ending := if (s.card c).seq.stepCount ≤ n then .complete else .stopped, stepsDone := n } ∧
      (t.card c).seq.active = none ∧ (t.card c).seq.phase = .idle ∧ (t.card c).seq.copy = none ∧ (t.card c).seq.stop = false ∧
      (t.card c).jobReq = none ∧ s.sameCardsBut t c ∧ s.sameBytesBut t (slotAddr i 5) (slotAddr i 6) ∧
      { t with mem := s.mem, cards := s.cards } = s) ∧
    (n < (s.card c).seq.stepCount → (s.card c).seq.stop = false →
      t = runSteps ((s.card c).seq.stepCount - n) c
        ((s.setSlotWord i 5 (wordOf n)).updSeq c fun q => { q with stepIndex := n }))

/-- The end of a job's run: the end report carries the ending and the steps done, and nothing of the job is left at the card; a stream
step's leases are given up first, and nothing else changes (R32, R33). A failing step ends it with its outcome and detail. -/
def Obligations.EndedJobMakesReport : Prop :=
  ∀ (s : State) (c : CardId) (i : SlotId) (e : Ending), (s.card c).seq.active = some i →
    let t := s.endJob c e
    (t.card c).endReport = some { slot := i, ending := e, stepsDone := (s.card c).seq.stepIndex } ∧
      (t.card c).seq.active = none ∧ (t.card c).seq.phase = .idle ∧ (t.card c).seq.copy = none ∧ (t.card c).seq.stop = false ∧
      (t.card c).seq.stepIndex = 0 ∧ (t.card c).jobReq = none ∧ (t.card c).stream = none ∧ s.sameBytes t ∧
      (∀ j, t.slot j = s.slot j) ∧ { t with cards := s.cards } = { s.dropStream c with cards := s.cards } ∧
      (∀ d, d ≠ c → t.card d = (s.dropStream c).card d) ∧ ((s.card c).stream = none → s.dropStream c = s) ∧
      ∀ o d, e = .failure o d → s.failJob c o d = t

/-! ## The bus -/

/-- BUS_GRANT: on a free bus one waiting request is granted, an attention read before any job tenure, each side looked at from the card
after its pointer round to the pointer itself (R36, R80, R97, R116, R117, R129). That a grant is a step of its own is the model's choice
(log 5). -/
def Obligations.BusGrantTakesAttentionFirst : Prop :=
  ∀ s : State,
    ((s.tenure.isSome = true ∨ s.engine = .initializing ∨ s.engine = .resetting ∨
      ∀ c, (s.card c).attnReq = none ∧ (s.card c).jobReq = none) → exec .busGrant s = .next s) ∧
    (s.tenure = none → s.engine.closed = false →
      (∀ (n c : CardId) (r : Request), c = s.attnPtr + 1 + n → (s.card c).attnReq = some r → r.card = c →
        (∀ m, m < n → (s.card (s.attnPtr + 1 + m)).attnReq = none) → ∃ t, s.begins r t ∧
          exec .busGrant s = .next
            { (s.updCard c fun k => { k with attnReq := none, attnPhase := .reading }) with attnPtr := c, tenure := some t }) ∧
      (∀ (n c : CardId) (r : Request), (∀ d, (s.card d).attnReq = none) → c = s.jobPtr + 1 + n → (s.card c).jobReq = some r →
        r.card = c → (∀ m, m < n → (s.card (s.jobPtr + 1 + m)).jobReq = none) → ∃ t, s.begins r t ∧
          exec .busGrant s = .next
            { (s.updCard c fun k => { k with
                jobReq := none
                seq := { k.seq with phase := .tenure }
                stream := if r.kind = .burstOut ∨ r.kind = .burstIn then k.stream.map (fun m => { m with begun := true }) else k.stream })
              with jobPtr := c, tenure := some t }))

/-- STROBE_WIDTH_END with RDY low stretches the strobe; the release of a strobe keeps a value read, marks a refused check word and marks a
burst that STOP ends, with no word moved (R98, R102, R103, R104, R105, R108). -/
def Obligations.StrobeStretchesOrReleases : Prop :=
  ∀ (s : State) (t : Tenure) (stop : Bool) (data : Word) (c : Instr),
    (s.tenure = some t → t.mark = .going → t.phase = .strobe →
      exec (.strobeWidthEnd false stop data) s = .next { s with tenure := some { t with phase := .stretch } }) ∧
    (s.releases t stop data c →
      (t.req.kind = .registerWrite → exec c s = .next { s with tenure := some { t with phase := .recovery } }) ∧
      ((t.req.kind = .registerRead ∨ t.req.kind = .attentionRead ∨ t.req.kind = .checkIn) →
        exec c s = .next { s with tenure := some { t with phase := .recovery, values := t.values ++ [data] } }) ∧
      (t.req.kind = .checkOut → exec c s = .next
        { s with tenure := some { t with phase := .recovery, mark := if stop then .refused else .going } }) ∧
      ((t.req.kind = .burstOut ∨ t.req.kind = .burstIn) → stop = true →
        exec c s = .next { s with tenure := some { t with phase := .recovery, mark := .stopped } }))

/-- The release of a burst's strobe without STOP moves its word: counted, folded into the running check rotated left by one, and, of a burst
in, written in its place in the page (R72, R81, R82, R84, R106, R107). -/
def Obligations.BurstStrobeMovesWord : Prop :=
  ∀ (s : State) (t : Tenure) (data w : Word) (c : Instr) (m : StreamRec), s.releases t false data c →
    (t.req.kind = .burstOut ∧ w = t.driven ∨ t.req.kind = .burstIn ∧ w = data) → (s.card t.req.card).stream = some m →
    ∃ u, exec c s = .next u ∧ u.tenure = some { t with phase := .recovery, moved := t.moved + 1 } ∧
      u.card t.req.card = { s.card t.req.card with
        stream := some { m with wordsMoved := m.wordsMoved + 1, check := m.check.rotateLeft 1 ^^^ w } } ∧
      s.sameCardsBut u t.req.card ∧ (t.req.kind = .burstOut → s.sameBytes u) ∧
      (t.req.kind = .burstIn → ∀ (e : StepRecord) (a : Nat), (s.card t.req.card).seq.copy = some e →
        a = 0x4000 + 128 * e.w1.toNat + 2 * m.wordsMoved → a < 0x8000 → u.word a = data ∧ s.sameBytesBut u a (a + 2)) ∧
      { u with tenure := s.tenure, cards := s.cards, mem := s.mem } = s

/-- The widths and timeouts of a tenure: STROBE_RECOVERY_END begins the next strobe, STALL_TIMEOUT ends a stretched burst strobe with
nothing moved, RECOVERY_WIDTH_END frees the bus after a cut or a fault and lets a reset's BCLR pulse begin (R81, R99, R101, R111, R112,
R208). -/
def Obligations.TenureWidthsRunOut : Prop :=
  ∀ (s : State) (t : Tenure), s.tenure = some t →
    (t.phase = .recovery → t.mark = .going →
      (t.req.kind = .attentionRead ∧ t.strobe + 1 < t.req.regs.length ∨
        (t.req.kind = .burstOut ∨ t.req.kind = .burstIn) ∧ t.strobe + 1 < t.req.count) → ∃ w, s.drives t.req w ∧
        exec .strobeRecoveryEnd s = .next { s with tenure := some { t with strobe := t.strobe + 1, phase := .strobe, driven := w } }) ∧
    (t.phase = .stretch → t.mark = .going → (t.req.kind = .burstOut ∨ t.req.kind = .burstIn) →
      exec .stallTimeout s = .next { s with tenure := some { t with phase := .recovery, mark := .stalled } }) ∧
    (t.phase = .recovery → (t.mark = .cut ∨ t.mark = .faulted) →
      (s.engine = .resetting → exec .recoveryWidthEnd s = .next { s with tenure := none, bclr := true }) ∧
      (s.engine ≠ .resetting → exec .recoveryWidthEnd s = .next { s with tenure := none }))

/-- READY_TIMEOUT: word 15 takes register and kind of the strobe held, the card is FAULTED with its detector off, the CARD_FAULTED notice is
handed on, the tenure keeps the bus for its recovery width, and the requester is told: the job fails (R37, R50, R88, R112, R113, R114, R139,
R140, R152, R160). -/
def Obligations.ReadyTimeoutFaultsCard : Prop :=
  ∀ (s : State) (t : Tenure) (reg : Reg) (code : Nat), s.tenure = some t → t.phase = .stretch → t.mark = .going →
    (t.req.kind = .registerWrite ∧ code = 1 ∨ t.req.kind = .registerRead ∧ code = 2 ∨ t.req.kind = .attentionRead ∧ code = 3 ∨
      t.req.kind = .checkOut ∧ code = 6 ∨ t.req.kind = .checkIn ∧ code = 7) →
    (t.req.kind = .attentionRead → t.req.regs[t.strobe]? = some reg) →
    (t.req.kind ≠ .attentionRead → t.req.regs.head? = some reg) →
    let c := t.req.card
    let detail := BitVec.ofNat 16 (reg.toNat + 256 * code)
    let read : Bool := t.req.kind = .attentionRead
    let waits : Bool := (s.card c).attnPhase = .waiting
    ∃ u, u.tenure = some { t with phase := .recovery, mark := .faulted } ∧
      u.profileWord c 15 = detail ∧ s.sameBytesBut u (profileAddr c 15) (profileAddr c 15 + 2) ∧
      u.card c = { s.card c with
        presence := .faulted
        detector := .disarmed
        attnPhase := if read || waits then .quiet else (s.card c).attnPhase
        attnReq := if read || waits then none else (s.card c).attnReq
        voidRead := if read then false else (s.card c).voidRead } ∧
      s.sameCardsBut u c ∧ { u with tenure := s.tenure, mem := s.mem, cards := s.cards } = s ∧
      let v := u.post { kind := .cardFaulted, card := some c, slot := (s.card c).activeSlot
                        jobSeq := (match (s.card c).activeSlot with | some i => s.slotWord i 7 | none => 0)
                        code := 0, valueA := detail, valueB := (s.card c).presence.code }
      (t.req.kind = .attentionRead →
        let w := (v.writeSnapshot c t.values).updCard c fun k => { k with crst := false }
        ((s.card c).seq.active = none → exec .readyTimeout s = .next w) ∧
        ((s.card c).seq.active.isSome = true → exec .readyTimeout s = .next (w.failJob c .cardFaulted (some detail)))) ∧
      (∀ i, (s.card c).seq.active = some i → (s.card c).seq.phase = .tenure →
        ((t.req.kind = .registerWrite ∨ t.req.kind = .registerRead) →
          exec .readyTimeout s = .next (v.failJob c .busTimeout (some detail))) ∧
        ((t.req.kind = .checkOut ∨ t.req.kind = .checkIn) →
          exec .readyTimeout s = .next ((v.setSlotWord i 6 detail).failJob c .busTimeout (some detail))))

/-! ## The ends of tenures -/

/-- REGISTER_WRITE_END completes a PUT. REGISTER_READ_END captures the value of a GET and completes it; of a POLL it keeps the value in word
6 and judges it: a match completes the step, an attempt left waits the interval or stops on the stop flag, the last attempt fails (R38, R39,
R40, R41, R42). -/
def Obligations.RegisterTenureTaken : Prop :=
  ∀ (s : State) (t : Tenure) (i : SlotId) (e : StepRecord), s.jobTenureOver t i e → t.mark = .going →
    let c := t.req.card
    let u : State := { s with tenure := none }
    (t.req.kind = .registerWrite → exec .registerWriteEnd s = .next (u.finishStep c)) ∧
    ∀ v, t.req.kind = .registerRead → t.values = [v] →
      (e.kind = some .get → e.w1.toNat ≤ 7 →
        exec .registerReadEnd s = .next ((u.setSlotWord i (8 + e.w1.toNat) v).finishStep c)) ∧
      (e.kind = some .poll →
        let n := (s.card c).seq.attempts + 1
        let p := (u.updSeq c fun q => { q with attempts := n }).setSlotWord i 6 v
        (v &&& e.w1 = e.w2 → exec .registerReadEnd s = .next (p.finishStep c)) ∧
        (v &&& e.w1 ≠ e.w2 → n < lowByte e.w3 →
          ((s.card c).seq.stop = false → exec .registerReadEnd s = .next (p.updSeq c fun q => { q with phase := .timedWait })) ∧
          ((s.card c).seq.stop = true → exec .registerReadEnd s = .next (p.endJob c .stopped))) ∧
        (v &&& e.w1 ≠ e.w2 → lowByte e.w3 ≤ n → exec .registerReadEnd s = .next (p.failJob c .pollExhausted (some v))))

/-- BURST_END: words moved to word 6, then a breach, the stop flag, the next burst or the closing tenure decides what is asked for next
(R73, R80, R83, R85, R86, R92, R93, R94). -/
def Obligations.BurstEndDecidesNextTenure : Prop :=
  ∀ (s : State) (t : Tenure) (i : SlotId) (e : StepRecord) (m : StreamRec), s.jobTenureOver t i e → t.mark = .going →
    (t.req.kind = .burstOut ∨ t.req.kind = .burstIn) → t.req.count ≤ t.strobe + 1 → (s.card t.req.card).stream = some m →
    let c := t.req.card
    let next : StreamRec → Request → Host.Outcome State Fault Refusal := fun m' r =>
      .next ((({ s with tenure := none } : State).setSlotWord i 6 (BitVec.ofNat 16 m.wordsMoved)).updCard c fun k =>
        { k.asks r with stream := some m' })
    (s.breach.get i ≠ none → exec .burstEnd s = next { m with stage := .abandoning .breach } (abandonRequest c e)) ∧
    (s.breach.get i = none → (s.card c).seq.stop = true →
      exec .burstEnd s = next { m with stage := .abandoning .stop } (abandonRequest c e)) ∧
    (s.breach.get i = none → (s.card c).seq.stop = false → 64 * (m.nextBurst + 1) < e.w3.toNat →
      exec .burstEnd s = next { m with nextBurst := m.nextBurst + 1 }
        { card := c, kind := (match m.dir with | .into => .burstIn | .out => .burstOut), regs := [e.register]
          count := min 64 (e.w3.toNat - 64 * (m.nextBurst + 1)), data := 0, opening := false }) ∧
    (s.breach.get i = none → (s.card c).seq.stop = false → e.w3.toNat ≤ 64 * (m.nextBurst + 1) →
      (m.dir = .out → exec .burstEnd s = next { m with stage := .closing }
        { card := c, kind := .checkOut, regs := [e.register], count := 1, data := m.check, opening := false }) ∧
      (m.dir = .into → exec .burstEnd s = next { m with stage := .closing }
        { card := c, kind := .checkIn, regs := [e.register], count := 1, data := 0, opening := false }))

/-- BURST_STOP fails the step with SHORT_STREAM and the words moved. BURST_STALL_END asks for an abandon tenure. ABANDON_END ends the step
by the reason for abandoning: LEASE_BREACH with the page, STREAM_STALLED with the words moved, or a stop (R89, R90, R92, R93, R94). -/
def Obligations.StreamCutShortEnds : Prop :=
  ∀ (s : State) (t : Tenure) (i : SlotId) (e : StepRecord) (m : StreamRec), s.jobTenureOver t i e →
    (s.card t.req.card).stream = some m →
    let c := t.req.card
    let u : State := { s with tenure := none }
    let fails : JobOutcome → Word → Host.Outcome State Fault Refusal := fun o w =>
      .next ((u.setSlotWord i 6 w).failJob c o (some w))
    ((t.req.kind = .burstOut ∨ t.req.kind = .burstIn) → t.mark = .stopped →
      exec .burstStop s = fails .shortStream (BitVec.ofNat 16 m.wordsMoved)) ∧
    ((t.req.kind = .burstOut ∨ t.req.kind = .burstIn) → t.mark = .stalled → exec .burstStallEnd s =
      .next (u.updCard c fun k => { k.asks (abandonRequest c e) with stream := some { m with stage := .abandoning .stall } })) ∧
    (t.req.kind = .abandon → t.mark = .going →
      (∀ p, m.stage = .abandoning .breach → s.breach.get i = some p →
        exec .abandonEnd s = fails .leaseBreach (BitVec.ofNat 16 p.val)) ∧
      (m.stage = .abandoning .stall → exec .abandonEnd s = fails .streamStalled (BitVec.ofNat 16 m.wordsMoved)) ∧
      (m.stage = .abandoning .stop → exec .abandonEnd s = .next (u.endJob c .stopped)))

/-- CHECK_OUT_END and CHECK_IN_END: STOP refuses the check word sent, a check word received that differs fails the step, and an accepted or
matched stream is checked for a breach before its leases are released and the step completes (R85, R86, R87). -/
def Obligations.ClosingTenureTaken : Prop :=
  ∀ (s : State) (t : Tenure) (i : SlotId) (e : StepRecord) (m : StreamRec) (w : Word) (c : Instr), s.jobTenureOver t i e →
    (s.card t.req.card).stream = some m →
    (t.req.kind = .checkOut ∧ w = t.req.data ∧ c = .checkOutEnd ∨ t.req.kind = .checkIn ∧ t.values = [w] ∧ c = .checkInEnd) →
    let d := t.req.card
    let u := ({ s with tenure := none } : State).setSlotWord i 6 w
    (t.req.kind = .checkOut → t.mark = .refused → exec c s = .next (u.failJob d .checkRefused (some w))) ∧
    (t.req.kind = .checkIn → t.mark = .going → w ≠ m.check → exec c s = .next (u.failJob d .checkMismatch (some w))) ∧
    (t.mark = .going → (t.req.kind = .checkIn → w = m.check) →
      (∀ p, s.breach.get i = some p → exec c s =
        .next ((({ s with tenure := none } : State).setSlotWord i 6 (BitVec.ofNat 16 p.val)).failJob d .leaseBreach
          (some (BitVec.ofNat 16 p.val)))) ∧
      (s.breach.get i = none → exec c s = .next ((u.dropStream d).finishStep d)))

/-! ## Leases -/

/-- The release of a slot's leases frees its pages and keeps every other slot's, sets its breach record to none, and leaves no waiting
request whose pages are all free. The waiting list is examined from its head to its tail: request `n` is granted exactly when none of its
pages is another slot's and none is named by an earlier request granted before it; a granted request takes its pages and leaves the list. A
stream step that ends gives up its pages by a release, or its waiting request by a withdrawal, which starts no examination (R77, R79, R96).
-/
def Obligations.LeasesGivenUp : Prop :=
  (∀ (s : State) (i : SlotId), (∀ q ∈ s.leaseWaiting, q.slot ≠ i) →
    let t := s.releaseLeases i
    (∀ p, t.pageHolder.get p ≠ some i) ∧ (∀ p j, j ≠ i → s.pageHolder.get p = some j → t.pageHolder.get p = some j) ∧
      t.breach.get i = none ∧
      (∀ q ∈ t.leaseWaiting, ∃ p : PageId, q.first ≤ p.val ∧ p.val < q.first + q.count ∧ t.pageHolder.get p ≠ none) ∧
      (∀ p j, t.pageHolder.get p = some j → s.pageHolder.get p ≠ some j →
        ∃ q ∈ s.leaseWaiting, q.slot = j ∧ q.first ≤ p.val ∧ p.val < q.first + q.count ∧ (t.card q.card).leaseGrant = true) ∧
      s.sameBytes t) ∧
  (∀ (s : State) (i : SlotId),
    let t := s.releaseLeases i
    let names : LeaseRequest → PageId → Prop := fun q p => q.first ≤ p.val ∧ p.val < q.first + q.count
    ∃ granted : Nat → Prop,
      (∀ n q, s.leaseWaiting[n]? = some q →
        (granted n ↔ ∀ p, names q p → (s.pageHolder.get p = none ∨ s.pageHolder.get p = some i) ∧
          ∀ m r, m < n → s.leaseWaiting[m]? = some r → granted m → ¬ names r p) ∧
        (granted n → (∀ p, names q p → t.pageHolder.get p = some q.slot) ∧ t.breach.get q.slot = none ∧
          (t.card q.card).leaseGrant = true)) ∧
      (∀ p, (∀ n q, s.leaseWaiting[n]? = some q → granted n → ¬ names q p) →
        t.pageHolder.get p = if s.pageHolder.get p = some i then none else s.pageHolder.get p) ∧
      t.leaseWaiting.Sublist s.leaseWaiting ∧
      ∀ q ∈ s.leaseWaiting, q ∈ t.leaseWaiting ↔ ∀ n r, s.leaseWaiting[n]? = some r → granted n → r.slot ≠ q.slot) ∧
  ∀ (s : State) (c : CardId) (i : SlotId), (s.card c).seq.active = some i → (s.card c).stream.isSome = true →
    ((∀ q ∈ s.leaseWaiting, q.slot ≠ i) →
      s.dropStream c = (s.releaseLeases i).updCard c fun k => { k with leaseGrant := false, stream := none }) ∧
    ((∃ q ∈ s.leaseWaiting, q.slot = i) →
      s.dropStream c = ({ s with leaseWaiting := s.leaseWaiting.filter fun q => q.slot ≠ i } : State).updCard c fun k =>
        { k with leaseGrant := false, stream := none })

/-! ## Waits and stops -/

/-- POLL_INTERVAL_END asks for the next attempt's read; AWAIT_TIMEOUT fails the step with no detail of its own; PAUSE_END and
SETTLE_WAIT_END complete their steps (R40, R45, R47, R158). -/
def Obligations.WaitsRunOut : Prop :=
  ∀ (s : State) (c : CardId) (e : StepRecord), (s.card c).seq.active.isSome = true → (s.card c).seq.copy = some e →
    ((s.card c).seq.phase = .timedWait → e.kind = some .poll → exec (.pollIntervalEnd c) s =
      .next (s.updCard c fun k => k.asks
        { card := c, kind := .registerRead, regs := [e.register], count := 1, data := 0, opening := false })) ∧
    ((s.card c).seq.phase = .attentionWait → exec (.awaitTimeout c) s = .next (s.failJob c .awaitTimeout none)) ∧
    ((s.card c).seq.phase = .timedWait → e.kind = some .pause → exec (.pauseEnd c) s = .next (s.finishStep c)) ∧
    ((s.card c).seq.phase = .settleWait → exec (.settleWaitEnd c) s = .next (s.finishStep c))

/-- PULSE_END: CRST is released, the pending and claimable flags are cleared and the latter counted, the detector is re-armed, and the step
goes on by its settle field and the stop flag (R126, R138, R157, R158, R159). -/
def Obligations.PulseEndReleasesCardReset : Prop :=
  ∀ (s : State) (c : CardId) (e : StepRecord), (s.card c).seq.active.isSome = true → (s.card c).seq.copy = some e →
    (s.card c).seq.phase = .pulsing → ∃ u d, (s.card c).rearmsTo d ∧
      u.card c = { s.card c with crst := false, attnPhase := .quiet, attnReq := none, claimable := false
                                 baseline := (s.card c).atnLine, detector := d } ∧
      u.profileWord c 14 = (if (s.card c).claimable then s.profileWord c 14 + 1 else s.profileWord c 14) ∧
      s.sameCardsBut u c ∧ s.sameBytesBut u (profileAddr c 14) (profileAddr c 15) ∧ { u with mem := s.mem, cards := s.cards } = s ∧
      (e.w2 = 0 → exec (.pulseEnd c) s = .next (u.finishStep c)) ∧
      (e.w2 ≠ 0 → (s.card c).seq.stop = true → exec (.pulseEnd c) s = .next (u.endJob c .stopped)) ∧
      (e.w2 ≠ 0 → (s.card c).seq.stop = false → exec (.pulseEnd c) s = .next (u.updSeq c fun q => { q with phase := .settleWait }))

/-- CANCEL_NOTICE_TAKEN: a notice that does not name the active slot is ignored; one that does sets the stop flag and brings the step to its
stopping point: a wait ends and the job stops, a request is withdrawn and the job stops, a stream that has begun makes an abandon tenure
first, and a tenure, a pulse or an abandon request goes on (R13, R36, R42, R46, R48, R79, R94, R159). -/
def Obligations.CancelNoticeStopsStep : Prop :=
  ∀ (s : State) (c : CardId) (i : SlotId), (s.card c).cancelNotice = some i →
    let k := s.card c
    let u := s.updCard c fun k => { k with cancelNotice := none, seq := { k.seq with stop := true } }
    (k.seq.active ≠ some i → exec (.cancelNoticeTaken c) s = .next (s.updCard c fun k => { k with cancelNotice := none })) ∧
    (k.seq.active = some i →
      ((k.seq.phase = .tenure ∨ k.seq.phase = .pulsing) → exec (.cancelNoticeTaken c) s = .next u) ∧
      ((k.seq.phase = .timedWait ∨ k.seq.phase = .attentionWait ∨ k.seq.phase = .leaseWait ∨ k.seq.phase = .settleWait) →
        exec (.cancelNoticeTaken c) s = .next (u.endJob c .stopped)) ∧
      (k.seq.phase = .busWait → k.stream = none → exec (.cancelNoticeTaken c) s = .next (u.endJob c .stopped)) ∧
      ∀ m, k.seq.phase = .busWait → k.stream = some m →
        (∀ why, m.stage = .abandoning why → exec (.cancelNoticeTaken c) s = .next u) ∧
        ((∀ why, m.stage ≠ .abandoning why) → m.begun = false → exec (.cancelNoticeTaken c) s = .next (u.endJob c .stopped)) ∧
        ((∀ why, m.stage ≠ .abandoning why) → m.begun = true → ∀ e, k.seq.copy = some e → exec (.cancelNoticeTaken c) s =
          .next (u.updCard c fun k => { k.asks (abandonRequest c e) with stream := some { m with stage := .abandoning .stop } })))

/-! ## Attention -/

/-- ATN_CHANGE: the baseline follows the line, the detector judges the change by the sense, and a detection requests the card's attention
read, completes at once with an empty read list, or merges into the attention pending (R124, R125, R127, R128). In INITIALIZING and
RESETTING only the pin moves, which is the model's choice (log 16). -/
def Obligations.LineChangeJudged : Prop :=
  ∀ (s : State) (c : CardId) (level : Bool),
    let k := s.card c
    (level = k.atnLine → exec (.atnChange c level) s = .next s) ∧
    (level ≠ k.atnLine → s.engine.closed = true →
      exec (.atnChange c level) s = .next (s.updCard c fun k => { k with atnLine := level })) ∧
    ∀ (d : Detector) (detected : Bool), level ≠ k.atnLine → s.engine.closed = false → k.judges level d detected →
      let u := s.updCard c fun k => { k with atnLine := level, baseline := level, detector := d }
      ((detected = false ∨ k.attnPhase ≠ .quiet) → exec (.atnChange c level) s = .next u) ∧
      (detected = true → k.attnPhase = .quiet → k.profile.readList = [] →
        exec (.atnChange c level) s = .next (u.completeAttention c [])) ∧
      (detected = true → k.attnPhase = .quiet → k.profile.readList ≠ [] → exec (.atnChange c level) s =
        .next (u.updCard c fun k => { k with
          attnPhase := .waiting
          attnReq := some { card := c, kind := .attentionRead, regs := k.profile.readList, count := k.profile.readList.length
                            data := 0, opening := false } }))

/-- ATTENTION_READ_END: the values read complete the attention; of a void read they go to the snapshot, both counts count it, and the
UNSOLICITED_ATTENTION notice carries snapshot words 0 and 1 (R130, R131, R136). -/
def Obligations.AttentionReadTaken : Prop :=
  ∀ (s : State) (t : Tenure), s.tenure = some t → t.phase = .recovery → t.mark = .going → t.req.kind = .attentionRead →
    t.req.regs.length ≤ t.strobe + 1 → t.values.length ≤ 4 →
    let c := t.req.card
    let u : State := { s with tenure := none }
    ((s.card c).voidRead = false → exec .attentionReadEnd s = .next (u.completeAttention c t.values)) ∧
    ((s.card c).voidRead = true → ∃ v, u.snapshotTaken v c t.values ∧ exec .attentionReadEnd s =
      .next (((v.setProfileWord c 14 (s.profileWord c 14 + 1)).updCard c fun k => { k with voidRead := false }).post
        { kind := .unsolicited, card := some c, slot := none, jobSeq := 0, code := 0, valueA := v.profileWord c 9
          valueB := v.profileWord c 10 }))

/-- A completed attention: snapshot and word 13, then by the card's sequencer an AWAIT consumes it, or a running job keeps it as claimable,
an earlier one counted unclaimed, or it is unclaimed with its notice (R44, R131, R132). A newer attention that waits stays pending, which is
the model's choice (log 18). -/
def Obligations.CompletedAttentionDisposed : Prop :=
  ∀ (s : State) (c : CardId) (values : List Word), values.length ≤ 4 → ∃ u, s.snapshotTaken u c values ∧
    let k := s.card c
    (k.seq.phase ≠ .attentionWait → k.activeSlot.isSome = true → s.completeAttention c values =
      (if k.claimable then u.setProfileWord c 14 (s.profileWord c 14 + 1) else u).updCard c fun k =>
        { k.quieted with claimable := true }) ∧
    (k.seq.phase ≠ .attentionWait → k.activeSlot = none → s.completeAttention c values =
      ((u.setProfileWord c 14 (s.profileWord c 14 + 1)).updCard c Card.quieted).post
        { kind := .unsolicited, card := some c, slot := none, jobSeq := 0, code := 0, valueA := u.profileWord c 9
          valueB := u.profileWord c 10 }) ∧
    ∀ i e, k.seq.phase = .attentionWait → k.seq.active = some i → k.seq.copy = some e → k.profile.readCount ≤ 4 → ∃ p,
      (∀ n, n < k.profile.readCount → highByte e.w0 + n < 8 →
        p.slotWord i (8 + (highByte e.w0 + n)) = u.profileWord c (9 + n)) ∧
      (∀ n, n < 8 → (n < highByte e.w0 ∨ highByte e.w0 + k.profile.readCount ≤ n) → p.slotWord i (8 + n) = u.slotWord i (8 + n)) ∧
      u.sameBytesBut p (slotAddr i 8) (slotAddr i 16) ∧ { p with mem := u.mem } = u.updCard c Card.quieted ∧
      ((e.w2 = 0 ∨ u.profileWord c 9 &&& e.w2 = e.w3) → s.completeAttention c values = p.finishStep c) ∧
      (e.w2 ≠ 0 → u.profileWord c 9 &&& e.w2 ≠ e.w3 → s.completeAttention c values =
        (p.setSlotWord i 6 (u.profileWord c 9)).failJob c .awaitMismatch (some (u.profileWord c 9)))

/-! ## Card presence -/

/-- PRESENCE_SAMPLE at an ABSENT or SETTLING position, and a present sample at a READY or FAULTED one, while sampling runs; no sample is
taken in INITIALIZING and RESETTING (R143, R144, R147). -/
def Obligations.PresenceSampleSettles : Prop :=
  ∀ (s : State) (c : CardId) (present : Bool),
    let becomes : Presence → Nat → Host.Outcome State Fault Refusal := fun p n =>
      .next (s.updCard c fun k => { k with presence := p, settle := n })
    (s.engine.closed = true → exec (.presenceSample c present) s = .next s) ∧
    (s.engine.closed = false →
      ((s.card c).presence = .absent → exec (.presenceSample c true) s = becomes .settling 1 ∧
        exec (.presenceSample c false) s = .next s) ∧
      ((s.card c).presence = .settling → ((s.card c).settle < 49 →
          exec (.presenceSample c true) s = becomes .settling ((s.card c).settle + 1)) ∧
        exec (.presenceSample c false) s = becomes .absent 0) ∧
      (((s.card c).presence = .ready ∨ (s.card c).presence = .faulted) → exec (.presenceSample c true) s = .next s))

/-- CARD_ARRIVAL, the present sample that takes the settle count to 50: READY with the default profile, the detector off, and the
CARD_ARRIVED notice with word 15 (R68, R126, R145). That it is the same event as the sample is the model's choice (log 7). -/
def Obligations.CardArrivalMakesReady : Prop :=
  ∀ (s : State) (c : CardId), s.engine.closed = false → (s.card c).presence = .settling → (s.card c).settle = 49 → ∃ u : State,
    (let t := u.post { kind := .cardArrived, card := some c, slot := none, jobSeq := 0, code := 0, valueA := s.profileWord c 15
                       valueB := 0 }
     exec (.cardArrival c) s = .next t ∧ exec (.presenceSample c true) s = .next t) ∧
    u.card c = { s.card c with
      presence := .ready
      settle := 0
      profile := { strobeWidth := 10, recoveryWidth := 5, readyTimeout := 100, stallTimeout := 100, sense := .off, readCount := 0
                   reg0 := 0, reg1 := 0, reg2 := 0, reg3 := 0 }
      baseline := (s.card c).atnLine
      detector := .disarmed } ∧
    s.sameCardsBut u c ∧ { u with cards := s.cards } = s

/-- PRESENCE_SAMPLE that finds a READY or FAULTED card gone: the removal takes down what the part did for the card, ends its active slot
CARD_REMOVED and its queued slots CARD_ABSENT, each with its JOB_DONE notice as it ends, the active slot first and the queued slots in queue
order, and hands on the CARD_REMOVED notice last (R22, R77, R79, R141, R147, R148, R149, R151, R201). -/
def Obligations.RemovalTakesCardDown : Prop :=
  ∀ (s : State) (c : CardId), s.engine.closed = false → ((s.card c).presence = .ready ∨ (s.card c).presence = .faulted) →
    let k := s.card c
    let ended : SlotId → Prop := fun j => k.activeSlot = some j ∨ j ∈ k.queue
    ∃ u : State, exec (.presenceSample c false) s = .next (u.post
        { kind := .cardRemoved, card := some c, slot := k.activeSlot
          jobSeq := (match k.activeSlot with | some i => s.slotWord i 7 | none => 0)
          code := 0, valueA := BitVec.ofNat 16 k.queue.length, valueB := k.presence.code }) ∧
      s.postsInOrder u
        ((match k.activeSlot with | some i => s.doneNotices i .cardRemoved (s.slotWord i 5) (s.slotWord i 6) | none => []) ++
          k.queue.flatMap fun j => s.doneNotices j .cardAbsent 0 (s.slotWord j 6)) ∧
      ((u.card c).presence = .absent ∧ (u.card c).settle = k.settle ∧ (u.card c).crst = false ∧ (u.card c).queue = [] ∧
        (u.card c).activeSlot = none ∧ (u.card c).seq.phase = .idle ∧ (u.card c).stream = none ∧ (u.card c).attnReq = none ∧
        (u.card c).jobReq = none ∧ (u.card c).detector = .disarmed ∧ (u.card c).attnPhase = .quiet ∧
        (u.card c).voidRead = false ∧ (u.card c).claimable = false ∧ (u.card c).profile = Profile.default ∧
        (u.card c).seq.active = none ∧ (u.card c).seq.copy = none ∧ (u.card c).seq.stop = false ∧ (u.card c).seq.stepIndex = 0 ∧
        (u.card c).endReport = none ∧ (u.card c).atnLine = k.atnLine) ∧
      (∀ d, d ≠ c → { u.card d with cancelNotice := (s.card d).cancelNotice, leaseGrant := (s.card d).leaseGrant } = s.card d) ∧
      u.tenure = s.tenure.map (fun t => if t.req.card = c then { t with phase := .recovery, mark := .cut } else t) ∧
      u.attnPtr = s.attnPtr ∧ u.jobPtr = s.jobPtr ∧
      (∀ j, ended j → u.slot j = { state := .done, cause := none }) ∧ (∀ j, ¬ ended j → u.slot j = s.slot j) ∧
      (∀ i, k.activeSlot = some i → i ∉ k.queue → u.slotWord i 4 = JobOutcome.cardRemoved.code ∧
        u.slotWord i 5 = s.slotWord i 5 ∧ u.slotWord i 6 = s.slotWord i 6) ∧
      (∀ j ∈ k.queue, u.slotWord j 4 = JobOutcome.cardAbsent.code ∧ u.slotWord j 5 = 0 ∧ u.slotWord j 6 = s.slotWord j 6) ∧
      u.acceptOrder = (s.acceptOrder.filter fun j => decide (k.activeSlot ≠ some j) && decide (j ∉ k.queue)) ∧
      u.profileWord c 14 = (if k.claimable then s.profileWord c 14 + 1 else s.profileWord c 14) ∧
      (∀ a, (∀ j, ended j → a < slotAddr j 4 ∨ slotAddr j 7 ≤ a) → (a < profileAddr c 14 ∨ profileAddr c 15 ≤ a) →
        (a < 0x0520 ∨ 0x091F < a) → readByte u.mem a = readByte s.mem a) ∧
      (∀ i, k.seq.active = some i → k.stream.isSome = true →
        ((∀ q ∈ s.leaseWaiting, q.slot ≠ i) → (∀ p, u.pageHolder.get p ≠ some i) ∧ u.breach.get i = none) ∧
        ((∃ q ∈ s.leaseWaiting, q.slot = i) → u.pageHolder = s.pageHolder ∧
          u.leaseWaiting = s.leaseWaiting.filter fun q => q.slot ≠ i)) ∧
      (k.stream = none → u.pageHolder = s.pageHolder ∧ u.breach = s.breach ∧ u.leaseWaiting = s.leaseWaiting) ∧
      (s.engine ≠ .draining → u.engine = s.engine) ∧
      (∀ i, s.engine = .draining → k.activeSlot = some i →
        ((∀ j, j ≠ i → (s.slot j).state ≠ .active ∧ (s.slot j).state ≠ .cancelling) → u.engine = .halted) ∧
        ((∃ j, j ≠ i ∧ ((s.slot j).state = .active ∨ (s.slot j).state = .cancelling)) → u.engine = .draining)) ∧
      (k.activeSlot = none → u.engine = s.engine) ∧
      { u with mem := s.mem, slots := s.slots, acceptOrder := s.acceptOrder, cards := s.cards, tenure := s.tenure
               pageHolder := s.pageHolder, breach := s.breach, leaseWaiting := s.leaseWaiting, produced := s.produced
               lost := s.lost, engine := s.engine } = s
end

