-- ==== Sys2Proof/Laws/Memory.lean ====
section
/-! SUPPORT. Laws of the tables and of the exchange memory: what a read returns after a write, and that every memory operation keeps
the canonical form. -/

namespace Sys2Proof.Machine

/-! ## Tables -/

@[simp] theorem get_tab {α : Type} {n : Nat} (f : Fin n → α) (i : Fin n) : (tab f).get i = f i := by
  simp only [tab, Vector.get, List.getElem_toArray, List.getElem_ofFn]
  rfl

theorem get_upd {α : Type} {n : Nat} (v : Vector α n) (i j : Fin n) (x : α) :
    (upd v i x).get j = if j = i then x else v.get j := by
  simp only [upd, Vector.get_eq_getElem, Vector.getElem_set, Fin.ext_iff]
  by_cases h : i.val = j.val
  · simp [h]
  · simp [h, Ne.symm h]

@[simp] theorem get_upd_same {α : Type} {n : Nat} (v : Vector α n) (i : Fin n) (x : α) : (upd v i x).get i = x := by
  simp [get_upd]

theorem get_upd_other {α : Type} {n : Nat} (v : Vector α n) (i j : Fin n) (x : α) (h : j ≠ i) :
    (upd v i x).get j = v.get j := by
  simp [get_upd, h]

/-! ## Bytes -/

theorem readByte_filter (m : Memory) (p : Nat → Bool) (a : Nat) :
    readByte (m.filter fun cell => p cell.1) a = if p a then readByte m a else unlistedByte := by
  induction m with
  | nil => simp [readByte]
  | cons cell rest ih =>
    obtain ⟨k, b⟩ := cell
    by_cases hp : p k
    · by_cases hk : k = a
      · subst hk; simp [hp, readByte]
      · simp [hp, readByte, hk, ih]
    · by_cases hk : k = a
      · subst hk; simp [hp, ih]
      · simp [hp, readByte, hk, ih]

theorem readByte_insert_other (m : Memory) (a : Nat) (b : Byte) (x : Nat) (h : x ≠ a) :
    readByte (insertByte a b m) x = readByte m x := by
  induction m with
  | nil => simp [insertByte, readByte, Ne.symm h]
  | cons cell rest ih =>
    obtain ⟨k, c⟩ := cell
    simp only [insertByte]
    split
    · simp [readByte, Ne.symm h]
    · simp [readByte, ih]

theorem readByte_insert_same (m : Memory) (a : Nat) (b : Byte) (h : ∀ cell ∈ m, cell.1 ≠ a) :
    readByte (insertByte a b m) a = b := by
  induction m with
  | nil => simp [insertByte, readByte]
  | cons cell rest ih =>
    obtain ⟨k, c⟩ := cell
    have hk : k ≠ a := h (k, c) (by simp)
    simp only [insertByte]
    split
    · simp [readByte]
    · simp only [readByte, hk, if_false]
      exact ih fun cell hc => h cell (by simp [hc])

theorem readByte_writeByte_same (m : Memory) (a : Nat) (b : Byte) : readByte (writeByte m a b) a = b := by
  unfold writeByte
  split
  · rename_i h
    have := readByte_filter m (fun k => decide (k ≠ a)) a
    simp at this
    simpa [h] using this
  · refine readByte_insert_same _ _ _ ?_
    intro cell hc
    simpa using (List.mem_filter.mp hc).2

theorem readByte_writeByte_other (m : Memory) (a x : Nat) (b : Byte) (h : x ≠ a) :
    readByte (writeByte m a b) x = readByte m x := by
  have hf := readByte_filter m (fun k => decide (k ≠ a)) x
  simp [h] at hf
  unfold writeByte
  split
  · simpa using hf
  · rw [readByte_insert_other _ _ _ _ h]; simpa using hf

/-! ## Words -/

theorem readByte_writeWord_other (m : Memory) (a x : Nat) (w : Word) (h : x ≠ a ∧ x ≠ a + 1) :
    readByte (writeWord m a w) x = readByte m x := by
  unfold writeWord
  rw [readByte_writeByte_other _ _ _ _ h.2, readByte_writeByte_other _ _ _ _ h.1]

theorem readWord_writeWord_same (m : Memory) (a : Nat) (w : Word) : readWord (writeWord m a w) a = w := by
  unfold readWord writeWord
  rw [readByte_writeByte_same, readByte_writeByte_other _ _ _ _ (by omega), readByte_writeByte_same]
  ext i hi
  simp only [BitVec.getElem_append, BitVec.getElem_extractLsb']
  by_cases h8 : i < 8
  · simp [h8, ← BitVec.getLsbD_eq_getElem]
  · have : 8 + (i - 8) = i := by omega
    simp [h8, this, ← BitVec.getLsbD_eq_getElem]

/-- A word whose two bytes lie apart from the written word's reads as before. -/
theorem readWord_writeWord_other (m : Memory) (a x : Nat) (w : Word) (h : x + 1 < a ∨ a + 1 < x) :
    readWord (writeWord m a w) x = readWord m x := by
  unfold readWord
  rw [readByte_writeWord_other _ _ _ _ (by omega), readByte_writeWord_other _ _ _ _ (by omega)]

theorem readByte_zeroRange (m : Memory) (lo hi a : Nat) :
    readByte (zeroRange m lo hi) a = if lo ≤ a ∧ a < hi then unlistedByte else readByte m a := by
  unfold zeroRange
  have := readByte_filter m (fun k => k < lo || hi ≤ k) a
  rw [this]
  by_cases h : lo ≤ a ∧ a < hi
  · have h1 : ¬ a < lo := by omega
    have h2 : ¬ hi ≤ a := by omega
    simp [h, h1, h2]
  · have h1 : a < lo ∨ hi ≤ a := by omega
    simp [h, h1]

/-! ## The canonical form -/

theorem memoryWf_cons (k : Nat) (b : Byte) (rest : Memory) :
    memoryWf ((k, b) :: rest) = true ↔
      k < 0x8000 ∧ b ≠ unlistedByte ∧ (∀ cell ∈ rest, k < cell.1) ∧ memoryWf rest = true := by
  simp [memoryWf, and_assoc]

theorem filter_wf (m : Memory) (p : Host.Cell → Bool) (h : memoryWf m = true) : memoryWf (m.filter p) = true := by
  induction m with
  | nil => simp [memoryWf]
  | cons cell rest ih =>
    obtain ⟨k, b⟩ := cell
    rw [memoryWf_cons] at h
    by_cases hp : p (k, b)
    · rw [List.filter_cons_of_pos hp, memoryWf_cons]
      exact ⟨h.1, h.2.1, fun cell hc => h.2.2.1 cell (List.mem_of_mem_filter hc), ih h.2.2.2⟩
    · rw [List.filter_cons_of_neg hp]; exact ih h.2.2.2

theorem mem_insertByte (m : Memory) (a : Nat) (b : Byte) (cell : Host.Cell) :
    cell ∈ insertByte a b m → cell = (a, b) ∨ cell ∈ m := by
  induction m with
  | nil => simp [insertByte]
  | cons head rest ih =>
    obtain ⟨k, c⟩ := head
    simp only [insertByte]
    split
    · simp
    · simp only [List.mem_cons]
      rintro (h | h)
      · exact Or.inr (Or.inl h)
      · rcases ih h with h | h
        · exact Or.inl h
        · exact Or.inr (Or.inr h)

theorem insertByte_wf (m : Memory) (a : Nat) (b : Byte) (ha : a < 0x8000) (hb : b ≠ unlistedByte)
    (hn : ∀ cell ∈ m, cell.1 ≠ a) (h : memoryWf m = true) : memoryWf (insertByte a b m) = true := by
  induction m with
  | nil => simp [insertByte, memoryWf, ha, hb]
  | cons cell rest ih =>
    obtain ⟨k, c⟩ := cell
    have hk : k ≠ a := hn (k, c) (by simp)
    rw [memoryWf_cons] at h
    simp only [insertByte]
    split
    · rename_i hlt
      rw [memoryWf_cons, memoryWf_cons]
      refine ⟨ha, hb, ?_, h⟩
      intro cell hc
      rcases List.mem_cons.mp hc with hc | hc
      · subst hc; exact hlt
      · exact Nat.lt_trans hlt (h.2.2.1 cell hc)
    · rename_i hlt
      rw [memoryWf_cons]
      refine ⟨h.1, h.2.1, ?_, ih (fun cell hc => hn cell (by simp [hc])) h.2.2.2⟩
      intro cell hc
      rcases mem_insertByte _ _ _ _ hc with hc | hc
      · subst hc; show k < a; omega
      · exact h.2.2.1 cell hc

theorem writeByte_wf (m : Memory) (a : Nat) (b : Byte) (ha : a < 0x8000) (h : memoryWf m = true) :
    memoryWf (writeByte m a b) = true := by
  unfold writeByte
  split
  · exact filter_wf _ _ h
  · rename_i hb
    refine insertByte_wf _ _ _ ha hb ?_ (filter_wf _ _ h)
    intro cell hc
    simpa using (List.mem_filter.mp hc).2

theorem writeWord_wf (m : Memory) (a : Nat) (w : Word) (ha : a + 1 < 0x8000) (h : memoryWf m = true) :
    memoryWf (writeWord m a w) = true :=
  writeByte_wf _ _ _ ha (writeByte_wf _ _ _ (by omega) h)

theorem zeroRange_wf (m : Memory) (lo hi : Nat) (h : memoryWf m = true) : memoryWf (zeroRange m lo hi) = true :=
  filter_wf _ _ h

/-- An empty memory is canonical. -/
theorem nil_wf : memoryWf [] = true := rfl

end Sys2Proof.Machine
end

