-- ==== Sys2Proof/Laws/State.lean ====
section
/-! SUPPORT. Laws of the state's updates: what each named update leaves in each field, each true by definition. -/

namespace Sys2Proof.Machine

/-! ## updCard -/

@[simp] theorem pending_updCard (s : State) (c : CardId) (f : Card → Card) : (s.updCard c f).pending = s.pending := rfl
@[simp] theorem resetPin_updCard (s : State) (c : CardId) (f : Card → Card) : (s.updCard c f).resetPin = s.resetPin := rfl
@[simp] theorem bclr_updCard (s : State) (c : CardId) (f : Card → Card) : (s.updCard c f).bclr = s.bclr := rfl
@[simp] theorem engine_updCard (s : State) (c : CardId) (f : Card → Card) : (s.updCard c f).engine = s.engine := rfl
@[simp] theorem ctrlRun_updCard (s : State) (c : CardId) (f : Card → Card) : (s.updCard c f).ctrlRun = s.ctrlRun := rfl
@[simp] theorem ctrlPresence_updCard (s : State) (c : CardId) (f : Card → Card) : (s.updCard c f).ctrlPresence = s.ctrlPresence := rfl
@[simp] theorem ctrlInterrupt_updCard (s : State) (c : CardId) (f : Card → Card) : (s.updCard c f).ctrlInterrupt = s.ctrlInterrupt := rfl
@[simp] theorem statDiscard_updCard (s : State) (c : CardId) (f : Card → Card) : (s.updCard c f).statDiscard = s.statDiscard := rfl
@[simp] theorem statRefused_updCard (s : State) (c : CardId) (f : Card → Card) : (s.updCard c f).statRefused = s.statRefused := rfl
@[simp] theorem tally_updCard (s : State) (c : CardId) (f : Card → Card) : (s.updCard c f).tally = s.tally := rfl
@[simp] theorem produced_updCard (s : State) (c : CardId) (f : Card → Card) : (s.updCard c f).produced = s.produced := rfl
@[simp] theorem consumed_updCard (s : State) (c : CardId) (f : Card → Card) : (s.updCard c f).consumed = s.consumed := rfl
@[simp] theorem lost_updCard (s : State) (c : CardId) (f : Card → Card) : (s.updCard c f).lost = s.lost := rfl
@[simp] theorem acceptSeq_updCard (s : State) (c : CardId) (f : Card → Card) : (s.updCard c f).acceptSeq = s.acceptSeq := rfl
@[simp] theorem msClock_updCard (s : State) (c : CardId) (f : Card → Card) : (s.updCard c f).msClock = s.msClock := rfl
@[simp] theorem refusedCount_updCard (s : State) (c : CardId) (f : Card → Card) : (s.updCard c f).refusedCount = s.refusedCount := rfl
@[simp] theorem discardCount_updCard (s : State) (c : CardId) (f : Card → Card) : (s.updCard c f).discardCount = s.discardCount := rfl
@[simp] theorem discardAddr_updCard (s : State) (c : CardId) (f : Card → Card) : (s.updCard c f).discardAddr = s.discardAddr := rfl
@[simp] theorem slots_updCard (s : State) (c : CardId) (f : Card → Card) : (s.updCard c f).slots = s.slots := rfl
@[simp] theorem acceptOrder_updCard (s : State) (c : CardId) (f : Card → Card) : (s.updCard c f).acceptOrder = s.acceptOrder := rfl
@[simp] theorem pageHolder_updCard (s : State) (c : CardId) (f : Card → Card) : (s.updCard c f).pageHolder = s.pageHolder := rfl
@[simp] theorem breach_updCard (s : State) (c : CardId) (f : Card → Card) : (s.updCard c f).breach = s.breach := rfl
@[simp] theorem leaseWaiting_updCard (s : State) (c : CardId) (f : Card → Card) : (s.updCard c f).leaseWaiting = s.leaseWaiting := rfl
@[simp] theorem tenure_updCard (s : State) (c : CardId) (f : Card → Card) : (s.updCard c f).tenure = s.tenure := rfl
@[simp] theorem attnPtr_updCard (s : State) (c : CardId) (f : Card → Card) : (s.updCard c f).attnPtr = s.attnPtr := rfl
@[simp] theorem jobPtr_updCard (s : State) (c : CardId) (f : Card → Card) : (s.updCard c f).jobPtr = s.jobPtr := rfl
@[simp] theorem mem_updCard (s : State) (c : CardId) (f : Card → Card) : (s.updCard c f).mem = s.mem := rfl
@[simp] theorem slot_updCard (s : State) (c : CardId) (f : Card → Card) (j : SlotId) : (s.updCard c f).slot j = s.slot j := rfl
@[simp] theorem word_updCard (s : State) (c : CardId) (f : Card → Card) (adr : Nat) : (s.updCard c f).word adr = s.word adr := rfl
@[simp] theorem slotWord_updCard (s : State) (c : CardId) (f : Card → Card) (j : SlotId) (m : Nat) : (s.updCard c f).slotWord j m = s.slotWord j m := rfl
@[simp] theorem profileWord_updCard (s : State) (c : CardId) (f : Card → Card) (e : CardId) (m : Nat) : (s.updCard c f).profileWord e m = s.profileWord e m := rfl
@[simp] theorem slotCard_updCard (s : State) (c : CardId) (f : Card → Card) (j : SlotId) : (s.updCard c f).slotCard j = s.slotCard j := rfl

/-! ## updSeq -/

@[simp] theorem pending_updSeq (s : State) (c : CardId) (f : Sequencer → Sequencer) : (s.updSeq c f).pending = s.pending := rfl
@[simp] theorem resetPin_updSeq (s : State) (c : CardId) (f : Sequencer → Sequencer) : (s.updSeq c f).resetPin = s.resetPin := rfl
@[simp] theorem bclr_updSeq (s : State) (c : CardId) (f : Sequencer → Sequencer) : (s.updSeq c f).bclr = s.bclr := rfl
@[simp] theorem engine_updSeq (s : State) (c : CardId) (f : Sequencer → Sequencer) : (s.updSeq c f).engine = s.engine := rfl
@[simp] theorem ctrlRun_updSeq (s : State) (c : CardId) (f : Sequencer → Sequencer) : (s.updSeq c f).ctrlRun = s.ctrlRun := rfl
@[simp] theorem ctrlPresence_updSeq (s : State) (c : CardId) (f : Sequencer → Sequencer) : (s.updSeq c f).ctrlPresence = s.ctrlPresence := rfl
@[simp] theorem ctrlInterrupt_updSeq (s : State) (c : CardId) (f : Sequencer → Sequencer) : (s.updSeq c f).ctrlInterrupt = s.ctrlInterrupt := rfl
@[simp] theorem statDiscard_updSeq (s : State) (c : CardId) (f : Sequencer → Sequencer) : (s.updSeq c f).statDiscard = s.statDiscard := rfl
@[simp] theorem statRefused_updSeq (s : State) (c : CardId) (f : Sequencer → Sequencer) : (s.updSeq c f).statRefused = s.statRefused := rfl
@[simp] theorem tally_updSeq (s : State) (c : CardId) (f : Sequencer → Sequencer) : (s.updSeq c f).tally = s.tally := rfl
@[simp] theorem produced_updSeq (s : State) (c : CardId) (f : Sequencer → Sequencer) : (s.updSeq c f).produced = s.produced := rfl
@[simp] theorem consumed_updSeq (s : State) (c : CardId) (f : Sequencer → Sequencer) : (s.updSeq c f).consumed = s.consumed := rfl
@[simp] theorem lost_updSeq (s : State) (c : CardId) (f : Sequencer → Sequencer) : (s.updSeq c f).lost = s.lost := rfl
@[simp] theorem acceptSeq_updSeq (s : State) (c : CardId) (f : Sequencer → Sequencer) : (s.updSeq c f).acceptSeq = s.acceptSeq := rfl
@[simp] theorem msClock_updSeq (s : State) (c : CardId) (f : Sequencer → Sequencer) : (s.updSeq c f).msClock = s.msClock := rfl
@[simp] theorem refusedCount_updSeq (s : State) (c : CardId) (f : Sequencer → Sequencer) : (s.updSeq c f).refusedCount = s.refusedCount := rfl
@[simp] theorem discardCount_updSeq (s : State) (c : CardId) (f : Sequencer → Sequencer) : (s.updSeq c f).discardCount = s.discardCount := rfl
@[simp] theorem discardAddr_updSeq (s : State) (c : CardId) (f : Sequencer → Sequencer) : (s.updSeq c f).discardAddr = s.discardAddr := rfl
@[simp] theorem slots_updSeq (s : State) (c : CardId) (f : Sequencer → Sequencer) : (s.updSeq c f).slots = s.slots := rfl
@[simp] theorem acceptOrder_updSeq (s : State) (c : CardId) (f : Sequencer → Sequencer) : (s.updSeq c f).acceptOrder = s.acceptOrder := rfl
@[simp] theorem pageHolder_updSeq (s : State) (c : CardId) (f : Sequencer → Sequencer) : (s.updSeq c f).pageHolder = s.pageHolder := rfl
@[simp] theorem breach_updSeq (s : State) (c : CardId) (f : Sequencer → Sequencer) : (s.updSeq c f).breach = s.breach := rfl
@[simp] theorem leaseWaiting_updSeq (s : State) (c : CardId) (f : Sequencer → Sequencer) : (s.updSeq c f).leaseWaiting = s.leaseWaiting := rfl
@[simp] theorem tenure_updSeq (s : State) (c : CardId) (f : Sequencer → Sequencer) : (s.updSeq c f).tenure = s.tenure := rfl
@[simp] theorem attnPtr_updSeq (s : State) (c : CardId) (f : Sequencer → Sequencer) : (s.updSeq c f).attnPtr = s.attnPtr := rfl
@[simp] theorem jobPtr_updSeq (s : State) (c : CardId) (f : Sequencer → Sequencer) : (s.updSeq c f).jobPtr = s.jobPtr := rfl
@[simp] theorem mem_updSeq (s : State) (c : CardId) (f : Sequencer → Sequencer) : (s.updSeq c f).mem = s.mem := rfl
@[simp] theorem slot_updSeq (s : State) (c : CardId) (f : Sequencer → Sequencer) (j : SlotId) : (s.updSeq c f).slot j = s.slot j := rfl
@[simp] theorem word_updSeq (s : State) (c : CardId) (f : Sequencer → Sequencer) (adr : Nat) : (s.updSeq c f).word adr = s.word adr := rfl
@[simp] theorem slotWord_updSeq (s : State) (c : CardId) (f : Sequencer → Sequencer) (j : SlotId) (m : Nat) : (s.updSeq c f).slotWord j m = s.slotWord j m := rfl
@[simp] theorem profileWord_updSeq (s : State) (c : CardId) (f : Sequencer → Sequencer) (e : CardId) (m : Nat) : (s.updSeq c f).profileWord e m = s.profileWord e m := rfl
@[simp] theorem slotCard_updSeq (s : State) (c : CardId) (f : Sequencer → Sequencer) (j : SlotId) : (s.updSeq c f).slotCard j = s.slotCard j := rfl

/-! ## updStream -/

@[simp] theorem pending_updStream (s : State) (c : CardId) (f : StreamRec → StreamRec) : (s.updStream c f).pending = s.pending := rfl
@[simp] theorem resetPin_updStream (s : State) (c : CardId) (f : StreamRec → StreamRec) : (s.updStream c f).resetPin = s.resetPin := rfl
@[simp] theorem bclr_updStream (s : State) (c : CardId) (f : StreamRec → StreamRec) : (s.updStream c f).bclr = s.bclr := rfl
@[simp] theorem engine_updStream (s : State) (c : CardId) (f : StreamRec → StreamRec) : (s.updStream c f).engine = s.engine := rfl
@[simp] theorem ctrlRun_updStream (s : State) (c : CardId) (f : StreamRec → StreamRec) : (s.updStream c f).ctrlRun = s.ctrlRun := rfl
@[simp] theorem ctrlPresence_updStream (s : State) (c : CardId) (f : StreamRec → StreamRec) : (s.updStream c f).ctrlPresence = s.ctrlPresence := rfl
@[simp] theorem ctrlInterrupt_updStream (s : State) (c : CardId) (f : StreamRec → StreamRec) : (s.updStream c f).ctrlInterrupt = s.ctrlInterrupt := rfl
@[simp] theorem statDiscard_updStream (s : State) (c : CardId) (f : StreamRec → StreamRec) : (s.updStream c f).statDiscard = s.statDiscard := rfl
@[simp] theorem statRefused_updStream (s : State) (c : CardId) (f : StreamRec → StreamRec) : (s.updStream c f).statRefused = s.statRefused := rfl
@[simp] theorem tally_updStream (s : State) (c : CardId) (f : StreamRec → StreamRec) : (s.updStream c f).tally = s.tally := rfl
@[simp] theorem produced_updStream (s : State) (c : CardId) (f : StreamRec → StreamRec) : (s.updStream c f).produced = s.produced := rfl
@[simp] theorem consumed_updStream (s : State) (c : CardId) (f : StreamRec → StreamRec) : (s.updStream c f).consumed = s.consumed := rfl
@[simp] theorem lost_updStream (s : State) (c : CardId) (f : StreamRec → StreamRec) : (s.updStream c f).lost = s.lost := rfl
@[simp] theorem acceptSeq_updStream (s : State) (c : CardId) (f : StreamRec → StreamRec) : (s.updStream c f).acceptSeq = s.acceptSeq := rfl
@[simp] theorem msClock_updStream (s : State) (c : CardId) (f : StreamRec → StreamRec) : (s.updStream c f).msClock = s.msClock := rfl
@[simp] theorem refusedCount_updStream (s : State) (c : CardId) (f : StreamRec → StreamRec) : (s.updStream c f).refusedCount = s.refusedCount := rfl
@[simp] theorem discardCount_updStream (s : State) (c : CardId) (f : StreamRec → StreamRec) : (s.updStream c f).discardCount = s.discardCount := rfl
@[simp] theorem discardAddr_updStream (s : State) (c : CardId) (f : StreamRec → StreamRec) : (s.updStream c f).discardAddr = s.discardAddr := rfl
@[simp] theorem slots_updStream (s : State) (c : CardId) (f : StreamRec → StreamRec) : (s.updStream c f).slots = s.slots := rfl
@[simp] theorem acceptOrder_updStream (s : State) (c : CardId) (f : StreamRec → StreamRec) : (s.updStream c f).acceptOrder = s.acceptOrder := rfl
@[simp] theorem pageHolder_updStream (s : State) (c : CardId) (f : StreamRec → StreamRec) : (s.updStream c f).pageHolder = s.pageHolder := rfl
@[simp] theorem breach_updStream (s : State) (c : CardId) (f : StreamRec → StreamRec) : (s.updStream c f).breach = s.breach := rfl
@[simp] theorem leaseWaiting_updStream (s : State) (c : CardId) (f : StreamRec → StreamRec) : (s.updStream c f).leaseWaiting = s.leaseWaiting := rfl
@[simp] theorem tenure_updStream (s : State) (c : CardId) (f : StreamRec → StreamRec) : (s.updStream c f).tenure = s.tenure := rfl
@[simp] theorem attnPtr_updStream (s : State) (c : CardId) (f : StreamRec → StreamRec) : (s.updStream c f).attnPtr = s.attnPtr := rfl
@[simp] theorem jobPtr_updStream (s : State) (c : CardId) (f : StreamRec → StreamRec) : (s.updStream c f).jobPtr = s.jobPtr := rfl
@[simp] theorem mem_updStream (s : State) (c : CardId) (f : StreamRec → StreamRec) : (s.updStream c f).mem = s.mem := rfl
@[simp] theorem slot_updStream (s : State) (c : CardId) (f : StreamRec → StreamRec) (j : SlotId) : (s.updStream c f).slot j = s.slot j := rfl
@[simp] theorem word_updStream (s : State) (c : CardId) (f : StreamRec → StreamRec) (adr : Nat) : (s.updStream c f).word adr = s.word adr := rfl
@[simp] theorem slotWord_updStream (s : State) (c : CardId) (f : StreamRec → StreamRec) (j : SlotId) (m : Nat) : (s.updStream c f).slotWord j m = s.slotWord j m := rfl
@[simp] theorem profileWord_updStream (s : State) (c : CardId) (f : StreamRec → StreamRec) (e : CardId) (m : Nat) : (s.updStream c f).profileWord e m = s.profileWord e m := rfl
@[simp] theorem slotCard_updStream (s : State) (c : CardId) (f : StreamRec → StreamRec) (j : SlotId) : (s.updStream c f).slotCard j = s.slotCard j := rfl

/-! ## setSlot -/

@[simp] theorem pending_setSlot (s : State) (i : SlotId) (x : SlotCtl) : (s.setSlot i x).pending = s.pending := rfl
@[simp] theorem resetPin_setSlot (s : State) (i : SlotId) (x : SlotCtl) : (s.setSlot i x).resetPin = s.resetPin := rfl
@[simp] theorem bclr_setSlot (s : State) (i : SlotId) (x : SlotCtl) : (s.setSlot i x).bclr = s.bclr := rfl
@[simp] theorem engine_setSlot (s : State) (i : SlotId) (x : SlotCtl) : (s.setSlot i x).engine = s.engine := rfl
@[simp] theorem ctrlRun_setSlot (s : State) (i : SlotId) (x : SlotCtl) : (s.setSlot i x).ctrlRun = s.ctrlRun := rfl
@[simp] theorem ctrlPresence_setSlot (s : State) (i : SlotId) (x : SlotCtl) : (s.setSlot i x).ctrlPresence = s.ctrlPresence := rfl
@[simp] theorem ctrlInterrupt_setSlot (s : State) (i : SlotId) (x : SlotCtl) : (s.setSlot i x).ctrlInterrupt = s.ctrlInterrupt := rfl
@[simp] theorem statDiscard_setSlot (s : State) (i : SlotId) (x : SlotCtl) : (s.setSlot i x).statDiscard = s.statDiscard := rfl
@[simp] theorem statRefused_setSlot (s : State) (i : SlotId) (x : SlotCtl) : (s.setSlot i x).statRefused = s.statRefused := rfl
@[simp] theorem tally_setSlot (s : State) (i : SlotId) (x : SlotCtl) : (s.setSlot i x).tally = s.tally := rfl
@[simp] theorem produced_setSlot (s : State) (i : SlotId) (x : SlotCtl) : (s.setSlot i x).produced = s.produced := rfl
@[simp] theorem consumed_setSlot (s : State) (i : SlotId) (x : SlotCtl) : (s.setSlot i x).consumed = s.consumed := rfl
@[simp] theorem lost_setSlot (s : State) (i : SlotId) (x : SlotCtl) : (s.setSlot i x).lost = s.lost := rfl
@[simp] theorem acceptSeq_setSlot (s : State) (i : SlotId) (x : SlotCtl) : (s.setSlot i x).acceptSeq = s.acceptSeq := rfl
@[simp] theorem msClock_setSlot (s : State) (i : SlotId) (x : SlotCtl) : (s.setSlot i x).msClock = s.msClock := rfl
@[simp] theorem refusedCount_setSlot (s : State) (i : SlotId) (x : SlotCtl) : (s.setSlot i x).refusedCount = s.refusedCount := rfl
@[simp] theorem discardCount_setSlot (s : State) (i : SlotId) (x : SlotCtl) : (s.setSlot i x).discardCount = s.discardCount := rfl
@[simp] theorem discardAddr_setSlot (s : State) (i : SlotId) (x : SlotCtl) : (s.setSlot i x).discardAddr = s.discardAddr := rfl
@[simp] theorem acceptOrder_setSlot (s : State) (i : SlotId) (x : SlotCtl) : (s.setSlot i x).acceptOrder = s.acceptOrder := rfl
@[simp] theorem cards_setSlot (s : State) (i : SlotId) (x : SlotCtl) : (s.setSlot i x).cards = s.cards := rfl
@[simp] theorem pageHolder_setSlot (s : State) (i : SlotId) (x : SlotCtl) : (s.setSlot i x).pageHolder = s.pageHolder := rfl
@[simp] theorem breach_setSlot (s : State) (i : SlotId) (x : SlotCtl) : (s.setSlot i x).breach = s.breach := rfl
@[simp] theorem leaseWaiting_setSlot (s : State) (i : SlotId) (x : SlotCtl) : (s.setSlot i x).leaseWaiting = s.leaseWaiting := rfl
@[simp] theorem tenure_setSlot (s : State) (i : SlotId) (x : SlotCtl) : (s.setSlot i x).tenure = s.tenure := rfl
@[simp] theorem attnPtr_setSlot (s : State) (i : SlotId) (x : SlotCtl) : (s.setSlot i x).attnPtr = s.attnPtr := rfl
@[simp] theorem jobPtr_setSlot (s : State) (i : SlotId) (x : SlotCtl) : (s.setSlot i x).jobPtr = s.jobPtr := rfl
@[simp] theorem mem_setSlot (s : State) (i : SlotId) (x : SlotCtl) : (s.setSlot i x).mem = s.mem := rfl
@[simp] theorem card_setSlot (s : State) (i : SlotId) (x : SlotCtl) (e : CardId) : (s.setSlot i x).card e = s.card e := rfl
@[simp] theorem record_setSlot (s : State) (i : SlotId) (x : SlotCtl) (e : CardId) : (s.setSlot i x).record e = s.record e := rfl
@[simp] theorem word_setSlot (s : State) (i : SlotId) (x : SlotCtl) (adr : Nat) : (s.setSlot i x).word adr = s.word adr := rfl
@[simp] theorem slotWord_setSlot (s : State) (i : SlotId) (x : SlotCtl) (j : SlotId) (m : Nat) : (s.setSlot i x).slotWord j m = s.slotWord j m := rfl
@[simp] theorem profileWord_setSlot (s : State) (i : SlotId) (x : SlotCtl) (e : CardId) (m : Nat) : (s.setSlot i x).profileWord e m = s.profileWord e m := rfl
@[simp] theorem slotCard_setSlot (s : State) (i : SlotId) (x : SlotCtl) (j : SlotId) : (s.setSlot i x).slotCard j = s.slotCard j := rfl

/-! ## setWord -/

@[simp] theorem pending_setWord (s : State) (a : Nat) (w : Word) : (s.setWord a w).pending = s.pending := rfl
@[simp] theorem resetPin_setWord (s : State) (a : Nat) (w : Word) : (s.setWord a w).resetPin = s.resetPin := rfl
@[simp] theorem bclr_setWord (s : State) (a : Nat) (w : Word) : (s.setWord a w).bclr = s.bclr := rfl
@[simp] theorem engine_setWord (s : State) (a : Nat) (w : Word) : (s.setWord a w).engine = s.engine := rfl
@[simp] theorem ctrlRun_setWord (s : State) (a : Nat) (w : Word) : (s.setWord a w).ctrlRun = s.ctrlRun := rfl
@[simp] theorem ctrlPresence_setWord (s : State) (a : Nat) (w : Word) : (s.setWord a w).ctrlPresence = s.ctrlPresence := rfl
@[simp] theorem ctrlInterrupt_setWord (s : State) (a : Nat) (w : Word) : (s.setWord a w).ctrlInterrupt = s.ctrlInterrupt := rfl
@[simp] theorem statDiscard_setWord (s : State) (a : Nat) (w : Word) : (s.setWord a w).statDiscard = s.statDiscard := rfl
@[simp] theorem statRefused_setWord (s : State) (a : Nat) (w : Word) : (s.setWord a w).statRefused = s.statRefused := rfl
@[simp] theorem tally_setWord (s : State) (a : Nat) (w : Word) : (s.setWord a w).tally = s.tally := rfl
@[simp] theorem produced_setWord (s : State) (a : Nat) (w : Word) : (s.setWord a w).produced = s.produced := rfl
@[simp] theorem consumed_setWord (s : State) (a : Nat) (w : Word) : (s.setWord a w).consumed = s.consumed := rfl
@[simp] theorem lost_setWord (s : State) (a : Nat) (w : Word) : (s.setWord a w).lost = s.lost := rfl
@[simp] theorem acceptSeq_setWord (s : State) (a : Nat) (w : Word) : (s.setWord a w).acceptSeq = s.acceptSeq := rfl
@[simp] theorem msClock_setWord (s : State) (a : Nat) (w : Word) : (s.setWord a w).msClock = s.msClock := rfl
@[simp] theorem refusedCount_setWord (s : State) (a : Nat) (w : Word) : (s.setWord a w).refusedCount = s.refusedCount := rfl
@[simp] theorem discardCount_setWord (s : State) (a : Nat) (w : Word) : (s.setWord a w).discardCount = s.discardCount := rfl
@[simp] theorem discardAddr_setWord (s : State) (a : Nat) (w : Word) : (s.setWord a w).discardAddr = s.discardAddr := rfl
@[simp] theorem slots_setWord (s : State) (a : Nat) (w : Word) : (s.setWord a w).slots = s.slots := rfl
@[simp] theorem acceptOrder_setWord (s : State) (a : Nat) (w : Word) : (s.setWord a w).acceptOrder = s.acceptOrder := rfl
@[simp] theorem cards_setWord (s : State) (a : Nat) (w : Word) : (s.setWord a w).cards = s.cards := rfl
@[simp] theorem pageHolder_setWord (s : State) (a : Nat) (w : Word) : (s.setWord a w).pageHolder = s.pageHolder := rfl
@[simp] theorem breach_setWord (s : State) (a : Nat) (w : Word) : (s.setWord a w).breach = s.breach := rfl
@[simp] theorem leaseWaiting_setWord (s : State) (a : Nat) (w : Word) : (s.setWord a w).leaseWaiting = s.leaseWaiting := rfl
@[simp] theorem tenure_setWord (s : State) (a : Nat) (w : Word) : (s.setWord a w).tenure = s.tenure := rfl
@[simp] theorem attnPtr_setWord (s : State) (a : Nat) (w : Word) : (s.setWord a w).attnPtr = s.attnPtr := rfl
@[simp] theorem jobPtr_setWord (s : State) (a : Nat) (w : Word) : (s.setWord a w).jobPtr = s.jobPtr := rfl
@[simp] theorem card_setWord (s : State) (a : Nat) (w : Word) (e : CardId) : (s.setWord a w).card e = s.card e := rfl
@[simp] theorem record_setWord (s : State) (a : Nat) (w : Word) (e : CardId) : (s.setWord a w).record e = s.record e := rfl
@[simp] theorem slot_setWord (s : State) (a : Nat) (w : Word) (j : SlotId) : (s.setWord a w).slot j = s.slot j := rfl

/-! ## setSlotWord -/

@[simp] theorem pending_setSlotWord (s : State) (i : SlotId) (n : Nat) (w : Word) : (s.setSlotWord i n w).pending = s.pending := rfl
@[simp] theorem resetPin_setSlotWord (s : State) (i : SlotId) (n : Nat) (w : Word) : (s.setSlotWord i n w).resetPin = s.resetPin := rfl
@[simp] theorem bclr_setSlotWord (s : State) (i : SlotId) (n : Nat) (w : Word) : (s.setSlotWord i n w).bclr = s.bclr := rfl
@[simp] theorem engine_setSlotWord (s : State) (i : SlotId) (n : Nat) (w : Word) : (s.setSlotWord i n w).engine = s.engine := rfl
@[simp] theorem ctrlRun_setSlotWord (s : State) (i : SlotId) (n : Nat) (w : Word) : (s.setSlotWord i n w).ctrlRun = s.ctrlRun := rfl
@[simp] theorem ctrlPresence_setSlotWord (s : State) (i : SlotId) (n : Nat) (w : Word) : (s.setSlotWord i n w).ctrlPresence = s.ctrlPresence := rfl
@[simp] theorem ctrlInterrupt_setSlotWord (s : State) (i : SlotId) (n : Nat) (w : Word) : (s.setSlotWord i n w).ctrlInterrupt = s.ctrlInterrupt := rfl
@[simp] theorem statDiscard_setSlotWord (s : State) (i : SlotId) (n : Nat) (w : Word) : (s.setSlotWord i n w).statDiscard = s.statDiscard := rfl
@[simp] theorem statRefused_setSlotWord (s : State) (i : SlotId) (n : Nat) (w : Word) : (s.setSlotWord i n w).statRefused = s.statRefused := rfl
@[simp] theorem tally_setSlotWord (s : State) (i : SlotId) (n : Nat) (w : Word) : (s.setSlotWord i n w).tally = s.tally := rfl
@[simp] theorem produced_setSlotWord (s : State) (i : SlotId) (n : Nat) (w : Word) : (s.setSlotWord i n w).produced = s.produced := rfl
@[simp] theorem consumed_setSlotWord (s : State) (i : SlotId) (n : Nat) (w : Word) : (s.setSlotWord i n w).consumed = s.consumed := rfl
@[simp] theorem lost_setSlotWord (s : State) (i : SlotId) (n : Nat) (w : Word) : (s.setSlotWord i n w).lost = s.lost := rfl
@[simp] theorem acceptSeq_setSlotWord (s : State) (i : SlotId) (n : Nat) (w : Word) : (s.setSlotWord i n w).acceptSeq = s.acceptSeq := rfl
@[simp] theorem msClock_setSlotWord (s : State) (i : SlotId) (n : Nat) (w : Word) : (s.setSlotWord i n w).msClock = s.msClock := rfl
@[simp] theorem refusedCount_setSlotWord (s : State) (i : SlotId) (n : Nat) (w : Word) : (s.setSlotWord i n w).refusedCount = s.refusedCount := rfl
@[simp] theorem discardCount_setSlotWord (s : State) (i : SlotId) (n : Nat) (w : Word) : (s.setSlotWord i n w).discardCount = s.discardCount := rfl
@[simp] theorem discardAddr_setSlotWord (s : State) (i : SlotId) (n : Nat) (w : Word) : (s.setSlotWord i n w).discardAddr = s.discardAddr := rfl
@[simp] theorem slots_setSlotWord (s : State) (i : SlotId) (n : Nat) (w : Word) : (s.setSlotWord i n w).slots = s.slots := rfl
@[simp] theorem acceptOrder_setSlotWord (s : State) (i : SlotId) (n : Nat) (w : Word) : (s.setSlotWord i n w).acceptOrder = s.acceptOrder := rfl
@[simp] theorem cards_setSlotWord (s : State) (i : SlotId) (n : Nat) (w : Word) : (s.setSlotWord i n w).cards = s.cards := rfl
@[simp] theorem pageHolder_setSlotWord (s : State) (i : SlotId) (n : Nat) (w : Word) : (s.setSlotWord i n w).pageHolder = s.pageHolder := rfl
@[simp] theorem breach_setSlotWord (s : State) (i : SlotId) (n : Nat) (w : Word) : (s.setSlotWord i n w).breach = s.breach := rfl
@[simp] theorem leaseWaiting_setSlotWord (s : State) (i : SlotId) (n : Nat) (w : Word) : (s.setSlotWord i n w).leaseWaiting = s.leaseWaiting := rfl
@[simp] theorem tenure_setSlotWord (s : State) (i : SlotId) (n : Nat) (w : Word) : (s.setSlotWord i n w).tenure = s.tenure := rfl
@[simp] theorem attnPtr_setSlotWord (s : State) (i : SlotId) (n : Nat) (w : Word) : (s.setSlotWord i n w).attnPtr = s.attnPtr := rfl
@[simp] theorem jobPtr_setSlotWord (s : State) (i : SlotId) (n : Nat) (w : Word) : (s.setSlotWord i n w).jobPtr = s.jobPtr := rfl
@[simp] theorem card_setSlotWord (s : State) (i : SlotId) (n : Nat) (w : Word) (e : CardId) : (s.setSlotWord i n w).card e = s.card e := rfl
@[simp] theorem record_setSlotWord (s : State) (i : SlotId) (n : Nat) (w : Word) (e : CardId) : (s.setSlotWord i n w).record e = s.record e := rfl
@[simp] theorem slot_setSlotWord (s : State) (i : SlotId) (n : Nat) (w : Word) (j : SlotId) : (s.setSlotWord i n w).slot j = s.slot j := rfl

/-! ## setProfileWord -/

@[simp] theorem pending_setProfileWord (s : State) (c : CardId) (n : Nat) (w : Word) : (s.setProfileWord c n w).pending = s.pending := rfl
@[simp] theorem resetPin_setProfileWord (s : State) (c : CardId) (n : Nat) (w : Word) : (s.setProfileWord c n w).resetPin = s.resetPin := rfl
@[simp] theorem bclr_setProfileWord (s : State) (c : CardId) (n : Nat) (w : Word) : (s.setProfileWord c n w).bclr = s.bclr := rfl
@[simp] theorem engine_setProfileWord (s : State) (c : CardId) (n : Nat) (w : Word) : (s.setProfileWord c n w).engine = s.engine := rfl
@[simp] theorem ctrlRun_setProfileWord (s : State) (c : CardId) (n : Nat) (w : Word) : (s.setProfileWord c n w).ctrlRun = s.ctrlRun := rfl
@[simp] theorem ctrlPresence_setProfileWord (s : State) (c : CardId) (n : Nat) (w : Word) : (s.setProfileWord c n w).ctrlPresence = s.ctrlPresence := rfl
@[simp] theorem ctrlInterrupt_setProfileWord (s : State) (c : CardId) (n : Nat) (w : Word) : (s.setProfileWord c n w).ctrlInterrupt = s.ctrlInterrupt := rfl
@[simp] theorem statDiscard_setProfileWord (s : State) (c : CardId) (n : Nat) (w : Word) : (s.setProfileWord c n w).statDiscard = s.statDiscard := rfl
@[simp] theorem statRefused_setProfileWord (s : State) (c : CardId) (n : Nat) (w : Word) : (s.setProfileWord c n w).statRefused = s.statRefused := rfl
@[simp] theorem tally_setProfileWord (s : State) (c : CardId) (n : Nat) (w : Word) : (s.setProfileWord c n w).tally = s.tally := rfl
@[simp] theorem produced_setProfileWord (s : State) (c : CardId) (n : Nat) (w : Word) : (s.setProfileWord c n w).produced = s.produced := rfl
@[simp] theorem consumed_setProfileWord (s : State) (c : CardId) (n : Nat) (w : Word) : (s.setProfileWord c n w).consumed = s.consumed := rfl
@[simp] theorem lost_setProfileWord (s : State) (c : CardId) (n : Nat) (w : Word) : (s.setProfileWord c n w).lost = s.lost := rfl
@[simp] theorem acceptSeq_setProfileWord (s : State) (c : CardId) (n : Nat) (w : Word) : (s.setProfileWord c n w).acceptSeq = s.acceptSeq := rfl
@[simp] theorem msClock_setProfileWord (s : State) (c : CardId) (n : Nat) (w : Word) : (s.setProfileWord c n w).msClock = s.msClock := rfl
@[simp] theorem refusedCount_setProfileWord (s : State) (c : CardId) (n : Nat) (w : Word) : (s.setProfileWord c n w).refusedCount = s.refusedCount := rfl
@[simp] theorem discardCount_setProfileWord (s : State) (c : CardId) (n : Nat) (w : Word) : (s.setProfileWord c n w).discardCount = s.discardCount := rfl
@[simp] theorem discardAddr_setProfileWord (s : State) (c : CardId) (n : Nat) (w : Word) : (s.setProfileWord c n w).discardAddr = s.discardAddr := rfl
@[simp] theorem slots_setProfileWord (s : State) (c : CardId) (n : Nat) (w : Word) : (s.setProfileWord c n w).slots = s.slots := rfl
@[simp] theorem acceptOrder_setProfileWord (s : State) (c : CardId) (n : Nat) (w : Word) : (s.setProfileWord c n w).acceptOrder = s.acceptOrder := rfl
@[simp] theorem cards_setProfileWord (s : State) (c : CardId) (n : Nat) (w : Word) : (s.setProfileWord c n w).cards = s.cards := rfl
@[simp] theorem pageHolder_setProfileWord (s : State) (c : CardId) (n : Nat) (w : Word) : (s.setProfileWord c n w).pageHolder = s.pageHolder := rfl
@[simp] theorem breach_setProfileWord (s : State) (c : CardId) (n : Nat) (w : Word) : (s.setProfileWord c n w).breach = s.breach := rfl
@[simp] theorem leaseWaiting_setProfileWord (s : State) (c : CardId) (n : Nat) (w : Word) : (s.setProfileWord c n w).leaseWaiting = s.leaseWaiting := rfl
@[simp] theorem tenure_setProfileWord (s : State) (c : CardId) (n : Nat) (w : Word) : (s.setProfileWord c n w).tenure = s.tenure := rfl
@[simp] theorem attnPtr_setProfileWord (s : State) (c : CardId) (n : Nat) (w : Word) : (s.setProfileWord c n w).attnPtr = s.attnPtr := rfl
@[simp] theorem jobPtr_setProfileWord (s : State) (c : CardId) (n : Nat) (w : Word) : (s.setProfileWord c n w).jobPtr = s.jobPtr := rfl
@[simp] theorem card_setProfileWord (s : State) (c : CardId) (n : Nat) (w : Word) (e : CardId) : (s.setProfileWord c n w).card e = s.card e := rfl
@[simp] theorem record_setProfileWord (s : State) (c : CardId) (n : Nat) (w : Word) (e : CardId) : (s.setProfileWord c n w).record e = s.record e := rfl
@[simp] theorem slot_setProfileWord (s : State) (c : CardId) (n : Nat) (w : Word) (j : SlotId) : (s.setProfileWord c n w).slot j = s.slot j := rfl

/-! ## setDetail -/

@[simp] theorem pending_setDetail (s : State) (i : SlotId) (w : Word) : (s.setDetail i w).pending = s.pending := rfl
@[simp] theorem resetPin_setDetail (s : State) (i : SlotId) (w : Word) : (s.setDetail i w).resetPin = s.resetPin := rfl
@[simp] theorem bclr_setDetail (s : State) (i : SlotId) (w : Word) : (s.setDetail i w).bclr = s.bclr := rfl
@[simp] theorem engine_setDetail (s : State) (i : SlotId) (w : Word) : (s.setDetail i w).engine = s.engine := rfl
@[simp] theorem ctrlRun_setDetail (s : State) (i : SlotId) (w : Word) : (s.setDetail i w).ctrlRun = s.ctrlRun := rfl
@[simp] theorem ctrlPresence_setDetail (s : State) (i : SlotId) (w : Word) : (s.setDetail i w).ctrlPresence = s.ctrlPresence := rfl
@[simp] theorem ctrlInterrupt_setDetail (s : State) (i : SlotId) (w : Word) : (s.setDetail i w).ctrlInterrupt = s.ctrlInterrupt := rfl
@[simp] theorem statDiscard_setDetail (s : State) (i : SlotId) (w : Word) : (s.setDetail i w).statDiscard = s.statDiscard := rfl
@[simp] theorem statRefused_setDetail (s : State) (i : SlotId) (w : Word) : (s.setDetail i w).statRefused = s.statRefused := rfl
@[simp] theorem tally_setDetail (s : State) (i : SlotId) (w : Word) : (s.setDetail i w).tally = s.tally := rfl
@[simp] theorem produced_setDetail (s : State) (i : SlotId) (w : Word) : (s.setDetail i w).produced = s.produced := rfl
@[simp] theorem consumed_setDetail (s : State) (i : SlotId) (w : Word) : (s.setDetail i w).consumed = s.consumed := rfl
@[simp] theorem lost_setDetail (s : State) (i : SlotId) (w : Word) : (s.setDetail i w).lost = s.lost := rfl
@[simp] theorem acceptSeq_setDetail (s : State) (i : SlotId) (w : Word) : (s.setDetail i w).acceptSeq = s.acceptSeq := rfl
@[simp] theorem msClock_setDetail (s : State) (i : SlotId) (w : Word) : (s.setDetail i w).msClock = s.msClock := rfl
@[simp] theorem refusedCount_setDetail (s : State) (i : SlotId) (w : Word) : (s.setDetail i w).refusedCount = s.refusedCount := rfl
@[simp] theorem discardCount_setDetail (s : State) (i : SlotId) (w : Word) : (s.setDetail i w).discardCount = s.discardCount := rfl
@[simp] theorem discardAddr_setDetail (s : State) (i : SlotId) (w : Word) : (s.setDetail i w).discardAddr = s.discardAddr := rfl
@[simp] theorem slots_setDetail (s : State) (i : SlotId) (w : Word) : (s.setDetail i w).slots = s.slots := rfl
@[simp] theorem acceptOrder_setDetail (s : State) (i : SlotId) (w : Word) : (s.setDetail i w).acceptOrder = s.acceptOrder := rfl
@[simp] theorem cards_setDetail (s : State) (i : SlotId) (w : Word) : (s.setDetail i w).cards = s.cards := rfl
@[simp] theorem pageHolder_setDetail (s : State) (i : SlotId) (w : Word) : (s.setDetail i w).pageHolder = s.pageHolder := rfl
@[simp] theorem breach_setDetail (s : State) (i : SlotId) (w : Word) : (s.setDetail i w).breach = s.breach := rfl
@[simp] theorem leaseWaiting_setDetail (s : State) (i : SlotId) (w : Word) : (s.setDetail i w).leaseWaiting = s.leaseWaiting := rfl
@[simp] theorem tenure_setDetail (s : State) (i : SlotId) (w : Word) : (s.setDetail i w).tenure = s.tenure := rfl
@[simp] theorem attnPtr_setDetail (s : State) (i : SlotId) (w : Word) : (s.setDetail i w).attnPtr = s.attnPtr := rfl
@[simp] theorem jobPtr_setDetail (s : State) (i : SlotId) (w : Word) : (s.setDetail i w).jobPtr = s.jobPtr := rfl
@[simp] theorem card_setDetail (s : State) (i : SlotId) (w : Word) (e : CardId) : (s.setDetail i w).card e = s.card e := rfl
@[simp] theorem record_setDetail (s : State) (i : SlotId) (w : Word) (e : CardId) : (s.setDetail i w).record e = s.record e := rfl
@[simp] theorem slot_setDetail (s : State) (i : SlotId) (w : Word) (j : SlotId) : (s.setDetail i w).slot j = s.slot j := rfl

/-! ## setTenure -/

@[simp] theorem pending_setTenure (s : State) (t : Tenure) : (s.setTenure t).pending = s.pending := rfl
@[simp] theorem resetPin_setTenure (s : State) (t : Tenure) : (s.setTenure t).resetPin = s.resetPin := rfl
@[simp] theorem bclr_setTenure (s : State) (t : Tenure) : (s.setTenure t).bclr = s.bclr := rfl
@[simp] theorem engine_setTenure (s : State) (t : Tenure) : (s.setTenure t).engine = s.engine := rfl
@[simp] theorem ctrlRun_setTenure (s : State) (t : Tenure) : (s.setTenure t).ctrlRun = s.ctrlRun := rfl
@[simp] theorem ctrlPresence_setTenure (s : State) (t : Tenure) : (s.setTenure t).ctrlPresence = s.ctrlPresence := rfl
@[simp] theorem ctrlInterrupt_setTenure (s : State) (t : Tenure) : (s.setTenure t).ctrlInterrupt = s.ctrlInterrupt := rfl
@[simp] theorem statDiscard_setTenure (s : State) (t : Tenure) : (s.setTenure t).statDiscard = s.statDiscard := rfl
@[simp] theorem statRefused_setTenure (s : State) (t : Tenure) : (s.setTenure t).statRefused = s.statRefused := rfl
@[simp] theorem tally_setTenure (s : State) (t : Tenure) : (s.setTenure t).tally = s.tally := rfl
@[simp] theorem produced_setTenure (s : State) (t : Tenure) : (s.setTenure t).produced = s.produced := rfl
@[simp] theorem consumed_setTenure (s : State) (t : Tenure) : (s.setTenure t).consumed = s.consumed := rfl
@[simp] theorem lost_setTenure (s : State) (t : Tenure) : (s.setTenure t).lost = s.lost := rfl
@[simp] theorem acceptSeq_setTenure (s : State) (t : Tenure) : (s.setTenure t).acceptSeq = s.acceptSeq := rfl
@[simp] theorem msClock_setTenure (s : State) (t : Tenure) : (s.setTenure t).msClock = s.msClock := rfl
@[simp] theorem refusedCount_setTenure (s : State) (t : Tenure) : (s.setTenure t).refusedCount = s.refusedCount := rfl
@[simp] theorem discardCount_setTenure (s : State) (t : Tenure) : (s.setTenure t).discardCount = s.discardCount := rfl
@[simp] theorem discardAddr_setTenure (s : State) (t : Tenure) : (s.setTenure t).discardAddr = s.discardAddr := rfl
@[simp] theorem slots_setTenure (s : State) (t : Tenure) : (s.setTenure t).slots = s.slots := rfl
@[simp] theorem acceptOrder_setTenure (s : State) (t : Tenure) : (s.setTenure t).acceptOrder = s.acceptOrder := rfl
@[simp] theorem cards_setTenure (s : State) (t : Tenure) : (s.setTenure t).cards = s.cards := rfl
@[simp] theorem pageHolder_setTenure (s : State) (t : Tenure) : (s.setTenure t).pageHolder = s.pageHolder := rfl
@[simp] theorem breach_setTenure (s : State) (t : Tenure) : (s.setTenure t).breach = s.breach := rfl
@[simp] theorem leaseWaiting_setTenure (s : State) (t : Tenure) : (s.setTenure t).leaseWaiting = s.leaseWaiting := rfl
@[simp] theorem attnPtr_setTenure (s : State) (t : Tenure) : (s.setTenure t).attnPtr = s.attnPtr := rfl
@[simp] theorem jobPtr_setTenure (s : State) (t : Tenure) : (s.setTenure t).jobPtr = s.jobPtr := rfl
@[simp] theorem mem_setTenure (s : State) (t : Tenure) : (s.setTenure t).mem = s.mem := rfl
@[simp] theorem card_setTenure (s : State) (t : Tenure) (e : CardId) : (s.setTenure t).card e = s.card e := rfl
@[simp] theorem record_setTenure (s : State) (t : Tenure) (e : CardId) : (s.setTenure t).record e = s.record e := rfl
@[simp] theorem slot_setTenure (s : State) (t : Tenure) (j : SlotId) : (s.setTenure t).slot j = s.slot j := rfl
@[simp] theorem word_setTenure (s : State) (t : Tenure) (adr : Nat) : (s.setTenure t).word adr = s.word adr := rfl
@[simp] theorem slotWord_setTenure (s : State) (t : Tenure) (j : SlotId) (m : Nat) : (s.setTenure t).slotWord j m = s.slotWord j m := rfl
@[simp] theorem profileWord_setTenure (s : State) (t : Tenure) (e : CardId) (m : Nat) : (s.setTenure t).profileWord e m = s.profileWord e m := rfl
@[simp] theorem slotCard_setTenure (s : State) (t : Tenure) (j : SlotId) : (s.setTenure t).slotCard j = s.slotCard j := rfl

/-! ## requestJob -/

@[simp] theorem pending_requestJob (s : State) (c : CardId) (k : TenureKind) (n : Nat) (d : Word) (o : Bool) : (s.requestJob c k n d o).pending = s.pending := rfl
@[simp] theorem resetPin_requestJob (s : State) (c : CardId) (k : TenureKind) (n : Nat) (d : Word) (o : Bool) : (s.requestJob c k n d o).resetPin = s.resetPin := rfl
@[simp] theorem bclr_requestJob (s : State) (c : CardId) (k : TenureKind) (n : Nat) (d : Word) (o : Bool) : (s.requestJob c k n d o).bclr = s.bclr := rfl
@[simp] theorem engine_requestJob (s : State) (c : CardId) (k : TenureKind) (n : Nat) (d : Word) (o : Bool) : (s.requestJob c k n d o).engine = s.engine := rfl
@[simp] theorem ctrlRun_requestJob (s : State) (c : CardId) (k : TenureKind) (n : Nat) (d : Word) (o : Bool) : (s.requestJob c k n d o).ctrlRun = s.ctrlRun := rfl
@[simp] theorem ctrlPresence_requestJob (s : State) (c : CardId) (k : TenureKind) (n : Nat) (d : Word) (o : Bool) : (s.requestJob c k n d o).ctrlPresence = s.ctrlPresence := rfl
@[simp] theorem ctrlInterrupt_requestJob (s : State) (c : CardId) (k : TenureKind) (n : Nat) (d : Word) (o : Bool) : (s.requestJob c k n d o).ctrlInterrupt = s.ctrlInterrupt := rfl
@[simp] theorem statDiscard_requestJob (s : State) (c : CardId) (k : TenureKind) (n : Nat) (d : Word) (o : Bool) : (s.requestJob c k n d o).statDiscard = s.statDiscard := rfl
@[simp] theorem statRefused_requestJob (s : State) (c : CardId) (k : TenureKind) (n : Nat) (d : Word) (o : Bool) : (s.requestJob c k n d o).statRefused = s.statRefused := rfl
@[simp] theorem tally_requestJob (s : State) (c : CardId) (k : TenureKind) (n : Nat) (d : Word) (o : Bool) : (s.requestJob c k n d o).tally = s.tally := rfl
@[simp] theorem produced_requestJob (s : State) (c : CardId) (k : TenureKind) (n : Nat) (d : Word) (o : Bool) : (s.requestJob c k n d o).produced = s.produced := rfl
@[simp] theorem consumed_requestJob (s : State) (c : CardId) (k : TenureKind) (n : Nat) (d : Word) (o : Bool) : (s.requestJob c k n d o).consumed = s.consumed := rfl
@[simp] theorem lost_requestJob (s : State) (c : CardId) (k : TenureKind) (n : Nat) (d : Word) (o : Bool) : (s.requestJob c k n d o).lost = s.lost := rfl
@[simp] theorem acceptSeq_requestJob (s : State) (c : CardId) (k : TenureKind) (n : Nat) (d : Word) (o : Bool) : (s.requestJob c k n d o).acceptSeq = s.acceptSeq := rfl
@[simp] theorem msClock_requestJob (s : State) (c : CardId) (k : TenureKind) (n : Nat) (d : Word) (o : Bool) : (s.requestJob c k n d o).msClock = s.msClock := rfl
@[simp] theorem refusedCount_requestJob (s : State) (c : CardId) (k : TenureKind) (n : Nat) (d : Word) (o : Bool) : (s.requestJob c k n d o).refusedCount = s.refusedCount := rfl
@[simp] theorem discardCount_requestJob (s : State) (c : CardId) (k : TenureKind) (n : Nat) (d : Word) (o : Bool) : (s.requestJob c k n d o).discardCount = s.discardCount := rfl
@[simp] theorem discardAddr_requestJob (s : State) (c : CardId) (k : TenureKind) (n : Nat) (d : Word) (o : Bool) : (s.requestJob c k n d o).discardAddr = s.discardAddr := rfl
@[simp] theorem slots_requestJob (s : State) (c : CardId) (k : TenureKind) (n : Nat) (d : Word) (o : Bool) : (s.requestJob c k n d o).slots = s.slots := rfl
@[simp] theorem acceptOrder_requestJob (s : State) (c : CardId) (k : TenureKind) (n : Nat) (d : Word) (o : Bool) : (s.requestJob c k n d o).acceptOrder = s.acceptOrder := rfl
@[simp] theorem pageHolder_requestJob (s : State) (c : CardId) (k : TenureKind) (n : Nat) (d : Word) (o : Bool) : (s.requestJob c k n d o).pageHolder = s.pageHolder := rfl
@[simp] theorem breach_requestJob (s : State) (c : CardId) (k : TenureKind) (n : Nat) (d : Word) (o : Bool) : (s.requestJob c k n d o).breach = s.breach := rfl
@[simp] theorem leaseWaiting_requestJob (s : State) (c : CardId) (k : TenureKind) (n : Nat) (d : Word) (o : Bool) : (s.requestJob c k n d o).leaseWaiting = s.leaseWaiting := rfl
@[simp] theorem tenure_requestJob (s : State) (c : CardId) (k : TenureKind) (n : Nat) (d : Word) (o : Bool) : (s.requestJob c k n d o).tenure = s.tenure := rfl
@[simp] theorem attnPtr_requestJob (s : State) (c : CardId) (k : TenureKind) (n : Nat) (d : Word) (o : Bool) : (s.requestJob c k n d o).attnPtr = s.attnPtr := rfl
@[simp] theorem jobPtr_requestJob (s : State) (c : CardId) (k : TenureKind) (n : Nat) (d : Word) (o : Bool) : (s.requestJob c k n d o).jobPtr = s.jobPtr := rfl
@[simp] theorem mem_requestJob (s : State) (c : CardId) (k : TenureKind) (n : Nat) (d : Word) (o : Bool) : (s.requestJob c k n d o).mem = s.mem := rfl
@[simp] theorem slot_requestJob (s : State) (c : CardId) (k : TenureKind) (n : Nat) (d : Word) (o : Bool) (j : SlotId) : (s.requestJob c k n d o).slot j = s.slot j := rfl
@[simp] theorem word_requestJob (s : State) (c : CardId) (k : TenureKind) (n : Nat) (d : Word) (o : Bool) (adr : Nat) : (s.requestJob c k n d o).word adr = s.word adr := rfl
@[simp] theorem slotWord_requestJob (s : State) (c : CardId) (k : TenureKind) (n : Nat) (d : Word) (o : Bool) (j : SlotId) (m : Nat) : (s.requestJob c k n d o).slotWord j m = s.slotWord j m := rfl
@[simp] theorem profileWord_requestJob (s : State) (c : CardId) (k : TenureKind) (n : Nat) (d : Word) (o : Bool) (e : CardId) (m : Nat) : (s.requestJob c k n d o).profileWord e m = s.profileWord e m := rfl
@[simp] theorem slotCard_requestJob (s : State) (c : CardId) (k : TenureKind) (n : Nat) (d : Word) (o : Bool) (j : SlotId) : (s.requestJob c k n d o).slotCard j = s.slotCard j := rfl

/-! ## What an update writes -/

theorem card_updCard (s : State) (c d : CardId) (f : Card → Card) :
    (s.updCard c f).card d = if d = c then f (s.card c) else s.card d := by
  simp only [State.card, State.updCard, get_upd]

@[simp] theorem card_updCard_same (s : State) (c : CardId) (f : Card → Card) : (s.updCard c f).card c = f (s.card c) := by
  simp [card_updCard]

theorem card_updCard_other (s : State) (c d : CardId) (f : Card → Card) (h : d ≠ c) :
    (s.updCard c f).card d = s.card d := by
  simp [card_updCard, h]

theorem slot_setSlot (s : State) (i j : SlotId) (x : SlotCtl) :
    (s.setSlot i x).slot j = if j = i then x else s.slot j := by
  simp only [State.slot, State.setSlot, get_upd]

@[simp] theorem slot_setSlot_same (s : State) (i : SlotId) (x : SlotCtl) : (s.setSlot i x).slot i = x := by
  simp [slot_setSlot]

theorem slot_setSlot_other (s : State) (i j : SlotId) (x : SlotCtl) (h : j ≠ i) : (s.setSlot i x).slot j = s.slot j := by
  simp [slot_setSlot, h]

@[simp] theorem mem_setWord (s : State) (a : Nat) (w : Word) : (s.setWord a w).mem = writeWord s.mem a w := rfl
@[simp] theorem mem_setSlotWord (s : State) (i : SlotId) (n : Nat) (w : Word) :
    (s.setSlotWord i n w).mem = writeWord s.mem (slotAddr i n) w := rfl
@[simp] theorem mem_setProfileWord (s : State) (c : CardId) (n : Nat) (w : Word) :
    (s.setProfileWord c n w).mem = writeWord s.mem (profileAddr c n) w := rfl
@[simp] theorem mem_setDetail (s : State) (i : SlotId) (w : Word) :
    (s.setDetail i w).mem = writeWord s.mem (slotAddr i 6) w := rfl
@[simp] theorem tenure_setTenure (s : State) (t : Tenure) : (s.setTenure t).tenure = some t := rfl

@[simp] theorem word_setWord_same (s : State) (a : Nat) (w : Word) : (s.setWord a w).word a = w :=
  readWord_writeWord_same _ _ _

theorem word_setWord_other (s : State) (a x : Nat) (w : Word) (h : x + 1 < a ∨ a + 1 < x) :
    (s.setWord a w).word x = s.word x :=
  readWord_writeWord_other _ _ _ _ h

/-- A slot word after a write of a slot word. -/
theorem slotWord_setSlotWord (s : State) (i j : SlotId) (n m : Nat) (w : Word) (hn : n < 16) (hm : m < 16) :
    (s.setSlotWord i n w).slotWord j m = if j = i ∧ m = n then w else s.slotWord j m := by
  unfold State.setSlotWord State.slotWord
  by_cases h : j = i ∧ m = n
  · obtain ⟨rfl, rfl⟩ := h; simp
  · rw [if_neg h, word_setWord_other]
    unfold slotAddr
    have : j.val ≠ i.val ∨ m ≠ n := by
      by_cases hj : j = i
      · exact Or.inr fun hm' => h ⟨hj, hm'⟩
      · exact Or.inl fun hv => hj (Fin.ext hv)
    omega

/-- A profile word after a write of a profile word. -/
theorem profileWord_setProfileWord (s : State) (c d : CardId) (n m : Nat) (w : Word) (hn : n < 16) (hm : m < 16) :
    (s.setProfileWord c n w).profileWord d m = if d = c ∧ m = n then w else s.profileWord d m := by
  unfold State.setProfileWord State.profileWord
  by_cases h : d = c ∧ m = n
  · obtain ⟨rfl, rfl⟩ := h; simp
  · rw [if_neg h, word_setWord_other]
    unfold profileAddr
    have : d.val ≠ c.val ∨ m ≠ n := by
      by_cases hj : d = c
      · exact Or.inr fun hm' => h ⟨hj, hm'⟩
      · exact Or.inl fun hv => hj (Fin.ext hv)
    omega

/-- No slot word is a profile word. -/
theorem slotWord_setProfileWord (s : State) (c : CardId) (j : SlotId) (n m : Nat) (w : Word) (hm : m < 16) :
    (s.setProfileWord c n w).slotWord j m = s.slotWord j m := by
  unfold State.setProfileWord State.slotWord
  rw [word_setWord_other]
  have := j.isLt
  simp only [slotAddr, profileAddr, Config.slotBase, Config.profileBase]
  omega

theorem profileWord_setSlotWord (s : State) (i : SlotId) (d : CardId) (n m : Nat) (w : Word) (hn : n < 16) :
    (s.setSlotWord i n w).profileWord d m = s.profileWord d m := by
  unfold State.setSlotWord State.profileWord
  rw [word_setWord_other]
  have := i.isLt
  simp only [slotAddr, profileAddr, Config.slotBase, Config.profileBase]
  omega

end Sys2Proof.Machine
end

