-- ==== Sys2Proof/Laws/Work.lean ====
section
/-! SUPPORT. Laws of the part's own work between host writes and resets: each shared operation, from one word written to the running of
a card's steps, keeps what `Keeps` lists. A proof about a command cites these instead of unfolding the operations. -/

namespace Sys2Proof.Machine

/-- A byte no block of the part writes while it works, the strobes of a burst in set aside: the header, slot words 0–3, profile words
0–7, the step area, the data pages. -/
def stableByte (a : Nat) : Prop :=
  a < 0x20 ∨ (0x20 ≤ a ∧ a < 0x420 ∧ (a - 0x20) % 32 < 8) ∨ (0x420 ≤ a ∧ a < 0x520 ∧ (a - 0x420) % 32 < 16)
    ∨ 0x920 ≤ a

/-- What every card keeps through the part's work on steps, leases, attentions and notices. -/
def Card.sameStanding (k m : Card) : Prop :=
  m.presence = k.presence ∧ m.settle = k.settle ∧ m.queue = k.queue ∧ m.activeSlot = k.activeSlot ∧ m.profile = k.profile
    ∧ m.startedFaulted = k.startedFaulted ∧ m.atnLine = k.atnLine ∧ m.cancelNotice = k.cancelNotice

/-- What the part's work on steps, leases, attentions and notices keeps. The invariants of the card positions are kept where `P` holds,
which says what the operation needs of the card it works for; with `P` false the rest is said of every state. -/
structure Keeps (P : Prop) (s t : State) : Prop where
  /-- Only the memory, two notice counts, the cards and the lease table may change. -/
  frame : { t with mem := s.mem, produced := s.produced, lost := s.lost, cards := s.cards, pageHolder := s.pageHolder
                   breach := s.breach, leaseWaiting := s.leaseWaiting } = s
  /-- The memory keeps its canonical form. -/
  memOk : s.memOk → t.memOk
  /-- The bytes that are not the part's to write in its work read as before. -/
  stable : ∀ a, stableByte a → readByte t.mem a = readByte s.mem a
  /-- The ring never holds more than 64. -/
  ringOk : s.ringOk → t.ringOk
  /-- Every card keeps its standing. -/
  card : ∀ c, (s.card c).sameStanding (t.card c)
  /-- The invariants of a card position are kept. -/
  cardsOk : P → s.cardsOk → t.cardsOk

variable {P : Prop}

theorem Card.sameStanding_refl (k : Card) : k.sameStanding k := ⟨rfl, rfl, rfl, rfl, rfl, rfl, rfl, rfl⟩

theorem Card.sameStanding_trans {k m n : Card} (h : k.sameStanding m) (g : m.sameStanding n) : k.sameStanding n := by
  obtain ⟨h1, h2, h3, h4, h5, h6, h7, h8⟩ := h
  obtain ⟨g1, g2, g3, g4, g5, g6, g7, g8⟩ := g
  exact ⟨g1.trans h1, g2.trans h2, g3.trans h3, g4.trans h4, g5.trans h5, g6.trans h6, g7.trans h7, g8.trans h8⟩

theorem Keeps.refl (s : State) : Keeps P s s :=
  ⟨rfl, id, fun _ _ => rfl, id, fun _ => Card.sameStanding_refl _, fun _ => id⟩

theorem Keeps.trans {s t u : State} (h : Keeps P s t) (g : Keeps P t u) : Keeps P s u where
  frame := by
    have h1 := h.frame
    have g1 := g.frame
    rw [← h1]
    conv_rhs => rw [← g1]
  memOk := fun m => g.memOk (h.memOk m)
  stable := fun a ha => (g.stable a ha).trans (h.stable a ha)
  ringOk := fun r => g.ringOk (h.ringOk r)
  card := fun c => Card.sameStanding_trans (h.card c) (g.card c)
  cardsOk := fun p r => g.cardsOk p (h.cardsOk p r)

/-! ### The fields a `Keeps` leaves -/

theorem Keeps.pending {s t : State} (h : Keeps P s t) : t.pending = s.pending := by
  have h2 := congrArg State.pending h.frame
  exact h2
theorem Keeps.resetPin {s t : State} (h : Keeps P s t) : t.resetPin = s.resetPin := by
  have h2 := congrArg State.resetPin h.frame
  exact h2
theorem Keeps.bclr {s t : State} (h : Keeps P s t) : t.bclr = s.bclr := by
  have h2 := congrArg State.bclr h.frame
  exact h2
theorem Keeps.engine {s t : State} (h : Keeps P s t) : t.engine = s.engine := by
  have h2 := congrArg State.engine h.frame
  exact h2
theorem Keeps.ctrlRun {s t : State} (h : Keeps P s t) : t.ctrlRun = s.ctrlRun := by
  have h2 := congrArg State.ctrlRun h.frame
  exact h2
theorem Keeps.ctrlPresence {s t : State} (h : Keeps P s t) : t.ctrlPresence = s.ctrlPresence := by
  have h2 := congrArg State.ctrlPresence h.frame
  exact h2
theorem Keeps.ctrlInterrupt {s t : State} (h : Keeps P s t) : t.ctrlInterrupt = s.ctrlInterrupt := by
  have h2 := congrArg State.ctrlInterrupt h.frame
  exact h2
theorem Keeps.statDiscard {s t : State} (h : Keeps P s t) : t.statDiscard = s.statDiscard := by
  have h2 := congrArg State.statDiscard h.frame
  exact h2
theorem Keeps.statRefused {s t : State} (h : Keeps P s t) : t.statRefused = s.statRefused := by
  have h2 := congrArg State.statRefused h.frame
  exact h2
theorem Keeps.tally {s t : State} (h : Keeps P s t) : t.tally = s.tally := by
  have h2 := congrArg State.tally h.frame
  exact h2
theorem Keeps.consumed {s t : State} (h : Keeps P s t) : t.consumed = s.consumed := by
  have h2 := congrArg State.consumed h.frame
  exact h2
theorem Keeps.acceptSeq {s t : State} (h : Keeps P s t) : t.acceptSeq = s.acceptSeq := by
  have h2 := congrArg State.acceptSeq h.frame
  exact h2
theorem Keeps.msClock {s t : State} (h : Keeps P s t) : t.msClock = s.msClock := by
  have h2 := congrArg State.msClock h.frame
  exact h2
theorem Keeps.refusedCount {s t : State} (h : Keeps P s t) : t.refusedCount = s.refusedCount := by
  have h2 := congrArg State.refusedCount h.frame
  exact h2
theorem Keeps.discardCount {s t : State} (h : Keeps P s t) : t.discardCount = s.discardCount := by
  have h2 := congrArg State.discardCount h.frame
  exact h2
theorem Keeps.discardAddr {s t : State} (h : Keeps P s t) : t.discardAddr = s.discardAddr := by
  have h2 := congrArg State.discardAddr h.frame
  exact h2
theorem Keeps.slots {s t : State} (h : Keeps P s t) : t.slots = s.slots := by
  have h2 := congrArg State.slots h.frame
  exact h2
theorem Keeps.acceptOrder {s t : State} (h : Keeps P s t) : t.acceptOrder = s.acceptOrder := by
  have h2 := congrArg State.acceptOrder h.frame
  exact h2
theorem Keeps.tenure {s t : State} (h : Keeps P s t) : t.tenure = s.tenure := by
  have h2 := congrArg State.tenure h.frame
  exact h2
theorem Keeps.attnPtr {s t : State} (h : Keeps P s t) : t.attnPtr = s.attnPtr := by
  have h2 := congrArg State.attnPtr h.frame
  exact h2
theorem Keeps.jobPtr {s t : State} (h : Keeps P s t) : t.jobPtr = s.jobPtr := by
  have h2 := congrArg State.jobPtr h.frame
  exact h2
theorem Keeps.slot {s t : State} (h : Keeps P s t) (i : SlotId) : t.slot i = s.slot i := by
  unfold State.slot; rw [h.slots]

/-- The bytes of slot word 1 stand, so the card a slot names stands. -/
theorem Keeps.slotHead {s t : State} (h : Keeps P s t) (i : SlotId) (w : Nat) (hw : w < 4) : t.slotWord i w = s.slotWord i w := by
  have := i.isLt
  unfold State.slotWord State.word readWord
  rw [h.stable, h.stable]
  · simp only [stableByte, slotAddr, Config.slotBase]; omega
  · simp only [stableByte, slotAddr, Config.slotBase]; omega

theorem Keeps.slotCard {s t : State} (h : Keeps P s t) (i : SlotId) : t.slotCard i = s.slotCard i := by
  unfold State.slotCard; rw [h.slotHead i 1 (by decide)]

/-! ## Words -/

/-- A word address the part may write in its work. -/
def workAddr (a : Nat) : Prop := a + 1 < 0x8000 ∧ ¬ stableByte a ∧ ¬ stableByte (a + 1)

theorem workAddr_slot (i : SlotId) (w : Nat) (h4 : 4 ≤ w) (h16 : w < 16) : workAddr (slotAddr i w) := by
  have := i.isLt
  simp only [workAddr, stableByte, slotAddr, Config.slotBase]
  omega

theorem workAddr_profile (c : CardId) (w : Nat) (h8 : 8 ≤ w) (h16 : w < 16) : workAddr (profileAddr c w) := by
  have := c.isLt
  simp only [workAddr, stableByte, profileAddr, Config.profileBase]
  omega

theorem workAddr_notice (n w : Nat) (h : w < 8) : workAddr (noticeAddr n w) := by
  have : n % 64 < 64 := Nat.mod_lt _ (by decide)
  simp only [workAddr, stableByte, noticeAddr, Config.noticeBase, Config.ringSize]
  omega

theorem keeps_of_mem (s : State) (m : Memory) (hw : memoryWf s.mem = true → memoryWf m = true)
    (hs : ∀ a, stableByte a → readByte m a = readByte s.mem a) : Keeps P s { s with mem := m } :=
  ⟨rfl, hw, hs, id, fun _ => Card.sameStanding_refl _, fun _ => id⟩

theorem setWord_keeps (s : State) (a : Nat) (w : Word) (h : workAddr a) : Keeps P s (s.setWord a w) := by
  refine keeps_of_mem s _ (fun m => writeWord_wf _ _ _ h.1 m) fun b hb => readByte_writeWord_other _ _ _ _ ⟨?_, ?_⟩
  · rintro rfl; exact h.2.1 hb
  · rintro rfl; exact h.2.2 hb

theorem setSlotWord_keeps (s : State) (i : SlotId) (n : Nat) (w : Word) (h4 : 4 ≤ n) (h16 : n < 16) :
    Keeps P s (s.setSlotWord i n w) := setWord_keeps _ _ _ (workAddr_slot i n h4 h16)

theorem setProfileWord_keeps (s : State) (c : CardId) (n : Nat) (w : Word) (h8 : 8 ≤ n) (h16 : n < 16) :
    Keeps P s (s.setProfileWord c n w) := setWord_keeps _ _ _ (workAddr_profile c n h8 h16)

theorem setDetail_keeps (s : State) (i : SlotId) (w : Word) : Keeps P s (s.setDetail i w) :=
  setSlotWord_keeps s i 6 w (by decide) (by decide)

theorem setCapture_keeps (s : State) (i : SlotId) (n : Nat) (w : Word) : Keeps P s (s.setCapture i n w) := by
  unfold State.setCapture
  split
  · exact setSlotWord_keeps _ _ _ _ (by omega) (by omega)
  · exact Keeps.refl s

theorem setWords_keeps (ws : List Word) : ∀ (s : State) (a : Nat), (∀ j, j < ws.length → workAddr (a + 2 * j)) →
    Keeps P s (s.setWords a ws) := by
  induction ws with
  | nil => intro s a _; exact Keeps.refl s
  | cons w ws ih =>
    intro s a h
    unfold State.setWords
    refine Keeps.trans (setWord_keeps s a w (by simpa using h 0 (by simp))) (ih _ _ fun j hj => ?_)
    have := h (j + 1) (by simpa using hj)
    rwa [show a + 2 * (j + 1) = a + 2 + 2 * j from by omega] at this

theorem writeSnapshot_keeps (s : State) (c : CardId) (v : List Word) : Keeps P s (s.writeSnapshot c v) := by
  refine setWords_keeps _ _ _ fun j hj => ?_
  have hj4 : j < 4 := by
    have : (v.take 4).length ≤ 4 := List.length_take_le 4 v
    omega
  have := workAddr_profile c (9 + j) (by omega) (by omega)
  unfold profileAddr at this ⊢
  rwa [show Config.profileBase + 32 * c.val + 2 * 9 + 2 * j = Config.profileBase + 32 * c.val + 2 * (9 + j) from by omega]

theorem countUnclaimed_keeps (s : State) (c : CardId) : Keeps P s (s.countUnclaimed c) :=
  setProfileWord_keeps _ _ _ _ (by decide) (by decide)

theorem countCompleted_keeps (s : State) (c : CardId) : Keeps P s (s.countCompleted c) :=
  setProfileWord_keeps _ _ _ _ (by decide) (by decide)

theorem copySnapshot_keeps (c : CardId) (i : SlotId) (base : Nat) (js : List Nat) :
    ∀ s : State, Keeps P s (s.copySnapshot c i base js) := by
  induction js with
  | nil => intro s; exact Keeps.refl s
  | cons j js ih =>
    intro s
    unfold State.copySnapshot
    exact Keeps.trans (setCapture_keeps _ _ _ _) (ih _)

/-! ## Notices -/

theorem entry_length (n : Notice) (time count : Word) : (n.entry time count).length = 8 := rfl

theorem setWords_produced (ws : List Word) : ∀ (s : State) (a : Nat), (s.setWords a ws).produced = s.produced := by
  induction ws with
  | nil => intros; rfl
  | cons w ws ih => intro s a; unfold State.setWords; rw [ih]; rfl

theorem setWords_consumed (ws : List Word) : ∀ (s : State) (a : Nat), (s.setWords a ws).consumed = s.consumed := by
  induction ws with
  | nil => intros; rfl
  | cons w ws ih => intro s a; unfold State.setWords; rw [ih]; rfl

theorem Keeps.withProduced {s t : State} (h : Keeps P s t) (p : Word)
    (hr : s.ringOk → ({ t with produced := p }).ringOk) : Keeps P s { t with produced := p } where
  frame := by
    have hf := h.frame
    simp only at hf ⊢
    exact hf
  memOk := h.memOk
  stable := h.stable
  ringOk := hr
  card := h.card
  cardsOk := h.cardsOk

theorem ringOk_next {s t : State} (hp : t.produced = s.produced) (hc : t.consumed = s.consumed)
    (hfull : ¬ s.inList = Config.ringSize) (hr : s.ringOk) : ({ t with produced := t.produced + 1 }).ringOk := by
  simp only [State.ringOk, State.inList, hp, hc, Config.ringSize] at hr hfull ⊢
  have hlt : (s.produced - s.consumed).toNat < 64 := by omega
  have heq : s.produced + 1 - s.consumed = (s.produced - s.consumed) + 1 := by ring
  rw [heq, BitVec.toNat_add]
  have : (1 : Word).toNat = 1 := rfl
  omega

/-- Everything a notice can do to the rest of the part (R164). -/
theorem post_keeps (s : State) (n : Notice) : Keeps P s (s.post n) := by
  unfold State.post
  split
  · exact Keeps.refl s
  · split
    · exact ⟨rfl, id, fun _ _ => rfl, id, fun _ => Card.sameStanding_refl _, fun _ => id⟩
    · rename_i hfull
      have hk : Keeps P s (s.setWords (noticeAddr s.produced.toNat 0) (n.entry s.msClock s.produced)) := by
        refine setWords_keeps _ _ _ fun j hj => ?_
        rw [entry_length] at hj
        have := workAddr_notice s.produced.toNat j hj
        unfold noticeAddr at this ⊢
        simpa using this
      exact hk.withProduced _ (ringOk_next (setWords_produced _ _ _) (setWords_consumed _ _ _) hfull)

theorem postJobDone_keeps (s : State) (i : SlotId) : Keeps P s (s.postJobDone i) := by
  unfold State.postJobDone
  split
  · exact post_keeps _ _
  · exact Keeps.refl s

theorem postUnsolicited_keeps (s : State) (c : CardId) : Keeps P s (s.postUnsolicited c) := post_keeps _ _
theorem postMark_keeps (s : State) (c : CardId) (i : SlotId) : Keeps P s (s.postMark c i) := post_keeps _ _

/-! ## Cards -/

/-- A change of one card that keeps its standing and its invariants. -/
theorem updCard_keeps (s : State) (c : CardId) (f : Card → Card) (hs : (s.card c).sameStanding (f (s.card c)))
    (ho : P → (s.card c).ok c → (f (s.card c)).ok c) : Keeps P s (s.updCard c f) := by
  refine ⟨rfl, id, fun _ _ => rfl, id, fun d => ?_, fun hP h d => ?_⟩
  · by_cases hd : d = c
    · subst hd; simpa using hs
    · rw [card_updCard_other _ _ _ _ hd]; exact Card.sameStanding_refl _
  · by_cases hd : d = c
    · subst hd; simpa using ho hP (h d)
    · rw [card_updCard_other _ _ _ _ hd]; exact h d

/-! ## Leases -/

theorem keeps_of_leases (s : State) (h : Vector (Option SlotId) 128) (b : Vector (Option PageId) 32) (w : List LeaseRequest) :
    Keeps P s { s with pageHolder := h, breach := b, leaseWaiting := w } :=
  ⟨rfl, id, fun _ _ => rfl, id, fun _ => Card.sameStanding_refl _, fun _ => id⟩

theorem holdPages_keeps (s : State) (i : SlotId) (first count : Nat) : Keeps P s (s.holdPages i first count) :=
  keeps_of_leases s _ _ s.leaseWaiting

theorem waitLease_keeps (s : State) (r : LeaseRequest) : Keeps P s (s.waitLease r) :=
  keeps_of_leases s s.pageHolder s.breach _

theorem leaseFlag_keeps (s : State) (c : CardId) (b : Bool) : Keeps P s (s.updCard c fun k => { k with leaseGrant := b }) :=
  updCard_keeps _ _ _ (Card.sameStanding_refl _) fun _ => id

theorem grantWaiting_keeps (s : State) (r : LeaseRequest) : Keeps P s (s.grantWaiting r) :=
  Keeps.trans (keeps_of_leases s _ _ _) (leaseFlag_keeps _ r.card true)

theorem examineLeases_keeps (rs : List LeaseRequest) : ∀ s : State, Keeps P s (examineLeases rs s) := by
  induction rs with
  | nil => intro s; exact Keeps.refl s
  | cons r rs ih =>
    intro s
    unfold examineLeases
    split
    · exact Keeps.trans (grantWaiting_keeps s r) (ih _)
    · exact ih s

theorem releaseLeases_keeps (s : State) (i : SlotId) : Keeps P s (s.releaseLeases i) :=
  Keeps.trans (keeps_of_leases s _ _ s.leaseWaiting) (examineLeases_keeps _ _)

theorem dropLease_keeps (s : State) (c : CardId) (i : SlotId) : Keeps P s (s.dropLease c i) := by
  unfold State.dropLease
  simp only
  split
  · exact Keeps.trans (keeps_of_leases s s.pageHolder s.breach _) (leaseFlag_keeps _ c false)
  · exact Keeps.trans (releaseLeases_keeps s i) (leaseFlag_keeps _ c false)

theorem dropStream_keeps (s : State) (c : CardId) : Keeps P s (s.dropStream c) := by
  unfold State.dropStream
  split
  · exact Keeps.trans (dropLease_keeps _ _ _) (updCard_keeps _ _ _ (Card.sameStanding_refl _) fun _ => id)
  · exact Keeps.refl s

/-! A lease operation leaves a card's sequencer, requests and lines alone; `dropStream` clears its own stream record. -/

theorem card_grantWaiting (s : State) (r : LeaseRequest) (d : CardId) :
    (s.grantWaiting r).card d = { s.card d with leaseGrant := if d = r.card then true else (s.card d).leaseGrant } := by
  unfold State.grantWaiting
  simp only [card_updCard]
  split
  · rename_i h; subst h; rfl
  · rfl

theorem seq_examineLeases (rs : List LeaseRequest) : ∀ (s : State) (d : CardId),
    ∃ g, (examineLeases rs s).card d = { s.card d with leaseGrant := g } := by
  induction rs with
  | nil => intro s d; exact ⟨(s.card d).leaseGrant, rfl⟩
  | cons r rs ih =>
    intro s d
    unfold examineLeases
    split
    · obtain ⟨g, hg⟩ := ih (s.grantWaiting r) d
      exact ⟨g, by rw [hg, card_grantWaiting]⟩
    · exact ih s d

theorem card_dropLease (s : State) (c : CardId) (i : SlotId) (d : CardId) :
    ∃ g, (s.dropLease c i).card d = { s.card d with leaseGrant := g } := by
  unfold State.dropLease
  simp only [card_updCard]
  split
  · rename_i h; subst h
    refine ⟨false, ?_⟩
    split
    · rfl
    · obtain ⟨g, hg⟩ := seq_examineLeases s.leaseWaiting (s.freePages i) d
      unfold State.releaseLeases
      rw [hg]; rfl
  · split
    · exact ⟨(s.card d).leaseGrant, rfl⟩
    · exact seq_examineLeases s.leaseWaiting (s.freePages i) d

theorem card_dropStream (s : State) (c : CardId) :
    ∃ g x, (s.dropStream c).card c = { s.card c with leaseGrant := g, stream := x } := by
  unfold State.dropStream
  split
  · obtain ⟨g, hg⟩ := card_dropLease s c (by assumption) c
    refine ⟨g, none, ?_⟩
    simp [hg]
  · exact ⟨(s.card c).leaseGrant, (s.card c).stream, rfl⟩

/-! ## The end of a run -/

theorem report_sameStanding (e : Ending) (n : Nat) (k : Card) : k.sameStanding (k.report e n) := by
  unfold Card.report
  cases h : k.seq.active with
  | none => exact Card.sameStanding_refl k
  | some i => exact ⟨rfl, rfl, rfl, by simp [Card.activeSlot, Sequencer.toIdle, h], rfl, rfl, rfl, rfl⟩

/-- The card's CRST line is released, or its sequencer has no active slot (so that a report leaves PULSING released). -/
theorem report_ok (e : Ending) (n : Nat) (c : CardId) (k : Card) (h : k.ok c) (hc : k.crst = false) : (k.report e n).ok c := by
  unfold Card.report
  cases ha : k.seq.active with
  | none => exact h
  | some i =>
    obtain ⟨h1, h2, h3, h4, h5⟩ := h
    refine ⟨?_, h2, h3, ⟨fun _ => rfl, by simp, fun hx => ?_⟩, ⟨h5.1, by simp⟩⟩
    · intro hp
      have := (h1 hp).2.1
      simp [Card.activeSlot, ha] at this
    · rw [show k.crst = true from hx] at hc; exact absurd hc (by decide)

theorem crst_dropStream (s : State) (c : CardId) : ((s.dropStream c).card c).crst = (s.card c).crst := by
  obtain ⟨g, x, hg⟩ := card_dropStream s c
  rw [hg]

/-- A job's run ends with its card's CRST line released. -/
theorem endJob_keeps (s : State) (c : CardId) (e : Ending) (hc : P → (s.card c).crst = false) : Keeps P s (s.endJob c e) := by
  unfold State.endJob
  refine Keeps.trans (dropStream_keeps s c) (updCard_keeps _ _ _ (report_sameStanding _ _ _) fun hP h => ?_)
  exact report_ok _ _ _ _ h (by rw [crst_dropStream]; exact hc hP)

theorem failJob_keeps (s : State) (c : CardId) (o : JobOutcome) (d : Option Word) (hc : P → (s.card c).crst = false) :
    Keeps P s (s.failJob c o d) := endJob_keeps s c _ hc

theorem failWithDetail_keeps (s : State) (c : CardId) (o : JobOutcome) (d : Word) (hc : P → (s.card c).crst = false) :
    Keeps P s (s.failWithDetail c o d) := by
  unfold State.failWithDetail
  split
  · exact Keeps.trans (setDetail_keeps _ _ _) (failJob_keeps _ _ _ _ (by simpa using hc))
  · exact Keeps.refl s

/-! ## A step's work -/

/-- A card whose sequencer is between two phases of a running job: a slot active, no request waiting, CRST released. -/
def Card.working (k : Card) : Prop := k.seq.active.isSome = true ∧ k.jobReq = none ∧ k.crst = false

theorem Card.working_inService {c : CardId} {k : Card} (h : k.ok c) (hw : k.seq.active.isSome = true) :
    k.presence.inService = true := by
  by_contra hp
  have hp' : k.presence.inService = false := by simpa using hp
  have := (h.1 hp').2.1
  obtain ⟨i, hi⟩ := Option.isSome_iff_exists.mp hw
  simp [Card.activeSlot, hi] at this

/-- A change of an active sequencer that keeps its slot, waits for no bus and drives CRST only in PULSING. -/
theorem seqChange_keeps (s : State) (c : CardId) (f : Card → Card) (hw : P → (s.card c).seq.active.isSome = true)
    (hs : (s.card c).sameStanding (f (s.card c)))
    (hd : (f (s.card c)).detector = (s.card c).detector ∨ (f (s.card c)).detector = .disarmed)
    (hp : P → (s.card c).ok c → (f (s.card c)).phaseOk ∧ (f (s.card c)).requestsOk c) : Keeps P s (s.updCard c f) := by
  refine updCard_keeps _ _ _ hs fun hP h => ?_
  have hin := Card.working_inService h (hw hP)
  obtain ⟨e1, e2, e3, e4, e5, e6, e7, e8⟩ := hs
  refine ⟨?_, ?_, ?_, (hp hP h).1, (hp hP h).2⟩
  · intro hx; rw [e1, hin] at hx; exact absurd hx (by decide)
  · intro hx
    rcases hd with hd | hd
    · rw [hd] at hx; rw [e1]; exact h.2.1 hx
    · exact absurd hd hx
  · unfold Card.settleOk; rw [e1, e2]; exact h.2.2.1

theorem requestJob_keeps (s : State) (c : CardId) (k : TenureKind) (n : Nat) (d : Word) (o : Bool)
    (hk : k ≠ .attentionRead) (hw : P → (s.card c).seq.active.isSome = true) (hc : P → (s.card c).crst = false) :
    Keeps P s (s.requestJob c k n d o) := by
  refine seqChange_keeps _ _ _ hw ⟨rfl, rfl, rfl, rfl, rfl, rfl, rfl, rfl⟩ (Or.inl rfl) fun hP h => ?_
  have hw := hw hP
  have hc := hc hP
  refine ⟨⟨fun hx => ?_, fun _ => rfl, fun hx => ?_⟩, h.2.2.2.2.1, ?_⟩
  · rw [show (s.card c).seq.active = none from hx] at hw; exact absurd hw (by decide)
  · rw [show (s.card c).crst = true from hx] at hc; exact absurd hc (by decide)
  · intro r hr; cases hr; exact ⟨rfl, hk⟩

/-- A change of a working card's sequencer to any phase without a request. -/
theorem updSeq_keeps (s : State) (c : CardId) (f : Sequencer → Sequencer) (hw : P → (s.card c).working)
    (ha : (f (s.card c).seq).active = (s.card c).seq.active) : Keeps P s (s.updSeq c f) := by
  refine seqChange_keeps _ _ _ (fun hP => (hw hP).1) ⟨rfl, rfl, rfl, by simp [Card.activeSlot, ha], rfl, rfl, rfl, rfl⟩
    (Or.inl rfl) fun hP h => ?_
  have hw := hw hP
  refine ⟨⟨fun hx => ?_, fun hx => ?_, fun hx => ?_⟩, h.2.2.2.2⟩
  · have hw1 := hw.1
    rw [← ha, show (f (s.card c).seq).active = none from hx] at hw1; exact absurd hw1 (by decide)
  · rw [hw.2.1] at hx; exact absurd hx (by decide)
  · rw [hw.2.2] at hx; exact absurd hx (by decide)

theorem streamChange_keeps (s : State) (c : CardId) (f : Card → Option StreamRec) :
    Keeps P s (s.updCard c fun k => { k with stream := f k }) := updCard_keeps _ _ _ ⟨rfl, rfl, rfl, rfl, rfl, rfl, rfl, rfl⟩ fun _ => id

theorem updStream_keeps (s : State) (c : CardId) (f : StreamRec → StreamRec) : Keeps P s (s.updStream c f) :=
  streamChange_keeps s c fun k => k.stream.map f

theorem burstKind_not_attention (d : StreamDir) : d.burstKind ≠ .attentionRead := by cases d <;> decide

theorem beginAbandon_keeps (s : State) (c : CardId) (why : AbandonReason) (hw : P → (s.card c).seq.active.isSome = true)
    (hc : P → (s.card c).crst = false) : Keeps P s (s.beginAbandon c why) :=
  Keeps.trans (updStream_keeps _ _ _)
    (requestJob_keeps _ _ _ _ _ _ (by decide) (by simpa [State.updStream] using hw) (by simpa [State.updStream] using hc))

theorem beginBursts_keeps (s : State) (c : CardId) (dir : StreamDir) (hw : P → (s.card c).seq.active.isSome = true)
    (hc : P → (s.card c).crst = false) : Keeps P s (s.beginBursts c dir) :=
  Keeps.trans (updStream_keeps _ _ _)
    (requestJob_keeps _ _ _ _ _ _ (burstKind_not_attention dir) (by simpa [State.updStream] using hw)
      (by simpa [State.updStream] using hc))

/-! ## Writes leave the cards alone -/

@[simp] theorem card_setCapture (s : State) (i : SlotId) (n : Nat) (w : Word) (d : CardId) :
    (s.setCapture i n w).card d = s.card d := by
  unfold State.setCapture; split <;> rfl

@[simp] theorem card_copySnapshot (c : CardId) (i : SlotId) (base : Nat) (js : List Nat) (d : CardId) :
    ∀ s : State, (s.copySnapshot c i base js).card d = s.card d := by
  induction js with
  | nil => intro s; rfl
  | cons j js ih => intro s; unfold State.copySnapshot; rw [ih]; simp

@[simp] theorem card_setWords (ws : List Word) (d : CardId) : ∀ (s : State) (a : Nat), (s.setWords a ws).card d = s.card d := by
  induction ws with
  | nil => intros; rfl
  | cons w ws ih => intro s a; unfold State.setWords; rw [ih]; rfl

@[simp] theorem card_writeSnapshot (s : State) (c d : CardId) (v : List Word) : (s.writeSnapshot c v).card d = s.card d :=
  card_setWords _ _ _ _

@[simp] theorem card_post (s : State) (n : Notice) (d : CardId) : (s.post n).card d = s.card d := by
  unfold State.post
  generalize n.entry s.msClock s.produced = ws
  split
  · rfl
  · split
    · rfl
    · exact card_setWords ws d s _

@[simp] theorem card_postMark (s : State) (c : CardId) (i : SlotId) (d : CardId) : (s.postMark c i).card d = s.card d :=
  card_post _ _ _

@[simp] theorem card_postUnsolicited (s : State) (c d : CardId) : (s.postUnsolicited c).card d = s.card d := card_post _ _ _

@[simp] theorem card_postJobDone (s : State) (i : SlotId) (d : CardId) : (s.postJobDone i).card d = s.card d := by
  unfold State.postJobDone; split
  · exact card_post _ _ _
  · rfl

@[simp] theorem card_countUnclaimed (s : State) (c d : CardId) : (s.countUnclaimed c).card d = s.card d := rfl
@[simp] theorem card_countCompleted (s : State) (c d : CardId) : (s.countCompleted c).card d = s.card d := rfl
@[simp] theorem card_holdPages (s : State) (i : SlotId) (first count : Nat) (d : CardId) :
    (s.holdPages i first count).card d = s.card d := rfl
@[simp] theorem card_waitLease (s : State) (r : LeaseRequest) (d : CardId) : (s.waitLease r).card d = s.card d := rfl

/-! ## The boundary and the running of steps -/

theorem stepIndex_keeps (s : State) (c : CardId) (n : Nat) (hw : P → (s.card c).working) :
    Keeps P s (s.updSeq c fun q => { q with stepIndex := n }) := updSeq_keeps _ _ _ hw rfl

theorem boundary_keeps (s : State) (c : CardId) (hw : P → (s.card c).working) :
    Keeps P s (s.boundary c).1 ∧ ((s.boundary c).2 = true → P → ((s.boundary c).1.card c).working) := by
  unfold State.boundary
  cases ha : (s.card c).seq.active with
  | none => exact ⟨Keeps.refl s, by simp⟩
  | some i =>
    simp only
    have h1 : Keeps P s (s.setSlotWord i 5 (wordOf ((s.card c).seq.stepIndex + 1))) :=
      setSlotWord_keeps _ _ _ _ (by decide) (by decide)
    have h2 := Keeps.trans h1 (stepIndex_keeps _ c ((s.card c).seq.stepIndex + 1) (by simpa using hw))
    have hcr : ∀ q : Sequencer → Sequencer,
        P → (((s.setSlotWord i 5 (wordOf ((s.card c).seq.stepIndex + 1))).updSeq c q).card c).crst = false := by
      intro q hP; simp [State.updSeq, (hw hP).2.2]
    split
    · exact ⟨Keeps.trans h2 (endJob_keeps _ _ _ (hcr _)), by simp⟩
    · split
      · exact ⟨Keeps.trans h2 (endJob_keeps _ _ _ (hcr _)), by simp⟩
      · refine ⟨h2, fun _ hP => ?_⟩
        simp [State.updSeq, Card.working, (hw hP).2.1, (hw hP).2.2, ha]

theorem awaitConsume_keeps (s : State) (c : CardId) (hw : P → (s.card c).working) :
    Keeps P s (s.awaitConsume c).1 ∧ ((s.awaitConsume c).2 = true → P → ((s.awaitConsume c).1.card c).working) := by
  unfold State.awaitConsume
  cases ha : (s.card c).seq.active with
  | none => exact ⟨Keeps.refl s, by simp⟩
  | some i =>
    simp only
    have h1 : Keeps P s _ := copySnapshot_keeps c i (s.record c).captureBase (List.range (s.card c).profile.readCount) s
    split
    · exact ⟨h1, fun _ hP => by simpa using hw hP⟩
    · exact ⟨Keeps.trans h1 (failWithDetail_keeps _ _ _ _ fun hP => by simpa using (hw hP).2.2), by simp⟩

theorem startStream_keeps (s : State) (c : CardId) (i : SlotId) (dir : StreamDir) (hw : P → (s.card c).working) :
    Keeps P s (s.startStream c i dir) := by
  unfold State.startStream
  simp only
  have h1 : Keeps P s (s.updCard c fun k => { k with stream := some (StreamRec.start dir), leaseGrant := false }) :=
    updCard_keeps _ _ _ ⟨rfl, rfl, rfl, rfl, rfl, rfl, rfl, rfl⟩ fun _ => id
  split
  · refine Keeps.trans h1 (Keeps.trans (holdPages_keeps _ _ _ _) (beginBursts_keeps _ _ _ (fun hP => ?_) fun hP => ?_))
    · simpa using (hw hP).1
    · simpa using (hw hP).2.2
  · refine Keeps.trans h1 (Keeps.trans (waitLease_keeps _ _) (updSeq_keeps _ _ _ (fun hP => ?_) rfl))
    simpa [Card.working] using hw hP

theorem startPulse_keeps (s : State) (c : CardId) (hw : P → (s.card c).working) : Keeps P s (s.startPulse c) := by
  have hf : ∀ k : Card, k.attnPulseStart.presence = k.presence ∧ k.attnPulseStart.settle = k.settle
      ∧ k.attnPulseStart.queue = k.queue ∧ k.attnPulseStart.endReport = k.endReport ∧ k.attnPulseStart.profile = k.profile
      ∧ k.attnPulseStart.startedFaulted = k.startedFaulted ∧ k.attnPulseStart.atnLine = k.atnLine
      ∧ k.attnPulseStart.cancelNotice = k.cancelNotice ∧ k.attnPulseStart.detector = .disarmed
      ∧ k.attnPulseStart.jobReq = k.jobReq ∧ (k.attnPulseStart.attnReq = k.attnReq ∨ k.attnPulseStart.attnReq = none) := by
    intro k; unfold Card.attnPulseStart; split <;> simp
  obtain ⟨f1, f2, f3, f4, f5, f6, f7, f8, f9, f10, f11⟩ := hf (s.card c)
  unfold State.startPulse
  refine seqChange_keeps _ _ _ (fun hP => (hw hP).1) ⟨f1, f2, f3, ?_, f5, f6, f7, f8⟩ (Or.inr f9) fun hP h => ?_
  · simp [Card.activeSlot, f4]
  · have hw := hw hP
    refine ⟨⟨fun hx => ?_, fun hx => ?_, fun _ => rfl⟩, ?_, ?_⟩
    · have hw1 := hw.1
      rw [show (s.card c).seq.active = none from hx] at hw1; exact absurd hw1 (by decide)
    · simp only [f10] at hx; rw [hw.2.1] at hx; exact absurd hx (by decide)
    · intro r hr
      simp only at hr
      rcases f11 with f11 | f11
      · rw [f11] at hr; exact h.2.2.2.2.1 r hr
      · rw [f11] at hr; exact absurd hr (by simp)
    · intro r hr
      simp only [f10] at hr
      rw [hw.2.1] at hr; exact absurd hr (by simp)

theorem startAwait_keeps (s : State) (c : CardId) (hw : P → (s.card c).working) :
    Keeps P s (s.startAwait c).1 ∧ ((s.startAwait c).2 = true → P → ((s.startAwait c).1.card c).working) := by
  unfold State.startAwait
  split
  · have h1 : Keeps P s (s.updCard c fun k => { k with claimable := false }) :=
      updCard_keeps _ _ _ ⟨rfl, rfl, rfl, rfl, rfl, rfl, rfl, rfl⟩ fun _ => id
    have h2 := awaitConsume_keeps (P := P) (s.updCard c fun k => { k with claimable := false }) c
      (by simpa [Card.working] using hw)
    exact ⟨Keeps.trans h1 h2.1, h2.2⟩
  · exact ⟨updSeq_keeps s c (fun q => { q with phase := .attentionWait }) hw rfl, by simp⟩

theorem beginKind_keeps (s : State) (c : CardId) (i : SlotId) (kind : StepKind) (hw : P → (s.card c).working) :
    Keeps P s (s.beginKind c i kind).1 ∧
      ((s.beginKind c i kind).2 = true → P → ((s.beginKind c i kind).1.card c).working) := by
  have hw1 := fun hP => (hw hP).1
  have hw2 := fun hP => (hw hP).2.2
  cases kind
  case put => exact ⟨requestJob_keeps _ _ _ _ _ _ (by decide) hw1 hw2, by simp [State.beginKind]⟩
  case get => exact ⟨requestJob_keeps _ _ _ _ _ _ (by decide) hw1 hw2, by simp [State.beginKind]⟩
  case poll =>
    refine ⟨Keeps.trans (updSeq_keeps s c (fun q => { q with attempts := 0 }) hw rfl)
      (requestJob_keeps _ _ _ _ _ _ (by decide) ?_ ?_), by simp [State.beginKind]⟩
    · simpa [State.updSeq] using hw1
    · simpa [State.updSeq] using hw2
  case await => exact startAwait_keeps s c hw
  case pause => exact ⟨updSeq_keeps s c (fun q => { q with phase := .timedWait }) hw rfl, by simp [State.beginKind]⟩
  case mark => exact ⟨postMark_keeps _ _ _, fun _ hP => by simpa [State.beginKind] using hw hP⟩
  case pulse => exact ⟨startPulse_keeps _ _ hw, by simp [State.beginKind]⟩
  case streamIn => exact ⟨startStream_keeps _ _ _ _ hw, by simp [State.beginKind]⟩
  case streamOut => exact ⟨startStream_keeps _ _ _ _ hw, by simp [State.beginKind]⟩

theorem startStep_keeps (s : State) (c : CardId) (hw : P → (s.card c).working) :
    Keeps P s (s.startStep c).1 ∧ ((s.startStep c).2 = true → P → ((s.startStep c).1.card c).working) := by
  unfold State.startStep
  cases ha : (s.card c).seq.active with
  | none => exact ⟨Keeps.refl s, by simp⟩
  | some i =>
    simp only
    generalize s.readRecord ((s.card c).seq.listAddr.toNat + 8 * (s.card c).seq.stepIndex) = r
    have h1 : Keeps P s (s.updSeq c fun q => { q with copy := some r }) := updSeq_keeps _ _ _ hw rfl
    have hw1 : P → ((s.updSeq c fun q => { q with copy := some r }).card c).working := by
      simpa [State.updSeq, Card.working] using hw
    split
    · have h2 := beginKind_keeps _ c i (by assumption) hw1
      exact ⟨Keeps.trans h1 h2.1, h2.2⟩
    · exact ⟨Keeps.trans h1 (failJob_keeps _ _ _ _ fun hP => (hw1 hP).2.2), by simp⟩
    · exact ⟨h1, by simp⟩

/-- Everything the running of steps can do to the rest of the part (R28–R33). -/
theorem runSteps_keeps (c : CardId) (n : Nat) : ∀ s : State, (P → (s.card c).working) → Keeps P s (runSteps n c s) := by
  induction n with
  | zero => intro s _; exact Keeps.refl s
  | succ n ih =>
    intro s hw
    have h1 := startStep_keeps s c hw
    unfold runSteps
    split
    · rename_i t he; rw [he] at h1; exact h1.1
    · rename_i t he
      rw [he] at h1
      have h2 := boundary_keeps t c (h1.2 rfl)
      split
      · rename_i u hu; rw [hu] at h2; exact Keeps.trans h1.1 (Keeps.trans h2.1 (ih u (h2.2 rfl)))
      · rename_i u hu; rw [hu] at h2; exact Keeps.trans h1.1 h2.1

theorem finishStep_keeps (s : State) (c : CardId) (hw : P → (s.card c).working) : Keeps P s (s.finishStep c) := by
  have h := boundary_keeps s c hw
  unfold State.finishStep
  split
  · rename_i t ht; rw [ht] at h; exact Keeps.trans h.1 (runSteps_keeps c _ t (h.2 rfl))
  · rename_i t ht; rw [ht] at h; exact h.1

theorem awaitHandOver_keeps (s : State) (c : CardId) (hw : P → (s.card c).working) : Keeps P s (s.awaitHandOver c) := by
  have h := awaitConsume_keeps s c hw
  unfold State.awaitHandOver
  split
  · rename_i t ht; rw [ht] at h; exact Keeps.trans h.1 (finishStep_keeps t c (h.2 rfl))
  · rename_i t ht; rw [ht] at h; exact h.1

end Sys2Proof.Machine
end

