-- ==== Sys2Proof/Laws/Attention.lean ====
section
/-! SUPPORT. Laws of the attention unit: each of its acts keeps what `Keeps` lists. -/

namespace Sys2Proof.Machine

variable {P : Prop}

/-- A change of a card's attention fields that leaves the detector on only where it was on or where the card is READY. -/
theorem attnChange_keeps (s : State) (c : CardId) (f : Card → Card) (hs : (s.card c).sameStanding (f (s.card c)))
    (hq : (f (s.card c)).seq = (s.card c).seq ∧ (f (s.card c)).jobReq = (s.card c).jobReq
      ∧ ((f (s.card c)).crst = (s.card c).crst ∨ (f (s.card c)).crst = false))
    (ha : P → (s.card c).ok c → (f (s.card c)).attnReq = none
      ∨ ((f (s.card c)).attnReq = (s.card c).attnReq)
      ∨ (∃ regs, (f (s.card c)).attnReq = some (attentionRequest c regs) ∧ (s.card c).presence.inService = true))
    (hd : P → (s.card c).ok c → (f (s.card c)).detector = .disarmed ∨ (s.card c).presence = .ready
      ∨ (f (s.card c)).detector = (s.card c).detector) :
    Keeps P s (s.updCard c f) := by
  refine updCard_keeps _ _ _ hs fun hP h => ?_
  have ha := ha hP h
  have hd := hd hP h
  obtain ⟨e1, e2, e3, e4, e5, e6, e7, e8⟩ := hs
  obtain ⟨q1, q2, q3⟩ := hq
  obtain ⟨h1, h2, h3, h4, h5⟩ := h
  refine ⟨?_, ?_, ?_, ?_, ?_⟩
  · intro hx
    rw [e1] at hx
    obtain ⟨g1, g2, g3, g4, g5, g6⟩ := h1 hx
    refine ⟨e3.trans g1, e4.trans g2, ?_, ?_, ?_, q2.trans g6⟩
    · rcases hd with hd | hd | hd
      · exact hd
      · rw [hd] at hx; exact absurd hx (by decide)
      · exact hd.trans g3
    · rcases q3 with q3 | q3
      · exact q3.trans g4
      · exact q3
    · rcases ha with ha | ha | ⟨r, ha, hin⟩
      · exact ha
      · exact ha.trans g5
      · rw [hin] at hx; exact absurd hx (by decide)
  · intro hx
    rw [e1]
    rcases hd with hd | hd | hd
    · exact absurd hd hx
    · exact hd
    · exact h2 (by rwa [hd] at hx)
  · unfold Card.settleOk; rw [e1, e2]; exact h3
  · unfold Card.phaseOk; rw [q1, q2]
    refine ⟨h4.1, h4.2.1, fun hx => ?_⟩
    rcases q3 with q3 | q3
    · exact h4.2.2 (q3 ▸ hx)
    · rw [q3] at hx; exact absurd hx (by decide)
  · refine ⟨fun r hr => ?_, fun r hr => h5.2 r (q2 ▸ hr)⟩
    rcases ha with ha | ha | ⟨regs, ha, -⟩
    · rw [ha] at hr; exact absurd hr (by simp)
    · exact h5.1 r (ha ▸ hr)
    · rw [ha] at hr; cases hr; exact ⟨rfl, rfl⟩

theorem rearm_detector (k : Card) : k.rearm.detector = .disarmed ∨ k.presence = .ready := by
  unfold Card.rearm
  by_cases h : k.presence = .ready
  · exact Or.inr h
  · exact Or.inl (by simp [h])

theorem rearm_keeps (s : State) (c : CardId) : Keeps P s (s.updCard c Card.rearm) := by
  refine attnChange_keeps _ _ _ ⟨rfl, rfl, rfl, rfl, rfl, rfl, rfl, rfl⟩ ⟨rfl, rfl, Or.inl rfl⟩ (fun _ _ => Or.inr (Or.inl rfl))
    fun _ _ => ?_
  rcases rearm_detector (s.card c) with h | h
  · exact Or.inl h
  · exact Or.inr (Or.inl h)

theorem readOver_same (k : Card) : k.readOver = { k with attnPhase := k.readOver.attnPhase } := by
  unfold Card.readOver; split <;> rfl

theorem readOver_keeps (s : State) (c : CardId) : Keeps P s (s.updCard c Card.readOver) := by
  have h := readOver_same (s.card c)
  refine updCard_keeps _ _ _ ?_ fun _ hk => ?_
  · rw [h]; exact ⟨rfl, rfl, rfl, rfl, rfl, rfl, rfl, rfl⟩
  · rw [h]; exact hk

theorem claim_keeps (s : State) (c : CardId) (b : Bool) : Keeps P s (s.updCard c fun k => { k with claimable := b }) :=
  updCard_keeps _ _ _ ⟨rfl, rfl, rfl, rfl, rfl, rfl, rfl, rfl⟩ fun _ => id

theorem clearClaimable_keeps (s : State) (c : CardId) : Keeps P s (s.clearClaimable c) := by
  unfold State.clearClaimable
  split
  · exact Keeps.trans (countUnclaimed_keeps _ _) (claim_keeps _ _ _)
  · exact Keeps.refl s

theorem disposeToJob_keeps (s : State) (c : CardId) : Keeps P s (s.disposeToJob c) := by
  unfold State.disposeToJob
  have h1 : Keeps P s (if (s.card c).claimable then s.countUnclaimed c else s) := by
    split
    · exact countUnclaimed_keeps _ _
    · exact Keeps.refl s
  refine Keeps.trans h1 ?_
  generalize (if (s.card c).claimable then s.countUnclaimed c else s) = t
  have h := readOver_same (t.card c)
  refine updCard_keeps _ _ _ ?_ fun _ hk => ?_
  · rw [h]; exact ⟨rfl, rfl, rfl, rfl, rfl, rfl, rfl, rfl⟩
  · rw [h]; exact hk

theorem disposeUnsolicited_keeps (s : State) (c : CardId) : Keeps P s (s.disposeUnsolicited c) :=
  Keeps.trans (countUnclaimed_keeps s c) (Keeps.trans (readOver_keeps _ c) (postUnsolicited_keeps _ c))

theorem completeVoid_keeps (s : State) (c : CardId) (v : List Word) : Keeps P s (s.completeVoid c v) :=
  Keeps.trans (writeSnapshot_keeps s c v) (Keeps.trans (countCompleted_keeps _ c) (Keeps.trans (countUnclaimed_keeps _ c)
    (Keeps.trans (updCard_keeps _ _ _ ⟨rfl, rfl, rfl, rfl, rfl, rfl, rfl, rfl⟩ fun _ => id) (postUnsolicited_keeps _ c))))

/-- A sequencer in a waiting phase of its own is working: a slot active, no request, CRST released. -/
theorem working_of_phase {c : CardId} {k : Card} (h : k.ok c) (h1 : k.seq.phase ≠ .idle) (h2 : k.seq.phase ≠ .busWait)
    (h3 : k.seq.phase ≠ .pulsing) : k.working := by
  obtain ⟨-, -, -, ⟨p1, p2, p3⟩, -⟩ := h
  refine ⟨?_, ?_, ?_⟩
  · cases ha : k.seq.active with
    | none => exact absurd (p1 ha) h1
    | some i => rfl
  · cases hj : k.jobReq with
    | none => rfl
    | some r => exact absurd (p2 (by rw [hj]; rfl)) h2
  · cases hc : k.crst with
    | false => rfl
    | true => exact absurd (p3 hc) h3

/-- What the disposition of an attention can do (R132). -/
theorem dispose_keeps (s : State) (c : CardId) (hP : P → (s.card c).ok c) : Keeps P s (s.dispose c) := by
  unfold State.dispose
  split
  · rename_i hw
    refine Keeps.trans (readOver_keeps s c) (awaitHandOver_keeps _ _ fun p => ?_)
    have hk : ((s.updCard c Card.readOver).card c).ok c := by
      rw [card_updCard_same, readOver_same]; exact hP p
    have hph : ((s.updCard c Card.readOver).card c).seq.phase = .attentionWait := by
      rw [card_updCard_same, readOver_same]; exact hw
    exact working_of_phase hk (by rw [hph]; decide) (by rw [hph]; decide) (by rw [hph]; decide)
  · split
    · exact disposeToJob_keeps s c
    · exact disposeUnsolicited_keeps s c

/-- What the completion of an attention can do (R131). -/
theorem completeAttention_keeps (s : State) (c : CardId) (v : List Word) (hP : P → (s.card c).ok c) :
    Keeps P s (s.completeAttention c v) :=
  Keeps.trans (writeSnapshot_keeps s c v) (Keeps.trans (countCompleted_keeps _ c)
    (dispose_keeps _ c (by simpa using hP)))

/-- What a detection can do (R127): the card is in service. -/
theorem detection_keeps (s : State) (c : CardId) (hP : P → (s.card c).ok c)
    (hr : P → (s.card c).presence.inService = true) : Keeps P s (s.detection c) := by
  unfold State.detection
  split
  · split
    · exact completeAttention_keeps s c [] hP
    · refine attnChange_keeps _ _ _ ⟨rfl, rfl, rfl, rfl, rfl, rfl, rfl, rfl⟩ ⟨rfl, rfl, Or.inl rfl⟩ ?_
        fun _ _ => Or.inr (Or.inr rfl)
      intro p _
      exact Or.inr (Or.inr ⟨_, rfl, hr p⟩)
  · exact Keeps.refl s

end Sys2Proof.Machine
end

