-- ==== Sys2Proof/Laws/Directory.lean ====
section
/-! SUPPORT. Laws of slot intake: what the passage of a slot to DONE does to each field, and what it leaves. -/

namespace Sys2Proof.Machine

theorem setSlotWord?_keeps {P : Prop} (s : State) (i : SlotId) (n : Nat) (w : Option Word) (h4 : 4 ≤ n) (h16 : n < 16) :
    Keeps P s (s.setSlotWord? i n w) := by
  unfold State.setSlotWord?
  split
  · exact setSlotWord_keeps _ _ _ _ h4 h16
  · exact Keeps.refl s

/-- A card after a cancel notice for slot `i` has been dropped. -/
theorem dropCancel_same (i : SlotId) (k : Card) : k.dropCancel i = { k with cancelNotice := (k.dropCancel i).cancelNotice } := by
  unfold Card.dropCancel; split <;> rfl

theorem dropCancel_frame (s : State) (i : SlotId) : { s.dropCancel i with cards := s.cards } = s := by
  unfold State.dropCancel; split <;> rfl

theorem card_dropCancel (s : State) (i : SlotId) (d : CardId) :
    (s.dropCancel i).card d = s.card d ∨ (s.dropCancel i).card d = (s.card d).dropCancel i := by
  unfold State.dropCancel
  split
  · rename_i c _
    rw [card_updCard]
    split
    · rename_i hd; subst hd; exact Or.inr rfl
    · exact Or.inl rfl
  · exact Or.inl rfl

/-- The words a passage to DONE writes: word 6, word 5, word 4 (R20). -/
def State.passWords (s : State) (i : SlotId) (o : JobOutcome) (w5 w6 : Option Word) : State :=
  ((s.setSlotWord? i 6 w6).setSlotWord? i 5 w5).setSlotWord i 4 o.code

theorem setSlotWord?_frame (s : State) (i : SlotId) (n : Nat) (w : Option Word) :
    { s.setSlotWord? i n w with mem := s.mem } = s := by
  cases w <;> rfl

theorem passWords_frame (s : State) (i : SlotId) (o : JobOutcome) (w5 w6 : Option Word) :
    { s.passWords i o w5 w6 with mem := s.mem } = s := by
  have h1 := setSlotWord?_frame s i 6 w6
  unfold State.passWords
  generalize s.setSlotWord? i 6 w6 = t at h1 ⊢
  have h2 := setSlotWord?_frame t i 5 w5
  generalize t.setSlotWord? i 5 w5 = u at h2 ⊢
  have h3 : { u.setSlotWord i 4 o.code with mem := s.mem } = { ({ u with mem := t.mem } : State) with mem := s.mem } := rfl
  rw [h3, h2, h1]

theorem eq_of_memOnly {s t : State} (h : { t with mem := s.mem } = s) : t = { s with mem := t.mem } := by
  have h2 := congrArg (fun x : State => { x with mem := t.mem }) h
  exact h2

/-- The state a passage to DONE leaves but for the cancel notice it drops. -/
theorem passDone_eq (s : State) (i : SlotId) (o : JobOutcome) (w5 w6 : Option Word) :
    s.passDone i o w5 w6 =
      ({ s with mem := (s.passWords i o w5 w6).mem, slots := upd s.slots i { state := .done, cause := none }
                acceptOrder := s.acceptOrder.filter fun j => j ≠ i }).dropCancel i := by
  have h1 := eq_of_memOnly (passWords_frame s i o w5 w6)
  have h2 := congrArg (fun x : State =>
    ({ x with slots := upd x.slots i { state := .done, cause := none }
              acceptOrder := x.acceptOrder.filter fun j => j ≠ i } : State).dropCancel i) h1
  exact h2

/-- What a passage to DONE leaves (R20): only memory, the slot, the acceptance order and a cancel notice change. -/
theorem passDone_frame (s : State) (i : SlotId) (o : JobOutcome) (w5 w6 : Option Word) :
    { s.passDone i o w5 w6 with mem := s.mem, slots := s.slots, acceptOrder := s.acceptOrder, cards := s.cards } = s := by
  rw [passDone_eq]
  have h := congrArg (fun x : State =>
    { x with mem := s.mem, slots := s.slots, acceptOrder := s.acceptOrder, cards := s.cards }) (dropCancel_frame ({ s with
      mem := (s.passWords i o w5 w6).mem, slots := upd s.slots i { state := .done, cause := none }
      acceptOrder := s.acceptOrder.filter fun j => j ≠ i }) i)
  exact h

theorem passDone_slots (s : State) (i : SlotId) (o : JobOutcome) (w5 w6 : Option Word) :
    (s.passDone i o w5 w6).slots = upd s.slots i { state := .done, cause := none } := by
  rw [passDone_eq]
  have h := congrArg State.slots (dropCancel_frame ({ s with
    mem := (s.passWords i o w5 w6).mem, slots := upd s.slots i { state := .done, cause := none }
    acceptOrder := s.acceptOrder.filter fun j => j ≠ i }) i)
  exact h

theorem passDone_acceptOrder (s : State) (i : SlotId) (o : JobOutcome) (w5 w6 : Option Word) :
    (s.passDone i o w5 w6).acceptOrder = s.acceptOrder.filter fun j => j ≠ i := by
  rw [passDone_eq]
  have h := congrArg State.acceptOrder (dropCancel_frame ({ s with
    mem := (s.passWords i o w5 w6).mem, slots := upd s.slots i { state := .done, cause := none }
    acceptOrder := s.acceptOrder.filter fun j => j ≠ i }) i)
  exact h

theorem passDone_slot (s : State) (i j : SlotId) (o : JobOutcome) (w5 w6 : Option Word) :
    (s.passDone i o w5 w6).slot j = if j = i then { state := .done, cause := none } else s.slot j := by
  unfold State.slot; rw [passDone_slots, get_upd]

theorem passDone_mem (s : State) (i : SlotId) (o : JobOutcome) (w5 w6 : Option Word) :
    (s.passDone i o w5 w6).mem = (s.passWords i o w5 w6).mem := by
  rw [passDone_eq]
  have h := congrArg State.mem (dropCancel_frame ({ s with
    mem := (s.passWords i o w5 w6).mem, slots := upd s.slots i { state := .done, cause := none }
    acceptOrder := s.acceptOrder.filter fun j => j ≠ i }) i)
  exact h

theorem passDone_card (s : State) (i : SlotId) (o : JobOutcome) (w5 w6 : Option Word) (d : CardId) :
    (s.passDone i o w5 w6).card d = s.card d ∨ (s.passDone i o w5 w6).card d = (s.card d).dropCancel i := by
  rw [passDone_eq]
  exact card_dropCancel _ i d

/-- A card through a passage to DONE keeps all but its cancel notice. -/
theorem passDone_card_same (s : State) (i : SlotId) (o : JobOutcome) (w5 w6 : Option Word) (d : CardId) :
    (s.passDone i o w5 w6).card d = { s.card d with cancelNotice := ((s.passDone i o w5 w6).card d).cancelNotice } := by
  rcases passDone_card s i o w5 w6 d with h | h
  · rw [h]
  · rw [h]; exact dropCancel_same i _

theorem passWords_keeps {P : Prop} (s : State) (i : SlotId) (o : JobOutcome) (w5 w6 : Option Word) :
    Keeps P s (s.passWords i o w5 w6) :=
  Keeps.trans (setSlotWord?_keeps _ _ _ _ (by decide) (by decide)) (Keeps.trans (setSlotWord?_keeps _ _ _ _ (by decide) (by decide))
    (setSlotWord_keeps _ _ _ _ (by decide) (by decide)))

theorem passDone_memOk (s : State) (i : SlotId) (o : JobOutcome) (w5 w6 : Option Word) (h : s.memOk) :
    (s.passDone i o w5 w6).memOk := by
  unfold State.memOk; rw [passDone_mem]; exact (passWords_keeps (P := True) s i o w5 w6).memOk h

theorem passDone_stable (s : State) (i : SlotId) (o : JobOutcome) (w5 w6 : Option Word) (a : Nat) (h : stableByte a) :
    readByte (s.passDone i o w5 w6).mem a = readByte s.mem a := by
  rw [passDone_mem]; exact (passWords_keeps (P := True) s i o w5 w6).stable a h

theorem passDone_cardsOk (s : State) (i : SlotId) (o : JobOutcome) (w5 w6 : Option Word) (h : s.cardsOk) :
    (s.passDone i o w5 w6).cardsOk := by
  intro d; rw [passDone_card_same]; exact h d

/-- The engine's judgement changes the engine state alone (R201). -/
theorem drainCheck_frame (s : State) : { s.drainCheck with engine := s.engine } = s := by
  unfold State.drainCheck; split <;> rfl

@[simp] theorem card_drainCheck (s : State) (d : CardId) : s.drainCheck.card d = s.card d := by
  unfold State.drainCheck; split <;> rfl

/-- A notice leaves every slot as it stands. -/
theorem slots_post (s : State) (n : Notice) : (s.post n).slots = s.slots := by
  exact (post_keeps (P := True) s n).slots

theorem slots_postJobDone (s : State) (i : SlotId) : (s.postJobDone i).slots = s.slots := by
  exact (postJobDone_keeps (P := True) s i).slots

end Sys2Proof.Machine
end

