-- ==== Sys2Proof/Laws/Invariants.lean ====
section
/-! SUPPORT. Laws of the invariants: each command's operation keeps them. A proof about a step cites the lemma of the operation its
command runs. -/

namespace Sys2Proof.Machine

variable {P : Prop}

/-- What one of the part's acts keeps: the canonical memory, the ring, the cancel causes, RUN with the engine state, and, given `P`, the card
positions and the tenure in flight. -/
structure Preserves (P : Prop) (s t : State) : Prop where
  memOk : s.memOk → t.memOk
  ringOk : s.ringOk → t.ringOk
  causesOk : s.causesOk → t.causesOk
  runOk : s.runOk → t.runOk
  serviceOk : P → s.serviceOk → t.serviceOk

theorem Preserves.refl (s : State) : Preserves P s s := ⟨id, id, id, id, fun _ => id⟩

theorem Preserves.trans {s t u : State} (h : Preserves P s t) (g : Preserves P t u) : Preserves P s u :=
  ⟨fun x => g.memOk (h.memOk x), fun x => g.ringOk (h.ringOk x), fun x => g.causesOk (h.causesOk x), fun x => g.runOk (h.runOk x),
    fun p x => g.serviceOk p (h.serviceOk p x)⟩

theorem Keeps.preserves {s t : State} (h : Keeps P s t) : Preserves P s t where
  memOk := h.memOk
  ringOk := h.ringOk
  causesOk := fun g i => by rw [h.slot]; exact g i
  runOk := fun g => by unfold State.runOk; rw [h.engine, h.ctrlRun, h.resetPin, h.bclr]; exact g
  serviceOk := fun p g => ⟨h.cardsOk p g.1, fun t ht hm => by rw [h.tenure] at ht; rw [(h.card _).1]; exact g.2 t ht hm⟩

/-- A change of the memory to another canonical one. -/
theorem mem_preserves (s : State) (m : Memory) (h : s.memOk → memoryWf m = true) : Preserves P s { s with mem := m } :=
  ⟨h, id, id, id, fun _ => id⟩

/-- A change of fields none of the invariants reads. -/
theorem inert_preserves {s t : State} (h1 : t.mem = s.mem) (h2 : t.inList = s.inList) (h3 : t.slots = s.slots) (h4 : t.engine = s.engine)
    (h5 : t.ctrlRun = s.ctrlRun) (h6 : t.resetPin = s.resetPin) (h9 : t.bclr = s.bclr) (h7 : t.cards = s.cards)
        (h8 : t.tenure = s.tenure) : Preserves P s t := by
  refine ⟨fun h => ?_, fun h => ?_, fun h i => ?_, fun h => ?_, fun _ h => ⟨fun c => ?_, fun x hx hm => ?_⟩⟩
  · unfold State.memOk; rw [h1]; exact h
  · unfold State.ringOk; rw [h2]; exact h
  · unfold State.slot; rw [h3]; exact h i
  · unfold State.runOk; rw [h4, h5, h6, h9]; exact h
  · unfold State.card; rw [h7]; exact h.1 c
  · rw [h8] at hx; unfold State.card; rw [h7]; exact h.2 x hx hm

/-- A change of the tenure in flight. -/
theorem tenure_preserves (s : State) (o : Option Tenure)
    (h : P → s.serviceOk → ∀ t, o = some t → t.mark ≠ .cut → (s.card t.req.card).presence.inService = true) :
    Preserves P s { s with tenure := o } :=
  ⟨id, id, id, id, fun p g => ⟨g.1, fun t ht hm => h p g t ht hm⟩⟩

theorem setTenure_preserves (s : State) (t u : Tenure) (h : s.tenure = some t) (hr : u.req = t.req) (hm : t.mark ≠ .cut ∨ u.mark = .cut) :
    Preserves P s (s.setTenure u) := by
  refine tenure_preserves s _ fun _ g x hx hx2 => ?_
  cases hx
  rw [hr]
  rcases hm with hm | hm
  · exact g.2 t h hm
  · exact absurd hm hx2

theorem updCard_preserves (s : State) (c : CardId) (f : Card → Card)
    (ho : P → s.serviceOk → (f (s.card c)).ok c)
    (hp : P → s.serviceOk → (s.card c).presence.inService = true → (f (s.card c)).presence.inService = true ∨
      ∀ t, s.tenure = some t → t.mark ≠ .cut → t.req.card ≠ c) : Preserves P s (s.updCard c f) := by
  refine ⟨id, id, id, id, fun p g => ⟨fun d => ?_, fun t ht hm => ?_⟩⟩
  · by_cases hd : d = c
    · subst hd; simpa using ho p g
    · rw [card_updCard_other _ _ _ _ hd]; exact g.1 d
  · have h1 := g.2 t ht hm
    by_cases hd : t.req.card = c
    · rw [hd] at h1
      rw [hd, card_updCard_same]
      rcases hp p g h1 with h | h
      · exact h
      · exact absurd hd (h t ht hm)
    · rw [card_updCard_other _ _ _ _ hd]; exact h1

theorem passDone_preserves (s : State) (i : SlotId) (o : JobOutcome) (w5 w6 : Option Word) : Preserves P s (s.passDone i o w5 w6) := by
  have hf := passDone_frame s i o w5 w6
  have f (α : Type) (g : State → α) : g { s.passDone i o w5 w6 with mem := s.mem, slots := s.slots, acceptOrder := s.acceptOrder, cards := s.cards } = g s := congrArg g hf
  refine ⟨passDone_memOk s i o w5 w6, fun h => ?_, fun h j => ?_, fun h => ?_, fun _ h => ⟨passDone_cardsOk s i o w5 w6 h.1, fun t ht hm => ?_⟩⟩
  · have e1 := f _ State.produced; have e2 := f _ State.consumed
    simp only at e1 e2
    unfold State.ringOk State.inList; rw [e1, e2]; exact h
  · rw [passDone_slot]; split
    · simp
    · exact h j
  · have e1 := f _ State.engine; have e2 := f _ State.ctrlRun; have e3 := f _ State.resetPin; have e4 := f _ State.bclr
    simp only at e1 e2 e3 e4
    unfold State.runOk; rw [e1, e2, e3, e4]; exact h
  · have e1 := f _ State.tenure
    simp only at e1
    rw [e1] at ht
    rw [passDone_card_same]; exact h.2 t ht hm

theorem drainCheck_preserves (s : State) : Preserves P s s.drainCheck := by
  refine ⟨?_, ?_, ?_, ?_, ?_⟩ <;> unfold State.drainCheck <;> split <;> try exact id
  · rename_i h; intro g
    simp only [Bool.and_eq_true, decide_eq_true_eq] at h
    refine ⟨by simp, fun _ => g.2.1 (Or.inr (Or.inl h.1)), fun hr => ?_, fun hb => ?_⟩
    · have := g.2.2.1 hr
      rw [h.1] at this; exact absurd this (by decide)
    · have := (g.2.2.2 hb).1
      rw [h.1] at this; exact absurd this (by decide)
  · intro _ g; exact g
  · intro _ g; exact g

theorem post_preserves (s : State) (n : Notice) : Preserves P s (s.post n) := Keeps.preserves (post_keeps s n)

theorem postJobDone_preserves (s : State) (i : SlotId) : Preserves P s (s.postJobDone i) := Keeps.preserves (postJobDone_keeps s i)

theorem endWaiting_preserves (s : State) (i : SlotId) (o : JobOutcome) (w5 w6 : Option Word) : Preserves P s (s.endWaiting i o w5 w6) :=
  (passDone_preserves _ _ _ _ _).trans (postJobDone_preserves _ _)

theorem endInProgress_preserves (s : State) (i : SlotId) (o : JobOutcome) (w5 w6 : Option Word) : Preserves P s (s.endInProgress i o w5 w6) :=
  (passDone_preserves _ _ _ _ _).trans ((drainCheck_preserves _).trans (postJobDone_preserves _ _))

theorem setSlot_preserves (s : State) (i : SlotId) (x : SlotCtl) (h : x.cause.isSome = true ↔ x.state = .cancelling) : Preserves P s (s.setSlot i x) := by
  refine ⟨id, id, fun g j => ?_, id, fun _ => id⟩
  rw [slot_setSlot]; split
  · exact h
  · exact g j

theorem countRefusal_preserves (s : State) : Preserves P s s.countRefusal := inert_preserves rfl rfl rfl rfl rfl rfl rfl rfl rfl

theorem discard_preserves (s : State) (a : Nat) : Preserves P s (s.discard a) := inert_preserves rfl rfl rfl rfl rfl rfl rfl rfl rfl

theorem refuseRequest_preserves (s : State) (i : SlotId) (v : Word) (w : Option Reason) : Preserves P s (s.refuseRequest i v w) :=
  (countRefusal_preserves s).trans (post_preserves _ _)

theorem ok_queue {c : CardId} {k : Card} (h : k.ok c) (q : List SlotId) (hq : k.presence.inService = true ∨ (k.queue = [] → q = [])) :
    ({ k with queue := q } : Card).ok c := by
  obtain ⟨h1, h2⟩ := h
  refine ⟨fun hx => ?_, h2⟩
  rcases hq with hq | hq
  · rw [show k.presence.inService = false from hx] at hq; exact absurd hq (by decide)
  · obtain ⟨g1, g2⟩ := h1 hx
    exact ⟨hq g1, g2⟩

theorem acceptOrder_preserves (s : State) (l : List SlotId) : Preserves P s { s with acceptOrder := l } := ⟨id, id, id, id, fun _ => id⟩

theorem acceptFiling_preserves (s : State) (c : CardId) (i : SlotId) (h : (s.card c).presence.inService = true) :
    Preserves P s (s.acceptFiling c i) := by
  unfold State.acceptFiling
  simp only
  have e : Preserves P s (({ s.setSlotWord i 7 (s.acceptSeq + 1) with acceptSeq := s.acceptSeq + 1 } : State).setSlot i { state := .filed, cause := none }) := by
    refine (Keeps.preserves (setSlotWord_keeps s i 7 (s.acceptSeq + 1) (by decide) (by decide))).trans ((inert_preserves ?_ ?_ ?_ ?_ ?_ ?_ ?_ ?_ ?_).trans (setSlot_preserves _ _ _ (by simp))) <;> rfl
  refine e.trans (Preserves.trans ?_ (acceptOrder_preserves _ _))
  generalize ht : (({ s.setSlotWord i 7 (s.acceptSeq + 1) with acceptSeq := s.acceptSeq + 1 } : State).setSlot i { state := .filed, cause := none }) = t
  have hc : (t.card c).presence.inService = true := by rw [← ht]; exact h
  unfold State.enqueue
  refine updCard_preserves _ _ _ (fun _ g => ?_) fun _ _ _ => Or.inl (by simp only; split <;> exact hc)
  simp only
  split <;> exact ok_queue (g.1 c) _ (Or.inl hc)

theorem filingInvalid_none {s : State} {i : SlotId} {c : CardId} (h : s.filingInvalid i = none) (hc : s.slotCard i = some c) :
    (s.card c).presence.inService = true := by
  unfold State.filingInvalid at h
  unfold State.slotCard at hc
  simp only [hc] at h
  by_contra hn
  simp only [Bool.not_eq_true] at hn
  simp [hn] at h

theorem takeFile_preserves (s : State) (i : SlotId) : Preserves P s (s.takeFile i) := by
  unfold State.takeFile
  split
  · exact endWaiting_preserves _ _ _ _ _
  · rename_i h1 h2; exact acceptFiling_preserves _ _ _ (filingInvalid_none h1 h2)
  · exact Preserves.refl s

theorem requestFile_preserves (s : State) (i : SlotId) : Preserves P s (s.requestFile i) := by
  unfold State.requestFile
  split <;> first | exact takeFile_preserves _ _ | exact refuseRequest_preserves _ _ _ _

theorem dequeue_preserves (s : State) (i : SlotId) : Preserves P s (s.dequeue i) := by
  unfold State.dequeue
  split
  · exact updCard_preserves _ _ _ (fun _ g => ok_queue (g.1 _) _ (Or.inr fun h => by simp [h])) fun _ _ h => Or.inl h
  · exact Preserves.refl s

theorem cancelNotice_preserves (s : State) (c : CardId) (n : Option SlotId) : Preserves P s (s.updCard c fun k => { k with cancelNotice := n }) :=
  updCard_preserves _ _ _ (fun _ g => g.1 c) fun _ _ h => Or.inl h

theorem tellCancel_preserves (s : State) (i : SlotId) : Preserves P s (s.tellCancel i) := by
  unfold State.tellCancel
  split
  · exact cancelNotice_preserves _ _ _
  · exact Preserves.refl s

theorem requestCancel_preserves (s : State) (i : SlotId) : Preserves P s (s.requestCancel i) := by
  unfold State.requestCancel
  split
  · exact (dequeue_preserves _ _).trans (endWaiting_preserves _ _ _ _ _)
  · exact (setSlot_preserves _ _ _ (by simp)).trans (tellCancel_preserves _ _)
  all_goals exact refuseRequest_preserves _ _ _ _

theorem requestRelease_preserves (s : State) (i : SlotId) : Preserves P s (s.requestRelease i) := by
  unfold State.requestRelease
  split
  · exact (mem_preserves s (zeroRange s.mem (slotAddr i 4) (slotAddr i 16)) fun h => zeroRange_wf _ _ _ h).trans (setSlot_preserves _ _ _ (by simp))
  all_goals exact refuseRequest_preserves _ _ _ _

theorem hostAccess_preserves (s : State) (a : Nat) (f : State → State) (h : Preserves P s (f s)) : Preserves P s (s.hostAccess a f) := by
  unfold State.hostAccess
  split <;> first | exact h | exact Preserves.refl s | exact discard_preserves _ _

theorem writeControl_preserves (s : State) (i : SlotId) (v : Word) : Preserves P s (s.writeControl i v) := by
  refine hostAccess_preserves _ _ _ ?_
  unfold State.slotRequest
  split
  · exact requestFile_preserves _ _
  · split
    · exact requestCancel_preserves _ _
    · split
      · exact requestRelease_preserves _ _
      · exact refuseRequest_preserves _ _ _ _

theorem jobEndAtCard_preserves (s : State) (c : CardId) (o : JobOutcome) : Preserves P s (s.jobEndAtCard c o) := by
  unfold State.jobEndAtCard
  split
  · rename_i h
    simp only [Bool.and_eq_true, decide_eq_true_eq] at h
    have hf := h.2
    refine (updCard_preserves _ _ _ (fun _ g => ?_) fun _ _ _ => Or.inl rfl).trans ((Keeps.preserves (clearClaimable_keeps _ _)).trans (Keeps.preserves (rearm_keeps _ _)))
    obtain ⟨h1, h2, h3, h4⟩ := g.1 c
    refine ⟨fun hx => absurd hx (by simp [Presence.inService]), fun _ => rfl, ⟨fun _ => h3.1 (by rw [hf]; decide), fun hx => absurd hx (by simp)⟩, h4⟩
  · exact Keeps.preserves (clearClaimable_keeps _ _)

theorem dropReport_preserves (s : State) (c : CardId) : Preserves P s (s.updCard c fun k => { k with endReport := none }) := by
  refine updCard_preserves _ _ _ (fun _ g => ?_) fun _ _ h => Or.inl h
  obtain ⟨h1, h2⟩ := g.1 c
  refine ⟨fun hx => ?_, h2⟩
  obtain ⟨g1, g2, g3⟩ := h1 hx
  refine ⟨g1, ?_, g3⟩
  unfold Card.activeSlot at g2 ⊢
  cases ha : (s.card c).seq.active with
  | none => simp
  | some i => rw [ha] at g2; simp at g2

/-- What the taking of an end report can do (R18). -/
theorem endReportTaken_preserves (s : State) (c : CardId) : Preserves P s (s.endReportTaken c) := by
  unfold State.endReportTaken
  split
  · unfold State.takeReport
    simp only
    split
    · exact dropReport_preserves _ _
    · exact (dropReport_preserves _ _).trans ((passDone_preserves _ _ _ _ _).trans ((jobEndAtCard_preserves _ _ _).trans ((drainCheck_preserves _).trans (postJobDone_preserves _ _))))
  · exact Preserves.refl s

/-- An act that keeps every invariant outright. -/
abbrev StepPreserves := Preserves True

/-- An act that `Keeps` from an orderly state keeps every invariant. -/
theorem stepPreserves_of_keeps {s t : State} (h : Keeps (s.serviceOk) s t) : StepPreserves s t := by
  have g : Preserves s.serviceOk s t := Keeps.preserves h
  exact ⟨g.memOk, g.ringOk, g.causesOk, g.runOk, fun _ x => g.serviceOk x x⟩

theorem tenureGone_preserves (s : State) : StepPreserves s { s with tenure := none } :=
  tenure_preserves s none fun _ _ t h => by simp at h

theorem jobTenureEnd_preserves (s : State) (p : Tenure → Bool) (take : Tenure → SlotId → State → State)
    (h : ∀ t i u, (u.card t.req.card).seq.active = some i → (u.serviceOk → (u.card t.req.card).working) →
      StepPreserves u (take t i u)) : StepPreserves s (s.jobTenureEnd p take) := by
  unfold State.jobTenureEnd
  split
  · rename_i t ht
    split
    · simp only
      split
      · rename_i i h1 h2
        refine (tenureGone_preserves s).trans (h t i _ h1 fun g => ?_)
        have hp : (({ s with tenure := none } : State).card t.req.card).seq.phase = .tenure := h2
        exact working_of_phase (g.1 _) (by rw [hp]; decide) (by rw [hp]; decide) (by rw [hp]; decide)
      · exact tenureGone_preserves s
    · exact Preserves.refl s
  · exact Preserves.refl s

theorem registerWriteEnd_preserves (s : State) : StepPreserves s s.registerWriteEnd :=
  jobTenureEnd_preserves s _ _ fun _ _ u _ hw => stepPreserves_of_keeps (finishStep_keeps u _ hw)

theorem judgePoll_keeps {P : Prop} (s : State) (c : CardId) (i : SlotId) (v : Word) (hw : P → (s.card c).working) : Keeps P s (s.judgePoll c i v) := by
  unfold State.judgePoll
  simp only
  have h1 : Keeps P s ((s.updSeq c fun q => { q with attempts := (s.card c).seq.attempts + 1 }).setDetail i v) :=
    (updSeq_keeps _ _ _ hw rfl).trans (setDetail_keeps _ _ _)
  have hw1 : P → ((((s.updSeq c fun q => { q with attempts := (s.card c).seq.attempts + 1 }).setDetail i v)).card c).working := by
    simpa [State.updSeq, Card.working] using hw
  generalize ((s.updSeq c fun q => { q with attempts := (s.card c).seq.attempts + 1 }).setDetail i v) = t at h1 hw1 ⊢
  refine h1.trans ?_
  split
  · exact finishStep_keeps _ _ hw1
  · split
    · split
      · exact endJob_keeps _ _ _ fun p => (hw1 p).2.2
      · exact updSeq_keeps _ _ _ hw1 rfl
    · exact failJob_keeps _ _ _ _ fun p => (hw1 p).2.2

theorem registerReadEnd_preserves (s : State) : StepPreserves s s.registerReadEnd := by
  refine jobTenureEnd_preserves s _ _ fun t i u _ hw => ?_
  simp only
  split
  · exact stepPreserves_of_keeps (judgePoll_keeps _ _ _ _ hw)
  · exact stepPreserves_of_keeps ((setCapture_keeps _ _ _ _).trans (finishStep_keeps _ _ (by simpa using hw)))

theorem takeBurstEnd_keeps {P : Prop} (s : State) (c : CardId) (i : SlotId) (hw : P → (s.card c).working) : Keeps P s (s.takeBurstEnd c i) := by
  have hw1 := fun p => (hw p).1
  have hw2 := fun p => (hw p).2.2
  unfold State.takeBurstEnd
  split
  · exact Keeps.refl s
  · rename_i m _
    simp only
    refine (setDetail_keeps s i (wordOf m.wordsMoved)).trans ?_
    split
    · exact beginAbandon_keeps _ _ _ (by simpa using hw1) (by simpa using hw2)
    · split
      · exact beginAbandon_keeps _ _ _ (by simpa using hw1) (by simpa using hw2)
      · split
        · exact (updStream_keeps _ _ _).trans (requestJob_keeps _ _ _ _ _ _ (burstKind_not_attention _) (by simpa [State.updStream] using hw1) (by simpa [State.updStream] using hw2))
        · unfold State.beginClosing
          simp only
          refine (updStream_keeps _ c (fun m => { m with stage := .closing })).trans ?_
          split <;> exact requestJob_keeps _ _ _ _ _ _ (by decide) (by simpa [State.updStream] using hw1) (by simpa [State.updStream] using hw2)

theorem burstEnd_preserves (s : State) : StepPreserves s s.burstEnd :=
  jobTenureEnd_preserves s _ _ fun _ _ _ _ hw => stepPreserves_of_keeps (takeBurstEnd_keeps _ _ _ hw)

theorem burstStop_preserves (s : State) : StepPreserves s s.burstStop :=
  jobTenureEnd_preserves s _ _ fun _ _ _ _ hw => stepPreserves_of_keeps (failWithDetail_keeps _ _ _ _ fun p => (hw p).2.2)

theorem burstStallEnd_preserves (s : State) : StepPreserves s s.burstStallEnd :=
  jobTenureEnd_preserves s _ _ fun _ _ _ _ hw => stepPreserves_of_keeps (beginAbandon_keeps _ _ _ (fun p => (hw p).1) fun p => (hw p).2.2)

theorem dropStream_working {s : State} {c : CardId} (h : (s.card c).working) : ((s.dropStream c).card c).working := by
  obtain ⟨g, x, hg⟩ := card_dropStream s c
  rw [hg]; exact h

theorem recheck_keeps {P : Prop} (s : State) (c : CardId) (i : SlotId) (v : Word) (hw : P → (s.card c).working) : Keeps P s (s.recheck c i v) := by
  unfold State.recheck
  split
  · exact failWithDetail_keeps _ _ _ _ fun p => (hw p).2.2
  · refine (setDetail_keeps _ _ _).trans ((dropStream_keeps _ _).trans (finishStep_keeps _ _ fun p => ?_))
    exact dropStream_working (by simpa using hw p)

theorem checkOutEnd_preserves (s : State) : StepPreserves s s.checkOutEnd := by
  refine jobTenureEnd_preserves s _ _ fun t i u _ hw => ?_
  split
  · exact stepPreserves_of_keeps (failWithDetail_keeps _ _ _ _ fun p => (hw p).2.2)
  · exact stepPreserves_of_keeps (recheck_keeps _ _ _ _ hw)

theorem checkInEnd_preserves (s : State) : StepPreserves s s.checkInEnd := by
  refine jobTenureEnd_preserves s _ _ fun t i u _ hw => ?_
  simp only
  split
  · exact stepPreserves_of_keeps (recheck_keeps _ _ _ _ hw)
  · exact stepPreserves_of_keeps (failWithDetail_keeps _ _ _ _ fun p => (hw p).2.2)

theorem abandonEnd_preserves (s : State) : StepPreserves s s.abandonEnd := by
  refine jobTenureEnd_preserves s _ _ fun t i u _ hw => ?_
  unfold State.takeAbandonEnd
  split
  · exact stepPreserves_of_keeps (failWithDetail_keeps _ _ _ _ fun p => (hw p).2.2)
  · exact stepPreserves_of_keeps (failWithDetail_keeps _ _ _ _ fun p => (hw p).2.2)
  · exact stepPreserves_of_keeps (endJob_keeps _ _ _ fun p => (hw p).2.2)
  all_goals exact Preserves.refl u

theorem running_working {c : CardId} {k : Card} {p : SeqPhase} (h : k.ok c) (hr : k.runningIn p = true) (h1 : p ≠ .idle) (h2 : p ≠ .busWait)
    (h3 : p ≠ .pulsing) : k.working := by
  unfold Card.runningIn at hr
  simp only [Bool.and_eq_true, decide_eq_true_eq] at hr
  exact working_of_phase h (by rw [hr.2]; exact h1) (by rw [hr.2]; exact h2) (by rw [hr.2]; exact h3)

theorem leaseGrantTaken_preserves (s : State) (c : CardId) : StepPreserves s (s.leaseGrantTaken c) := by
  unfold State.leaseGrantTaken
  split
  · split
    · rename_i h
      simp only [Bool.and_eq_true] at h
      have hw : s.serviceOk → (s.card c).working := fun g => running_working (g.1 c) h.2 (by decide) (by decide) (by decide)
      exact stepPreserves_of_keeps ((leaseFlag_keeps _ _ _).trans (beginBursts_keeps _ _ _ (fun p => by simpa using (hw p).1) fun p => by simpa using (hw p).2.2))
    · exact Preserves.refl s
  · exact Preserves.refl s

theorem roundRobin_some {last : CardId} {w : CardId → Bool} {c : CardId} (h : roundRobin last w = some c) : w c = true := by
  exact List.find?_some h

theorem inService_of_attnReq {c : CardId} {k : Card} (h : k.ok c) (ha : k.attnReq.isSome = true) : k.presence.inService = true := by
  by_contra hn
  have := (h.1 (by simpa using hn)).2.2.2.2.1
  rw [this] at ha; exact absurd ha (by decide)

theorem inService_of_jobReq {c : CardId} {k : Card} (h : k.ok c) (ha : k.jobReq.isSome = true) : k.presence.inService = true := by
  by_contra hn
  have := (h.1 (by simpa using hn)).2.2.2.2.2
  rw [this] at ha; exact absurd ha (by decide)

theorem inert_stepPreserves {s t : State} (hm : t.mem = s.mem) (hi : t.inList = s.inList) (hs : t.slots = s.slots)
    (he : t.engine = s.engine) (hr : t.ctrlRun = s.ctrlRun)
   (hp : t.resetPin = s.resetPin) (hb : t.bclr = s.bclr) (h : s.serviceOk → t.serviceOk) : StepPreserves s t := by
  refine ⟨fun g => ?_, fun g => ?_, fun g i => ?_, fun g => ?_, fun _ => h⟩
  · unfold State.memOk; rw [hm]; exact g
  · unfold State.ringOk; rw [hi]; exact g
  · unfold State.slot; rw [hs]; exact g i
  · unfold State.runOk; rw [he, hr, hp, hb]; exact g

theorem grantAttention_preserves (s : State) (c : CardId) (r : Request) (h : (s.card c).attnReq = some r) : StepPreserves s (s.grantAttention c r) := by
  refine inert_stepPreserves rfl rfl rfl rfl rfl rfl rfl fun g => ⟨fun d => ?_, fun t ht hm => ?_⟩
  · have e : (s.grantAttention c r).card d = if d = c then { s.card c with attnReq := none, attnPhase := .reading } else s.card d := by
      exact card_updCard (s.beginTenure r) c d (fun k => { k with attnReq := none, attnPhase := .reading })
    rw [e]
    split
    · rename_i hd; subst hd
      obtain ⟨h1, h2, h3, h4, h5⟩ := g.1 d
      refine ⟨fun hx => ?_, h2, h3, h4, ⟨fun r hr => by simp at hr, h5.2⟩⟩
      obtain ⟨g1, g2, g3, g4, g5, g6⟩ := h1 hx
      exact ⟨g1, g2, g3, g4, rfl, g6⟩
    · exact g.1 d
  · have e : ∀ d, ((s.grantAttention c r).card d).presence = (s.card d).presence := by
      intro d
      have e : (s.grantAttention c r).card d = if d = c then { s.card c with attnReq := none, attnPhase := .reading } else s.card d := by
        exact card_updCard (s.beginTenure r) c d (fun k => { k with attnReq := none, attnPhase := .reading })
      rw [e]; split
      · rename_i hd; subst hd; rfl
      · rfl
    rw [e]
    have : t.req = r := by
      have ht' : some _ = some t := ht
      injection ht' with ht'; rw [← ht']
    rw [this, ((g.1 c).2.2.2.2.1 r h).1]
    exact inService_of_attnReq (g.1 c) (by rw [h]; rfl)

theorem grantJob_preserves (s : State) (c : CardId) (r : Request) (h : (s.card c).jobReq = some r) : StepPreserves s (s.grantJob c r) := by
  have e : ∀ d, ∃ x, (s.grantJob c r).card d = if d = c then { s.card c with jobReq := none, seq := { (s.card c).seq with phase := .tenure }, stream := x } else s.card d := by
    intro d; exact ⟨_, card_updCard (s.beginTenure r) c d (fun k => { k with jobReq := none, seq := { k.seq with phase := .tenure }, stream := if r.kind.isBurst then k.stream.map fun m => { m with begun := true } else k.stream })⟩
  refine inert_stepPreserves rfl rfl rfl rfl rfl rfl rfl fun g => ⟨fun d => ?_, fun t ht hm => ?_⟩
  · obtain ⟨x, e⟩ := e d
    rw [e]
    split
    · rename_i hd; subst hd
      obtain ⟨h1, h2, h3, h4, h5⟩ := g.1 d
      have hb := h4.2.1 (by rw [h]; rfl)
      refine ⟨fun hx => ?_, h2, h3, ⟨fun hx => ?_, fun hx => by simp at hx, fun hx => ?_⟩, ⟨h5.1, fun r hr => by simp at hr⟩⟩
      · obtain ⟨g1, g2, g3, g4, g5, g6⟩ := h1 hx
        exact ⟨g1, g2, g3, g4, g5, rfl⟩
      · have := h4.1 hx; rw [hb] at this; exact absurd this (by decide)
      · have := h4.2.2 hx; rw [hb] at this; exact absurd this (by decide)
    · exact g.1 d
  · obtain ⟨x, e⟩ := e t.req.card
    have e2 : ((s.grantJob c r).card t.req.card).presence = (s.card t.req.card).presence := by
      rw [e]; split
      · rename_i hd; rw [hd]
      · rfl
    rw [e2]
    have : t.req = r := by
      have ht' : some _ = some t := ht
      injection ht' with ht'; rw [← ht']
    rw [this, ((g.1 c).2.2.2.2.2 r h).1]
    exact inService_of_jobReq (g.1 c) (by rw [h]; rfl)

/-- What a grant can do (R117). -/
theorem grantBus_preserves (s : State) : StepPreserves s s.grantBus := by
  unfold State.grantBus
  split
  · split
    · split
      · exact grantAttention_preserves _ _ _ (by assumption)
      · exact Preserves.refl s
    · split
      · split
        · exact grantJob_preserves _ _ _ (by assumption)
        · exact Preserves.refl s
      · exact Preserves.refl s
  · exact Preserves.refl s

theorem moveOut_preserves (s : State) (c : CardId) (w : Word) : StepPreserves s (s.moveOut c w) := stepPreserves_of_keeps (updStream_keeps _ _ _)

theorem moveIn_preserves (s : State) (c : CardId) (w : Word) : StepPreserves s (s.moveIn c w) :=
  
  (mem_preserves s _ fun g => writeWord_wf _ _ _ (by simp only [State.streamAddr, Config.pageBase]; omega) g).trans (stepPreserves_of_keeps (updStream_keeps _ _ _))

theorem releaseStrobe_preserves (s : State) (t : Tenure) (stop : Bool) (data : Word) (h : s.tenure = some t) (hm : t.mark = .going) :
    StepPreserves s (s.releaseStrobe t stop data) := by
  have hm' : t.mark ≠ .cut := by rw [hm]; decide
  have hx : ∀ u : State, u.tenure = s.tenure → ∀ v : Tenure, v.req = t.req → StepPreserves u (u.setTenure v) := by
    intro u hu v hv; exact setTenure_preserves u t v (hu.trans h) hv (Or.inl hm')
  unfold State.releaseStrobe
  simp only
  split
  all_goals try exact hx s rfl _ rfl
  · split
    · exact hx s rfl _ rfl
    · exact (moveOut_preserves s t.req.card t.driven).trans (hx (s.moveOut t.req.card t.driven) rfl _ rfl)
  · split
    · exact hx s rfl _ rfl
    · exact (moveIn_preserves s t.req.card data).trans (hx (s.moveIn t.req.card data) rfl _ rfl)

theorem held_going {t : Tenure} {p : TenurePhase} (h : t.held p = true) : t.mark = .going := by
  unfold Tenure.held at h; simp at h; exact h.2

theorem strobeWidthEnd_preserves (s : State) (r st : Bool) (d : Word) : StepPreserves s (s.strobeWidthEnd r st d) := by
  unfold State.strobeWidthEnd
  split
  · rename_i t ht
    split
    · rename_i hh
      split
      · exact releaseStrobe_preserves _ _ _ _ ht (held_going hh)
      · exact setTenure_preserves _ t _ ht rfl (Or.inl (by rw [held_going hh]; decide))
    · exact Preserves.refl s
  · exact Preserves.refl s

theorem rdyRise_preserves (s : State) (st : Bool) (d : Word) : StepPreserves s (s.rdyRise st d) := by
  unfold State.rdyRise
  split
  · rename_i t ht
    split
    · rename_i hh
      exact releaseStrobe_preserves _ _ _ _ ht (held_going hh)
    · exact Preserves.refl s
  · exact Preserves.refl s

theorem stallTimeout_preserves (s : State) : StepPreserves s s.stallTimeout := by
  unfold State.stallTimeout
  split
  · rename_i t ht
    split
    · rename_i hh
      simp only [Bool.and_eq_true] at hh
      exact setTenure_preserves _ t _ ht rfl (Or.inl (by rw [held_going hh.1]; decide))
    · exact Preserves.refl s
  · exact Preserves.refl s

theorem strobeRecoveryEnd_preserves (s : State) : StepPreserves s s.strobeRecoveryEnd := by
  unfold State.strobeRecoveryEnd
  split
  · rename_i t ht
    split
    · rename_i hh
      simp only [Bool.and_eq_true] at hh
      exact setTenure_preserves _ t _ ht rfl (Or.inl (by rw [held_going hh.1]; decide))
    · exact Preserves.refl s
  · exact Preserves.refl s

theorem recoveryWidthEnd_preserves (s : State) : StepPreserves s s.recoveryWidthEnd := by
  unfold State.recoveryWidthEnd
  split
  · split
    · refine (tenureGone_preserves s).trans ⟨id, id, id, fun g => ⟨g.1, g.2.1, g.2.2.1, fun hb => ?_⟩, fun _ => id⟩
      simp only [Bool.or_eq_true, decide_eq_true_eq] at hb
      rcases hb with hb | hb
      · exact g.2.2.2 hb
      · refine ⟨by simp only; rw [hb]; rfl, ?_⟩
        cases hp : s.resetPin
        · rfl
        · have := g.2.2.1 hp
          simp only at this; rw [hb] at this; exact absurd this (by decide)
    · exact Preserves.refl s
  · exact Preserves.refl s

theorem takeLine_preserves (s : State) (c : CardId) (l : Bool) : StepPreserves s (s.updCard c fun k => k.takeLine l) := by
  refine updCard_preserves _ _ _ (fun _ g => ?_) fun _ _ h => Or.inl (by unfold Card.takeLine; exact h)
  obtain ⟨h1, h2, h3, h4, h5⟩ := g.1 c
  have hd : (s.card c).detector = .disarmed → ((s.card c).takeLine l).detector = .disarmed := by
    intro hd; unfold Card.takeLine; simp only
    cases (s.card c).sense.activeLevel <;> simp [hd]
  refine ⟨fun hx => ?_, fun hx => ?_, h3, h4, h5⟩
  · obtain ⟨g1, g2, g3, g4, g5, g6⟩ := h1 hx
    exact ⟨g1, g2, hd g3, g4, g5, g6⟩
  · exact h2 fun hy => hx (hd hy)

theorem atnChange_preserves (s : State) (c : CardId) (l : Bool) : StepPreserves s (s.atnChange c l) := by
  unfold State.atnChange
  split
  · exact Preserves.refl s
  · split
    · exact updCard_preserves _ _ _ (fun _ g => g.1 c) fun _ _ h => Or.inl h
    · simp only
      split
      · rename_i hd
        have hr : s.serviceOk → (s.card c).presence = .ready := fun g => (g.1 c).2.1 (by
          unfold Card.detects at hd; simp only [Bool.and_eq_true, decide_eq_true_eq] at hd; rw [hd.1]; decide)
        have h1 := takeLine_preserves s c l
        have h2 : Keeps s.serviceOk _ ((s.updCard c fun k => k.takeLine l).detection c) := detection_keeps (P := s.serviceOk) _ c (fun g => (h1.serviceOk trivial g).1 c)
          fun g => by rw [card_updCard_same]; show (s.card c).presence.inService = true; rw [hr g]; rfl
        have h3 : Preserves s.serviceOk _ _ := Keeps.preserves h2
        exact ⟨fun x => h3.memOk (h1.memOk x), fun x => h3.ringOk (h1.ringOk x), fun x => h3.causesOk (h1.causesOk x), fun x => h3.runOk (h1.runOk x), fun _ x => h3.serviceOk x (h1.serviceOk trivial x)⟩
      · exact takeLine_preserves s c l

theorem attentionReadEnd_preserves (s : State) : StepPreserves s s.attentionReadEnd := by
  unfold State.attentionReadEnd
  split
  · split
    · simp only
      split
      · exact (tenureGone_preserves s).trans (stepPreserves_of_keeps (completeVoid_keeps _ _ _))
      · exact (tenureGone_preserves s).trans (stepPreserves_of_keeps (completeAttention_keeps _ _ _ fun g => g.1 _))
    · exact Preserves.refl s
  · exact Preserves.refl s

theorem pollIntervalEnd_preserves (s : State) (c : CardId) : StepPreserves s (s.pollIntervalEnd c) := by
  unfold State.pollIntervalEnd
  split
  · rename_i h
    simp only [Bool.and_eq_true] at h
    have hw : s.serviceOk → (s.card c).working := fun g => running_working (g.1 c) h.1 (by decide) (by decide) (by decide)
    exact stepPreserves_of_keeps (requestJob_keeps _ _ _ _ _ _ (by decide) (fun p => (hw p).1) fun p => (hw p).2.2)
  · exact Preserves.refl s

theorem awaitTimeout_preserves (s : State) (c : CardId) : StepPreserves s (s.awaitTimeout c) := by
  unfold State.awaitTimeout
  split
  · rename_i h
    exact stepPreserves_of_keeps (failJob_keeps _ _ _ _ fun g => (running_working (g.1 c) h (by decide) (by decide) (by decide)).2.2)
  · exact Preserves.refl s

theorem pauseEnd_preserves (s : State) (c : CardId) : StepPreserves s (s.pauseEnd c) := by
  unfold State.pauseEnd
  split
  · rename_i h
    simp only [Bool.and_eq_true] at h
    exact stepPreserves_of_keeps (finishStep_keeps _ _ fun g => running_working (g.1 c) h.1 (by decide) (by decide) (by decide))
  · exact Preserves.refl s

theorem settleWaitEnd_preserves (s : State) (c : CardId) : StepPreserves s (s.settleWaitEnd c) := by
  unfold State.settleWaitEnd
  split
  · rename_i h
    exact stepPreserves_of_keeps (finishStep_keeps _ _ fun g => running_working (g.1 c) h (by decide) (by decide) (by decide))
  · exact Preserves.refl s

theorem card_clearClaimable (s : State) (c : CardId) : (s.clearClaimable c).card c = { s.card c with claimable := false } := by
  unfold State.clearClaimable
  split
  · simp
  · rename_i h
    have : (s.card c).claimable = false := by simpa using h
    rw [← this]

theorem endPulse_keeps {P : Prop} (s : State) (c : CardId) : Keeps P s (s.endPulse c) := by
  unfold State.endPulse
  have h1 : Keeps P s (s.updCard c fun k => { k with crst := false, attnPhase := .quiet, attnReq := none }) :=
    attnChange_keeps _ _ _ ⟨rfl, rfl, rfl, rfl, rfl, rfl, rfl, rfl⟩ ⟨rfl, rfl, Or.inr rfl⟩ (fun _ _ => Or.inl rfl) fun _ _ => Or.inr (Or.inr rfl)
  exact h1.trans ((clearClaimable_keeps _ _).trans (rearm_keeps _ _))

theorem card_endPulse (s : State) (c : CardId) : ((s.endPulse c).card c).seq = (s.card c).seq ∧ ((s.endPulse c).card c).jobReq = (s.card c).jobReq
    ∧ ((s.endPulse c).card c).crst = false := by
  unfold State.endPulse
  simp [card_clearClaimable, Card.rearm]

theorem pulseEnd_preserves (s : State) (c : CardId) : StepPreserves s (s.pulseEnd c) := by
  unfold State.pulseEnd
  split
  · rename_i h
    simp only
    obtain ⟨e1, e2, e3⟩ := card_endPulse s c
    have hw : s.serviceOk → ((s.endPulse c).card c).working := by
      intro g
      unfold Card.runningIn at h
      simp only [Bool.and_eq_true, decide_eq_true_eq] at h
      refine ⟨by rw [e1]; exact h.1, ?_, e3⟩
      rw [e2]
      cases hj : (s.card c).jobReq with
      | none => rfl
      | some r =>
        have := (g.1 c).2.2.2.1.2.1 (by rw [hj]; rfl)
        rw [h.2] at this; exact absurd this (by decide)
    split
    · exact stepPreserves_of_keeps ((endPulse_keeps _ _).trans (finishStep_keeps _ _ hw))
    · split
      · exact stepPreserves_of_keeps ((endPulse_keeps _ _).trans (endJob_keeps _ _ _ fun g => (hw g).2.2))
      · exact stepPreserves_of_keeps ((endPulse_keeps _ _).trans (updSeq_keeps (s.endPulse c) c (fun q => { q with phase := .settleWait }) hw rfl))
  · exact Preserves.refl s

theorem crst_of_phase {c : CardId} {k : Card} (h : k.ok c) (hp : k.seq.phase ≠ .pulsing) : k.crst = false := by
  cases hc : k.crst with
  | false => rfl
  | true => exact absurd (h.2.2.2.1.2.2 hc) hp

theorem stopStep_preserves (s : State) (c : CardId) (ha : (s.card c).seq.active.isSome = true) : StepPreserves s (s.stopStep c) := by
  unfold State.stopStep
  have hc : (s.card c).seq.phase ≠ .pulsing → s.serviceOk → (s.card c).crst = false := fun h g => crst_of_phase (g.1 c) h
  split
  · exact Preserves.refl s
  · exact Preserves.refl s
  · exact Preserves.refl s
  · rename_i h; exact stepPreserves_of_keeps (endJob_keeps _ _ _ (hc (by rw [h]; decide)))
  · rename_i h; exact stepPreserves_of_keeps (endJob_keeps _ _ _ (hc (by rw [h]; decide)))
  · rename_i h; exact stepPreserves_of_keeps (endJob_keeps _ _ _ (hc (by rw [h]; decide)))
  · rename_i h; exact stepPreserves_of_keeps (endJob_keeps _ _ _ (hc (by rw [h]; decide)))
  · rename_i h
    have hcc := hc (by rw [h]; decide)
    unfold State.stopInBusWait
    split
    · exact stepPreserves_of_keeps (endJob_keeps _ _ _ hcc)
    · split
      · exact Preserves.refl s
      all_goals
        split
        · exact stepPreserves_of_keeps (beginAbandon_keeps _ _ _ (fun _ => ha) hcc)
        · exact stepPreserves_of_keeps (endJob_keeps _ _ _ hcc)

theorem cancelNoticeTaken_preserves (s : State) (c : CardId) : StepPreserves s (s.cancelNoticeTaken c) := by
  unfold State.cancelNoticeTaken
  split
  · exact Preserves.refl s
  · simp only
    split
    · rename_i h
      refine (cancelNotice_preserves s c none).trans (Preserves.trans (t := (s.updCard c fun k => { k with cancelNotice := none }).updSeq c fun q => { q with stop := true }) ?_ (stopStep_preserves _ _ ?_))
      · refine updCard_preserves _ _ _ (fun _ g => ?_) fun _ _ h => Or.inl h
        exact g.1 c
      · simp [State.updSeq, h]
    · exact cancelNotice_preserves s c none

theorem recordFault_preserves (s : State) (c : CardId) (d : Word) (b : Bool) (h : s.serviceOk →
    (s.card c).presence.inService = true) : StepPreserves s (s.recordFault c d b) := by
  unfold State.recordFault
  simp only
  have h0 : StepPreserves s (s.setProfileWord c 15 d) := stepPreserves_of_keeps (setProfileWord_keeps _ _ _ _ (by decide) (by decide))
  refine Preserves.trans ?_ (post_preserves _ _)
  have hf : ∀ k : Card, ∃ a p v, k.attnFault b = { k with detector := .disarmed, attnReq := a, attnPhase := p, voidRead := v } ∧ (a = k.attnReq ∨ a = none) := by
    intro k; unfold Card.attnFault
    split
    · exact ⟨_, _, _, rfl, Or.inr rfl⟩
    · split
      · exact ⟨_, _, _, rfl, Or.inr rfl⟩
      · exact ⟨_, _, _, rfl, Or.inl rfl⟩
  refine h0.trans ?_
  refine ⟨id, id, id, id, fun _ g => ⟨fun e => ?_, fun t ht hm => ?_⟩⟩
  · by_cases he : e = c
    · subst he
      rw [card_updCard_same]
      obtain ⟨h1, h2, h3, h4, h5⟩ := g.1 e
      have hs : (s.card e).presence.inService = true := h g
      obtain ⟨a, p, v, hk, ha⟩ := hf ((s.setProfileWord e 15 d).card e)
      rw [hk]
      refine ⟨fun hx => absurd hx (by simp [Presence.inService]), fun hx => absurd rfl hx, ⟨fun _ => ?_, fun hx => absurd hx (by simp)⟩, h4, ⟨fun r hr => ?_, h5.2⟩⟩
      · refine h3.1 ?_
        intro hx
        have : (s.card e).presence = .settling := hx
        rw [this] at hs; exact absurd hs (by decide)
      · rcases ha with ha | ha
        · exact h5.1 r (by rw [← ha]; exact hr)
        · rw [show a = some r from hr] at ha; exact absurd ha (by simp)
    · rw [card_updCard_other _ _ _ _ he]; exact g.1 e
  · by_cases he : t.req.card = c
    · rw [he, card_updCard_same]; rfl
    · rw [card_updCard_other _ _ _ _ he]; exact g.2 t ht hm

theorem card_recordFault (s : State) (c e : CardId) (d : Word) (b : Bool) : ((s.recordFault c d b).card e).seq = (s.card e).seq ∧
    ((s.recordFault c d b).card e).jobReq = (s.card e).jobReq ∧ ((s.recordFault c d b).card e).crst = (s.card e).crst := by
  unfold State.recordFault
  simp only [card_post]
  by_cases he : e = c
  · subst he
    rw [card_updCard_same]
    unfold Card.attnFault
    split
    · exact ⟨rfl, rfl, rfl⟩
    · split <;> exact ⟨rfl, rfl, rfl⟩
  · rw [card_updCard_other _ _ _ _ he]; exact ⟨rfl, rfl, rfl⟩

theorem takeJobFault_preserves (s : State) (c : CardId) (k : TenureKind) (d : Word) : StepPreserves s (s.takeJobFault c k d) := by
  unfold State.takeJobFault
  split
  · rename_i h
    have hc : s.serviceOk → (s.card c).crst = false := fun g => (running_working (g.1 c) h (by decide) (by decide) (by decide)).2.2
    split <;> first | exact stepPreserves_of_keeps (failWithDetail_keeps _ _ _ _ hc) | exact stepPreserves_of_keeps (failJob_keeps _ _ _ _ hc)
  · exact Preserves.refl s

theorem takeAttentionFault_preserves (s : State) (c : CardId) (v : List Word) (d : Word) : StepPreserves s (s.takeAttentionFault c v d) := by
  unfold State.takeAttentionFault
  refine (stepPreserves_of_keeps (writeSnapshot_keeps s c v)).trans (Preserves.trans (t := (s.writeSnapshot c v).updCard c fun k => { k with crst := false }) ?_ (stepPreserves_of_keeps (failJob_keeps _ _ _ _ fun _ => by simp)))
  exact stepPreserves_of_keeps (attnChange_keeps _ _ _ ⟨rfl, rfl, rfl, rfl, rfl, rfl, rfl, rfl⟩ ⟨rfl, rfl, Or.inr rfl⟩ (fun _ _ => Or.inr (Or.inl rfl)) fun _ _ => Or.inr (Or.inr rfl))

/-- What a bus fault can do (R112). -/
theorem readyTimeout_preserves (s : State) : StepPreserves s s.readyTimeout := by
  unfold State.readyTimeout
  split
  · rename_i t ht
    split
    · rename_i hh
      simp only [Bool.and_eq_true] at hh
      have hm := held_going hh.1
      simp only
      have h1 : StepPreserves s (s.setTenure { t with phase := .recovery, mark := .faulted }) := setTenure_preserves s t _ ht rfl (Or.inl (by rw [hm]; decide))
      have h2 : StepPreserves s ((s.setTenure { t with phase := .recovery, mark := .faulted }).recordFault t.req.card t.fault (decide (t.req.kind = .attentionRead))) :=
        h1.trans (recordFault_preserves _ _ _ _ fun g => g.2 { t with phase := .recovery, mark := .faulted } rfl (by simp))
      split
      · exact h2.trans (takeAttentionFault_preserves _ _ _ _)
      · exact h2.trans (takeJobFault_preserves _ _ _ _)
    · exact Preserves.refl s
  · exact Preserves.refl s

theorem startChoice_inService {s : State} {c : CardId} {i : SlotId} (h : s.startChoice c = some i) : (s.card c).presence.inService = true := by
  unfold State.startChoice at h
  cases hp : (s.card c).presence <;> rw [hp] at h <;> first | rfl | simp at h

theorem latchNewSense_keeps {P : Prop} (s : State) (c : CardId) : Keeps P s (s.updCard c Card.latchNewSense) := by
  have hf : ∀ k : Card, ∃ a p v, k.latchNewSense = { k.rearm with attnReq := a, attnPhase := p, voidRead := v } ∧ (a = k.attnReq ∨ a = none) := by
    intro k; unfold Card.latchNewSense
    split
    · exact ⟨_, _, _, rfl, Or.inr rfl⟩
    · exact ⟨_, _, _, rfl, Or.inl rfl⟩
    · exact ⟨_, _, _, rfl, Or.inl rfl⟩
    · exact ⟨_, _, _, rfl, Or.inl rfl⟩
  obtain ⟨a, p, v, hk, ha⟩ := hf (s.card c)
  refine attnChange_keeps _ _ _ ?_ ?_ (fun _ _ => ?_) fun _ _ => ?_
  · rw [hk]; exact ⟨rfl, rfl, rfl, rfl, rfl, rfl, rfl, rfl⟩
  · rw [hk]; exact ⟨rfl, rfl, Or.inl rfl⟩
  · rw [hk]; rcases ha with ha | ha
    · exact Or.inr (Or.inl ha)
    · exact Or.inl ha
  · rw [hk]
    rcases rearm_detector (s.card c) with h | h
    · exact Or.inl h
    · exact Or.inr (Or.inl h)

theorem card_dispose_idle (s : State) (c : CardId) (h : (s.card c).seq.phase = .idle) : ((s.dispose c).card c).seq = (s.card c).seq ∧
    ((s.dispose c).card c).jobReq = (s.card c).jobReq ∧ ((s.dispose c).card c).crst = (s.card c).crst ∧ ((s.dispose c).card c).presence =
    (s.card c).presence := by
  unfold State.dispose
  rw [if_neg (by rw [h]; decide)]
  split
  · unfold State.disposeToJob
    simp only [card_updCard_same]
    rw [readOver_same]
    split <;> exact ⟨rfl, rfl, rfl, rfl⟩
  · unfold State.disposeUnsolicited
    simp only [card_postUnsolicited, card_updCard_same]
    rw [readOver_same]
    exact ⟨rfl, rfl, rfl, rfl⟩

theorem latchProfile_preserves (s : State) (c : CardId) (p : Profile) (hi : (s.card c).presence.inService = true) : StepPreserves s
    (s.latchProfile c p) := by
  unfold State.latchProfile
  simp only
  have h1 : StepPreserves s (s.updCard c fun k => { k with profile := p }) := updCard_preserves _ _ _ (fun _ g => g.1 c) fun _ _ h => Or.inl h
  refine h1.trans ?_
  split
  · exact stepPreserves_of_keeps (latchNewSense_keeps _ _)
  · split
    · split
      · refine Preserves.trans (t := (s.updCard c fun k => { k with profile := p }).updCard c fun k => { k with attnReq := none, attnPhase := .quiet }) ?_ (stepPreserves_of_keeps (completeAttention_keeps _ _ _ fun g => g.1 _))
        exact stepPreserves_of_keeps (attnChange_keeps _ _ _ ⟨rfl, rfl, rfl, rfl, rfl, rfl, rfl, rfl⟩ ⟨rfl, rfl, Or.inl rfl⟩ (fun _ _ => Or.inl rfl) fun _ _ => Or.inr (Or.inr rfl))
      · refine stepPreserves_of_keeps (attnChange_keeps _ _ _ ⟨rfl, rfl, rfl, rfl, rfl, rfl, rfl, rfl⟩ ⟨rfl, rfl, Or.inl rfl⟩ (fun _ _ => Or.inr (Or.inr ⟨_, rfl, ?_⟩)) fun _ _ => Or.inr (Or.inr rfl))
        rw [card_updCard_same]; exact hi
    · exact Preserves.refl _

theorem card_latchNewSense (k : Card) : k.latchNewSense.seq = k.seq ∧ k.latchNewSense.jobReq = k.jobReq ∧ k.latchNewSense.crst = k.crst ∧
    k.latchNewSense.presence = k.presence := by
  unfold Card.latchNewSense Card.rearm; split <;> exact ⟨rfl, rfl, rfl, rfl⟩

theorem card_latchProfile (s : State) (c : CardId) (p : Profile) (h : (s.card c).seq.phase = .idle) :
    ((s.latchProfile c p).card c).seq = (s.card c).seq ∧ ((s.latchProfile c p).card c).jobReq = (s.card c).jobReq
      ∧ ((s.latchProfile c p).card c).crst = (s.card c).crst ∧ ((s.latchProfile c p).card c).presence = (s.card c).presence := by
  unfold State.latchProfile
  simp only
  split
  · rw [card_updCard_same]
    obtain ⟨h1, h2, h3, h4⟩ := card_latchNewSense ((s.updCard c fun k => { k with profile := p }).card c)
    rw [h1, h2, h3, h4, card_updCard_same]; exact ⟨rfl, rfl, rfl, rfl⟩
  · split
    · split
      · unfold State.completeAttention
        obtain ⟨h1, h2, h3, h4⟩ := card_dispose_idle (((((s.updCard c fun k => { k with profile := p }).updCard c fun k => { k with attnReq := none, attnPhase := .quiet })).writeSnapshot c []).countCompleted c) c (by simpa using h)
        rw [h1, h2, h3, h4]
        simp
      · simp
    · simp

/-- What a start can do (R61). -/
theorem startSlot_preserves (s : State) (c : CardId) (i : SlotId) (hi : (s.card c).presence.inService = true)
    (hph : (s.card c).seq.phase = .idle) : StepPreserves s (s.startSlot c i) := by
  unfold State.startSlot
  simp only
  have h0 : StepPreserves s (s.updCard c fun k => { k with queue := k.queue.filter fun j => j ≠ i }) :=
    updCard_preserves _ _ _ (fun _ g => ok_queue (g.1 _) _ (Or.inr fun h => by simp [h])) fun _ _ h => Or.inl h
  split
  · exact h0.trans (endWaiting_preserves _ _ _ _ _)
  · generalize (s.profileWords c).latch = p
    generalize ht : (s.updCard c fun k => { k with queue := k.queue.filter fun j => j ≠ i }) = t at h0 ⊢
    have hit : (t.card c).presence.inService = true := by rw [← ht, card_updCard_same]; exact hi
    have hpt : (t.card c).seq.phase = .idle := by rw [← ht, card_updCard_same]; exact hph
    have h1 := latchProfile_preserves t c p hit
    obtain ⟨e1, e2, e3, e4⟩ := card_latchProfile t c p hpt
    generalize t.latchProfile c p = u at h1 e1 e2 e3 e4 ⊢
    have hpu : (u.card c).seq.phase = .idle := by rw [e1]; exact hpt
    have hiu : (u.card c).presence.inService = true := by rw [e4]; exact hit
    have h2 : StepPreserves u (u.activate c i) := by
      unfold State.activate
      refine (setSlot_preserves u i { state := .active, cause := none } (by simp)).trans (updCard_preserves _ _ _ (fun _ g => ?_) fun _ _ h => Or.inl h)
      obtain ⟨k1, k2, k3, k4, k5⟩ := g.1 c
      refine ⟨fun hx => ?_, k2, k3, ⟨fun hx => by simp at hx, k4.2.1, k4.2.2⟩, k5⟩
      rw [show (u.card c).presence.inService = false from hx] at hiu; exact absurd hiu (by decide)
    refine h0.trans (h1.trans (h2.trans (stepPreserves_of_keeps (runSteps_keeps c _ _ fun g => ?_))))
    have hact : ((u.activate c i).card c).seq.active.isSome = true := by
      unfold State.activate; simp
    have hp2 : ((u.activate c i).card c).seq.phase = .idle := by
      unfold State.activate; simpa using hpu
    obtain ⟨k1, k2, k3, k4, k5⟩ := g.1 c
    refine ⟨hact, ?_, ?_⟩
    · cases hj : ((u.activate c i).card c).jobReq with
      | none => rfl
      | some r => have := k4.2.1 (by rw [hj]; rfl); rw [hp2] at this; exact absurd this (by decide)
    · cases hj : ((u.activate c i).card c).crst with
      | false => rfl
      | true => have := k4.2.2 hj; rw [hp2] at this; exact absurd this (by decide)

theorem jobStart_preserves (s : State) (c : CardId) : StepPreserves s (s.jobStart c) := by
  unfold State.jobStart
  split
  · rename_i h
    unfold State.mayStart at h
    simp only [Bool.and_eq_true, decide_eq_true_eq] at h
    split
    · rename_i i hi
      exact startSlot_preserves s c i (startChoice_inService hi) h.2
    · exact Preserves.refl s
  · exact Preserves.refl s

theorem arrive_preserves (s : State) (c : CardId) (h : (s.card c).presence = .settling) : StepPreserves s (s.arrive c) := by
  unfold State.arrive
  simp only
  refine Preserves.trans ?_ (post_preserves _ _)
  refine updCard_preserves _ _ _ (fun _ g => ?_) fun _ _ hx => by rw [h] at hx; exact absurd hx (by decide)
  obtain ⟨k1, k2, k3, k4, k5⟩ := g.1 c
  refine ⟨fun hx => absurd hx (by simp [Card.rearm, Presence.inService]), fun _ => rfl, ⟨fun _ => rfl, fun hx => absurd hx (by simp [Card.rearm])⟩, k4, k5⟩

theorem cut_mark (t : Tenure) : t.cut.mark = .cut := rfl

theorem cutTenure_preserves (s : State) (c : CardId) : StepPreserves s (s.cutTenure c) := by
  unfold State.cutTenure
  split
  · rename_i t ht
    split
    · exact setTenure_preserves s t _ ht rfl (Or.inr rfl)
    · exact Preserves.refl s
  · exact Preserves.refl s

/-- Two cards equal but for a lease grant and a cancel notice under way. -/
def Card.sameButMessages (k m : Card) : Prop := ∃ g n, m = { k with leaseGrant := g, cancelNotice := n }

theorem Card.sameButMessages.refl (k : Card) : Card.sameButMessages k k := ⟨k.leaseGrant, k.cancelNotice, rfl⟩

theorem Card.sameButMessages.trans {k m n : Card} (h : Card.sameButMessages k m) (g : Card.sameButMessages m n) : Card.sameButMessages k n := by
  obtain ⟨a, b, rfl⟩ := h; obtain ⟨a', b', rfl⟩ := g; exact ⟨a', b', rfl⟩

theorem Card.sameButMessages.ok {k m : Card} (h : Card.sameButMessages k m) {c : CardId} (hk : k.ok c) : m.ok c := by
  obtain ⟨a, b, rfl⟩ := h; exact hk

theorem passDone_eqm (s : State) (i : SlotId) (o : JobOutcome) (w5 w6 : Option Word) (d : CardId) : Card.sameButMessages (s.card d)
    ((s.passDone i o w5 w6).card d) :=
  ⟨_, _, passDone_card_same s i o w5 w6 d⟩

theorem endWaiting_eqm (s : State) (i : SlotId) (o : JobOutcome) (w5 w6 : Option Word) (d : CardId) : Card.sameButMessages (s.card d)
    ((s.endWaiting i o w5 w6).card d) := by
  unfold State.endWaiting; rw [card_postJobDone]; exact passDone_eqm _ _ _ _ _ _

theorem endInProgress_eqm (s : State) (i : SlotId) (o : JobOutcome) (w5 w6 : Option Word) (d : CardId) : Card.sameButMessages (s.card d)
    ((s.endInProgress i o w5 w6).card d) := by
  unfold State.endInProgress; rw [card_postJobDone, card_drainCheck]; exact passDone_eqm _ _ _ _ _ _

theorem endRemoved_eqm (s : State) (o : Option SlotId) (d : CardId) : Card.sameButMessages (s.card d) ((s.endRemoved o).card d) := by
  unfold State.endRemoved; split
  · exact endInProgress_eqm _ _ _ _ _ _
  · exact Card.sameButMessages.refl _

theorem dropStream_eqm (s : State) (c d : CardId) (h : d ≠ c) : Card.sameButMessages (s.card d) ((s.dropStream c).card d) := by
  unfold State.dropStream
  split
  · rw [card_updCard_other _ _ _ _ h]
    obtain ⟨g, hg⟩ := card_dropLease s c (by assumption) d
    exact ⟨g, _, hg⟩
  · exact Card.sameButMessages.refl _

theorem drainQueue_other (c : CardId) (q : List SlotId) (d : CardId) (h : d ≠ c) : ∀ s : State, Card.sameButMessages (s.card d)
    ((s.drainQueue c q).card d) := by
  induction q with
  | nil => intro s; exact Card.sameButMessages.refl _
  | cons i q ih =>
    intro s
    unfold State.drainQueue
    refine Card.sameButMessages.trans ?_ (ih _)
    have := endWaiting_eqm (s.updCard c fun k => { k with queue := q }) i .cardAbsent (some 0) none d
    rwa [card_updCard_other _ _ _ _ h] at this

theorem drainQueue_same (c : CardId) (q : List SlotId) : ∀ s : State, ∃ r n,
    (s.drainQueue c q).card c = { s.card c with queue := r, leaseGrant := (s.card c).leaseGrant, cancelNotice := n } ∧ (q = [] → r =
    (s.card c).queue) ∧ (q ≠ [] → r = []) := by
  induction q with
  | nil => intro s; exact ⟨_, _, rfl, fun _ => rfl, fun h => absurd rfl h⟩
  | cons i q ih =>
    intro s
    unfold State.drainQueue
    obtain ⟨r, n, hr, h1, h2⟩ := ih ((s.updCard c fun k => { k with queue := q }).endWaiting i .cardAbsent (some 0) none)
    have he : ((s.updCard c fun k => { k with queue := q }).endWaiting i .cardAbsent (some 0) none).card c
       = { s.card c with queue := q, cancelNotice := (((s.updCard c fun k => { k with queue := q }).endWaiting i .cardAbsent (some 0) none).card c).cancelNotice } := by
      have := passDone_card_same (s.updCard c fun k => { k with queue := q }) i .cardAbsent (some 0) none c
      unfold State.endWaiting; rw [card_postJobDone]
      rw [card_updCard_same] at this
      exact this
    refine ⟨r, n, ?_, by simp, fun _ => ?_⟩
    · rw [hr, he]
    · by_cases hq : q = []
      · rw [h1 hq, he]; exact hq
      · exact h2 hq

/-- An act that keeps the invariants that say nothing of the cards and the bus. -/
abbrev PreservesRest := Preserves False

theorem updCard_preservesRest (s : State) (c : CardId) (f : Card → Card) : PreservesRest s (s.updCard c f) := ⟨id, id, id, id, fun h => h.elim⟩

theorem preservesRest_of {s t : State} (h : StepPreserves s t) : PreservesRest s t := ⟨h.memOk, h.ringOk, h.causesOk, h.runOk, fun h => h.elim⟩

theorem drainQueue_preservesRest (c : CardId) (q : List SlotId) : ∀ s : State, PreservesRest s (s.drainQueue c q) := by
  induction q with
  | nil => intro s; exact Preserves.refl s
  | cons i q ih => intro s; unfold State.drainQueue; exact (updCard_preservesRest _ _ _).trans ((endWaiting_preserves _ _ _ _ _).trans (ih _))

theorem endRemoved_preservesRest (s : State) (o : Option SlotId) : PreservesRest s (s.endRemoved o) := by
  unfold State.endRemoved; split
  · exact endInProgress_preserves _ _ _ _ _
  · exact Preserves.refl _

theorem takeDown_preservesRest (s : State) (c : CardId) : PreservesRest s (s.takeDown c) := by
  unfold State.takeDown
  exact (preservesRest_of (cutTenure_preserves s c)).trans ((Keeps.preserves (dropStream_keeps _ c)).trans ((Keeps.preserves (clearClaimable_keeps _ c)).trans (updCard_preservesRest _ _ _)))

theorem passDone_tenure (s : State) (i : SlotId) (o : JobOutcome) (w5 w6 : Option Word) : (s.passDone i o w5 w6).tenure = s.tenure := by
  have h := congrArg State.tenure (passDone_frame s i o w5 w6); exact h

theorem drainCheck_tenure (s : State) : s.drainCheck.tenure = s.tenure := by
  have h := congrArg State.tenure (drainCheck_frame s); exact h

theorem post_tenure (s : State) (n : Notice) : (s.post n).tenure = s.tenure := (post_keeps (P := True) s n).tenure

theorem postJobDone_tenure (s : State) (i : SlotId) : (s.postJobDone i).tenure = s.tenure := (postJobDone_keeps (P := True) s i).tenure

theorem endWaiting_tenure (s : State) (i : SlotId) (o : JobOutcome) (w5 w6 : Option Word) : (s.endWaiting i o w5 w6).tenure = s.tenure := by
  unfold State.endWaiting; rw [postJobDone_tenure, passDone_tenure]

theorem endRemoved_tenure (s : State) (o : Option SlotId) : (s.endRemoved o).tenure = s.tenure := by
  unfold State.endRemoved; split
  · unfold State.endInProgress; rw [postJobDone_tenure, drainCheck_tenure, passDone_tenure]
  · rfl

theorem drainQueue_tenure (c : CardId) (q : List SlotId) : ∀ s : State, (s.drainQueue c q).tenure = s.tenure := by
  induction q with
  | nil => intro s; rfl
  | cons i q ih => intro s; unfold State.drainQueue; rw [ih, endWaiting_tenure]; rfl

theorem takeDown_tenure (s : State) (c : CardId) : (s.takeDown c).tenure = (s.cutTenure c).tenure := by
  unfold State.takeDown
  have h1 := (dropStream_keeps (P := True) (s.cutTenure c) c).tenure
  have h2 := (clearClaimable_keeps (P := True) ((s.cutTenure c).dropStream c) c).tenure
  show (((s.cutTenure c).dropStream c).clearClaimable c).tenure = _
  rw [h2, h1]

theorem card_cutTenure (s : State) (c d : CardId) : (s.cutTenure c).card d = s.card d := by
  unfold State.cutTenure; split
  · split <;> rfl
  · rfl

theorem clearClaimable_other (s : State) (c d : CardId) (h : d ≠ c) : (s.clearClaimable c).card d = s.card d := by
  unfold State.clearClaimable; split
  · rw [card_updCard_other _ _ _ _ h]; rfl
  · rfl

theorem takeDown_other (s : State) (c d : CardId) (h : d ≠ c) : Card.sameButMessages (s.card d) ((s.takeDown c).card d) := by
  unfold State.takeDown
  rw [card_updCard_other _ _ _ _ h]
  rw [clearClaimable_other _ _ _ h]
  have := dropStream_eqm (s.cutTenure c) c d h
  rwa [card_cutTenure] at this

theorem takeDown_same (s : State) (c : CardId) : ((s.takeDown c).card c).presence = (s.card c).presence ∧ ((s.takeDown c).card c).settle =
    (s.card c).settle
    ∧ ((s.takeDown c).card c).queue = (s.card c).queue ∧ ((s.takeDown c).card c).seq = (s.card c).seq.toIdle ∧
        ((s.takeDown c).card c).endReport = none
    ∧ ((s.takeDown c).card c).detector = .disarmed ∧ ((s.takeDown c).card c).crst = false ∧ ((s.takeDown c).card c).attnReq = none ∧
        ((s.takeDown c).card c).jobReq = none := by
  unfold State.takeDown
  rw [card_updCard_same, card_clearClaimable]
  obtain ⟨g, x, hg⟩ := card_dropStream (s.cutTenure c) c
  rw [hg, card_cutTenure]
  exact ⟨rfl, rfl, rfl, rfl, rfl, rfl, rfl, rfl, rfl⟩

/-- What a removal can do (R147–R149). -/
theorem remove_preserves (s : State) (c : CardId) (hin : (s.card c).presence.inService = true) : StepPreserves s (s.remove c) := by
  have hF : PreservesRest s (s.remove c) := by
    unfold State.remove
    exact (updCard_preservesRest _ _ _).trans ((takeDown_preservesRest _ _).trans ((endRemoved_preservesRest _ _).trans ((drainQueue_preservesRest _ _ _).trans (post_preserves _ _))))
  refine ⟨hF.memOk, hF.ringOk, hF.causesOk, hF.runOk, fun _ g => ⟨fun d => ?_, fun t ht hm => ?_⟩⟩
  · unfold State.remove
    simp only [card_post]
    by_cases hd : d = c
    · subst hd
      generalize hu : ((s.updCard d fun k => { k with presence := .absent }).takeDown d) = u
      have e := takeDown_same (s.updCard d fun k => { k with presence := .absent }) d
      rw [hu] at e
      obtain ⟨e1, e2, e3, e4, e5, e6, e7, e8, e9⟩ := e
      obtain ⟨gg, n, hv⟩ := endRemoved_eqm u (s.card d).activeSlot d
      obtain ⟨r, n2, hr, h1, h2⟩ := drainQueue_same d (s.card d).queue (u.endRemoved (s.card d).activeSlot)
      rw [hr, hv]
      have hq : r = [] := by
        by_cases hq : (s.card d).queue = []
        · rw [h1 hq, hv]; show (u.card d).queue = []; rw [e3, card_updCard_same]; exact hq
        · exact h2 hq
      rw [card_updCard_same] at e1 e2 e4
      have hst : (s.card d).settle = 0 := (g.1 d).2.2.1.1 (by intro hx; rw [hx] at hin; exact absurd hin (by decide))
      refine ⟨fun _ => ⟨hq, ?_, e6, e7, e8, e9⟩, fun hx => absurd e6 hx, ⟨fun _ => e2.trans hst, fun hx => ?_⟩, ⟨fun _ => ?_, fun hx => ?_, fun hx => ?_⟩, ⟨fun x hx => ?_, fun x hx => ?_⟩⟩
      · unfold Card.activeSlot; simp only [e4, e5]; rfl
      · exact absurd (show (u.card d).presence = .settling from hx) (by rw [e1]; simp)
      · show (u.card d).seq.phase = .idle; rw [e4]; rfl
      · exact absurd (show (u.card d).jobReq.isSome = true from hx) (by rw [e9]; decide)
      · exact absurd (show (u.card d).crst = true from hx) (by rw [e7]; decide)
      · exact absurd (show (u.card d).attnReq = some x from hx) (by rw [e8]; simp)
      · exact absurd (show (u.card d).jobReq = some x from hx) (by rw [e9]; simp)
    · have e0 := card_updCard_other s c d (fun k => { k with presence := .absent }) hd
      have e1 := takeDown_other (s.updCard c fun k => { k with presence := .absent }) c d hd
      rw [e0] at e1
      have e2 := endRemoved_eqm ((s.updCard c fun k => { k with presence := .absent }).takeDown c) (s.card c).activeSlot d
      have e3 := drainQueue_other c (s.card c).queue d hd (((s.updCard c fun k => { k with presence := .absent }).takeDown c).endRemoved (s.card c).activeSlot)
      exact ((e1.trans e2).trans e3).ok (g.1 d)
  · unfold State.remove at ht ⊢
    simp only [card_post] at ht ⊢
    rw [post_tenure, drainQueue_tenure, endRemoved_tenure, takeDown_tenure] at ht
    unfold State.cutTenure at ht
    have hs : (s.updCard c fun k => { k with presence := .absent }).tenure = s.tenure := rfl
    rw [hs] at ht
    cases hten : s.tenure with
    | none => rw [hten] at ht; simp only at ht; rw [hs, hten] at ht; exact absurd ht (by simp)
    | some x =>
      rw [hten] at ht
      simp only at ht
      by_cases hx : x.req.card = c
      · rw [if_pos hx] at ht
        injection ht with ht
        rw [← ht] at hm; exact absurd rfl hm
      · rw [if_neg hx, hs, hten] at ht
        injection ht with ht
        subst ht
        have h1 := g.2 x hten hm
        have e0 := card_updCard_other s c x.req.card (fun k => { k with presence := .absent }) hx
        have e1 := takeDown_other (s.updCard c fun k => { k with presence := .absent }) c x.req.card hx
        rw [e0] at e1
        have e2 := endRemoved_eqm ((s.updCard c fun k => { k with presence := .absent }).takeDown c) (s.card c).activeSlot x.req.card
        have e3 := drainQueue_other c (s.card c).queue x.req.card hx (((s.updCard c fun k => { k with presence := .absent }).takeDown c).endRemoved (s.card c).activeSlot)
        obtain ⟨a, b, he⟩ := (e1.trans e2).trans e3
        rw [he]; exact h1

theorem takeSample_preserves (s : State) (c : CardId) (p : Bool) : StepPreserves s (s.sample c p) := by
  unfold State.sample
  split
  · rename_i h
    refine updCard_preserves _ _ _ (fun _ g => ?_) fun _ _ hx => by rw [h] at hx; exact absurd hx (by decide)
    obtain ⟨k1, k2, k3, k4, k5⟩ := g.1 c
    exact ⟨fun _ => k1 (by rw [h]; rfl), fun hx => absurd (k1 (by rw [h]; rfl)).2.2.1 hx, ⟨fun hx => absurd rfl hx, fun _ => ⟨by simp, by simp [Config.settleFull]⟩⟩, k4, k5⟩
  · exact Preserves.refl s
  · rename_i h
    split
    · exact arrive_preserves s c h
    · rename_i hn
      refine updCard_preserves _ _ _ (fun _ g => ?_) fun _ _ hx => Or.inl hx
      obtain ⟨k1, k2, k3, k4, k5⟩ := g.1 c
      refine ⟨k1, k2, ⟨fun hx => absurd h hx, fun _ => ⟨by simp, ?_⟩⟩, k4, k5⟩
      simp only; omega
  · rename_i h
    refine updCard_preserves _ _ _ (fun _ g => ?_) fun _ _ hx => by rw [h] at hx; exact absurd hx (by decide)
    obtain ⟨k1, k2, k3, k4, k5⟩ := g.1 c
    exact ⟨fun _ => k1 (by rw [h]; rfl), fun hx => absurd (k1 (by rw [h]; rfl)).2.2.1 hx, ⟨fun _ => rfl, fun hx => absurd hx (by simp)⟩, k4, k5⟩
  · exact Preserves.refl s
  · exact Preserves.refl s
  · rename_i h; exact remove_preserves s c (by rw [h]; rfl)
  · rename_i h; exact remove_preserves s c (by rw [h]; rfl)

theorem presenceSample_preserves (s : State) (c : CardId) (p : Bool) : StepPreserves s (s.presenceSample c p) := by
  unfold State.presenceSample; split
  · exact Preserves.refl s
  · exact takeSample_preserves _ _ _

theorem cardArrival_preserves (s : State) (c : CardId) : StepPreserves s (s.cardArrival c) := by
  unfold State.cardArrival; split
  · rename_i h; simp only [Bool.and_eq_true, decide_eq_true_eq] at h; exact arrive_preserves _ _ h.1.2
  · exact Preserves.refl s

theorem countAllClaimable_keeps {P : Prop} (cs : List CardId) : ∀ s : State, Keeps P s (s.countAllClaimable cs) := by
  induction cs with
  | nil => intro s; exact Keeps.refl s
  | cons c cs ih =>
    intro s; unfold State.countAllClaimable
    split
    · exact (countUnclaimed_keeps s c).trans (ih _)
    · exact ih _

theorem writeResetOutcomes_keeps {P : Prop} (is : List SlotId) : ∀ s : State, Keeps P s (s.writeResetOutcomes is) := by
  induction is with
  | nil => intro s; exact Keeps.refl s
  | cons i is ih =>
    intro s; unfold State.writeResetOutcomes
    split
    all_goals first | exact (setSlotWord_keeps s i 4 _ (by decide) (by decide)).trans (ih _) | exact ih _

theorem slot_tab (s : State) (f : SlotId → SlotCtl) (i : SlotId) : ({ s with slots := tab f } : State).slot i = f i := get_tab f i

theorem card_tab (s : State) (f : CardId → Card) (i : CardId) : ({ s with cards := tab f } : State).card i = f i := get_tab f i

theorem engineReset_slot_cause (x : SlotCtl)
    (h : x.cause.isSome = true ↔ x.state = .cancelling) : x.engineReset.cause.isSome = true ↔ x.engineReset.state = .cancelling := by
  unfold SlotCtl.engineReset
  cases hx : x.state <;> simp_all

theorem engineReset_card_ok (k : Card) (c : CardId) : k.engineReset.ok c := by
  refine ⟨fun _ => ⟨rfl, rfl, rfl, rfl, rfl, rfl⟩, fun hx => absurd rfl hx, ⟨fun _ => rfl, fun hx => absurd hx (by simp [Card.engineReset])⟩, ⟨fun _ => rfl, fun hx => ?_, fun hx => ?_⟩, ⟨fun r hr => ?_, fun r hr => ?_⟩⟩
  · exact absurd (show (none : Option Request).isSome = true from hx) (by simp)
  · exact absurd (show false = true from hx) (by simp)
  · exact absurd (show none = some r from hr) (by simp)
  · exact absurd (show none = some r from hr) (by simp)

theorem resetPin_of_open {s : State} (g : s.runOk) (hcl : s.engine.closed = false) : s.resetPin = false := by
  cases hp : s.resetPin with
  | false => rfl
  | true => have := g.2.2.1 hp; rw [this] at hcl; exact absurd hcl (by decide)

theorem bclr_of_open {s : State} (g : s.runOk) (hcl : s.engine.closed = false) : s.bclr = false := by
  cases hp : s.bclr with
  | false => rfl
  | true => have := (g.2.2.2 hp).1; rw [this] at hcl; exact absurd hcl (by decide)

/-- What an engine reset makes of `t`, the state with its outcomes written, beginning from `s`. -/
def engineResetFrom (s t : State) : State :=
  { t with
    engine := .resetting, ctrlRun := false, ctrlPresence := false, ctrlInterrupt := false
    bclr := s.tenure.isNone, tenure := s.tenure.map Tenure.cut, attnPtr := 7, jobPtr := 7
    cards := tab fun c => (t.card c).engineReset
    pageHolder := tab fun _ => none, breach := tab fun _ => none, leaseWaiting := []
    slots := tab fun i => (t.slot i).engineReset, acceptOrder := []
    produced := 0, consumed := 0, lost := 0
    mem := zeroRange t.mem (noticeAddr 0 0) Config.stepBase }

theorem engineReset_eq (s : State) : s.engineReset = engineResetFrom s ((s.countAllClaimable allCards).writeResetOutcomes allSlots) := rfl

/-- What an engine reset can do (R207–R210). -/
theorem engineReset_preserves (s : State) (hcl : s.engine.closed = false) : StepPreserves s s.engineReset := by
  have h1 : Keeps True s ((s.countAllClaimable allCards).writeResetOutcomes allSlots) := (countAllClaimable_keeps allCards s).trans (writeResetOutcomes_keeps allSlots _)
  rw [engineReset_eq]
  generalize (s.countAllClaimable allCards).writeResetOutcomes allSlots = t at h1
  refine ⟨fun g => ?_, fun _ => ?_, fun g i => ?_, fun g => ?_, fun _ g => ⟨fun c => ?_, fun u ht hm => ?_⟩⟩
  · exact zeroRange_wf _ _ _ (h1.memOk g)
  · show ((0 : Word) - 0).toNat ≤ 64; decide
  · have e : (engineResetFrom s t).slot i = (t.slot i).engineReset := slot_tab t _ i
    rw [e, h1.slot]; exact engineReset_slot_cause _ (g i)
  · have hr : s.resetPin = false := resetPin_of_open g hcl
    have e : (engineResetFrom s t).resetPin = false := h1.resetPin.trans hr
    refine ⟨fun hx => absurd (show EngineState.resetting = EngineState.running from hx) (by decide), fun _ => rfl, fun hx => ?_, fun _ => ⟨rfl, e⟩⟩
    rw [e] at hx; exact absurd hx (by decide)
  · have e : (engineResetFrom s t).card c = (t.card c).engineReset := card_tab t _ c
    rw [e]; exact engineReset_card_ok _ _
  · have ht' : s.tenure.map Tenure.cut = some u := ht
    cases hs : s.tenure with
    | none => rw [hs] at ht'; exact absurd ht' (by simp)
    | some x =>
      rw [hs] at ht'
      injection ht' with ht'
      rw [← ht'] at hm; exact absurd rfl hm

theorem engineLevels_preserves (s : State) (r p i : Bool) (e : EngineState) (h : s.runOk → ({ s with ctrlRun := r, ctrlPresence := p, ctrlInterrupt := i, engine := e } : State).runOk) :
    StepPreserves s { s with ctrlRun := r, ctrlPresence := p, ctrlInterrupt := i, engine := e } := ⟨id, id, id, h, fun _ => id⟩

theorem takeLevels_preserves (s : State) (w : Word) (hcl : s.engine.closed = false) : StepPreserves s (s.takeLevels w) := by
  unfold State.takeLevels
  refine engineLevels_preserves s _ _ _ _ fun g => ?_
  have hr := resetPin_of_open g hcl
  have hb := bclr_of_open g hcl
  obtain ⟨g1, g2, g3, g4⟩ := g
  refine ⟨?_, ?_, fun hx => by rw [show s.resetPin = true from hx] at hr; exact absurd hr (by decide), fun hx => by rw [show s.bclr = true from hx] at hb; exact absurd hb (by decide)⟩
  · clear g3 g4 hr hb
    simp only [State.runChange]
    cases hw : s.ctrlRun <;> cases hb : ctrlRunBit w <;> cases he : s.engine <;> simp_all
    all_goals (split <;> simp)
  · clear g3 g4 hr hb
    simp only [State.runChange]
    cases hw : s.ctrlRun <;> cases hb : ctrlRunBit w <;> cases he : s.engine <;> simp_all [EngineState.closed]

theorem takeResume_preserves (s : State) : StepPreserves s s.takeResume := by
  unfold State.takeResume
  split
  · rename_i hs
    split
    · exact countRefusal_preserves s
    · refine ⟨id, id, id, fun g => ?_, fun _ => id⟩
      have hcl : s.engine.closed = false := by rw [hs]; rfl
      have hr := resetPin_of_open g hcl
      have hb := bclr_of_open g hcl
      refine ⟨?_, ?_, fun hx => by rw [show s.resetPin = true from hx] at hr; exact absurd hr (by decide), fun hx => by rw [show s.bclr = true from hx] at hb; exact absurd hb (by decide)⟩
      · simp only; intro hx; by_contra hn
        simp only [Bool.not_eq_true] at hn
        rw [hn] at hx; simp at hx; split at hx <;> simp at hx
      · simp only; intro hx
        cases hr2 : s.ctrlRun
        · rfl
        · rw [hr2] at hx; simp at hx
  · exact Preserves.refl s

/-- What a CTRL write can do (R198). -/
theorem writeCtrl_preserves (s : State) (w : Word) : StepPreserves s (s.writeCtrl w) := by
  unfold State.writeCtrl
  split
  · exact Preserves.refl s
  · rename_i h
    have hc : s.engine.closed = false := by simpa using h
    split
    · exact engineReset_preserves s hc
    · split
      · exact (takeLevels_preserves s w hc).trans (takeResume_preserves _)
      · exact takeLevels_preserves s w hc

theorem standstillCard_eqm (s : State) (c : CardId) : Card.sameButMessages (s.card c) (s.standstillCard c) := by
  unfold State.standstillCard
  split
  · split
    · exact ⟨_, _, rfl⟩
    · exact Card.sameButMessages.refl _
  · exact Card.sameButMessages.refl _

/-- What the entry of STANDSTILL can do (R204). -/
theorem enterStandstill_preserves (s : State) (h : s.engine = .running ∨ s.engine = .draining) : StepPreserves s s.enterStandstill := by
  unfold State.enterStandstill
  simp only
  refine Preserves.trans ?_ (post_preserves _ _)
  have es (i : SlotId) : State.slot { s with engine := .standstill, slots := tab fun i => (s.slot i).standstill, cards := tab fun c => s.standstillCard c } i = (s.slot i).standstill := by unfold State.slot; exact get_tab _ i
  have ec (c : CardId) : State.card { s with engine := .standstill, slots := tab fun i => (s.slot i).standstill, cards := tab fun c => s.standstillCard c } c = s.standstillCard c := by unfold State.card; exact get_tab _ c
  have hcl : s.engine.closed = false := by rcases h with h | h <;> rw [h] <;> rfl
  refine ⟨id, id, fun g i => ?_, fun g => ?_, fun _ g => ⟨fun c => ?_, fun t ht hm => ?_⟩⟩
  · rw [es]
    have := g i
    unfold SlotCtl.standstill
    split
    · simp
    · exact this
  · have hr := resetPin_of_open g hcl
    have hb := bclr_of_open g hcl
    exact ⟨fun hx => by simp at hx, fun hx => by simp at hx, fun hx => by rw [show s.resetPin = true from hx] at hr; exact absurd hr (by decide), fun hx => by rw [show s.bclr = true from hx] at hb; exact absurd hb (by decide)⟩
  · rw [ec]
    exact (standstillCard_eqm s c).ok (g.1 c)
  · rw [ec]
    obtain ⟨a, b, he⟩ := standstillCard_eqm s t.req.card
    rw [he]; exact g.2 t ht hm

theorem tick_states {s : State} (h : s.tickCounts = true) : s.engine = .running ∨ s.engine = .draining := by
  unfold State.tickCounts at h; simp at h; exact h.2

theorem tally_preserves (s : State) (w : Word) : StepPreserves s { s with tally := w } := inert_stepPreserves rfl rfl rfl rfl rfl rfl rfl id

theorem presenceTick_preserves (s : State) : StepPreserves s s.presenceTick := by
  unfold State.presenceTick
  split
  · rename_i h
    split
    · exact (tally_preserves s 0).trans (enterStandstill_preserves _ (tick_states h))
    · exact tally_preserves s _
  · exact Preserves.refl s

theorem standstillEntry_preserves (s : State) : StepPreserves s s.standstillEntry := by
  unfold State.standstillEntry
  split
  · rename_i h
    simp only [Bool.and_eq_true] at h
    exact (tally_preserves s 0).trans (enterStandstill_preserves _ (tick_states h.1))
  · exact Preserves.refl s

theorem msClockTick_preserves (s : State) : StepPreserves s s.msClockTick := by
  unfold State.msClockTick; split
  · exact Preserves.refl s
  · exact inert_stepPreserves rfl rfl rfl rfl rfl rfl rfl id

theorem reset_card_ok (c : CardId) (l : Bool) : ({ Card.reset with atnLine := l } : Card).ok c :=
  ⟨fun _ => ⟨rfl, rfl, rfl, rfl, rfl, rfl⟩, fun hx => absurd rfl hx, ⟨fun _ => rfl, fun hx => absurd hx (by simp [Card.reset])⟩, ⟨fun _ => rfl, fun hx => absurd hx (by simp [Card.reset]), fun hx => absurd hx (by simp [Card.reset])⟩, ⟨fun r hr => absurd hr (by simp [Card.reset]), fun r hr => absurd hr (by simp [Card.reset])⟩⟩

theorem slot_replicate (i : SlotId) : (Vector.replicate 32 SlotCtl.reset).get i = SlotCtl.reset := by
  simp [Vector.get_eq_getElem]

theorem hardwareReset_preserves (s : State) : StepPreserves s s.hardwareReset := by
  refine ⟨id, fun _ => ?_, fun _ i => ?_, fun _ => ⟨fun hx => absurd hx (by simp [State.hardwareReset, State.reset]), fun _ => rfl, fun _ => rfl, fun hx => absurd (show false = true from hx) (by decide)⟩, fun _ _ => ⟨fun c => ?_, fun t ht => ?_⟩⟩
  · show ((0 : Word) - 0).toNat ≤ 64; decide
  · have e : s.hardwareReset.slot i = SlotCtl.reset := by unfold State.hardwareReset State.reset State.slot; exact slot_replicate i
    rw [e]; decide
  · have e : s.hardwareReset.card c = { Card.reset with atnLine := (s.card c).atnLine } := by unfold State.hardwareReset State.card; exact get_tab _ c
    rw [e]
    exact reset_card_ok _ _
  · exact absurd (show none = some t from ht) (by simp)

theorem initialMemory_wf : memoryWf (writeWord (writeWord [] 0 Config.signature) 2 Config.revision) = true := by
  exact writeWord_wf _ _ _ (by decide) (writeWord_wf _ _ _ (by decide) rfl)

theorem resetRelease_preserves (s : State) : StepPreserves s s.resetRelease := by
  unfold State.resetRelease
  split
  · rename_i h
    refine ⟨fun _ => initialMemory_wf, id, id, fun g => ?_, fun _ => id⟩
    have := g.2.1 (Or.inr (Or.inr (Or.inr (g.2.2.1 h))))
    exact ⟨fun hx => absurd (show EngineState.initializing = EngineState.running from hx) (by decide), fun _ => this, fun hx => absurd (show false = true from hx) (by decide), fun _ => ⟨rfl, rfl⟩⟩
  · exact Preserves.refl s

theorem bclrPulseEnd_preserves (s : State) : StepPreserves s s.bclrPulseEnd := by
  unfold State.bclrPulseEnd
  split
  · rename_i h
    simp only [Bool.and_eq_true] at h
    refine ⟨id, id, id, fun g => ?_, fun _ => id⟩
    have hr := (g.2.2.2 h.1).2
    refine ⟨fun hx => by simp at hx, fun _ => ?_, fun hx => by rw [show s.resetPin = true from hx] at hr; exact absurd hr (by decide), fun hx => by simp at hx⟩
    refine g.2.1 ?_
    have := h.2
    cases he : s.engine <;> rw [he] at this <;> simp_all [EngineState.closed]
  · exact Preserves.refl s

theorem reportPageWrite_preserves (s : State) (p : PageId) : StepPreserves s (s.reportPageWrite p) := by
  unfold State.reportPageWrite
  split
  · split
    · exact ⟨id, id, id, id, fun _ => id⟩
    · exact Preserves.refl s
  · exact Preserves.refl s

theorem takeConsumed_preserves (s : State) (v : Word) : StepPreserves s (s.takeConsumed v) := by
  unfold State.takeConsumed
  split
  · rename_i h
    refine ⟨id, fun g => ?_, id, id, fun _ => id⟩
    unfold State.ringOk State.inList Config.ringSize at *
    simp only
    bv_omega
  · exact countRefusal_preserves s

theorem takeLost_preserves (s : State) (v : Word) : StepPreserves s (s.takeLost v) := by
  unfold State.takeLost
  split
  · exact ⟨id, id, id, id, fun _ => id⟩
  · exact countRefusal_preserves s

theorem hostWord_preserves (s : State) (a : WordAddr) (v : Word) : StepPreserves s (s.setWord (2 * a.toNat) v) :=
  mem_preserves s _ fun g => writeWord_wf _ _ _ (by have := a.isLt; omega) g

theorem slotRequest_preserves (s : State) (i : SlotId) (v : Word) : StepPreserves s (s.slotRequest i v) := by
  unfold State.slotRequest
  split
  · exact requestFile_preserves s i
  · split
    · exact requestCancel_preserves s i
    · split
      · exact requestRelease_preserves s i
      · exact refuseRequest_preserves _ _ _ _

theorem judgeWrite_preserves (s : State) (a : WordAddr) (v : Word) : StepPreserves s (s.judgeWrite a v) := by
  unfold State.judgeWrite
  split
  · exact hostWord_preserves s a v
  · exact (hostWord_preserves s a v).trans (reportPageWrite_preserves _ _)
  · exact discard_preserves _ _
  · exact slotRequest_preserves _ _ _
  · exact tally_preserves _ _
  · exact takeConsumed_preserves _ _
  · exact takeLost_preserves _ _

end Sys2Proof.Machine
end

