-- ==== Sys2Proof/Laws/Slots.lean ====
section
/-! SUPPORT. Laws of slots: filing checks, the words and frames of a slot's end, the ownership map, engine reset's writes, and the taking of
an end report. -/

namespace Sys2Proof.Machine

theorem stepKindOf_none_iff (n : Nat) : (stepKindOf n = none ↔ n = 0 ∨ 10 ≤ n) := by
  unfold stepKindOf
  split_ifs <;> simp_all
  omega

theorem invalid_none_iff (r : StepRecord) (k : StepKind) (h : r.kind = some k) : r.invalid = none ↔ r.fieldsOk k = true ∧
    (k.isStream = true → r.pagesOk = true ∧ r.wordsOk = true) := by
  unfold StepRecord.invalid
  rw [h]
  simp only
  cases r.fieldsOk k <;> cases k.isStream <;> cases r.pagesOk <;> cases r.wordsOk <;> simp

theorem word_ne_zero_iff (w : Word) : (w ≠ 0) ↔ 1 ≤ w.toNat := by
  constructor
  · intro h
    by_contra hn
    exact h (BitVec.eq_of_toNat_eq (by show w.toNat = 0; omega))
  · rintro h rfl
    exact absurd h (by decide)

theorem stepsInvalid_none (s : State) (a : Nat) : ∀ (m idx : Nat), (∀ k, idx ≤ k → k < idx + m → (s.readRecord (a + 8 * k)).invalid = none) →
    s.stepsInvalid a idx m = none := by
  intro m
  induction m with
  | zero => intro idx _; rfl
  | succ m ih =>
    intro idx h
    unfold State.stepsInvalid
    rw [h idx le_rfl (by omega)]
    exact ih (idx + 1) fun k h1 h2 => h k (by omega) (by omega)

theorem stepsInvalid_some (s : State) (a : Nat) (why : Reason) (k : Nat) (hk : (s.readRecord (a + 8 * k)).invalid = some why) : ∀
    (m idx : Nat), idx ≤ k → k < idx + m →
    (∀ j, idx ≤ j → j < k → (s.readRecord (a + 8 * j)).invalid = none) → s.stepsInvalid a idx m = some (why, k) := by
  intro m
  induction m with
  | zero => intro idx h1 h2; omega
  | succ m ih =>
    intro idx h1 h2 h
    unfold State.stepsInvalid
    by_cases he : idx = k
    · subst he; rw [hk]
    · rw [h idx le_rfl (by omega)]
      exact ih (idx + 1) (by omega) (by omega) fun j h3 h4 => h j (by omega) h4

theorem slotWord_setSlotWord_ite (s : State) (i j : SlotId) (n m : Nat) (v : Word) (hn : n < 16) (hm : m < 16) :
    (s.setSlotWord i n v).slotWord j m = if j = i ∧ m = n then v else s.slotWord j m := by
  unfold State.slotWord State.setSlotWord State.word State.setWord
  show readWord (writeWord s.mem (slotAddr i n) v) (slotAddr j m) = _
  split
  · rename_i h; obtain ⟨rfl, rfl⟩ := h; exact readWord_writeWord_same _ _ _
  · rename_i h
    refine readWord_writeWord_other _ _ _ _ ?_
    have : slotAddr j m ≠ slotAddr i n := by
      intro he; apply h
      simp only [slotAddr, Config.slotBase] at he
      exact ⟨Fin.ext (by omega), by omega⟩
    simp only [slotAddr, Config.slotBase] at *; omega

theorem slotWord_passDone (s : State) (i j : SlotId) (m : Nat) (o : JobOutcome) (w5 w6 : Option Word) (hm : m < 16) :
    (s.passDone i o w5 w6).slotWord j m =
      if j = i then
        if m = 4 then o.code else if m = 5 then w5.getD (s.slotWord i 5) else if m = 6 then w6.getD (s.slotWord i 6)
        else s.slotWord i m
      else s.slotWord j m := by
  have e : (s.passDone i o w5 w6).slotWord j m = (s.passWords i o w5 w6).slotWord j m := by
    unfold State.slotWord State.word; rw [passDone_mem]
  rw [e]
  unfold State.passWords
  rw [slotWord_setSlotWord_ite _ _ _ _ _ _ (by omega) hm]
  have h5 (t : State) : (t.setSlotWord? i 5 w5).slotWord j m = if j = i ∧ m = 5 then w5.getD (t.slotWord i 5) else t.slotWord j m := by
    cases w5 with
    | none => simp only [State.setSlotWord?, Option.getD_none]; split <;> simp_all
    | some v => simp only [State.setSlotWord?, Option.getD_some]; exact slotWord_setSlotWord_ite _ _ _ _ _ _ (by omega) hm
  have h6 (t : State) (m : Nat) (hm : m < 16) : (t.setSlotWord? i 6 w6).slotWord j m = if j = i ∧ m = 6 then w6.getD (t.slotWord i 6) else t.slotWord j m := by
    cases w6 with
    | none => simp only [State.setSlotWord?, Option.getD_none]; split <;> simp_all
    | some v => simp only [State.setSlotWord?, Option.getD_some]; exact slotWord_setSlotWord_ite _ _ _ _ _ _ (by omega) hm
  rw [h5]
  by_cases hj : j = i
  · subst hj
    rw [h6 _ m hm, h6 _ 5 (by omega)]
    simp only [true_and, if_true]
    split_ifs <;> first | rfl | omega
  · simp only [hj, false_and, if_false]
    rw [h6 _ m hm]; simp [hj]

theorem passDone_bytes (s : State) (i : SlotId) (o : JobOutcome) (w5 w6 : Option Word) : s.sameBytesBut (s.passDone i o w5 w6)
    (slotAddr i 4) (slotAddr i 7) := by
  intro a ha
  rw [passDone_mem]
  unfold State.passWords
  have h (t : State) (n : Nat) (v : Word) (h4 : 4 ≤ n) (h6 : n ≤ 6) : readByte (t.setSlotWord i n v).mem a = readByte t.mem a :=
    readByte_writeWord_other _ _ _ _ (by simp only [slotAddr, Config.slotBase] at *; omega)
  have h' (t : State) (n : Nat) (v : Option Word) (h4 : 4 ≤ n) (h6 : n ≤ 6) : readByte (t.setSlotWord? i n v).mem a = readByte t.mem a := by
    cases v with
    | none => rfl
    | some v => exact h t n v h4 h6
  rw [h _ 4 _ (by decide) (by decide), h' _ 5 _ (by decide) (by decide), h' _ 6 _ (by decide) (by decide)]

/-- The passage to DONE, as statements say it. -/
theorem passDone_endsSlot (s : State) (i : SlotId) (o : JobOutcome) (w5 w6 : Option Word) :
    s.endsSlot (s.passDone i o w5 w6) i o (w5.getD (s.slotWord i 5)) (w6.getD (s.slotWord i 6)) := by
  refine ⟨by rw [passDone_slot, if_pos rfl], fun j hj => by rw [passDone_slot, if_neg hj], ?_, ?_, ?_, passDone_bytes _ _ _ _ _,
    passDone_acceptOrder _ _ _ _ _, fun d => ?_, passDone_frame _ _ _ _ _⟩
  · rw [slotWord_passDone _ _ _ _ _ _ _ (by decide), if_pos rfl, if_pos rfl]
  · rw [slotWord_passDone _ _ _ _ _ _ _ (by decide), if_pos rfl, if_neg (by decide), if_pos rfl]
  · rw [slotWord_passDone _ _ _ _ _ _ _ (by decide), if_pos rfl, if_neg (by decide), if_neg (by decide), if_pos rfl]
  · have h := passDone_card_same s i o w5 w6 d
    rw [h]

/-- The JOB_DONE notice of a slot that has passed to DONE, as statements say it. -/
theorem postJobDone_passed (s u : State) (i : SlotId) (o : JobOutcome) (w5 w6 : Word) (h1 : u.slotWord i 1 = s.slotWord i 1)
    (h7 : u.slotWord i 7 = s.slotWord i 7) (h4 : u.slotWord i 4 = o.code) (h5 : u.slotWord i 5 = w5) (h6 : u.slotWord i 6 = w6) :
    u.postJobDone i = s.notifyDone u i o w5 w6 := by
  unfold State.postJobDone State.notifyDone State.slotCard
  rw [h1, h7, h4, h5, h6]

theorem endWaiting_eq (s : State) (i : SlotId) (o : JobOutcome) (w5 w6 : Option Word) :
    s.endWaiting i o w5 w6 = s.notifyDone (s.passDone i o w5 w6) i o (w5.getD (s.slotWord i 5)) (w6.getD (s.slotWord i 6)) := by
  refine postJobDone_passed s _ i o _ _ ?_ ?_ ?_ ?_ ?_ <;> rw [slotWord_passDone _ _ _ _ _ _ _ (by decide)] <;> simp

theorem open_access (s : State) (a : Nat) (f : State → State) (hc : s.engine.closed = false) : s.hostAccess a f = f s := by
  unfold State.hostAccess
  cases he : s.engine <;> first | rfl | (rw [he] at hc; exact absurd hc (by decide))

theorem next_congr {s t : State} (h : s = t) : (Host.Outcome.next s : Host.Outcome State Fault Refusal) = .next t := by rw [h]

theorem classOf_slot (s : State) (a : WordAddr) (i : SlotId) (w : Nat) (hw : w < 16)
    (h : 2 * a.toNat = slotAddr i w) : s.classOf a = s.slotClassOf i w := by
  have := i.isLt
  simp only [slotAddr, Config.slotBase] at h
  unfold State.classOf
  simp only
  rw [if_neg (by omega), dif_pos (by omega)]
  have e1 : (a.toNat - 16) / 16 = i.val := by omega
  have e2 : a.toNat % 16 = w := by omega
  simp only [e1, e2, Fin.eta]

theorem classOf_profile (s : State) (a : WordAddr) (c : CardId) (w : Nat) (hw : w < 16)
    (h : 2 * a.toNat = profileAddr c w) : s.classOf a = if w < 8 then .hostOwned else .partOwned := by
  have := c.isLt
  simp only [profileAddr, Config.profileBase] at h
  unfold State.classOf
  simp only
  rw [if_neg (by omega), dif_neg (by omega), if_pos (by omega)]
  have e2 : a.toNat % 16 = w := by omega
  rw [e2]

theorem classOf_step (s : State) (a : WordAddr) (h : 0x0920 ≤ 2 * a.toNat) (h2 : 2 * a.toNat < 0x4000) : s.classOf a = .hostOwned := by
  unfold State.classOf
  simp only
  rw [if_neg (by omega), dif_neg (by omega), if_neg (by omega), if_neg (by omega), if_pos (by omega)]

theorem classOf_page (s : State) (a : WordAddr) (h2 : 0x4000 ≤ 2 * a.toNat) : s.classOf a = .dataPage (pageOf (2 * a.toNat)) := by
  unfold State.classOf
  simp only
  rw [if_neg (by omega), dif_neg (by omega), if_neg (by omega), if_neg (by omega), if_neg (by omega)]

theorem reportPageWrite_frame (s : State) (p : PageId) : { s.reportPageWrite p with breach := s.breach } = s := by
  unfold State.reportPageWrite; split
  · split <;> rfl
  · rfl

theorem engineCode_cases (e : EngineState) : e.code = 0 ∨ e.code = 1 ∨ e.code = 2 ∨ e.code = 3 ∨ e.code = 4 ∨ e.code = 5 := by cases e <;> simp [EngineState.code]

theorem closed_of_open (e : EngineState) (h : e = .halted ∨ e = .draining ∨ e = .standstill ∨ e = .running) : e.closed = false := by
  rcases h with h | h | h | h <;> rw [h] <;> rfl

theorem writeCtrl_levels (s : State) (w : Word) (hc : s.engine.closed = false) (h8 : w.getLsbD 8 = false) (h9 : w.getLsbD 9 = false) :
    s.writeCtrl w = s.takeLevels w := by
  unfold State.writeCtrl ctrlResetBit ctrlResumeBit bitOf
  rw [hc, h8, h9]; rfl

theorem anyInProgress_iff (s : State) : s.anyInProgress = true ↔ ∃ i, (s.slot i).state = .active ∨ (s.slot i).state = .cancelling := by
  unfold State.anyInProgress allSlots
  simp only [List.any_eq_true, List.mem_finRange, true_and]
  constructor
  · rintro ⟨i, hi⟩; refine ⟨i, ?_⟩
    cases h : (s.slot i).state <;> rw [h] at hi <;> simp_all [SlotState.inProgress]
  · rintro ⟨i, hi⟩; refine ⟨i, ?_⟩
    rcases hi with h | h <;> rw [h] <;> rfl

theorem anyInProgress_false (s : State) (h : ∀ i, (s.slot i).state ≠ .active ∧ (s.slot i).state ≠ .cancelling) : s.anyInProgress = false := by
  cases he : s.anyInProgress
  · rfl
  · obtain ⟨i, hi⟩ := (anyInProgress_iff s).1 he
    rcases hi with hi | hi
    · exact absurd hi (h i).1
    · exact absurd hi (h i).2

theorem writeResetOutcomes_bytes (is : List SlotId) : ∀ s : State, ∀ a, (∀ i, a < slotAddr i 4 ∨ slotAddr i 5 ≤ a) → readByte
    (s.writeResetOutcomes is).mem a = readByte s.mem a := by
  induction is with
  | nil => intro s a _; rfl
  | cons i is ih =>
    intro s a ha; unfold State.writeResetOutcomes
    rw [ih _ a ha]
    split
    all_goals first | rfl | exact readByte_writeWord_other s.mem (slotAddr i 4) a JobOutcome.engineReset.code (by have := ha i; simp only [slotAddr] at *; omega)

theorem countAllClaimable_bytes (cs : List CardId) : ∀ s : State, ∀ a, (∀ i, a < profileAddr i 14 ∨ profileAddr i 15 ≤ a) → readByte
    (s.countAllClaimable cs).mem a = readByte s.mem a := by
  induction cs with
  | nil => intro s a _; rfl
  | cons i is ih =>
    intro s a ha; unfold State.countAllClaimable
    rw [ih _ a ha]
    split
    · exact readByte_writeWord_other _ _ _ _ (by have := ha i; simp only [profileAddr] at *; omega)
    · rfl

theorem writeResetOutcomes_word (is : List SlotId) (hn : is.Nodup) : ∀ (s : State) (j : SlotId), (s.writeResetOutcomes is).slotWord j 4 =
    if j ∈ is ∧ ((s.slot j).state = .filed ∨ (s.slot j).state = .active ∨
        (s.slot j).state = .cancelling) then JobOutcome.engineReset.code else s.slotWord j 4 := by
  induction is with
  | nil => intro s j; simp [State.writeResetOutcomes]
  | cons i is ih =>
    intro s j
    rw [List.nodup_cons] at hn
    unfold State.writeResetOutcomes
    have hsl (t : State) (v : Word) (k : SlotId) : (t.setSlotWord i 4 v).slot k = t.slot k := rfl
    rw [ih hn.2]
    by_cases hj : j = i
    · subst hj
      rw [if_neg (by simp [hn.1])]
      cases h : (s.slot j).state <;> simp [slotWord_setSlotWord_ite]
    · simp only [List.mem_cons, hj, false_or]
      cases h : (s.slot i).state <;> simp [slotWord_setSlotWord_ite, hj, hsl]

theorem profileWord14_setProfileWord (s : State) (c d : CardId) (v : Word) :
    (s.setProfileWord c 14 v).profileWord d 14 = if d = c then v else s.profileWord d 14 := by
  unfold State.profileWord State.setProfileWord State.word State.setWord
  show readWord (writeWord s.mem (profileAddr c 14) v) (profileAddr d 14) = _
  split
  · rename_i h; subst h; exact readWord_writeWord_same _ _ _
  · rename_i h
    refine readWord_writeWord_other _ _ _ _ ?_
    have : d.val ≠ c.val := fun he => h (Fin.ext he)
    simp only [profileAddr, Config.profileBase] at *; omega

theorem countAllClaimable_word (cs : List CardId) (hn : cs.Nodup) : ∀ (s : State) (d : CardId), (s.countAllClaimable cs).profileWord d 14 =
    if d ∈ cs ∧ (s.card d).claimable = true then s.profileWord d 14 + 1 else s.profileWord d 14 := by
  induction cs with
  | nil => intro s j; simp [State.countAllClaimable]
  | cons i is ih =>
    intro s j
    rw [List.nodup_cons] at hn
    unfold State.countAllClaimable
    have hsl (t : State) (k : CardId) : (t.countUnclaimed i).card k = t.card k := rfl
    rw [ih hn.2]
    by_cases hj : j = i
    · subst hj
      rw [if_neg (by simp [hn.1])]
      cases h : (s.card j).claimable <;> simp [State.countUnclaimed, profileWord14_setProfileWord]
    · simp only [List.mem_cons, hj, false_or]
      cases h : (s.card i).claimable <;> simp [State.countUnclaimed, profileWord14_setProfileWord, hj]

theorem writeResetOutcomes_frame (is : List SlotId) : ∀ s : State, { s.writeResetOutcomes is with mem := s.mem } = s := by
  induction is with
  | nil => intro s; rfl
  | cons i is ih =>
    intro s; unfold State.writeResetOutcomes
    split
    all_goals first | exact ih s | skip
    all_goals
      have := congrArg (fun x : State => { x with mem := s.mem }) (ih (s.setSlotWord i 4 JobOutcome.engineReset.code))
      exact this

theorem countAllClaimable_frame (is : List CardId) : ∀ s : State, { s.countAllClaimable is with mem := s.mem } = s := by
  induction is with
  | nil => intro s; rfl
  | cons i is ih =>
    intro s; unfold State.countAllClaimable
    split
    · have := congrArg (fun x : State => { x with mem := s.mem }) (ih (s.countUnclaimed i))
      exact this
    · exact ih s

theorem countUnclaimed_byte (s : State) (c : CardId) (a : Nat) (h : a < profileAddr c 14 ∨ profileAddr c 15 ≤ a) :
    readByte (s.countUnclaimed c).mem a = readByte s.mem a :=
  readByte_writeWord_other s.mem (profileAddr c 14) a (s.profileWord c 14 + 1) (by simp only [profileAddr] at *; omega)

theorem clearClaimable_frame (s : State) (c : CardId) : { s.clearClaimable c with mem := s.mem, cards := s.cards } = s := by
  unfold State.clearClaimable; split <;> rfl

theorem clearClaimable_bytes (s : State) (c : CardId) (a : Nat) (h : a < profileAddr c 14 ∨ profileAddr c 15 ≤ a) : readByte
    (s.clearClaimable c).mem a = readByte s.mem a := by
  unfold State.clearClaimable; split
  · exact countUnclaimed_byte s c a h
  · rfl

theorem clearClaimable_word (s : State) (c : CardId) : (s.clearClaimable c).profileWord c 14 = if
    (s.card c).claimable then s.profileWord c 14 + 1 else s.profileWord c 14 := by
  unfold State.clearClaimable; split
  · show (s.countUnclaimed c).profileWord c 14 = _
    unfold State.countUnclaimed; rw [profileWord14_setProfileWord, if_pos rfl]
  · rfl

theorem jobEndAtCard_frame (s : State) (c : CardId) (o : JobOutcome) : { s.jobEndAtCard c o with mem := s.mem, cards := s.cards } = s := by
  unfold State.jobEndAtCard; split
  · have h := congrArg (fun x : State => { x with cards := s.cards }) (clearClaimable_frame (s.updCard c fun k => { k with presence := .ready }) c)
    exact h
  · exact clearClaimable_frame s c

theorem jobEndAtCard_bytes (s : State) (c : CardId) (o : JobOutcome) (a : Nat) (h : a < profileAddr c 14 ∨ profileAddr c 15 ≤ a) : readByte
    (s.jobEndAtCard c o).mem a = readByte s.mem a := by
  unfold State.jobEndAtCard; split
  · exact clearClaimable_bytes _ c a h
  · exact clearClaimable_bytes _ c a h

theorem jobEndAtCard_word (s : State) (c : CardId) (o : JobOutcome) : (s.jobEndAtCard c o).profileWord c 14 = if
    (s.card c).claimable then s.profileWord c 14 + 1 else s.profileWord c 14 := by
  unfold State.jobEndAtCard; split
  · show ((s.updCard c fun k => { k with presence := .ready }).clearClaimable c).profileWord c 14 = _
    rw [clearClaimable_word, card_updCard_same]; rfl
  · exact clearClaimable_word s c

theorem jobEndAtCard_other (s : State) (c d : CardId) (o : JobOutcome) (h : d ≠ c) : (s.jobEndAtCard c o).card d = s.card d := by
  unfold State.jobEndAtCard; split
  · rw [card_updCard_other _ _ _ _ h, clearClaimable_other _ _ _ h, card_updCard_other _ _ _ _ h]
  · rw [clearClaimable_other _ _ _ h]

/-- What the end of a job with outcome `o` leaves of its card: no claimable attention and, where a COMPLETE job returns the card from
FAULTED to READY, the baseline taken and the detector re-armed (R126, R135, R154). -/
theorem jobEndAtCard_same (s : State) (c : CardId) (o : JobOutcome) : (s.jobEndAtCard c o).card c =
    if o = .complete ∧ (s.card c).startedFaulted = true ∧ (s.card c).presence = .faulted then
      { s.card c with claimable := false, presence := .ready, baseline := (s.card c).atnLine
                      detector := rearmed (s.card c).sense (s.card c).atnLine }
    else { s.card c with claimable := false } := by
  unfold State.jobEndAtCard; split
  · rename_i h
    simp only [Bool.and_eq_true, decide_eq_true_eq] at h
    rw [card_updCard_same, card_clearClaimable, card_updCard_same, if_pos ⟨h.1.1, h.1.2, h.2⟩]
    rfl
  · rename_i h
    simp only [Bool.and_eq_true, decide_eq_true_eq, and_assoc] at h
    rw [card_clearClaimable, if_neg h]

theorem slotWord_congr {s t : State} (i : SlotId) (m : Nat) (h : ∀ a, slotAddr i m ≤ a → a ≤ slotAddr i m + 1 →
    readByte t.mem a = readByte s.mem a) : t.slotWord i m = s.slotWord i m := by
  unfold State.slotWord State.word readWord
  rw [h _ (by omega) (by omega), h _ (by omega) (by omega)]

theorem profileWord_congr {s t : State} (i : CardId) (m : Nat) (h : ∀ a, profileAddr i m ≤ a → a ≤ profileAddr i m + 1 →
    readByte t.mem a = readByte s.mem a) : t.profileWord i m = s.profileWord i m := by
  unfold State.profileWord State.word readWord
  rw [h _ (by omega) (by omega), h _ (by omega) (by omega)]

/-- What slot intake leaves when it takes an end report with outcome `o` and words 5 and 6 (R18–R20, R135, R154, R201), the notice apart. -/
structure ReportTaken (s u : State) (c : CardId) (i : SlotId) (o : JobOutcome) (w5 w6 : Word) : Prop where
  slot : u.slot i = { state := .done, cause := none }
  slots : s.sameSlotsBut u i
  w4 : u.slotWord i 4 = o.code
  w5 : u.slotWord i 5 = w5
  w6 : u.slotWord i 6 = w6
  w1 : u.slotWord i 1 = s.slotWord i 1
  w7 : u.slotWord i 7 = s.slotWord i 7
  order : u.acceptOrder = (s.acceptOrder.filter fun j => j ≠ i)
  card : ∃ n, u.card c =
    if o = .complete ∧ (s.card c).startedFaulted = true ∧ (s.card c).presence = .faulted then
      { s.card c with endReport := none, cancelNotice := n, claimable := false, presence := .ready, baseline := (s.card c).atnLine
                      detector := rearmed (s.card c).sense (s.card c).atnLine }
    else { s.card c with endReport := none, cancelNotice := n, claimable := false }
  cards : ∀ d, d ≠ c → { u.card d with cancelNotice := (s.card d).cancelNotice } = s.card d
  w14 : u.profileWord c 14 = (if (s.card c).claimable then s.profileWord c 14 + 1 else s.profileWord c 14)
  bytes : ∀ a, (a < slotAddr i 4 ∨ slotAddr i 7 ≤ a) → (a < profileAddr c 14 ∨ profileAddr c 15 ≤ a) → readByte u.mem a = readByte s.mem a
  engine : u.engine = if s.engine = .draining ∧ ∀ j, j ≠ i → (s.slot j).state ≠ .active ∧ (s.slot j).state ≠ .cancelling then .halted else s.engine
  frame : { u with mem := s.mem, slots := s.slots, acceptOrder := s.acceptOrder, cards := s.cards, engine := s.engine } = s

theorem endReport_reportTaken (s : State) (c : CardId) (i : SlotId) (o : JobOutcome) (n : Nat) (detail : Option Word) :
   ReportTaken s ((((s.updCard c fun k => { k with endReport := none }).passDone i o (some
       (wordOf n)) detail).jobEndAtCard c o).drainCheck) c i o (wordOf n) (detail.getD (s.slotWord i 6)) := by
  generalize ht : (s.updCard c fun k => { k with endReport := none }) = t
  have he := passDone_endsSlot t i o (some (wordOf n)) detail
  have hw := slotWord_passDone t i i
  obtain ⟨e1, e2, e3, e4, e5, e6, e7, e8, e9⟩ := he
  have h1 := hw 1 o (some (wordOf n)) detail (by decide)
  have h7 := hw 7 o (some (wordOf n)) detail (by decide)
  generalize t.passDone i o (some (wordOf n)) detail = p at *
  have jf := jobEndAtCard_frame p c o
  have jb := jobEndAtCard_bytes p c o
  have jw := jobEndAtCard_word p c o
  have jo := fun d h => jobEndAtCard_other p c d o h
  have js := jobEndAtCard_same p c o
  generalize p.jobEndAtCard c o = q at *
  have df := drainCheck_frame q
  have g (α : Type) (f : State → α) : f { q.drainCheck with engine := q.engine } = f q := congrArg f df
  have gj (α : Type) (f : State → α) : f { q with mem := p.mem, cards := p.cards } = f p := congrArg f jf
  have gp (α : Type) (f : State → α) : f { p with mem := t.mem, slots := t.slots, acceptOrder := t.acceptOrder, cards := t.cards } = f t := congrArg f e9
  have hslot (j : SlotId) : q.drainCheck.slot j = p.slot j := (g _ fun x => x.slot j).trans (gj _ fun x => x.slot j)
  have hmem : q.drainCheck.mem = q.mem := g _ State.mem
  have hqi (m : Nat) (hm : m < 16) : q.drainCheck.slotWord i m = p.slotWord i m := by
    refine slotWord_congr i m fun a h1 h2 => ?_
    rw [hmem]; refine jb a ?_
    have := i.isLt; have := c.isLt
    simp only [slotAddr, profileAddr, Config.slotBase, Config.profileBase] at *; omega
  have ht1 : t.slotWord = s.slotWord := by rw [← ht]; rfl
  have htc : t.card c = { s.card c with endReport := none } := by rw [← ht, card_updCard_same]
  have hto (d : CardId) (h : d ≠ c) : t.card d = s.card d := by rw [← ht, card_updCard_other _ _ _ _ h]
  have hts : t.slot = s.slot := by rw [← ht]; rfl
  have hpc : ∃ n, p.card c = { s.card c with endReport := none, cancelNotice := n } := ⟨(p.card c).cancelNotice, by
    have h := congrArg (fun k : Card => { k with cancelNotice := (p.card c).cancelNotice }) (e8 c)
    rw [htc] at h
    exact h⟩
  obtain ⟨nn, hpc⟩ := hpc
  refine ⟨by rw [hslot]; exact e1, fun j hj => by rw [hslot, e2 j hj, hts], by rw [hqi 4 (by decide)]; exact e3, by rw [hqi 5 (by decide)]; exact e4,
    by rw [hqi 6 (by decide), e5, ht1], by rw [hqi 1 (by decide), h1, ht1]; simp, by rw [hqi 7 (by decide), h7, ht1]; simp, ?_, ⟨nn, ?_⟩, fun x hx => ?_, ?_, fun a h1 h2 => ?_, ?_, ?_⟩
  · rw [show q.drainCheck.acceptOrder = p.acceptOrder from (g _ State.acceptOrder).trans (gj _ State.acceptOrder), e7, ← ht]; rfl
  · rw [card_drainCheck, js, hpc]; rfl
  · rw [card_drainCheck, jo x hx]
    have := e8 x
    rw [hto x hx] at this; exact this
  · have e : q.drainCheck.profileWord c 14 = q.profileWord c 14 := by unfold State.profileWord State.word; rw [hmem]
    rw [e, jw, hpc]
    have : p.profileWord c 14 = s.profileWord c 14 := by
      have := i.isLt; have := c.isLt
      refine (profileWord_congr c 14 fun a h1 h2 => e6 a ?_).trans ?_
      · simp only [slotAddr, profileAddr, Config.slotBase, Config.profileBase] at *; omega
      · rw [← ht]; rfl
    rw [this]
  · rw [hmem, jb a h2, e6 a h1, ← ht]; rfl
  · have hqe : q.engine = s.engine := (gj _ State.engine).trans ((gp _ State.engine).trans (by rw [← ht]; rfl))
    unfold State.drainCheck
    have hany : q.anyInProgress = true ↔ ∃ j, j ≠ i ∧ ((s.slot j).state = .active ∨ (s.slot j).state = .cancelling) := by
      rw [anyInProgress_iff]
      have hq (j : SlotId) : q.slot j = p.slot j := gj _ fun x => x.slot j
      constructor
      · rintro ⟨j, hj⟩
        rw [hq] at hj
        by_cases hji : j = i
        · subst hji; rw [e1] at hj; simp at hj
        · rw [e2 j hji, hts] at hj; exact ⟨j, hji, hj⟩
      · rintro ⟨j, hji, hj⟩
        refine ⟨j, ?_⟩
        rw [hq, e2 j hji, hts]; exact hj
    rw [hqe]
    by_cases hd : s.engine = .draining
    · by_cases ha : ∃ j, j ≠ i ∧ ((s.slot j).state = .active ∨ (s.slot j).state = .cancelling)
      · rw [hany.2 ha, if_neg (by simp), if_neg]
        · exact hqe
        · rintro ⟨_, hx⟩; obtain ⟨j, hji, hj⟩ := ha
          rcases hj with hj | hj
          · exact (hx j hji).1 hj
          · exact (hx j hji).2 hj
      · have hf : q.anyInProgress = false := by
          cases hx : q.anyInProgress
          · rfl
          · exact absurd (hany.1 hx) ha
        rw [hf, if_pos (by simp [hd]), if_pos]
        refine ⟨hd, fun j hji => ⟨fun h => ha ⟨j, hji, Or.inl h⟩, fun h => ha ⟨j, hji, Or.inr h⟩⟩⟩
    · rw [if_neg (by simp [hd]), if_neg (by simp [hd])]; exact hqe
  · have a1 := congrArg (fun x : State => { x with mem := s.mem, slots := s.slots, acceptOrder := s.acceptOrder, cards := s.cards, engine := s.engine }) df
    have a2 := congrArg (fun x : State => { x with mem := s.mem, slots := s.slots, acceptOrder := s.acceptOrder, cards := s.cards, engine := s.engine }) jf
    have a3 := congrArg (fun x : State => { x with mem := s.mem, slots := s.slots, acceptOrder := s.acceptOrder, cards := s.cards, engine := s.engine }) e9
    have a4 := congrArg (fun x : State => { x with mem := s.mem, slots := s.slots, acceptOrder := s.acceptOrder, cards := s.cards, engine := s.engine }) ht
    exact a1.trans (a2.trans (a3.trans (a4.symm.trans rfl)))

theorem endReportTaken_eq (s : State) (c : CardId) (i : SlotId) (e : Ending) (n : Nat) (o : JobOutcome) (detail : Option Word)
   (h : (s.card c).endReport = some { slot := i, ending := e, stepsDone := n }) (hr : reportOutcome (s.slot i) e = some (o, detail)) :
   ∃ u, s.endReportTaken c = s.notifyDone u i o (wordOf n) (detail.getD (s.slotWord i 6)) ∧ ReportTaken s u c i o (wordOf n) (detail.getD
       (s.slotWord i 6)) := by
  have r := endReport_reportTaken s c i o n detail
  refine ⟨_, ?_, r⟩
  unfold State.endReportTaken
  rw [h]
  simp only
  unfold State.takeReport
  rw [hr]
  exact postJobDone_passed s _ i o _ _ r.w1 r.w7 r.w4 r.w5 r.w6

theorem notifyDone_keeps (s u : State) (i : SlotId) (o : JobOutcome) (w5 w6 : Word) : Keeps False u (s.notifyDone u i o w5 w6) := by
  unfold State.notifyDone; split
  · exact post_keeps _ _
  · exact Keeps.refl _

theorem post_profileWord (s : State) (n : Notice) (c : CardId) : (s.post n).profileWord c 14 = s.profileWord c 14 := by
  refine profileWord_congr c 14 fun a h1 h2 => ?_
  have := c.isLt
  unfold State.post
  split
  · rfl
  · split
    · rfl
    · show readByte (s.setWords (noticeAddr s.produced.toNat 0) (n.entry s.msClock s.produced)).mem a = _
      have : s.produced.toNat % 64 < 64 := Nat.mod_lt _ (by decide)
      have hb : ∀ (ws : List Word) (t : State) (b : Nat), a < b → readByte (t.setWords b ws).mem a = readByte t.mem a := by
        intro ws
        induction ws with
        | nil => intro t b _; rfl
        | cons w ws ih =>
          intro t b hlt
          show readByte ((t.setWord b w).setWords (b + 2) ws).mem a = _
          rw [ih _ _ (by omega)]
          exact readByte_writeWord_other _ _ _ _ (by omega)
      refine hb _ _ _ ?_
      simp only [profileAddr, noticeAddr, Config.noticeBase, Config.profileBase, Config.ringSize] at *; omega

end Sys2Proof.Machine
end

