-- ==== Sys2Proof/Laws/Runs.lean ====
section
/-! SUPPORT. Laws of runs: what a start, the begin of a step, the end of a job and the lease table leave. -/

namespace Sys2Proof.Machine

theorem setWords_other (ws : List Word) : ∀ (t : State) (b a : Nat), (a < b ∨ b + 2 * ws.length ≤ a) → readByte
    (t.setWords b ws).mem a = readByte t.mem a := by
  induction ws with
  | nil => intro t b a _; rfl
  | cons w ws ih =>
    intro t b a h
    show readByte ((t.setWord b w).setWords (b + 2) ws).mem a = _
    simp only [List.length_cons] at h
    rw [ih _ _ _ (by omega)]
    exact readByte_writeWord_other _ _ _ _ (by omega)

theorem setWords_get (ws : List Word) : ∀ (t : State) (b k : Nat) (h : k < ws.length), (t.setWords b ws).word (b + 2 * k) = ws[k] := by
  induction ws with
  | nil => intro t b k h; simp at h
  | cons w ws ih =>
    intro t b k h
    show ((t.setWord b w).setWords (b + 2) ws).word (b + 2 * k) = _
    cases k with
    | zero =>
      unfold State.word readWord
      rw [setWords_other _ _ _ _ (by omega), setWords_other _ _ _ _ (by omega)]
      exact readWord_writeWord_same _ _ _
    | succ k =>
      have := ih (t.setWord b w) (b + 2) k (by simpa using h)
      rw [show b + 2 * (k + 1) = b + 2 + 2 * k by omega, this]; rfl

theorem startChoice_of_startsSlot (s : State) (c : CardId) (i : SlotId) (h : s.startsSlot c i) : s.startChoice c = some i := by
  unfold State.startChoice
  rcases h with ⟨h, h2⟩ | ⟨h, f, b, h2, h3, h4⟩
  · rw [h]; exact h2
  · rw [h]; simp only
    rw [h2]
    rw [List.find?_append]
    have : List.find? (fun i => headerRecovery (s.slotWord i 1)) f = none := by
      rw [List.find?_eq_none]; intro x hx; simp [h4 x hx]
    rw [this]
    simp [h3]

theorem jobStart_eq (s : State) (c : CardId) (i : SlotId) (h1 : s.engine = .running) (h2 : (s.card c).activeSlot = none) (h3 :
    (s.card c).seq.phase = .idle) (h : s.startsSlot c i) :
    s.jobStart c = s.startSlot c i := by
  unfold State.jobStart State.mayStart
  rw [if_pos (by simp [h1, h2, h3]), startChoice_of_startsSlot s c i h]

theorem setProfile_keeps (s : State) (c : CardId) (p : Profile) : Keeps False (s.updCard c fun k => { k with profile := p }) (s.latchProfile c p) := by
  unfold State.latchProfile
  simp only
  split
  · exact latchNewSense_keeps _ _
  · split
    · split
      · refine Keeps.trans (t := (s.updCard c fun k => { k with profile := p }).updCard c fun k => { k with attnReq := none, attnPhase := .quiet }) ?_ (completeAttention_keeps _ _ _ fun g => False.elim g)
        exact attnChange_keeps _ _ _ ⟨rfl, rfl, rfl, rfl, rfl, rfl, rfl, rfl⟩ ⟨rfl, rfl, Or.inl rfl⟩ (fun _ _ => Or.inl rfl) fun _ _ => Or.inr (Or.inr rfl)
      · exact attnChange_keeps _ _ _ ⟨rfl, rfl, rfl, rfl, rfl, rfl, rfl, rfl⟩ ⟨rfl, rfl, Or.inl rfl⟩ (fun h _ => False.elim h) fun _ _ => Or.inr (Or.inr rfl)
    · exact Keeps.refl _

theorem updCard_updCard (s : State) (c : CardId) (f g : Card → Card) : (s.updCard c f).updCard c g = s.updCard c fun k => g (f k) := by
  unfold State.updCard State.card upd
  simp only [Vector.get_eq_getElem, Vector.getElem_set_self, Vector.set_set]

theorem updCard_congr (s : State) (c : CardId) (f g : Card → Card) (h : f (s.card c) = g (s.card c)) : s.updCard c f = s.updCard c g := by
  unfold State.updCard; rw [h]

theorem card_activate_same (u : State) (c : CardId) (i : SlotId) : (u.activate c i).card c = { u.card c with
    startedFaulted := decide ((u.card c).presence = .faulted)
    seq := { (u.card c).seq with active := some i, listAddr := u.slotWord i 2, stepCount := (u.slotWord i 3).toNat, stepIndex := 0
                                 copy := none, stop := false } } := by
  unfold State.activate; rw [card_updCard_same]; rfl

theorem card_activate_other (u : State) (c d : CardId) (i : SlotId) (hd : d ≠ c) : (u.activate c i).card d = u.card d := by
  unfold State.activate; rw [card_updCard_other _ _ _ _ hd]; rfl

theorem activate_frame (u : State) (c : CardId) (i : SlotId) : { u.activate c i with cards := u.cards, slots := u.slots } = u := rfl

/-- What a latch of profile `p` does, at a card `k` that a change `f` has taken to `latched` but for its profile (R67, R136, R137). -/
theorem latchProfile_eq (s : State) (c : CardId) (f : Card → Card) (p : Profile) (k latched : Card) (hk : s.card c = k)
    (hl : { f k with profile := p } = latched) (hs : (f k).profile = k.profile) (hq : (f k).attnPhase = k.attnPhase) :
    (p.sense ≠ k.profile.sense → (s.updCard c f).latchProfile c p = s.updCard c fun _ => latched.latchNewSense) ∧
    (p.sense = k.profile.sense → k.attnPhase ≠ .waiting → (s.updCard c f).latchProfile c p = s.updCard c fun _ => latched) ∧
    (p.sense = k.profile.sense → k.attnPhase = .waiting → p.readList ≠ [] → (s.updCard c f).latchProfile c p =
      s.updCard c fun _ => { latched with attnReq := some (attentionRequest c p.readList) }) ∧
    (p.sense = k.profile.sense → k.attnPhase = .waiting → p.readList = [] → (s.updCard c f).latchProfile c p =
      (s.updCard c fun _ => { latched with attnReq := none, attnPhase := .quiet }).completeAttention c []) := by
  unfold State.latchProfile
  simp only
  rw [card_updCard_same, hk, hs, hq]
  refine ⟨fun hne => ?_, fun heq hw => ?_, fun heq hw hr => ?_, fun heq hw hr => ?_⟩
  · rw [if_pos hne, updCard_updCard, updCard_updCard]
    exact updCard_congr _ _ _ _ (by rw [hk, hl])
  · rw [if_neg (by simpa using heq), if_neg hw, updCard_updCard]
    exact updCard_congr _ _ _ _ (by rw [hk, hl])
  · rw [if_neg (by simpa using heq), if_pos hw, if_neg hr, updCard_updCard, updCard_updCard]
    exact updCard_congr _ _ _ _ (by rw [hk, hl])
  · rw [if_neg (by simpa using heq), if_pos hw, if_pos hr, updCard_updCard, updCard_updCard]
    refine congrArg (fun z : State => z.completeAttention c []) ?_
    exact updCard_congr _ _ _ _ (by rw [hk, hl])

/-- The state in which the first step of a started job begins (R17, R61, R67). -/
structure Started (s u : State) (c : CardId) (i : SlotId) : Prop where
  frame : { u with mem := s.mem, slots := s.slots, cards := s.cards, produced := s.produced, lost := s.lost, pageHolder := s.pageHolder, breach := s.breach, leaseWaiting := s.leaseWaiting } = s
  slot : u.slot i = { state := .active, cause := none }
  slots : s.sameSlotsBut u i
  stable : ∀ a, stableByte a → readByte u.mem a = readByte s.mem a
  queue : (u.card c).queue = (s.card c).queue.filter fun j => j ≠ i
  presence : (u.card c).presence = (s.card c).presence
  startedFaulted : (u.card c).startedFaulted = decide ((s.card c).presence = .faulted)
  profile : (u.card c).profile = (s.profileWords c).latch
  seq : (u.card c).seq = { (s.card c).seq with active := some i, listAddr := s.slotWord i 2, stepCount := (s.slotWord i 3).toNat, stepIndex := 0, copy := none, stop := false }
  others : ∀ d, d ≠ c → (s.card d).sameStanding (u.card d)
  waits : (s.profileWords c).latch.sense = (s.card c).profile.sense → (s.card c).attnPhase = .waiting →
    (s.profileWords c).latch.readList ≠ [] → (u.card c).attnPhase = .waiting

/-- A start with a valid profile runs the first step from a state that `Started` describes. -/
theorem jobStart_started (s : State) (c : CardId) (i : SlotId) (h1 : s.engine = .running) (h2 : (s.card c).activeSlot = none) (h3 :
    (s.card c).seq.phase = .idle) (h : s.startsSlot c i)
   (hp : (s.profileWords c).invalid = none) : ∃ u, s.jobStart c = runSteps (u.stepsLeft c) c u ∧ Started s u c i := by
  rw [jobStart_eq s c i h1 h2 h3 h]
  unfold State.startSlot
  simp only [hp]
  generalize ht : (s.updCard c fun k => { k with queue := k.queue.filter fun j => j ≠ i }) = t
  generalize hpp : (s.profileWords c).latch = p
  have hk := setProfile_keeps t c p
  have hph : (t.card c).seq.phase = .idle := by rw [← ht, card_updCard_same]; exact h3
  obtain ⟨e1, _, _, e4⟩ := card_latchProfile t c p hph
  refine ⟨(t.latchProfile c p).activate c i, rfl, ?_⟩
  have hwaits := (latchProfile_eq s c (fun k => { k with queue := k.queue.filter fun j => j ≠ i }) p _ _ rfl rfl rfl rfl).2.2.1
  rw [ht] at hwaits
  generalize t.latchProfile c p = u at *
  have htc : t.card c = { s.card c with queue := (s.card c).queue.filter fun j => j ≠ i } := by rw [← ht, card_updCard_same]
  obtain ⟨q1, q2, q3, q4, q5, q6, q7, q8⟩ := hk.card c
  rw [card_updCard_same] at q1 q2 q3 q4 q5 q6 q7 q8
  have hac := card_activate_same u c i
  have w2 : u.slotWord i 2 = s.slotWord i 2 := by rw [hk.slotHead i 2 (by decide), ← ht]; rfl
  have w3 : u.slotWord i 3 = s.slotWord i 3 := by rw [hk.slotHead i 3 (by decide), ← ht]; rfl
  refine ⟨?_, ?_, fun j hj => ?_, fun a ha => ?_, ?_, ?_, ?_, ?_, ?_, fun d hd => ?_, fun g1 g2 g3 => ?_⟩
  · have a1 := congrArg (fun x : State => { x with slots := s.slots, cards := s.cards, mem := s.mem, produced := s.produced, lost := s.lost, pageHolder := s.pageHolder, breach := s.breach, leaseWaiting := s.leaseWaiting }) hk.frame
    have a2 := congrArg (fun x : State => { x with slots := s.slots, cards := s.cards, mem := s.mem, produced := s.produced, lost := s.lost, pageHolder := s.pageHolder, breach := s.breach, leaseWaiting := s.leaseWaiting }) ht
    exact a1.trans (a2.symm.trans rfl)
  · unfold State.activate; rw [slot_updCard, slot_setSlot, if_pos rfl]
  · unfold State.activate; rw [slot_updCard, slot_setSlot, if_neg hj, hk.slot, ← ht]; rfl
  · show readByte u.mem a = _
    rw [hk.stable a ha, ← ht]; rfl
  · rw [hac]; show (u.card c).queue = _; rw [q3, htc]
  · rw [hac]; show (u.card c).presence = _; rw [q1, htc]
  · rw [hac]; show decide ((u.card c).presence = .faulted) = _; rw [q1, htc]
  · rw [hac]; show (u.card c).profile = _; rw [q5]; exact hpp.symm
  · rw [hac]
    show ({ (u.card c).seq with active := some i, listAddr := u.slotWord i 2, stepCount := (u.slotWord i 3).toNat, stepIndex := 0, copy := none, stop := false } : Sequencer) = _
    rw [e1, w2, w3, htc]
  · rw [card_activate_other _ _ _ _ hd]
    have := hk.card d
    rw [card_updCard_other _ _ _ _ hd] at this
    rw [← ht, card_updCard_other _ _ _ _ hd] at this
    exact this
  · rw [hac]; show (u.card c).attnPhase = _
    rw [hpp] at g1 g3
    rw [hwaits g1 g2 g3, card_updCard_same]; exact g2

theorem senseOf_of_range (w : Word) (h : w.toNat ≤ 4) : senseOf w = some ((senseOf w).getD .off) := by
  have : w = 0 ∨ w = 1 ∨ w = 2 ∨ w = 3 ∨ w = 4 := by
    have h5 : w.toNat = 0 ∨ w.toNat = 1 ∨ w.toNat = 2 ∨ w.toNat = 3 ∨ w.toNat = 4 := by omega
    rcases h5 with h | h | h | h | h
    · exact Or.inl (BitVec.eq_of_toNat_eq h)
    · exact Or.inr (Or.inl (BitVec.eq_of_toNat_eq h))
    · exact Or.inr (Or.inr (Or.inl (BitVec.eq_of_toNat_eq h)))
    · exact Or.inr (Or.inr (Or.inr (Or.inl (BitVec.eq_of_toNat_eq h))))
    · exact Or.inr (Or.inr (Or.inr (Or.inr (BitVec.eq_of_toNat_eq h))))
  rcases this with h | h | h | h | h <;> subst h <;> rfl

theorem card_updSeq_same (s : State) (c : CardId) (f : Sequencer → Sequencer) : (s.updSeq c f).card c = { s.card c with seq := f (s.card c).seq } := by
  unfold State.updSeq; rw [card_updCard_same]

theorem reg_eq_register (r : StepRecord) : r.reg = BitVec.ofNat 6 (highByte r.w0) := rfl

theorem record_updSeq_copy (s : State) (c : CardId) (r : StepRecord) : (s.updSeq c fun q => { q with copy := some r }).record c = r := by
  unfold State.record Sequencer.record; rw [card_updSeq_same]; rfl

theorem startStep_valid (s : State) (c : CardId) (i : SlotId) (r : StepRecord) (k : StepKind) (ha : (s.card c).seq.active = some i)
   (hr : r = s.readRecord ((s.card c).seq.listAddr.toNat + 8 * (s.card c).seq.stepIndex)) (hv : r.invalid = none) (hk : r.kind = some k) :
   s.startStep c = (s.updSeq c fun q => { q with copy := some r }).beginKind c i k := by
  unfold State.startStep
  rw [ha]; simp only
  rw [← hr, hv, hk]

theorem startStep_invalid (s : State) (c : CardId) (i : SlotId) (r : StepRecord) (why : Reason) (ha : (s.card c).seq.active = some i)
   (hr : r = s.readRecord ((s.card c).seq.listAddr.toNat + 8 * (s.card c).seq.stepIndex)) (hv : r.invalid = some why) :
   s.startStep c = ((s.updSeq c fun q => { q with copy := some r }).failJob c .stepInvalid (some why.code), false) := by
  unfold State.startStep
  rw [ha]; simp only
  rw [← hr, hv]

theorem failJob_card (s : State) (c : CardId) (i : SlotId) (o : JobOutcome) (d : Option Word) (ha : (s.card c).seq.active = some i) :
   ∃ g, (s.failJob c o d).card c = { s.card c with endReport := some { slot := i, ending := .failure o d, stepsDone := (s.card c).seq.stepIndex }, seq := (s.card c).seq.toIdle, jobReq := none, stream := none, leaseGrant := g } := by
  unfold State.failJob State.endJob
  rw [card_updCard_same]
  obtain ⟨g, x, hg⟩ := card_dropStream s c
  rw [hg]
  refine ⟨g, ?_⟩
  unfold Card.report
  simp only [ha]

theorem endJob_card (s : State) (c : CardId) (i : SlotId) (e : Ending) (ha : (s.card c).seq.active = some i) :
   ∃ g, (s.endJob c e).card c = { s.card c with endReport := some { slot := i, ending := e, stepsDone := (s.card c).seq.stepIndex }, seq := (s.card c).seq.toIdle, jobReq := none, stream := none, leaseGrant := g } := by
  unfold State.endJob
  rw [card_updCard_same]
  obtain ⟨g, x, hg⟩ := card_dropStream s c
  rw [hg]
  refine ⟨g, ?_⟩
  unfold Card.report
  simp only [ha]

theorem copySnapshot_card (c : CardId) (i : SlotId) (base : Nat) (js : List Nat) (s : State) (d : CardId) : (s.copySnapshot c i base js).card d = s.card d := card_copySnapshot c i base js d s

theorem setSlotWord_profileWord (i : SlotId) (n : Nat) (c : CardId) (m : Nat) (hn : n < 16) (hm : m < 16) (s : State) (v : Word) :
    (s.setSlotWord i n v).profileWord c m = s.profileWord c m := by
  refine readWord_writeWord_other s.mem (slotAddr i n) (profileAddr c m) v ?_
  have := i.isLt; have := c.isLt
  simp only [slotAddr, profileAddr, Config.slotBase, Config.profileBase] at *; omega

theorem setCapture_profileWord (s : State) (i : SlotId) (n : Nat) (v : Word) (c : CardId) (m : Nat) (hm : m < 16) :
    (s.setCapture i n v).profileWord c m = s.profileWord c m := by
  unfold State.setCapture; split
  · exact setSlotWord_profileWord i (8 + n) c m (by omega) hm s v
  · rfl

theorem copySnapshot_profileWord (c : CardId) (i : SlotId) (base : Nat) (m : Nat) (hm : m < 16) (js : List Nat) : ∀ s : State,
    (s.copySnapshot c i base js).profileWord c m = s.profileWord c m := by
  induction js with
  | nil => intro s; rfl
  | cons j js ih => intro s; unfold State.copySnapshot; rw [ih, setCapture_profileWord _ _ _ _ _ _ hm]

theorem setCapture_slotWord (s : State) (i : SlotId) (n m : Nat) (v : Word) (hm : m < 16) : (s.setCapture i n v).slotWord i m = if n < 8 ∧
    m = 8 + n then v else s.slotWord i m := by
  unfold State.setCapture; split
  · rename_i h
    rw [slotWord_setSlotWord_ite _ _ _ _ _ _ (by omega) hm]; simp [h]
  · rename_i h; rw [if_neg (by simp [h])]

theorem copySnapshot_slotWord (c : CardId) (i : SlotId) (base : Nat) (js : List Nat) (hj : ∀ j ∈ js, j < 4) (hn : js.Nodup) : ∀ (s : State)
    (m : Nat), m < 16 →
   (∀ j ∈ js, base + j < 8 → (s.copySnapshot c i base js).slotWord i (8 + (base + j)) = s.profileWord c (9 + j)) ∧
   ((∀ j ∈ js, m ≠ 8 + (base + j)) → (s.copySnapshot c i base js).slotWord i m = s.slotWord i m) := by
  induction js with
  | nil => intro s m _; simp [State.copySnapshot]
  | cons j js ih =>
    intro s m hm
    rw [List.nodup_cons] at hn
    have hj4 : j < 4 := hj j (by simp)
    unfold State.copySnapshot
    refine ⟨fun x hx hlt => ?_, fun h => ?_⟩
    · rcases List.mem_cons.1 hx with hx | hx
      · subst hx
        rw [(ih (fun j h => hj j (by simp [h])) hn.2 _ (8 + (base + x)) (by omega)).2]
        · rw [setCapture_slotWord _ _ _ _ _ (by omega), if_pos ⟨hlt, rfl⟩]
        · intro y hy he
          have : y = x := by omega
          subst this; exact hn.1 hy
      · rw [(ih (fun j h => hj j (by simp [h])) hn.2 _ m hm).1 x hx hlt]
        have : x < 4 := hj x (by simp [hx])
        rw [setCapture_profileWord _ _ _ _ _ _ (by omega)]
    · rw [(ih (fun j h => hj j (by simp [h])) hn.2 _ m hm).2 (fun y hy => h y (by simp [hy])), setCapture_slotWord _ _ _ _ _ hm, if_neg]
      rintro ⟨_, he⟩; exact h j (by simp) he

theorem endJob_mem (s : State) (c : CardId) (e : Ending) : (s.endJob c e).mem = s.mem := by
  unfold State.endJob
  show (s.dropStream c).mem = _
  unfold State.dropStream
  have hex : ∀ (rs : List LeaseRequest) (s : State), (examineLeases rs s).mem = s.mem := by
    intro rs
    induction rs with
    | nil => intro s; rfl
    | cons r rs ih => intro s; unfold examineLeases; rw [ih]; split <;> rfl
  have hdl (i : SlotId) : (s.dropLease c i).mem = s.mem := by
    unfold State.dropLease
    show (ite _ _ _ : State).mem = _
    split
    · rfl
    · unfold State.releaseLeases; rw [hex]; rfl
  split
  · exact hdl _
  · rfl

theorem pagesFree_iff (s : State) (f n : Nat) : s.pagesFree f n = true ↔ ∀ p : PageId, f ≤ p.val ∧ p.val < f + n → s.pageHolder.get p = none := by
  unfold State.pagesFree allPages inPages
  simp only [List.all_eq_true, List.mem_finRange, true_imp_iff, Bool.or_eq_true, Bool.not_eq_true', Bool.and_eq_false_iff, decide_eq_false_iff_not, decide_eq_true_eq]
  constructor
  · intro h p hp; rcases h p with (h | h) | h
    · exact absurd hp.1 h
    · exact absurd hp.2 h
    · exact h
  · intro h p
    by_cases h1 : f ≤ p.val ∧ p.val < f + n
    · exact Or.inr (h p h1)
    · refine Or.inl ?_; by_contra hn; push Not at hn; exact h1 hn

theorem holdPages_get (s : State) (i : SlotId) (f n : Nat) (p : PageId) : (s.holdPages i f n).pageHolder.get p = if f ≤ p.val ∧
    p.val < f + n then some i else s.pageHolder.get p := by
  unfold State.holdPages
  simp only [get_tab]
  unfold inPages
  simp only [Bool.and_eq_true, decide_eq_true_eq]

theorem holdPages_breach (s : State) (i j : SlotId) (f n : Nat) : (s.holdPages i f n).breach.get j = if j = i then none else s.breach.get j := by
  unfold State.holdPages; exact get_upd _ _ _ _

theorem endJob_plain (s : State) (c : CardId) (i : SlotId) (e : Ending) (ha : (s.card c).seq.active = some i) (hst : (s.card c).stream = none) :
    s.endJob c e = s.updCard c fun k => { k with endReport := some { slot := i, ending := e, stepsDone := k.seq.stepIndex }, seq := k.seq.toIdle, jobReq := none, stream := none } := by
  unfold State.endJob State.dropStream
  rw [hst, ha]; simp only
  unfold State.updCard
  have : (s.card c).report e (s.card c).seq.stepIndex = { s.card c with endReport := some { slot := i, ending := e, stepsDone := (s.card c).seq.stepIndex }, seq := (s.card c).seq.toIdle, jobReq := none, stream := none } := by
    unfold Card.report; rw [ha]
  exact congrArg (fun x => ({ s with cards := upd s.cards c x } : State)) this

theorem examineLeases_mem (rs : List LeaseRequest) : ∀ s : State, (examineLeases rs s).mem = s.mem := by
  induction rs with
  | nil => intro s; rfl
  | cons r rs ih => intro s; unfold examineLeases; rw [ih]; split <;> rfl

theorem grantWaiting_leaseGrant (s : State) (r : LeaseRequest) (d : CardId) : ((s.card d).leaseGrant = true →
    ((s.grantWaiting r).card d).leaseGrant = true) ∧ ((s.grantWaiting r).card r.card).leaseGrant = true := by
  unfold State.grantWaiting
  refine ⟨fun h => ?_, by rw [card_updCard_same]⟩
  by_cases hd : d = r.card
  · subst hd; rw [card_updCard_same]
  · rw [card_updCard_other _ _ _ _ hd]; exact h

/-- What an examination of the waiting list can do (R77). -/
theorem examineLeases_spec (i : SlotId) (rs : List LeaseRequest) : ∀ s : State, (∀ q ∈ rs, q.slot ≠ i) →
   ((∀ p, s.pageHolder.get p ≠ some i) → ∀ p, (examineLeases rs s).pageHolder.get p ≠ some i) ∧
   (∀ p j, s.pageHolder.get p = some j → (examineLeases rs s).pageHolder.get p = some j) ∧
   (s.breach.get i = none → (examineLeases rs s).breach.get i = none) ∧
   (∀ q ∈ (examineLeases rs s).leaseWaiting, q ∈ s.leaseWaiting) ∧
   (∀ q ∈ (examineLeases rs s).leaseWaiting, q ∈ rs → ∃ p : PageId, q.first ≤ p.val ∧ p.val < q.first + q.count ∧
       (examineLeases rs s).pageHolder.get p ≠ none) ∧
   (∀ d, (s.card d).leaseGrant = true → ((examineLeases rs s).card d).leaseGrant = true) ∧
   (∀ p j, (examineLeases rs s).pageHolder.get p = some j → s.pageHolder.get p ≠ some j → ∃ q ∈ rs, q.slot = j ∧ q.first ≤ p.val ∧
       p.val < q.first + q.count ∧ ((examineLeases rs s).card q.card).leaseGrant = true) := by
  induction rs with
  | nil => intro s _; exact ⟨id, fun _ _ => id, id, fun _ => id, fun _ _ h => absurd h (by simp), fun _ => id, fun p j h hn => absurd h hn⟩
  | cons r rs ih =>
    intro s hne
    unfold examineLeases
    have hri : r.slot ≠ i := hne r (by simp)
    have hrs : ∀ q ∈ rs, q.slot ≠ i := fun q hq => hne q (by simp [hq])
    by_cases hf : s.pagesFree r.first r.count = true
    · rw [if_pos hf]
      obtain ⟨a1, a2, a3, a4, a5, a6, a7⟩ := ih (s.grantWaiting r) hrs
      have hp (p : PageId) : (s.grantWaiting r).pageHolder.get p = if r.first ≤ p.val ∧ p.val < r.first + r.count then some r.slot else s.pageHolder.get p := holdPages_get s r.slot r.first r.count p
      have hfr := (pagesFree_iff _ _ _).1 hf
      have hw : (s.grantWaiting r).leaseWaiting = s.leaseWaiting.filter fun q => q.slot ≠ r.slot := rfl
      refine ⟨fun h => a1 fun p => ?_, fun p j h => a2 p j ?_, fun h => a3 ?_, fun q hq => ?_, fun q hq hm => ?_, fun d h => a6 d ((grantWaiting_leaseGrant s r d).1 h), fun p j h hn => ?_⟩
      · rw [hp]; split
        · intro he; injection he with he; exact hri he
        · exact h p
      · rw [hp, if_neg, h]
        intro hx; rw [hfr p hx] at h; exact absurd h (by simp)
      · show (s.holdPages r.slot r.first r.count).breach.get i = none
        rw [holdPages_breach, if_neg (fun h => hri h.symm)]; exact h
      · have := a4 q hq; rw [hw] at this; exact (List.mem_filter.1 this).1
      · rcases List.mem_cons.1 hm with hm | hm
        · subst hm
          have := a4 q hq; rw [hw] at this
          have := (List.mem_filter.1 this).2; simp at this
        · exact a5 q hq hm
      · by_cases hx : (s.grantWaiting r).pageHolder.get p = some j
        · rw [hp] at hx
          split at hx
          · rename_i hrange
            injection hx with hx
            exact ⟨r, by simp, hx, hrange.1, hrange.2, a6 _ (grantWaiting_leaseGrant s r r.card).2⟩
          · exact absurd hx hn
        · obtain ⟨q, hq, h1⟩ := a7 p j h hx
          exact ⟨q, by simp [hq], h1⟩
    · rw [if_neg hf]
      obtain ⟨a1, a2, a3, a4, a5, a6, a7⟩ := ih s hrs
      refine ⟨a1, a2, a3, a4, fun q hq hm => ?_, a6, fun p j h hn => ?_⟩
      · rcases List.mem_cons.1 hm with hm | hm
        · subst hm
          have hx : ¬ ∀ p : PageId, q.first ≤ p.val ∧ p.val < q.first + q.count → s.pageHolder.get p = none := fun h => hf ((pagesFree_iff _ _ _).2 h)
          push Not at hx
          obtain ⟨p, hp1, hp2⟩ := hx
          refine ⟨p, hp1.1, hp1.2, ?_⟩
          cases hh : s.pageHolder.get p with
          | none => exact absurd hh hp2
          | some j => rw [a2 p j hh]; simp
        · exact a5 q hq hm
      · obtain ⟨q, hq, h1⟩ := a7 p j h hn
        exact ⟨q, by simp [hq], h1⟩

/-- The examination from head to tail: request `n` of the list is granted exactly when its pages are free and none is named by an earlier
granted request; what the granted requests take, and what else there is afterwards (R77 step 3). -/
theorem examineLeases_inOrder (rs : List LeaseRequest) : ∀ s : State, ∃ granted : Nat → Prop,
    (∀ n q, rs[n]? = some q →
      (granted n ↔ ∀ p : PageId, q.first ≤ p.val ∧ p.val < q.first + q.count → s.pageHolder.get p = none ∧
        ∀ m r, m < n → rs[m]? = some r → granted m → ¬ (r.first ≤ p.val ∧ p.val < r.first + r.count)) ∧
      (granted n → (∀ p : PageId, q.first ≤ p.val ∧ p.val < q.first + q.count →
        (examineLeases rs s).pageHolder.get p = some q.slot) ∧ (examineLeases rs s).breach.get q.slot = none ∧
        ((examineLeases rs s).card q.card).leaseGrant = true)) ∧
    (∀ p : PageId, (∀ n q, rs[n]? = some q → granted n → ¬ (q.first ≤ p.val ∧ p.val < q.first + q.count)) →
      (examineLeases rs s).pageHolder.get p = s.pageHolder.get p) ∧
    (∀ j, s.breach.get j = none → (examineLeases rs s).breach.get j = none) ∧
    (∀ d, (s.card d).leaseGrant = true → ((examineLeases rs s).card d).leaseGrant = true) ∧
    (examineLeases rs s).leaseWaiting.Sublist s.leaseWaiting ∧
    ∀ q, q ∈ (examineLeases rs s).leaseWaiting ↔ q ∈ s.leaseWaiting ∧ ∀ n r, rs[n]? = some r → granted n → r.slot ≠ q.slot := by
  induction rs with
  | nil =>
    intro s
    exact ⟨fun _ => False, fun n q h => absurd h (by simp), fun _ _ => rfl, fun _ => id, fun _ => id, List.Sublist.refl _,
      fun q => ⟨fun h => ⟨h, fun n r hn => absurd hn (by simp)⟩, fun h => h.1⟩⟩
  | cons r rs ih =>
    intro s
    unfold examineLeases
    by_cases hf : s.pagesFree r.first r.count = true
    · rw [if_pos hf]
      have hfr := (pagesFree_iff _ _ _).1 hf
      obtain ⟨g, b1, b2, b3, b4, b5, b6⟩ := ih (s.grantWaiting r)
      have hp (p : PageId) : (s.grantWaiting r).pageHolder.get p = if r.first ≤ p.val ∧ p.val < r.first + r.count then some r.slot else
          s.pageHolder.get p := holdPages_get s r.slot r.first r.count p
      have hb (j : SlotId) : (s.grantWaiting r).breach.get j = if j = r.slot then none else s.breach.get j :=
        holdPages_breach s r.slot j r.first r.count
      have hw : (s.grantWaiting r).leaseWaiting = s.leaseWaiting.filter fun q => q.slot ≠ r.slot := rfl
      have hg := grantWaiting_leaseGrant s r
      generalize s.grantWaiting r = t at *
      refine ⟨fun n => match n with | 0 => True | n + 1 => g n, fun n q hn => ?_, fun p h => ?_, fun j h => ?_, fun d h => ?_, ?_, fun q => ?_⟩
      · cases n with
        | zero =>
          have hq : r = q := by simpa using hn
          subst hq
          refine ⟨⟨fun _ p h => ⟨hfr p h, fun m _ hm => absurd hm (by omega)⟩, fun _ => trivial⟩, fun _ => ⟨fun p h => ?_, ?_, b4 _ ((hg r.card).2)⟩⟩
          · rw [b2 p fun n q hn hgn hq => ?_, hp, if_pos h]
            have := ((b1 n q hn).1.1 hgn p hq).1
            rw [hp, if_pos h] at this
            exact absurd this (by simp)
          · exact b3 _ (by rw [hb, if_pos rfl])
        | succ n =>
          have hq : rs[n]? = some q := by simpa using hn
          refine ⟨?_, fun h => (b1 n q hq).2 h⟩
          refine (b1 n q hq).1.trans ⟨fun h p hpq => ?_, fun h p hpq => ?_⟩
          · obtain ⟨h1, h2⟩ := h p hpq
            rw [hp] at h1
            by_cases hx : r.first ≤ p.val ∧ p.val < r.first + r.count
            · rw [if_pos hx] at h1; exact absurd h1 (by simp)
            · rw [if_neg hx] at h1
              refine ⟨h1, fun m x hm hx' hgm => ?_⟩
              cases m with
              | zero => have : r = x := by simpa using hx'
                        subst this; exact hx
              | succ m => exact h2 m x (by omega) (by simpa using hx') hgm
          · obtain ⟨h1, h2⟩ := h p hpq
            refine ⟨?_, fun m x hm hx hgm => h2 (m + 1) x (by omega) (by simpa using hx) hgm⟩
            rw [hp, if_neg (h2 0 r (by omega) (by simp) trivial)]; exact h1
      · rw [b2 p fun n q hn hgn => h (n + 1) q (by simpa using hn) hgn, hp, if_neg (h 0 r (by simp) trivial)]
      · refine b3 j ?_
        rw [hb]; split
        · rfl
        · exact h
      · exact b4 d ((hg d).1 h)
      · exact b5.trans (by rw [hw]; exact List.filter_sublist)
      · rw [b6, hw, List.mem_filter]
        refine ⟨fun ⟨⟨h1, h2⟩, h3⟩ => ⟨h1, fun n x hn hgn => ?_⟩, fun ⟨h1, h2⟩ => ⟨⟨h1, ?_⟩, fun n x hn hgn => h2 (n + 1) x (by simpa using hn) hgn⟩⟩
        · cases n with
          | zero => have : r = x := by simpa using hn
                    subst this; intro he; exact absurd h2 (by simp [he])
          | succ n => exact h3 n x (by simpa using hn) hgn
        · have := h2 0 r (by simp) trivial
          simpa using fun he : q.slot = r.slot => this he.symm
    · rw [if_neg hf]
      have hfr : ¬ ∀ p : PageId, r.first ≤ p.val ∧ p.val < r.first + r.count → s.pageHolder.get p = none := fun h => hf ((pagesFree_iff _ _ _).2 h)
      obtain ⟨g, b1, b2, b3, b4, b5, b6⟩ := ih s
      refine ⟨fun n => match n with | 0 => False | n + 1 => g n, fun n q hn => ?_, fun p h => ?_, b3, b4, b5, fun q => ?_⟩
      · cases n with
        | zero =>
          have hq : r = q := by simpa using hn
          subst hq
          exact ⟨⟨fun h => h.elim, fun h => hfr fun p hp => (h p hp).1⟩, fun h => h.elim⟩
        | succ n =>
          have hq : rs[n]? = some q := by simpa using hn
          refine ⟨(b1 n q hq).1.trans ⟨fun h p hpq => ?_, fun h p hpq => ?_⟩, fun h => (b1 n q hq).2 h⟩
          · obtain ⟨h1, h2⟩ := h p hpq
            refine ⟨h1, fun m x hm hx hgm => ?_⟩
            cases m with
            | zero => exact hgm.elim
            | succ m => exact h2 m x (by omega) (by simpa using hx) hgm
          · obtain ⟨h1, h2⟩ := h p hpq
            exact ⟨h1, fun m x hm hx hgm => h2 (m + 1) x (by omega) (by simpa using hx) hgm⟩
      · exact b2 p fun n q hn hgn => h (n + 1) q (by simpa using hn) hgn
      · rw [b6]
        refine and_congr_right fun _ => ⟨fun h n x hn hgn => ?_, fun h n x hn hgn => h (n + 1) x (by simpa using hn) hgn⟩
        cases n with
        | zero => exact hgn.elim
        | succ n => exact h n x (by simpa using hn) hgn

end Sys2Proof.Machine
end

