-- ==== Sys2Proof/Laws/BusWork.lean ====
section
/-! SUPPORT. Laws of the bus and of attention: grants, strobes, the ends of tenures, and what a snapshot leaves. -/

namespace Sys2Proof.Machine

theorem beginTenure_begins (s : State) (r : Request) : ∃ t, s.begins r t ∧ (s.beginTenure r) = { s with tenure := some t } := by
  refine ⟨_, ?_, rfl⟩
  refine ⟨rfl, rfl, rfl, rfl, rfl, rfl, rfl, rfl, rfl, rfl, ?_⟩
  refine ⟨fun h => if_neg h, fun h e m he hm hb => ?_⟩
  show s.wordToDrive r = _
  unfold State.wordToDrive
  rw [if_pos h]
  unfold State.streamWord State.streamAddr Card.wordsMoved
  rw [hm]
  have : s.record r.card = e := by unfold State.record Sequencer.record; rw [he]; rfl
  rw [this]
  show s.word (0x4000 + (128 * e.w1.toNat + 2 * m.wordsMoved) % 0x4000) = _
  rw [Nat.mod_eq_of_lt (by omega)]
  congr 1; omega

/-- The first card from the one after `last` that wants the bus (R117). -/
theorem roundRobin_eq (last n : CardId) (w : CardId → Bool) (hn : w (last + 1 + n) = true) (hm : ∀ m, m < n → w (last + 1 + m) = false) :
    roundRobin last w = some (last + 1 + n) := by
  unfold roundRobin allCards
  rw [List.find?_map]
  have : ∀ (f : CardId → Bool), f n = true → (∀ m, m < n → f m = false) → (List.finRange 8).find? f = some n := by
    intro f h1 h2
    rw [List.find?_eq_some_iff_getElem]
    refine ⟨h1, n.val, by simp, by simp, fun j hj => ?_⟩
    simp only [List.getElem_finRange]
    have := h2 ⟨j, by omega⟩ (by simpa [Fin.lt_def] using hj)
    simpa using this
  rw [this (w ∘ fun i => last + 1 + i) hn hm]; rfl

theorem roundRobin_none (last : CardId) (w : CardId → Bool) (h : ∀ c, w c = false) : roundRobin last w = none := by
  unfold roundRobin
  rw [List.find?_eq_none]; intro c _; rw [h c]; decide

theorem exec_releases (s : State) (t : Tenure) (stop : Bool) (data : Word) (c : Instr) (h : s.releases t stop data c) :
    exec c s = .next (s.releaseStrobe t stop data) := by
  obtain ⟨ht, hm, ⟨hp, hc⟩ | ⟨hp, hc⟩⟩ := h
  · subst hc
    show Host.Outcome.next (s.strobeWidthEnd true stop data) = _
    unfold State.strobeWidthEnd Tenure.held
    rw [ht]; simp only [hp, hm]
    rfl
  · subst hc
    show Host.Outcome.next (s.rdyRise stop data) = _
    unfold State.rdyRise Tenure.held
    rw [ht]; simp only [hp, hm]
    rfl

theorem wordToDrive_drives (s : State) (r : Request) : s.drives r (s.wordToDrive r) := by
  obtain ⟨t, h, e⟩ := beginTenure_begins s r
  have := h.2.2.2.2.2.2.2.2.2.2
  have h3 := congrArg State.tenure e
  have h4 : some (_ : Tenure) = some t := h3
  injection h4 with h4
  rw [← h4] at this
  exact this

theorem record_of_copy (s : State) (c : CardId) (e : StepRecord) (h : (s.card c).seq.copy = some e) : s.record c = e := by
  unfold State.record Sequencer.record; rw [h]; rfl

theorem record_updCard_copy (s : State) (c : CardId) (f : Card → Card) (e : StepRecord) (h : (f (s.card c)).seq.copy = some e) :
    (s.updCard c f).record c = e :=
  record_of_copy _ _ _ (by rw [card_updCard_same]; exact h)

/-- A job tenure that is over hands its end to the sequencer that holds it. -/
theorem jobTenureEnd_eq (s : State) (p : Tenure → Bool) (take : Tenure → SlotId → State → State) (t : Tenure) (i : SlotId) (e : StepRecord)
    (h : s.jobTenureOver t i e) (hp : p t = true) : s.jobTenureEnd p take = take t i { s with tenure := none } := by
  obtain ⟨ht, _, ha, hph, _⟩ := h
  unfold State.jobTenureEnd
  rw [ht]; simp only
  rw [if_pos hp, ha, hph]

theorem over_of_strobes (t : Tenure) (h1 : t.phase = .recovery) (h2 : t.mark = .going) (h3 : t.req.strobes ≤ t.strobe + 1) : t.over = true := by
  unfold Tenure.over Tenure.held; rw [h1, h2]; simpa using h3

theorem failWithDetail_eq (s : State) (c : CardId) (i : SlotId) (o : JobOutcome) (d : Word) (h : (s.card c).seq.active = some i) :
    s.failWithDetail c o d = (s.setSlotWord i 6 d).failJob c o (some d) := by
  unfold State.failWithDetail State.setDetail; rw [h]

theorem beginAbandon_eq (s : State) (c : CardId) (e : StepRecord) (m : StreamRec) (why : AbandonReason) (hc : (s.card c).seq.copy = some e)
    (hst : (s.card c).stream = some m) :
    s.beginAbandon c why = s.updCard c fun k => { k.asks (abandonRequest c e) with stream := some { m with stage := .abandoning why } } := by
  unfold State.beginAbandon State.updStream State.requestJob
  rw [updCard_updCard]
  refine updCard_congr _ _ _ _ ?_
  unfold Card.asks abandonRequest Sequencer.record
  simp only [hst, hc]; rfl

theorem nextBurst_eq (s : State) (c : CardId) (e : StepRecord) (m : StreamRec) (hc : (s.card c).seq.copy = some e) (hst :
    (s.card c).stream = some m) :
    s.nextBurst c m = s.updCard c fun k => { k.asks { card := c, kind := (match m.dir with | .into => .burstIn | .out => .burstOut), regs := [e.register], count := min 64 (e.w3.toNat - 64 * (m.nextBurst + 1)), data := 0, opening := false } with stream := some { m with nextBurst := m.nextBurst + 1 } } := by
  unfold State.nextBurst State.requestBurst State.requestJob State.updStream
  have hrr : (s.updCard c fun k => { k with stream := k.stream.map fun m => { m with nextBurst := m.nextBurst + 1 } }).record c = e := record_of_copy _ _ _ (by rw [card_updCard_same]; exact hc)
  rw [hrr, updCard_updCard]
  refine updCard_congr _ _ _ _ ?_
  unfold Card.asks Sequencer.record
  simp only [hst, hc]
  have h0 : (m.nextBurst + 1 == 0) = false := by simp
  rw [h0]
  obtain ⟨st, dir, nb, wm, ck, bg⟩ := m
  cases dir <;> rfl

theorem updCard_self (s : State) (c : CardId) : (s.updCard c fun k => k) = s := by
  unfold State.updCard State.card upd
  have : s.cards.set c.val (s.cards.get c) c.isLt = s.cards := by
    simp [Vector.get_eq_getElem]
  rw [this]

theorem failJob_idle (s : State) (c : CardId) (o : JobOutcome) (d : Option Word) (h : (s.card c).seq.active = none) : s.failJob c o d = s := by
  unfold State.failJob State.endJob
  have : s.dropStream c = s := by unfold State.dropStream; rw [h]
  rw [this]
  rw [updCard_congr s c _ (fun k => k) (by unfold Card.report; rw [h])]
  exact updCard_self s c

theorem setProfileWord_bytes (s : State) (c : CardId) (n : Nat) (w : Word) : s.sameBytesBut (s.setProfileWord c n w) (profileAddr c n)
    (profileAddr c n + 2) := by
  intro a ha
  show readByte (writeWord s.mem (profileAddr c n) w) a = _
  exact readByte_writeWord_other _ _ _ _ (by omega)

theorem profileWord_setProfileWord_get (s : State) (c : CardId) (n : Nat) (w : Word) : (s.setProfileWord c n w).profileWord c n = w :=
  readWord_writeWord_same _ _ _

theorem faults_and_code (k : TenureKind) (code : Nat) (h : k = .registerWrite ∧ code = 1 ∨ k = .registerRead ∧ code = 2 ∨
    k = .attentionRead ∧ code = 3 ∨
      k = .checkOut ∧ code = 6 ∨ k = .checkIn ∧ code = 7) : k.faults = true ∧ k.code = code := by
  rcases h with ⟨h, h'⟩ | ⟨h, h'⟩ | ⟨h, h'⟩ | ⟨h, h'⟩ | ⟨h, h'⟩ <;> subst h <;> subst h' <;> exact ⟨rfl, rfl⟩

theorem rearm_rearmsTo (k : Card) : k.rearmsTo (if k.presence = .ready then rearmed k.sense k.atnLine else .disarmed) := by
  unfold Card.rearmsTo rearmed Card.sense
  refine ⟨fun h => ?_, fun h1 h2 => ?_, fun h1 h2 => ?_, fun h1 h2 => ?_⟩
  · rcases h with h | h
    · rw [if_neg h]
    · split
      · rw [h]
      · rfl
  · rw [if_pos h1]; rcases h2 with h2 | h2 <;> rw [h2]
  · rw [if_pos h1, h2]
  · rw [if_pos h1, h2]

theorem setWords_card (c : CardId) (ws : List Word) : ∀ (x : State) (a : Nat), (x.setWords a ws).card c = x.card c := by
  induction ws with
  | nil => intro x a; rfl
  | cons w ws ih => intro x a; unfold State.setWords; rw [ih]; rfl

theorem setWords_frame (ws : List Word) : ∀ (x : State) (a : Nat), { x.setWords a ws with mem := x.mem } = x := by
  induction ws with
  | nil => intro x a; rfl
  | cons w ws ih =>
    intro x a; unfold State.setWords
    have h := ih (x.setWord a w) (a + 2)
    have := congrArg (fun z : State => { z with mem := x.mem }) h
    exact this

theorem writeSnapshot_snapshotTaken (s : State) (c : CardId) (values : List Word) (hl : values.length ≤ 4) : s.snapshotTaken
    ((s.writeSnapshot c values).countCompleted c) c values := by
  have ht : values.take 4 = values := List.take_of_length_le hl
  have hw : s.writeSnapshot c values = s.setWords (profileAddr c 9) values := by unfold State.writeSnapshot; rw [ht]
  rw [hw]
  have hoth := setWords_other values s (profileAddr c 9)
  have h13 : (s.setWords (profileAddr c 9) values).profileWord c 13 = s.profileWord c 13 := by
    unfold State.profileWord State.word readWord
    rw [hoth _ (by simp only [profileAddr]; omega), hoth _ (by simp only [profileAddr]; omega)]
  refine ⟨fun n v h => ?_, ?_, fun a h1 h2 => ?_, ?_⟩
  · obtain ⟨hn, hv⟩ := List.getElem?_eq_some_iff.1 h
    have := setWords_get values s (profileAddr c 9) n hn
    rw [← hv, ← this]
    unfold State.countCompleted State.setProfileWord State.profileWord State.word State.setWord
    rw [readWord_writeWord_other _ _ _ _ (by simp only [profileAddr]; omega)]
    congr 1
    simp only [profileAddr]; omega
  · unfold State.countCompleted
    rw [profileWord_setProfileWord_get, h13]
  · unfold State.countCompleted
    rw [setProfileWord_bytes _ _ _ _ a (by simp only [profileAddr] at *; omega)]
    exact hoth _ (by simp only [profileAddr] at *; omega)
  · have := setWords_frame values s (profileAddr c 9)
    exact this

theorem copySnapshot_bytes (c : CardId) (i : SlotId) (base : Nat) (js : List Nat) : ∀ s : State, s.sameBytesBut (s.copySnapshot c i base js)
    (slotAddr i 8) (slotAddr i 16) := by
  induction js with
  | nil => intro s a _; rfl
  | cons j js ih =>
    intro s a ha
    unfold State.copySnapshot
    rw [ih _ a ha]
    unfold State.setCapture
    split
    · exact readByte_writeWord_other s.mem (slotAddr i (8 + (base + j))) a _ (by simp only [slotAddr] at *; omega)
    · rfl

theorem copySnapshot_frame (c : CardId) (i : SlotId) (base : Nat)
    (js : List Nat) : ∀ s : State, { s.copySnapshot c i base js with mem := s.mem } = s := by
  induction js with
  | nil => intro s; rfl
  | cons j js ih =>
    intro s
    unfold State.copySnapshot
    have h := ih (s.setCapture i (base + j) (s.profileWord c (9 + j)))
    generalize State.copySnapshot _ c i base js = x at h ⊢
    have h2 : { s.setCapture i (base + j) (s.profileWord c (9 + j)) with mem := s.mem } = s := by
      unfold State.setCapture; split <;> rfl
    have := congrArg (fun z : State => { z with mem := s.mem }) h
    exact Eq.trans this h2

end Sys2Proof.Machine
end

