-- ==== Sys2Proof/Laws/Removal.lean ====
section
/-! SUPPORT. Laws of removal: the end of a slot, of a card's queue, and of what the part did for the card. -/

namespace Sys2Proof.Machine

theorem post_bytes (s : State) (n : Notice) (a : Nat) (h : a < 0x0520 ∨ 0x091F < a) : readByte (s.post n).mem a = readByte s.mem a := by
  unfold State.post
  split
  · rfl
  · split
    · rfl
    · show readByte (s.setWords (noticeAddr s.produced.toNat 0) (n.entry s.msClock s.produced)).mem a = _
      have : s.produced.toNat % 64 < 64 := Nat.mod_lt _ (by decide)
      rw [setWords_other]
      simp only [noticeAddr, Config.noticeBase, Config.ringSize, Notice.entry, List.length_cons, List.length_nil] at *; omega

theorem post_frame (s : State) (n : Notice) : { s.post n with mem := s.mem, produced := s.produced, lost := s.lost } = s := by
  unfold State.post
  split
  · rfl
  · split
    · rfl
    · have h := setWords_frame (n.entry s.msClock s.produced) s (noticeAddr s.produced.toNat 0)
      simp only
      generalize s.setWords _ _ = x at h ⊢
      have := congrArg (fun z : State => { z with mem := s.mem, produced := s.produced, lost := s.lost }) h
      exact this

theorem postJobDone_bytes (s : State) (i : SlotId) (a : Nat) (h : a < 0x0520 ∨ 0x091F < a) : readByte (s.postJobDone i).mem a = readByte s.mem a := by
  unfold State.postJobDone; split
  · exact post_bytes _ _ _ h
  · rfl

theorem postJobDone_frame (s : State) (i : SlotId) : { s.postJobDone i with mem := s.mem, produced := s.produced, lost := s.lost } = s := by
  unfold State.postJobDone; split
  · exact post_frame _ _
  · rfl

/-- The end of slot `i` from `x` to `y`, its notice and the engine's judgement included (R20, R201). -/
structure EndsSlot (x y : State) (i : SlotId) (w4 w5 w6 : Word) : Prop where
  slot : y.slot i = { state := .done, cause := none }
  slots : ∀ j, j ≠ i → y.slot j = x.slot j
  w4 : y.slotWord i 4 = w4
  w5 : y.slotWord i 5 = w5
  w6 : y.slotWord i 6 = w6
  bytes : ∀ a, (a < slotAddr i 4 ∨ slotAddr i 7 ≤ a) → (a < 0x0520 ∨ 0x091F < a) → readByte y.mem a = readByte x.mem a
  order : y.acceptOrder = x.acceptOrder.filter fun j => j ≠ i
  card : ∀ d, { y.card d with cancelNotice := (x.card d).cancelNotice } = x.card d
  frame : { y with mem := x.mem, slots := x.slots, acceptOrder := x.acceptOrder, cards := x.cards, produced := x.produced, lost := x.lost, engine := x.engine } = x

theorem endsSlot_postJobDone (x u : State) (i j : SlotId) (w4 w5 w6 : Word) (h : EndsSlot x u i w4 w5 w6) : EndsSlot x (u.postJobDone j) i w4 w5 w6 := by
  have hf := postJobDone_frame u j
  have hsl (k : SlotId) : (u.postJobDone j).slot k = u.slot k := by
    have := congrArg (fun z : State => z.slot k) hf; exact this
  have hw (m : Nat) (hm : m < 16) : (u.postJobDone j).slotWord i m = u.slotWord i m :=
    slotWord_congr i m fun a h1 h2 => postJobDone_bytes u j a (by have := i.isLt; simp only [slotAddr, Config.slotBase] at *; omega)
  refine ⟨by rw [hsl]; exact h.slot, fun k hk => by rw [hsl]; exact h.slots k hk, by rw [hw 4 (by decide)]; exact h.w4, by rw [hw 5 (by decide)]; exact h.w5,
    by rw [hw 6 (by decide)]; exact h.w6, fun a h1 h2 => (postJobDone_bytes u j a h2).trans (h.bytes a h1 h2), ?_, fun d => by rw [card_postJobDone]; exact h.card d, ?_⟩
  · have := congrArg State.acceptOrder hf
    exact this.trans h.order
  · have := congrArg (fun z : State => { z with mem := x.mem, slots := x.slots, acceptOrder := x.acceptOrder, cards := x.cards, produced := x.produced, lost := x.lost, engine := x.engine }) hf
    exact this.trans h.frame

theorem endsSlot_drainCheck (x u : State) (i : SlotId) (w4 w5 w6 : Word) (h : EndsSlot x u i w4 w5 w6) : EndsSlot x u.drainCheck i w4 w5 w6 := by
  have hf := drainCheck_frame u
  have hm : u.drainCheck.mem = u.mem := by have := congrArg State.mem hf; exact this
  have hsl (k : SlotId) : u.drainCheck.slot k = u.slot k := by have := congrArg (fun z : State => z.slot k) hf; exact this
  have hw (m : Nat) : u.drainCheck.slotWord i m = u.slotWord i m := by unfold State.slotWord State.word; rw [hm]
  refine ⟨by rw [hsl]; exact h.slot, fun k hk => by rw [hsl]; exact h.slots k hk, by rw [hw]; exact h.w4, by rw [hw]; exact h.w5,
    by rw [hw]; exact h.w6, fun a h1 h2 => by rw [hm]; exact h.bytes a h1 h2, ?_, fun d => by rw [card_drainCheck]; exact h.card d, ?_⟩
  · have := congrArg State.acceptOrder hf
    exact this.trans h.order
  · have := congrArg (fun z : State => { z with mem := x.mem, slots := x.slots, acceptOrder := x.acceptOrder, cards := x.cards, produced := x.produced, lost := x.lost, engine := x.engine }) hf
    exact this.trans h.frame

theorem endsSlot_passDone (x : State) (i : SlotId) (o : JobOutcome) (w5 w6 : Option Word) : EndsSlot x (x.passDone i o w5 w6) i o.code
    (w5.getD (x.slotWord i 5)) (w6.getD (x.slotWord i 6)) := by
  obtain ⟨e1, e2, e3, e4, e5, e6, e7, e8, e9⟩ := passDone_endsSlot x i o w5 w6
  refine ⟨e1, e2, e3, e4, e5, fun a h _ => e6 a h, e7, e8, ?_⟩
  have := congrArg (fun z : State => { z with mem := x.mem, slots := x.slots, acceptOrder := x.acceptOrder, cards := x.cards, produced := x.produced, lost := x.lost, engine := x.engine }) e9
  exact this

theorem endWaiting_endsSlot (x : State) (i : SlotId) (o : JobOutcome) (w5 w6 : Option Word) : EndsSlot x (x.endWaiting i o w5 w6) i o.code
    (w5.getD (x.slotWord i 5)) (w6.getD (x.slotWord i 6)) :=
  endsSlot_postJobDone _ _ _ _ _ _ _ (endsSlot_passDone x i o w5 w6)

theorem endInProgress_endsSlot (x : State) (i : SlotId) (o : JobOutcome) (w5 w6 : Option Word) : EndsSlot x
    (x.endInProgress i o w5 w6) i o.code (w5.getD (x.slotWord i 5)) (w6.getD (x.slotWord i 6)) :=
  endsSlot_postJobDone _ _ _ _ _ _ _ (endsSlot_drainCheck _ _ _ _ _ _ (endsSlot_passDone x i o w5 w6))

theorem endWaiting_engine (x : State) (i : SlotId) (o : JobOutcome) (w5 w6 : Option Word) : (x.endWaiting i o w5 w6).engine = x.engine := by
  have h1 := congrArg State.engine (postJobDone_frame (x.passDone i o w5 w6) i)
  have h2 := congrArg State.engine (passDone_frame x i o w5 w6)
  exact h1.trans h2

theorem endInProgress_engine (x : State) (i : SlotId) (o : JobOutcome) (w5 w6 : Option Word) :
    (x.endInProgress i o w5 w6).engine = if x.engine = .draining ∧ ∀ j, j ≠ i → (x.slot j).state ≠ .active ∧
        (x.slot j).state ≠ .cancelling then .halted else x.engine := by
  have h1 := congrArg State.engine (postJobDone_frame (x.passDone i o w5 w6).drainCheck i)
  have h2 := congrArg State.engine (passDone_frame x i o w5 w6)
  have e := endsSlot_passDone x i o w5 w6
  refine Eq.trans h1 ?_
  generalize x.passDone i o w5 w6 = q at *
  unfold State.drainCheck
  have hqe : q.engine = x.engine := h2
  have hany : q.anyInProgress = true ↔ ∃ j, j ≠ i ∧ ((x.slot j).state = .active ∨ (x.slot j).state = .cancelling) := by
    rw [anyInProgress_iff]
    constructor
    · rintro ⟨j, hj⟩
      by_cases hji : j = i
      · subst hji; rw [e.slot] at hj; simp at hj
      · rw [e.slots j hji] at hj; exact ⟨j, hji, hj⟩
    · rintro ⟨j, hji, hj⟩
      exact ⟨j, by rw [e.slots j hji]; exact hj⟩
  rw [hqe]
  by_cases hd : x.engine = .draining
  · by_cases ha : ∃ j, j ≠ i ∧ ((x.slot j).state = .active ∨ (x.slot j).state = .cancelling)
    · rw [hany.2 ha, if_neg (by simp), if_neg]
      · exact hqe
      · rintro ⟨_, hx⟩; obtain ⟨j, hji, hj⟩ := ha
        rcases hj with hj | hj
        · exact (hx j hji).1 hj
        · exact (hx j hji).2 hj
    · have hf : q.anyInProgress = false := by
        cases hx : q.anyInProgress
        · rfl
        · exact absurd (hany.1 hx) ha
      rw [hf, if_pos (by simp [hd]), if_pos]
      refine ⟨hd, fun j hji => ⟨fun h => ha ⟨j, hji, Or.inl h⟩, fun h => ha ⟨j, hji, Or.inr h⟩⟩⟩
  · rw [if_neg (by simp [hd]), if_neg (by simp [hd])]; exact hqe

/-- The end of every slot of a removed card's queue (R149). -/
structure Drains (x y : State) (c : CardId) (q : List SlotId) : Prop where
  slot : ∀ j ∈ q, y.slot j = { state := .done, cause := none }
  slots : ∀ j, j ∉ q → y.slot j = x.slot j
  words : ∀ j ∈ q, y.slotWord j 4 = JobOutcome.cardAbsent.code ∧ y.slotWord j 5 = 0 ∧ y.slotWord j 6 = x.slotWord j 6
  bytes : ∀ a, (∀ j ∈ q, a < slotAddr j 4 ∨ slotAddr j 7 ≤ a) → (a < 0x0520 ∨ 0x091F < a) → readByte y.mem a = readByte x.mem a
  order : y.acceptOrder = x.acceptOrder.filter fun j => decide (j ∉ q)
  cardc : ∃ n, y.card c = { x.card c with queue := if q = [] then (x.card c).queue else [], cancelNotice := n }
  card : ∀ d, d ≠ c → { y.card d with cancelNotice := (x.card d).cancelNotice } = x.card d
  engine : y.engine = x.engine
  frame : { y with mem := x.mem, slots := x.slots, acceptOrder := x.acceptOrder, cards := x.cards, produced := x.produced, lost := x.lost } = x

theorem drainQueue_drains (c : CardId) (q : List SlotId) : ∀ x : State, Drains x (x.drainQueue c q) c q := by
  induction q with
  | nil =>
    intro x
    refine ⟨fun j h => absurd h (by simp), fun _ _ => rfl, fun j h => absurd h (by simp), fun _ _ _ => rfl, ?_, ⟨_, rfl⟩, fun _ _ => rfl, rfl, rfl⟩
    simp [State.drainQueue]
  | cons i q ih =>
    intro x
    unfold State.drainQueue
    generalize hz : (x.updCard c fun k => { k with queue := q }) = z
    have hzc : z.card c = { x.card c with queue := q } := by rw [← hz, card_updCard_same]
    have hzo (d : CardId) (h : d ≠ c) : z.card d = x.card d := by rw [← hz, card_updCard_other _ _ _ _ h]
    have hzf : { z with cards := x.cards } = x := by rw [← hz]; rfl
    have hzm : z.mem = x.mem := by rw [← hz]; rfl
    have hzs (j : SlotId) : z.slot j = x.slot j := by rw [← hz]; rfl
    have hzord : z.acceptOrder = x.acceptOrder := by rw [← hz]; rfl
    have hze : z.engine = x.engine := by rw [← hz]; rfl
    have hzw (j : SlotId) (m : Nat) : z.slotWord j m = x.slotWord j m := by unfold State.slotWord State.word; rw [hzm]
    have e := endWaiting_endsSlot z i .cardAbsent (some 0) none
    have ee := endWaiting_engine z i .cardAbsent (some 0) none
    generalize z.endWaiting i .cardAbsent (some 0) none = u at e ee
    have d := ih u
    generalize u.drainQueue c q = y at d ⊢
    refine ⟨fun j hj => ?_, fun j hj => ?_, fun j hj => ?_, fun a h1 h2 => ?_, ?_, ?_, fun k hk => ?_, ?_, ?_⟩
    · by_cases h : j ∈ q
      · exact d.slot j h
      · rw [d.slots j h]
        rcases List.mem_cons.1 hj with hj | hj
        · subst hj; exact e.slot
        · exact absurd hj h
    · rw [d.slots j (fun h => hj (by simp [h])), e.slots j (fun h => hj (by simp [h])), hzs]
    · by_cases h : j ∈ q
      · obtain ⟨a1, a2, a3⟩ := d.words j h
        refine ⟨a1, a2, a3.trans ?_⟩
        by_cases hji : j = i
        · subst hji; rw [e.w6]; exact hzw j 6
        · rw [← hzw]
          refine slotWord_congr j 6 fun a h1 h2 => e.bytes a ?_ ?_
          · have : j.val ≠ i.val := fun h => hji (Fin.ext h)
            simp only [slotAddr, Config.slotBase] at *; omega
          · have := j.isLt; simp only [slotAddr, Config.slotBase] at *; omega
      · rcases List.mem_cons.1 hj with hj | hj
        · subst hj
          have hw (m : Nat) (h4 : m < 16) : y.slotWord j m = u.slotWord j m := by
            refine slotWord_congr j m fun a h1 h2 => d.bytes a (fun k hk => ?_) ?_
            · have : j.val ≠ k.val := fun h' => h (by rw [show j = k from Fin.ext h']; exact hk)
              simp only [slotAddr, Config.slotBase] at *; omega
            · have := j.isLt; simp only [slotAddr, Config.slotBase] at *; omega
          rw [hw 4 (by decide), hw 5 (by decide), hw 6 (by decide), e.w4, e.w5, e.w6]
          exact ⟨rfl, rfl, hzw j 6⟩
        · exact absurd hj h
    · rw [d.bytes a (fun j hj => h1 j (by simp [hj])) h2, e.bytes a (h1 i (by simp)) h2, hzm]
    · rw [d.order, e.order, hzord, List.filter_filter]
      refine List.filter_congr fun j _ => ?_
      simp only [List.mem_cons, not_or]
      by_cases h1 : j = i <;> by_cases h2 : j ∈ q <;> simp [h1, h2]
    · obtain ⟨n, hn⟩ := d.cardc
      have h := congrArg (fun k : Card => { k with cancelNotice := (u.card c).cancelNotice }) (e.card c)
      rw [hzc] at h
      have hu : u.card c = { x.card c with queue := q, cancelNotice := (u.card c).cancelNotice } := h
      refine ⟨n, ?_⟩
      rw [hn, hu]
      simp only [List.cons_ne_nil, if_false]
      split
      · rename_i hq; rw [hq]
      · rfl
    · have h1 := d.card k hk
      have h2 := e.card k
      rw [hzo k hk] at h2
      have := congrArg (fun m : Card => { m with cancelNotice := (x.card k).cancelNotice }) h1
      exact this.trans h2
    · rw [d.engine, ee, hze]
    · have h1 := congrArg (fun m : State => { m with mem := x.mem, slots := x.slots, acceptOrder := x.acceptOrder, cards := x.cards, produced := x.produced, lost := x.lost }) d.frame
      have h2 := congrArg (fun m : State => { m with mem := x.mem, slots := x.slots, acceptOrder := x.acceptOrder, cards := x.cards, produced := x.produced, lost := x.lost, engine := u.engine }) e.frame
      have h3 : { z with mem := x.mem, slots := x.slots, acceptOrder := x.acceptOrder, cards := x.cards, produced := x.produced, lost := x.lost, engine := u.engine } = x := by
        rw [ee, hze, ← hz]; rfl
      exact h1.trans (h2.trans h3)

theorem dropStream_mem (s : State) (c : CardId) : (s.dropStream c).mem = s.mem := by
  have := endJob_mem s c .stopped
  exact this

/-- What an examination leaves alone: everything but the cards and the lease table (R77). -/
theorem examineLeases_frame (rs : List LeaseRequest) : ∀ s : State,
    { examineLeases rs s with cards := s.cards, pageHolder := s.pageHolder, breach := s.breach, leaseWaiting := s.leaseWaiting } = s := by
  induction rs with
  | nil => intro s; rfl
  | cons r rs ih =>
    intro s; unfold examineLeases
    generalize hx : (if s.pagesFree r.first r.count then s.grantWaiting r else s) = x
    have hf : { x with cards := s.cards, pageHolder := s.pageHolder, breach := s.breach, leaseWaiting := s.leaseWaiting } = s := by
      rw [← hx]; split <;> rfl
    have h := congrArg (fun z : State => { z with cards := s.cards, pageHolder := s.pageHolder, breach := s.breach, leaseWaiting := s.leaseWaiting }) (ih x)
    exact Eq.trans h hf

theorem dropStream_frame (s : State) (c : CardId) :
    { s.dropStream c with cards := s.cards, pageHolder := s.pageHolder, breach := s.breach, leaseWaiting := s.leaseWaiting } = s := by
  unfold State.dropStream
  split
  · unfold State.dropLease
    simp only
    split
    · rfl
    · rename_i i _ _ _ _
      have h := congrArg (fun z : State => { z with cards := s.cards, pageHolder := s.pageHolder, breach := s.breach, leaseWaiting := s.leaseWaiting })
        (examineLeases_frame s.leaseWaiting (s.freePages i))
      exact h
  · rfl

theorem cutTenure_frame (s : State) (c : CardId) : { s.cutTenure c with tenure := s.tenure } = s := by
  unfold State.cutTenure; split
  · split <;> rfl
  · rfl

theorem cutTenure_tenure (s : State) (c : CardId) :
    (s.cutTenure c).tenure = s.tenure.map fun t => if t.req.card = c then { t with phase := .recovery, mark := .cut } else t := by
  unfold State.cutTenure
  cases h : s.tenure with
  | none => simp [h]
  | some t =>
    simp only [Option.map_some]
    split
    · rfl
    · exact h

/-- What a removal takes down at the card and on the bus before its slots end (R148). -/
structure TakenDown (s t : State) (c : CardId) : Prop where
  card : ∃ g b, t.card c = { (s.card c) with presence := .absent, jobReq := none, crst := false, seq := (s.card c).seq.toIdle, stream := none, endReport := none, cancelNotice := none, leaseGrant := g, profile := Profile.default, detector := .disarmed, attnPhase := .quiet, attnReq := none, voidRead := false, claimable := false, baseline := b }
  cards : ∀ d, d ≠ c → Card.sameButMessages (s.card d) (t.card d)
  tenure : t.tenure = s.tenure.map fun t => if t.req.card = c then { t with phase := .recovery, mark := .cut } else t
  w14 : t.profileWord c 14 = (if (s.card c).claimable then s.profileWord c 14 + 1 else s.profileWord c 14)
  bytes : ∀ a, (a < profileAddr c 14 ∨ profileAddr c 15 ≤ a) → readByte t.mem a = readByte s.mem a
  leases : ∀ i, (s.card c).seq.active = some i → (s.card c).stream.isSome = true →
        ((∀ q ∈ s.leaseWaiting, q.slot ≠ i) → (∀ p, t.pageHolder.get p ≠ some i) ∧ t.breach.get i = none) ∧
        ((∃ q ∈ s.leaseWaiting, q.slot = i) → t.pageHolder = s.pageHolder ∧
          t.leaseWaiting = s.leaseWaiting.filter fun q => q.slot ≠ i)
  noleases : (s.card c).stream = none → t.pageHolder = s.pageHolder ∧ t.breach = s.breach ∧ t.leaseWaiting = s.leaseWaiting
  frame : { t with mem := s.mem, cards := s.cards, tenure := s.tenure, pageHolder := s.pageHolder, breach := s.breach, leaseWaiting := s.leaseWaiting } = s

theorem takeDown_takenDown (s : State) (c : CardId) : TakenDown s ((s.updCard c fun k => { k with presence := .absent }).takeDown c) c := by
  have released : ∀ (s : State) (i : SlotId), (∀ q ∈ s.leaseWaiting, q.slot ≠ i) →
      (∀ p, (s.releaseLeases i).pageHolder.get p ≠ some i) ∧ (s.releaseLeases i).breach.get i = none := by
    intro s i hq
    obtain ⟨a1, _, a3, _⟩ := examineLeases_spec i s.leaseWaiting (s.freePages i) hq
    have hp (p : PageId) : (s.freePages i).pageHolder.get p = if s.pageHolder.get p = some i then none else s.pageHolder.get p := by
      unfold State.freePages; exact get_tab _ p
    refine ⟨a1 fun p => ?_, a3 ?_⟩
    · rw [hp]; split
      · simp
      · assumption
    · unfold State.freePages; simp
  have given : ∀ (s : State) (c : CardId) (i : SlotId), (s.card c).seq.active = some i → (s.card c).stream.isSome = true →
    ((∀ q ∈ s.leaseWaiting, q.slot ≠ i) →
      s.dropStream c = (s.releaseLeases i).updCard c fun k => { k with leaseGrant := false, stream := none }) ∧
    ((∃ q ∈ s.leaseWaiting, q.slot = i) →
      s.dropStream c = ({ s with leaseWaiting := s.leaseWaiting.filter fun q => q.slot ≠ i } : State).updCard c fun k =>
        { k with leaseGrant := false, stream := none }) := by
    intro s c i ha hst
    obtain ⟨m, hm⟩ := Option.isSome_iff_exists.1 hst
    have h1 : s.dropStream c = (s.dropLease c i).updCard c fun k => { k with stream := none } := by
      unfold State.dropStream; rw [ha, hm]
    rw [h1]
    unfold State.dropLease
    refine ⟨fun h => ?_, fun h => ?_⟩
    · have : (s.leaseWaiting.any fun q => q.slot = i) = false := by
        rw [List.any_eq_false]; intro q hq; simpa using h q hq
      rw [this, if_neg (by decide)]
      simp only
      rw [updCard_updCard]
    · have : (s.leaseWaiting.any fun q => q.slot = i) = true := by
        rw [List.any_eq_true]; obtain ⟨q, hq, h⟩ := h; exact ⟨q, hq, by simpa using h⟩
      rw [this, if_pos rfl]
      simp only
      rw [updCard_updCard]
  generalize hx : (s.updCard c fun k => { k with presence := .absent }) = x
  have hxc : x.card c = { s.card c with presence := .absent } := by rw [← hx, card_updCard_same]
  have hxf : { x with cards := s.cards } = s := by rw [← hx]; rfl
  unfold State.takeDown
  simp only
  have hyc (d : CardId) : (x.cutTenure c).card d = x.card d := card_cutTenure x c d
  have hyf := cutTenure_frame x c
  have hyt := cutTenure_tenure x c
  generalize hy : x.cutTenure c = y at *
  have hym : y.mem = s.mem := by
    have h1 := congrArg State.mem hyf; have h2 := congrArg State.mem hxf; exact h1.trans h2
  have hyl : y.pageHolder = s.pageHolder ∧ y.breach = s.breach ∧ y.leaseWaiting = s.leaseWaiting := by
    have h1 := congrArg (fun z : State => (z.pageHolder, z.breach, z.leaseWaiting)) hyf
    have h2 := congrArg (fun z : State => (z.pageHolder, z.breach, z.leaseWaiting)) hxf
    have h3 := Eq.trans h1 h2
    simp only [Prod.mk.injEq] at h3
    exact h3
  have hk : Keeps False y (y.dropStream c) := dropStream_keeps _ _
  obtain ⟨g, st, hzc⟩ := card_dropStream y c
  have hzo (d : CardId) (h : d ≠ c) := dropStream_eqm y c d h
  have hzm := dropStream_mem y c
  have hact : (y.card c).seq.active = (s.card c).seq.active := by rw [hyc, hxc]
  have hstr : (y.card c).stream = (s.card c).stream := by rw [hyc, hxc]
  have hA : ∀ i, (s.card c).seq.active = some i → (s.card c).stream.isSome = true →
        ((∀ q ∈ s.leaseWaiting, q.slot ≠ i) → (∀ p, (y.dropStream c).pageHolder.get p ≠ some i) ∧ (y.dropStream c).breach.get i = none) ∧
        ((∃ q ∈ s.leaseWaiting, q.slot = i) → (y.dropStream c).pageHolder = s.pageHolder ∧
          (y.dropStream c).leaseWaiting = s.leaseWaiting.filter fun q => q.slot ≠ i) := by
    intro i h1 h2
    obtain ⟨b1, b2⟩ := given y c i (by rw [hact]; exact h1) (by rw [hstr]; exact h2)
    rw [hyl.2.2] at b1 b2
    refine ⟨fun hq => ?_, fun hq => ?_⟩
    · rw [b1 hq]
      obtain ⟨l1, l3⟩ := released y i (by rw [hyl.2.2]; exact hq)
      exact ⟨l1, l3⟩
    · rw [b2 hq]
      exact ⟨hyl.1, rfl⟩
  have hB : (s.card c).stream = none → (y.dropStream c).pageHolder = s.pageHolder ∧ (y.dropStream c).breach = s.breach ∧ (y.dropStream c).leaseWaiting = s.leaseWaiting := by
    intro h
    have : y.dropStream c = y := by
      unfold State.dropStream; rw [hstr, h]
      cases (y.card c).seq.active <;> rfl
    rw [this]; exact hyl
  have hzt : (y.dropStream c).tenure = y.tenure := hk.tenure
  have hzf := dropStream_frame y c
  generalize y.dropStream c = z at *
  have hwf := clearClaimable_frame z c
  have hwc := card_clearClaimable z c
  have hwo (d : CardId) (h : d ≠ c) := clearClaimable_other z c d h
  have hww := clearClaimable_word z c
  have hwb := clearClaimable_bytes z c
  generalize z.clearClaimable c = w at *
  have hwl : w.pageHolder = z.pageHolder ∧ w.breach = z.breach ∧ w.leaseWaiting = z.leaseWaiting := by
    have h3 := congrArg (fun z : State => (z.pageHolder, z.breach, z.leaseWaiting)) hwf
    simp only [Prod.mk.injEq] at h3
    exact h3
  have hzw : z.profileWord c 14 = s.profileWord c 14 := by unfold State.profileWord State.word; rw [hzm, hym]
  have hzcl : (z.card c).claimable = (s.card c).claimable := by rw [hzc, hyc, hxc]
  refine ⟨⟨false, (s.card c).baseline, ?_⟩, fun d hd => ?_, ?_, ?_, fun a ha => ?_, fun i h1 h2 => ?_, fun h => ?_, ?_⟩
  · rw [card_updCard_same, hwc, hzc, hyc, hxc]
    rfl
  · rw [card_updCard_other _ _ _ _ hd, hwo d hd]
    have := hzo d hd
    rw [hyc] at this
    rw [← hx, card_updCard_other _ _ _ _ hd] at this
    exact this
  · show w.tenure = _
    have h1 := congrArg State.tenure hwf
    have h2 := congrArg State.tenure hxf
    have h1 : w.tenure = z.tenure := h1
    have h2 : x.tenure = s.tenure := h2
    rw [h1, hzt, hyt, h2]
  · show w.profileWord c 14 = _
    rw [hww, hzcl, hzw]
  · show readByte w.mem a = _
    rw [hwb a ha, hzm, hym]
  · obtain ⟨a1, a2⟩ := hA i h1 h2
    show (_ → (∀ p, w.pageHolder.get p ≠ some i) ∧ w.breach.get i = none) ∧ (_ → w.pageHolder = _ ∧ w.leaseWaiting = _)
    rw [hwl.1, hwl.2.1, hwl.2.2]
    exact ⟨a1, a2⟩
  · show w.pageHolder = _ ∧ w.breach = _ ∧ w.leaseWaiting = _
    rw [hwl.1, hwl.2.1, hwl.2.2]
    exact hB h
  · have h1 := congrArg (fun m : State => { m with mem := s.mem, cards := s.cards, tenure := s.tenure, pageHolder := s.pageHolder, breach := s.breach, leaseWaiting := s.leaseWaiting }) hwf
    have h2 := congrArg (fun m : State => { m with mem := s.mem, cards := s.cards, tenure := s.tenure, pageHolder := s.pageHolder, breach := s.breach, leaseWaiting := s.leaseWaiting }) hzf
    have h3 := congrArg (fun m : State => { m with mem := s.mem, cards := s.cards, tenure := s.tenure, pageHolder := s.pageHolder, breach := s.breach, leaseWaiting := s.leaseWaiting }) hyf
    have h4 := congrArg (fun m : State => { m with mem := s.mem, cards := s.cards, tenure := s.tenure, pageHolder := s.pageHolder, breach := s.breach, leaseWaiting := s.leaseWaiting }) hxf
    exact h1.trans (h2.trans (h3.trans h4))

end Sys2Proof.Machine
end

