-- ==== Sys2Proof/Laws/Stops.lean ====
section
/-! SUPPORT. Laws of what tells a sequencer to stop: each operation of the part's work leaves a card whose stop flag, abandoning stream
and STOPPED report belong to a CANCELLING slot such a card (R13, R18, R94). A proof about a command cites the lemma of its operation. -/

namespace Sys2Proof.Machine

/-- A card that is as `Card.stopsOk` says stays so. -/
def Card.stopsKept (k m : Card) : Prop := ∀ canc : SlotId → Prop, k.stopsOk canc → m.stopsOk canc

/-- Every card stays so. -/
def StopsKept (s t : State) : Prop := ∀ c, (s.card c).stopsKept (t.card c)

/-- What tells the sequencer of a card to stop. -/
def Card.stopping (k : Card) : Prop := k.seq.stop = true ∨ k.stream.map StreamRec.stage = some (.abandoning .stop)

theorem StopsKept.refl (s : State) : StopsKept s s := fun _ _ => id

theorem StopsKept.trans {s t u : State} (h : StopsKept s t) (g : StopsKept t u) : StopsKept s u := fun c p x => g c p (h c p x)

theorem stopsKept_of_cards {s t : State} (h : ∀ c, t.card c = s.card c) : StopsKept s t := by
  intro c p; rw [h]; exact id

/-- A card whose active slot and end report stand, with no new reason to stop, and no stream record where no slot is active. -/
theorem stopsKept_of_same {k m : Card} (ha : m.seq.active = k.seq.active) (hs : m.stopping → k.stopping) (hr : m.endReport = k.endReport)
    (hx : k.seq.active.isSome = true ∨ (k.stream = none → m.stream = none)) : k.stopsKept m := by
  intro p ⟨h1, h2, h3, h4⟩
  refine ⟨fun i hi hm => h1 i (ha ▸ hi) (hs hm), fun r hm => h2 r (hr ▸ hm), fun hm => ?_, fun hm => ?_⟩
  · rw [ha] at hm
    rcases hx with hx | hx
    · rw [hm] at hx; exact absurd hx (by decide)
    · exact hx (h3 hm)
  · rw [ha] at hm; rw [hr]; exact h4 hm

theorem updCard_stops (s : State) (c : CardId) (f : Card → Card) (h : (s.card c).stopsKept (f (s.card c))) :
    StopsKept s (s.updCard c f) := by
  intro d
  by_cases hd : d = c
  · subst hd; rw [card_updCard_same]; exact h
  · rw [card_updCard_other _ _ _ _ hd]; exact fun _ => id

/-- A change of a card that leaves its sequencer, stream record and end report alone. -/
theorem updCard_stops_rest (s : State) (c : CardId) (f : Card → Card) (h1 : (f (s.card c)).seq = (s.card c).seq)
    (h2 : (f (s.card c)).stream = (s.card c).stream) (h3 : (f (s.card c)).endReport = (s.card c).endReport) :
    StopsKept s (s.updCard c f) := by
  refine updCard_stops s c f (stopsKept_of_same (by rw [h1]) ?_ h3 (Or.inr ?_))
  · unfold Card.stopping; rw [h1, h2]; exact id
  · rw [h2]; exact id

theorem updSeq_stops (s : State) (c : CardId) (f : Sequencer → Sequencer) (h1 : (f (s.card c).seq).active = (s.card c).seq.active)
    (h2 : (f (s.card c).seq).stop = (s.card c).seq.stop) : StopsKept s (s.updSeq c f) := by
  refine updCard_stops s c _ (stopsKept_of_same h1 ?_ rfl (Or.inr id))
  unfold Card.stopping; rw [show ({ s.card c with seq := f (s.card c).seq } : Card).seq.stop = _ from h2]; exact id

theorem updStream_stops (s : State) (c : CardId) (f : StreamRec → StreamRec)
    (h : ∀ m, (f m).stage = .abandoning .stop → m.stage = .abandoning .stop ∨ (s.card c).seq.stop = true) :
    StopsKept s (s.updStream c f) := by
  refine updCard_stops s c _ (stopsKept_of_same rfl ?_ rfl (Or.inr fun hn => by simp [hn]))
  rintro (hs | hs)
  · exact Or.inl hs
  · simp only [Option.map_map, Option.map_eq_some_iff, Function.comp] at hs
    obtain ⟨m, hm, hs⟩ := hs
    rcases h m hs with g | g
    · exact Or.inr (by rw [hm]; exact congrArg some g)
    · exact Or.inl g

theorem requestJob_stops (s : State) (c : CardId) (k : TenureKind) (n : Nat) (d : Word) (o : Bool) :
    StopsKept s (s.requestJob c k n d o) :=
  updCard_stops s c _ (stopsKept_of_same rfl id rfl (Or.inr id))

theorem setCapture_stops (s : State) (i : SlotId) (n : Nat) (w : Word) : StopsKept s (s.setCapture i n w) :=
  stopsKept_of_cards fun d => card_setCapture s i n w d

/-! ## The end of a run -/

theorem dropLease_stops (s : State) (c : CardId) (i : SlotId) : StopsKept s (s.dropLease c i) := by
  intro d
  obtain ⟨g, hg⟩ := card_dropLease s c i d
  rw [hg]; exact stopsKept_of_same rfl id rfl (Or.inr id)

theorem dropStream_other (s : State) (c d : CardId) (h : d ≠ c) : ∃ g, (s.dropStream c).card d = { s.card d with leaseGrant := g } := by
  unfold State.dropStream
  split
  · rw [card_updCard_other _ _ _ _ h]; exact card_dropLease _ _ _ _
  · exact ⟨_, rfl⟩

theorem dropStream_same (s : State) (c : CardId) : ∃ g x, (s.dropStream c).card c = { s.card c with leaseGrant := g, stream := x } ∧
    (x = none ∨ x = (s.card c).stream) := by
  unfold State.dropStream
  split
  · obtain ⟨g, hg⟩ := card_dropLease s c (by assumption) c
    exact ⟨g, none, by simp [hg], Or.inl rfl⟩
  · exact ⟨(s.card c).leaseGrant, (s.card c).stream, rfl, Or.inr rfl⟩

theorem dropStream_stops (s : State) (c : CardId) : StopsKept s (s.dropStream c) := by
  intro d
  by_cases hd : d = c
  · subst hd
    obtain ⟨g, x, hg, hx⟩ := dropStream_same s d
    rw [hg]
    rcases hx with hx | hx
    · subst hx
      refine stopsKept_of_same rfl (fun h => ?_) rfl (Or.inr fun _ => rfl)
      rcases h with h | h
      · exact Or.inl h
      · simp at h
    · subst hx; exact stopsKept_of_same rfl id rfl (Or.inr id)
  · obtain ⟨g, hg⟩ := dropStream_other s c d hd
    rw [hg]; exact stopsKept_of_same rfl id rfl (Or.inr id)

/-- The end of a run, STOPPED only where the sequencer was told to stop (R18, R32). -/
theorem endJob_stops (s : State) (c : CardId) (e : Ending) (h : e = .stopped → (s.card c).stopping) : StopsKept s (s.endJob c e) := by
  intro d p hk
  unfold State.endJob
  by_cases hd : d = c
  · subst hd
    rw [card_updCard_same]
    obtain ⟨g, x, hg, hx⟩ := dropStream_same s d
    have hdrop := dropStream_stops s d d p hk
    have hq : ((s.dropStream d).card d).seq = (s.card d).seq := by rw [hg]
    unfold Card.report
    cases ha : ((s.dropStream d).card d).seq.active with
    | none => exact hdrop
    | some i =>
      refine ⟨fun j hj _ => absurd (show (none : Option SlotId) = some j from hj) (by simp), fun r hr hs => ?_, fun _ => rfl,
        fun hm => absurd (show (none : Option SlotId).isSome = true from hm) (by decide)⟩
      cases hr
      exact hk.1 i (hq ▸ ha) (h hs)
  · rw [card_updCard_other _ _ _ _ hd]; exact dropStream_stops s c d p hk

theorem failJob_stops (s : State) (c : CardId) (o : JobOutcome) (d : Option Word) : StopsKept s (s.failJob c o d) :=
  endJob_stops s c _ fun h => by simp at h

theorem failWithDetail_stops (s : State) (c : CardId) (o : JobOutcome) (d : Word) : StopsKept s (s.failWithDetail c o d) := by
  unfold State.failWithDetail
  split
  · exact (stopsKept_of_cards fun _ => rfl : StopsKept s (s.setDetail _ d)).trans (failJob_stops _ _ _ _)
  · exact StopsKept.refl s

/-! ## The start and the completion of a step -/

theorem boundary_stops (s : State) (c : CardId) : StopsKept s (s.boundary c).1 := by
  unfold State.boundary
  split
  · exact StopsKept.refl s
  · simp only
    have h1 : ∀ i n, StopsKept s ((s.setSlotWord i 5 n).updSeq c fun q => { q with stepIndex := (s.card c).seq.stepIndex + 1 }) := fun i n =>
      (stopsKept_of_cards fun _ => rfl : StopsKept s (s.setSlotWord i 5 n)).trans (updSeq_stops _ _ _ rfl rfl)
    split
    · exact (h1 _ _).trans (endJob_stops _ _ _ fun h => by simp at h)
    · split
      · rename_i hs
        exact (h1 _ _).trans (endJob_stops _ _ _ fun _ => Or.inl (by simpa [State.updSeq] using hs))
      · exact h1 _ _

theorem awaitConsume_stops (s : State) (c : CardId) : StopsKept s (s.awaitConsume c).1 := by
  unfold State.awaitConsume
  split
  · exact StopsKept.refl s
  · simp only
    have h1 : ∀ i b js, StopsKept s (s.copySnapshot c i b js) := fun i b js => stopsKept_of_cards fun d => card_copySnapshot c i b js d s
    split
    · exact h1 _ _ _
    · exact (h1 _ _ _).trans (failWithDetail_stops _ _ _ _)

theorem beginBursts_stops (s : State) (c : CardId) (dir : StreamDir) : StopsKept s (s.beginBursts c dir) :=
  (updStream_stops s c _ fun _ h => by simp at h).trans (requestJob_stops _ _ _ _ _ _)

theorem beginAbandon_stops (s : State) (c : CardId) (why : AbandonReason) (h : why = .stop → (s.card c).seq.stop = true) :
    StopsKept s (s.beginAbandon c why) :=
  (updStream_stops s c _ fun _ hm => Or.inr (h (by simpa using hm))).trans (requestJob_stops _ _ _ _ _ _)

theorem startStream_stops (s : State) (c : CardId) (i : SlotId) (dir : StreamDir) (ha : (s.card c).seq.active.isSome = true) :
    StopsKept s (s.startStream c i dir) := by
  unfold State.startStream
  simp only
  have h1 : StopsKept s (s.updCard c fun k => { k with stream := some (StreamRec.start dir), leaseGrant := false }) := by
    refine updCard_stops s c _ (stopsKept_of_same rfl (fun h => ?_) rfl (Or.inl ha))
    rcases h with h | h
    · exact Or.inl h
    · simp [StreamRec.start] at h
  split
  · exact h1.trans ((stopsKept_of_cards fun d => card_holdPages _ _ _ _ d).trans (beginBursts_stops _ _ _))
  · exact h1.trans ((stopsKept_of_cards fun d => card_waitLease _ _ d).trans (updSeq_stops _ _ _ rfl rfl))

theorem startPulse_stops (s : State) (c : CardId) : StopsKept s (s.startPulse c) := by
  have hf : ∀ k : Card, k.attnPulseStart.seq = k.seq ∧ k.attnPulseStart.stream = k.stream ∧ k.attnPulseStart.endReport = k.endReport := by
    intro k; unfold Card.attnPulseStart; split <;> simp
  obtain ⟨_, h2, h3⟩ := hf (s.card c)
  refine updCard_stops s c _ (stopsKept_of_same rfl ?_ h3 (Or.inr ?_))
  · unfold Card.stopping; simp only [h2]; exact id
  · simp only [h2]; exact id

theorem startAwait_stops (s : State) (c : CardId) : StopsKept s (s.startAwait c).1 := by
  unfold State.startAwait
  split
  · exact (updCard_stops_rest s c _ rfl rfl rfl).trans (awaitConsume_stops _ _)
  · exact updSeq_stops _ _ _ rfl rfl

theorem beginKind_stops (s : State) (c : CardId) (i : SlotId) (kind : StepKind) (ha : (s.card c).seq.active.isSome = true) :
    StopsKept s (s.beginKind c i kind).1 := by
  cases kind
  case put => exact requestJob_stops _ _ _ _ _ _
  case get => exact requestJob_stops _ _ _ _ _ _
  case poll => exact (updSeq_stops s c (fun q => { q with attempts := 0 }) rfl rfl).trans (requestJob_stops _ _ _ _ _ _)
  case await => exact startAwait_stops s c
  case pause => exact updSeq_stops _ _ _ rfl rfl
  case mark => exact stopsKept_of_cards fun d => card_postMark s c i d
  case pulse => exact startPulse_stops _ _
  case streamIn => exact startStream_stops _ _ _ _ ha
  case streamOut => exact startStream_stops _ _ _ _ ha

theorem startStep_stops (s : State) (c : CardId) : StopsKept s (s.startStep c).1 := by
  unfold State.startStep
  cases ha : (s.card c).seq.active with
  | none => exact StopsKept.refl s
  | some i =>
    simp only
    generalize s.readRecord ((s.card c).seq.listAddr.toNat + 8 * (s.card c).seq.stepIndex) = r
    have h1 : StopsKept s (s.updSeq c fun q => { q with copy := some r }) := updSeq_stops _ _ _ rfl rfl
    split
    · exact h1.trans (beginKind_stops _ _ _ _ (by simp [State.updSeq, ha]))
    · exact h1.trans (failJob_stops _ _ _ _)
    · exact h1

theorem runSteps_stops (c : CardId) (n : Nat) : ∀ s : State, StopsKept s (runSteps n c s) := by
  induction n with
  | zero => exact StopsKept.refl
  | succ n ih =>
    intro s
    have h1 := startStep_stops s c
    unfold runSteps
    split
    · rename_i t he; rw [he] at h1; exact h1
    · rename_i t he
      rw [he] at h1
      have h2 := boundary_stops t c
      split
      · rename_i u hu; rw [hu] at h2; exact h1.trans (h2.trans (ih u))
      · rename_i u hu; rw [hu] at h2; exact h1.trans h2

theorem finishStep_stops (s : State) (c : CardId) : StopsKept s (s.finishStep c) := by
  have h := boundary_stops s c
  unfold State.finishStep
  split
  · rename_i t ht; rw [ht] at h; exact h.trans (runSteps_stops c _ t)
  · rename_i t ht; rw [ht] at h; exact h

theorem awaitHandOver_stops (s : State) (c : CardId) : StopsKept s (s.awaitHandOver c) := by
  have h := awaitConsume_stops s c
  unfold State.awaitHandOver
  split
  · rename_i t ht; rw [ht] at h; exact h.trans (finishStep_stops t c)
  · rename_i t ht; rw [ht] at h; exact h

/-! ## Attentions -/

theorem clearClaimable_stops (s : State) (c : CardId) : StopsKept s (s.clearClaimable c) := by
  unfold State.clearClaimable
  split
  · exact (stopsKept_of_cards fun _ => rfl : StopsKept s (s.countUnclaimed c)).trans (updCard_stops_rest _ _ _ rfl rfl rfl)
  · exact StopsKept.refl s

theorem readOver_stops (s : State) (c : CardId) : StopsKept s (s.updCard c Card.readOver) := by
  refine updCard_stops_rest s c _ ?_ ?_ ?_ <;> unfold Card.readOver <;> split <;> rfl

theorem dispose_stops (s : State) (c : CardId) : StopsKept s (s.dispose c) := by
  unfold State.dispose
  split
  · exact (readOver_stops s c).trans (awaitHandOver_stops _ _)
  · split
    · unfold State.disposeToJob
      have h1 : StopsKept s (if (s.card c).claimable then s.countUnclaimed c else s) := by
        split <;> exact stopsKept_of_cards fun _ => rfl
      refine h1.trans (updCard_stops_rest _ _ _ ?_ ?_ ?_) <;> simp only <;> rw [readOver_same]
    · unfold State.disposeUnsolicited
      exact (stopsKept_of_cards fun _ => rfl : StopsKept s (s.countUnclaimed c)).trans ((readOver_stops _ c).trans
        (stopsKept_of_cards fun d => card_postUnsolicited _ _ d))

theorem completeAttention_stops (s : State) (c : CardId) (v : List Word) : StopsKept s (s.completeAttention c v) :=
  (stopsKept_of_cards fun d => by rw [card_countCompleted, card_writeSnapshot] : StopsKept s ((s.writeSnapshot c v).countCompleted c)).trans
    (dispose_stops _ _)

theorem detection_stops (s : State) (c : CardId) : StopsKept s (s.detection c) := by
  unfold State.detection
  split
  · split
    · exact completeAttention_stops _ _ _
    · exact updCard_stops_rest _ _ _ rfl rfl rfl
  · exact StopsKept.refl s

/-! ## The ends of tenures and waits -/

theorem judgePoll_stops (s : State) (c : CardId) (i : SlotId) (v : Word) : StopsKept s (s.judgePoll c i v) := by
  unfold State.judgePoll
  simp only
  have h1 : StopsKept s ((s.updSeq c fun q => { q with attempts := (s.card c).seq.attempts + 1 }).setDetail i v) :=
    (updSeq_stops s c (fun q => { q with attempts := (s.card c).seq.attempts + 1 }) rfl rfl).trans (stopsKept_of_cards fun _ => rfl)
  refine h1.trans ?_
  split
  · exact finishStep_stops _ _
  · split
    · split
      · rename_i hs; exact endJob_stops _ _ _ fun _ => Or.inl (by simpa [State.updSeq] using hs)
      · exact updSeq_stops _ _ _ rfl rfl
    · exact failJob_stops _ _ _ _

theorem takeBurstEnd_stops (s : State) (c : CardId) (i : SlotId) : StopsKept s (s.takeBurstEnd c i) := by
  unfold State.takeBurstEnd
  split
  · exact StopsKept.refl s
  · rename_i m _
    simp only
    refine (stopsKept_of_cards fun _ => rfl : StopsKept s (s.setDetail i (wordOf m.wordsMoved))).trans ?_
    split
    · exact beginAbandon_stops _ _ _ fun h => by simp at h
    · split
      · rename_i hs; exact beginAbandon_stops _ _ _ fun _ => hs
      · split
        · exact (updStream_stops _ c (fun m => { m with nextBurst := m.nextBurst + 1 }) fun _ h => Or.inl h).trans (requestJob_stops _ _ _ _ _ _)
        · unfold State.beginClosing
          simp only
          refine (updStream_stops _ c (fun m => { m with stage := .closing }) fun _ h => by simp at h).trans ?_
          split <;> exact requestJob_stops _ _ _ _ _ _

theorem recheck_stops (s : State) (c : CardId) (i : SlotId) (v : Word) : StopsKept s (s.recheck c i v) := by
  unfold State.recheck
  split
  · exact failWithDetail_stops _ _ _ _
  · exact (stopsKept_of_cards fun _ => rfl : StopsKept s (s.setDetail i v)).trans ((dropStream_stops _ _).trans (finishStep_stops _ _))

theorem takeAbandonEnd_stops (s : State) (c : CardId) (i : SlotId) : StopsKept s (s.takeAbandonEnd c i) := by
  unfold State.takeAbandonEnd
  split
  · exact failWithDetail_stops _ _ _ _
  · exact failWithDetail_stops _ _ _ _
  · rename_i h; exact endJob_stops _ _ _ fun _ => Or.inr h
  all_goals exact StopsKept.refl s

theorem stopInBusWait_stops (s : State) (c : CardId) (h : (s.card c).seq.stop = true) : StopsKept s (s.stopInBusWait c) := by
  unfold State.stopInBusWait
  split
  · exact endJob_stops _ _ _ fun _ => Or.inl h
  · split
    · exact StopsKept.refl s
    all_goals
      split
      · exact beginAbandon_stops _ _ _ fun _ => h
      · exact endJob_stops _ _ _ fun _ => Or.inl h

theorem stopStep_stops (s : State) (c : CardId) (h : (s.card c).seq.stop = true) : StopsKept s (s.stopStep c) := by
  unfold State.stopStep
  split
  · exact StopsKept.refl s
  · exact StopsKept.refl s
  · exact StopsKept.refl s
  · exact endJob_stops _ _ _ fun _ => Or.inl h
  · exact endJob_stops _ _ _ fun _ => Or.inl h
  · exact endJob_stops _ _ _ fun _ => Or.inl h
  · exact endJob_stops _ _ _ fun _ => Or.inl h
  · exact stopInBusWait_stops _ _ h

end Sys2Proof.Machine
end

