-- ==== Sys2Proof/Laws/Lists.lean ====
section
/-! SUPPORT. Laws of the slots and the lists that hold them: each act of the part keeps the card queues, the acceptance-order list and the
active slots in agreement with the slot states (`State.listsOk`; R55, R56, R57). The first lemmas say it of the four ways a slot's state
changes, the rest of the operations that take them. -/

namespace Sys2Proof.Machine

/-- A slot that stands in no list. -/
def SlotCtl.unlisted (x : SlotCtl) : Prop := x.state = .free ∨ x.state = .done

theorem SlotCtl.unlisted_iff (x : SlotCtl) : x.unlisted ↔ ¬ (x.state = .filed ∨ x.state = .active ∨ x.state = .cancelling) := by
  unfold SlotCtl.unlisted
  cases x.state <;> simp

/-! ## What each list says of a slot -/

theorem filed_of_mem {s : State} (h : s.listsOk) {c : CardId} {i : SlotId} (hi : i ∈ (s.card c).queue) :
    (s.slot i).state = .filed ∧ s.slotCard i = some c := ((h.1 c).2 i).1 hi

theorem progress_of_active {s : State} (h : s.listsOk) {c : CardId} {i : SlotId} (hi : (s.card c).activeSlot = some i) :
    ((s.slot i).state = .active ∨ (s.slot i).state = .cancelling) ∧ s.slotCard i = some c := (h.2.2.1 c i).1 hi

theorem active_of_progress {s : State} (h : s.listsOk) {c : CardId} {i : SlotId}
    (hi : (s.slot i).state = .active ∨ (s.slot i).state = .cancelling) (hc : s.slotCard i = some c) : (s.card c).activeSlot = some i :=
  (h.2.2.1 c i).2 ⟨hi, hc⟩

theorem named_of_listed {s : State} (h : s.listsOk) {i : SlotId} (hi : ¬ (s.slot i).unlisted) : ∃ c, s.slotCard i = some c := by
  rw [SlotCtl.unlisted_iff, Classical.not_not] at hi
  exact Option.isSome_iff_exists.mp (h.2.2.2.1 i hi)

/-- The active slot of a card that holds one is the sequencer's, or, the sequencer without one, the end report's. -/
theorem activeSlot_seq {k : Card} {i : SlotId} (h : k.seq.active = some i) : k.activeSlot = some i := by
  unfold Card.activeSlot; rw [h]

theorem activeSlot_report {k : Card} {canc : SlotId → Prop} (h : k.stopsOk canc) {r : EndReport} (hr : k.endReport = some r) :
    k.seq.active = none ∧ k.activeSlot = some r.slot := by
  have h1 : k.seq.active = none := by
    cases ha : k.seq.active with
    | none => rfl
    | some i => rw [h.2.2.2 (by rw [ha]; rfl)] at hr; exact absurd hr (by simp)
  refine ⟨h1, ?_⟩
  unfold Card.activeSlot; rw [h1, hr]; rfl

theorem activeSlot_none {k : Card} (h : k.activeSlot = none) : k.seq.active = none ∧ k.endReport = none := by
  unfold Card.activeSlot at h
  cases ha : k.seq.active with
  | some i => rw [ha] at h; simp at h
  | none => rw [ha] at h; exact ⟨rfl, by simpa using h⟩

/-- What `Card.stopsOk` says of a card depends on the cancelling state of its active slot alone. -/
theorem stopsOk_congr {k : Card} {p q : SlotId → Prop} (h : k.stopsOk p) (hpq : ∀ i, k.activeSlot = some i → p i → q i) : k.stopsOk q := by
  refine ⟨fun i hi hs => hpq i (activeSlot_seq hi) (h.1 i hi hs), fun r hr hs => ?_, h.2.2⟩
  exact hpq _ (activeSlot_report h hr).2 (h.2.1 r hr hs)

/-! ## The four ways a slot's state changes -/

/-- Nothing listed changes: slots move only between FREE and DONE, and the lists stand. -/
theorem listsOk_same {s t : State} (h : s.listsOk)
    (hslot : ∀ j, t.slot j = s.slot j ∨ (s.slot j).unlisted ∧ (t.slot j).unlisted ∧ (t.slot j).cause = none)
    (hcard : ∀ j, ¬ (s.slot j).unlisted → t.slotCard j = s.slotCard j) (ho : t.acceptOrder = s.acceptOrder)
    (hq : ∀ c, (t.card c).queue = (s.card c).queue) (ha : ∀ c, (t.card c).activeSlot = (s.card c).activeSlot)
    (hn : ∀ c j, (t.card c).cancelNotice = some j → (s.card c).cancelNotice = some j)
    (hst : ∀ c, (s.card c).stopsOk (fun i => (s.slot i).state = .cancelling) → (t.card c).stopsOk fun i => (s.slot i).state = .cancelling)
    (hstart : t.startOk) : t.listsOk := by
  have hs : ∀ j, t.slot j = s.slot j ∨ (s.slot j).unlisted ∧ (t.slot j).unlisted := fun j => (hslot j).imp id fun x => ⟨x.1, x.2.1⟩
  have hlisted : ∀ (p : SlotState → Prop), ¬ p .free → ¬ p .done → ∀ j, p (t.slot j).state ↔ p (s.slot j).state := by
    intro p h1 h2 j
    rcases hs j with e | ⟨e, g⟩
    · rw [e]
    · rcases e with e | e <;> rcases g with g | g <;> rw [e, g] <;> simp [h1, h2]
  have hcard' : ∀ (p : SlotState → Prop), ¬ p .free → ¬ p .done → ∀ j c, (p (t.slot j).state ∧ t.slotCard j = some c) ↔
      (p (s.slot j).state ∧ s.slotCard j = some c) := by
    intro p h1 h2 j c
    rw [hlisted p h1 h2]
    by_cases hp : p (s.slot j).state
    · rw [hcard j]
      rintro (e | e) <;> rw [e] at hp <;> contradiction
    · simp [hp]
  obtain ⟨g1, g2, g3, g4, g5, g6, g7⟩ := h
  refine ⟨fun c => ⟨by rw [hq]; exact (g1 c).1, fun j => ?_⟩, ⟨by rw [ho]; exact g2.1, fun j => ?_⟩, fun c j => ?_, fun j hj => ?_,
    fun c => ⟨?_, fun j hj => ?_⟩, hstart, fun j => ?_⟩
  · rw [hq, (g1 c).2, hcard' (fun x => x = .filed) (by decide) (by decide)]
  · rw [ho, g2.2, hlisted (fun x => x = .filed ∨ x = .active ∨ x = .cancelling) (by simp) (by simp)]
  · rw [ha, g3, hcard' (fun x => x = .active ∨ x = .cancelling) (by simp) (by simp)]
  · have hj' := (hlisted (fun x => x = .filed ∨ x = .active ∨ x = .cancelling) (by simp) (by simp) j).1 hj
    rw [hcard j]
    · exact g4 j hj'
    · rw [SlotCtl.unlisted_iff]; exact fun x => x hj'
  · exact stopsOk_congr (hst c (g5 c).1) fun i _ hi => (hlisted (fun x => x = .cancelling) (by decide) (by decide) i).2 hi
  · exact (hcard' (fun x => x = .cancelling) (by decide) (by decide) j c).2 ((g5 c).2 j (hn c j hj))
  · rcases hslot j with e | ⟨_, e, e'⟩
    · rw [e]; exact g7 j
    · rw [e']
      rcases e with e | e <;> rw [e] <;> simp

/-- A slot ends: it is DONE, and it leaves every list. -/
theorem listsOk_end {s t : State} (h : s.listsOk) (i : SlotId) (hi : t.slot i = { state := .done, cause := none })
    (hslot : ∀ j, j ≠ i → t.slot j = s.slot j) (hcard : ∀ j, t.slotCard j = s.slotCard j)
    (ho : t.acceptOrder = s.acceptOrder.filter fun j => j ≠ i) (hq : ∀ c, (t.card c).queue = (s.card c).queue.filter fun j => j ≠ i)
    (ha : ∀ c, (s.card c).activeSlot ≠ some i → (t.card c).activeSlot = (s.card c).activeSlot ∧ (s.card c).stopsKept (t.card c))
    (ha' : ∀ c, (s.card c).activeSlot = some i → (t.card c).seq.active = none ∧ (t.card c).endReport = none ∧ (t.card c).stream = none)
    (hn : ∀ c j, (t.card c).cancelNotice = some j → (s.card c).cancelNotice = some j ∧ j ≠ i)
    (hstart : t.startOk) : t.listsOk := by
  have hst : ∀ j, (t.slot j).state = if j = i then .done else (s.slot j).state := by
    intro j; split
    · subst j; rw [hi]
    · rw [hslot j (by assumption)]
  have hlisted : ∀ (p : SlotState → Prop), ¬ p .done → ∀ j, p (t.slot j).state ↔ p (s.slot j).state ∧ j ≠ i := by
    intro p h1 j
    rw [hst]; split
    · rename_i e; simp [h1, e]
    · rename_i e; simp [e]
  have ha1 : ∀ c, (s.card c).activeSlot = some i → (t.card c).activeSlot = none := by
    intro c hc
    obtain ⟨e1, e2, _⟩ := ha' c hc
    unfold Card.activeSlot; rw [e1, e2]; rfl
  obtain ⟨g1, g2, g3, g4, g5, g6, g7⟩ := h
  refine ⟨fun c => ⟨by rw [hq]; exact (g1 c).1.filter _, fun j => ?_⟩, ⟨by rw [ho]; exact g2.1.filter _, fun j => ?_⟩, fun c j => ?_,
    fun j hj => ?_, fun c => ⟨?_, fun j hj => ?_⟩, hstart, fun j => ?_⟩
  · rw [hq, List.mem_filter, (g1 c).2, hlisted (fun x => x = .filed) (by decide), hcard]
    simp only [ne_eq, decide_not, Bool.not_eq_eq_eq_not, Bool.not_true, decide_eq_false_iff_not]
    exact ⟨fun x => ⟨⟨x.1.1, x.2⟩, x.1.2⟩, fun x => ⟨⟨x.1.1, x.2⟩, x.1.2⟩⟩
  · rw [ho, List.mem_filter, g2.2, hlisted (fun x => x = .filed ∨ x = .active ∨ x = .cancelling) (by simp)]
    simp
  · rw [hlisted (fun x => x = .active ∨ x = .cancelling) (by simp), hcard]
    by_cases hc : (s.card c).activeSlot = some i
    · rw [ha1 c hc]
      refine ⟨fun x => by simp at x, fun x => ?_⟩
      have := (g3 c j).2 ⟨x.1.1, x.2⟩
      rw [hc] at this
      exact absurd (Option.some.inj this).symm x.1.2
    · rw [(ha c hc).1, g3]
      refine ⟨fun x => ⟨⟨x.1, fun e => ?_⟩, x.2⟩, fun x => ⟨x.1.1, x.2⟩⟩
      subst e; exact hc ((g3 c j).2 x)
  · rw [hcard]; exact g4 j ((hlisted (fun x => x = .filed ∨ x = .active ∨ x = .cancelling) (by simp) j).1 hj).1
  · by_cases hc : (s.card c).activeSlot = some i
    · obtain ⟨e1, e2, e3⟩ := ha' c hc
      exact ⟨fun j hj => by rw [e1] at hj; simp at hj, fun r hr => by rw [e2] at hr; simp at hr, fun _ => e3, fun hj => by rw [e1] at hj; simp at hj⟩
    · refine (ha c hc).2 _ (stopsOk_congr (g5 c).1 fun j hj hx => (hlisted (fun x => x = .cancelling) (by decide) j).2 ⟨hx, fun e => ?_⟩)
      subst e; exact hc hj
  · obtain ⟨e1, e2⟩ := hn c j hj
    rw [hcard]
    have := (g5 c).2 j e1
    exact ⟨(hlisted (fun x => x = .cancelling) (by decide) j).2 ⟨this.1, e2⟩, this.2⟩
  · by_cases e : j = i
    · subst j; rw [hi]; simp
    · rw [hslot j e]; exact g7 j

/-- ACTIVE slots become CANCELLING; the lists stand. -/
theorem listsOk_cancel {s t : State} (h : s.listsOk)
    (hslot : ∀ j, t.slot j = s.slot j ∨ (s.slot j).state = .active ∧ (t.slot j).state = .cancelling ∧ (t.slot j).cause.isSome = true)
    (hcard : ∀ j, t.slotCard j = s.slotCard j) (ho : t.acceptOrder = s.acceptOrder)
    (hk : ∀ c, ∃ n, t.card c = { s.card c with cancelNotice := n })
    (hn : ∀ c j, (t.card c).cancelNotice = some j → (s.card c).cancelNotice = some j ∨ (t.slot j).state = .cancelling ∧ s.slotCard j = some c)
    (hstart : t.startOk) : t.listsOk := by
  have hp : ∀ j, ((t.slot j).state = .active ∨ (t.slot j).state = .cancelling) ↔ ((s.slot j).state = .active ∨ (s.slot j).state = .cancelling) := by
    intro j
    rcases hslot j with e | ⟨e, e', _⟩
    · rw [e]
    · rw [e, e']; simp
  have hf : ∀ j, (t.slot j).state = .filed ↔ (s.slot j).state = .filed := by
    intro j
    rcases hslot j with e | ⟨e, e', _⟩
    · rw [e]
    · rw [e, e']; simp
  have hc : ∀ j, (s.slot j).state = .cancelling → (t.slot j).state = .cancelling := by
    intro j x
    rcases hslot j with e | ⟨e, e', _⟩
    · rw [e]; exact x
    · exact e'
  obtain ⟨g1, g2, g3, g4, g5, g6, g7⟩ := h
  refine ⟨fun c => ?_, ⟨by rw [ho]; exact g2.1, fun j => ?_⟩, fun c j => ?_, fun j hj => ?_, fun c => ⟨?_, fun j hj => ?_⟩, hstart, fun j => ?_⟩
  · obtain ⟨n, e⟩ := hk c
    rw [e]
    exact ⟨(g1 c).1, fun j => by rw [hf, hcard]; exact (g1 c).2 j⟩
  · rw [ho, g2.2, hf, hp]
  · obtain ⟨n, e⟩ := hk c
    rw [e, hp, hcard]; exact g3 c j
  · rw [hcard]; rw [hf, hp] at hj; exact g4 j hj
  · obtain ⟨n, e⟩ := hk c
    rw [e]; exact stopsOk_congr (k := { s.card c with cancelNotice := n }) (g5 c).1 fun i _ hi => hc i hi
  · rw [hcard]
    rcases hn c j hj with x | x
    · exact ⟨hc j ((g5 c).2 j x).1, ((g5 c).2 j x).2⟩
    · exact x
  · rcases hslot j with e | ⟨_, e, e'⟩
    · rw [e]; exact g7 j
    · rw [e, e']; simp

/-! ## The part's work -/

theorem startOk_of {s t : State} (h : s.startOk) (h1 : t.resetPin = s.resetPin) (h2 : t.bclr = s.bclr) (h3 : t.engine = s.engine)
    (h4 : ∀ j, t.slot j = s.slot j ∨ (t.slot j).unlisted) : t.startOk := by
  unfold State.startOk
  rw [h1, h2, h3]
  refine ⟨h.1, fun he j => ?_⟩
  rcases h4 j with e | e
  · rw [e]; exact h.2 he j
  · exact e

theorem listsOk_of_keeps {P : Prop} {s t : State} (h : Keeps P s t) (g : StopsKept s t) (hl : s.listsOk) : t.listsOk := by
  have hst := hl.2.2.2.2.2.1
  refine listsOk_same hl (fun j => Or.inl (h.slot j)) (fun j _ => h.slotCard j) h.acceptOrder (fun c => (h.card c).2.2.1) (fun c => (h.card c).2.2.2.1)
    (fun c j hj => ?_) (fun c => g c _) (startOk_of hst h.resetPin h.bclr h.engine fun j => Or.inl (h.slot j))
  rw [(h.card c).2.2.2.2.2.2.2] at hj; exact hj

/-- A change of fields no list reads. -/
theorem listsOk_inert {s t : State} (h1 : t.slots = s.slots) (h2 : t.mem = s.mem) (h3 : t.acceptOrder = s.acceptOrder) (h4 : t.cards = s.cards)
    (h5 : t.resetPin = s.resetPin) (h6 : t.bclr = s.bclr) (h7 : t.engine = s.engine) (hl : s.listsOk) : t.listsOk := by
  have e1 : ∀ j, t.slot j = s.slot j := fun j => by unfold State.slot; rw [h1]
  have e2 : ∀ j, t.slotCard j = s.slotCard j := fun j => by unfold State.slotCard State.slotWord State.word; rw [h2]
  have e3 : ∀ c, t.card c = s.card c := fun c => by unfold State.card; rw [h4]
  refine listsOk_same hl (fun j => Or.inl (e1 j)) (fun j _ => e2 j) h3 (fun c => by rw [e3]) (fun c => by rw [e3]) (fun c j => by rw [e3]; exact id)
    (fun c => stopsKept_of_cards e3 c _) (startOk_of hl.2.2.2.2.2.1 h5 h6 h7 fun j => Or.inl (e1 j))

/-- A change of one card that leaves its lists, messages and reasons to stop alone. -/
theorem listsOk_updCard (s : State) (c : CardId) (f : Card → Card) (hq : (f (s.card c)).queue = (s.card c).queue)
    (ha : (f (s.card c)).activeSlot = (s.card c).activeSlot)
    (hn : ∀ j, (f (s.card c)).cancelNotice = some j → (s.card c).cancelNotice = some j) (hst : (s.card c).stopsKept (f (s.card c)))
    (hl : s.listsOk) : (s.updCard c f).listsOk := by
  have e : ∀ {α : Type} (g : Card → α), g (f (s.card c)) = g (s.card c) → ∀ d, g ((s.updCard c f).card d) = g (s.card d) := by
    intro α g hg d
    by_cases hd : d = c
    · subst hd; rw [card_updCard_same]; exact hg
    · rw [card_updCard_other _ _ _ _ hd]
  refine listsOk_same hl (fun _ => Or.inl rfl) (fun _ _ => rfl) rfl (e _ hq) (e _ ha) (fun d j hj => ?_) (fun d => updCard_stops s c f hst d _)
    (startOk_of hl.2.2.2.2.2.1 rfl rfl rfl fun _ => Or.inl rfl)
  by_cases hd : d = c
  · subst hd; rw [card_updCard_same] at hj; exact hn j hj
  · rw [card_updCard_other _ _ _ _ hd] at hj; exact hj

theorem post_lists (s : State) (n : Notice) (hl : s.listsOk) : (s.post n).listsOk :=
  listsOk_of_keeps (post_keeps (P := False) s n) (stopsKept_of_cards fun d => card_post s n d) hl

theorem postJobDone_lists (s : State) (i : SlotId) (hl : s.listsOk) : (s.postJobDone i).listsOk :=
  listsOk_of_keeps (postJobDone_keeps (P := False) s i) (stopsKept_of_cards fun d => card_postJobDone s i d) hl

/-- A change of the engine state that does not enter INITIALIZING and is no change under RESET. -/
theorem listsOk_engine {s : State} (e : EngineState) (he : e ≠ .initializing) (hs : s.engine ≠ .initializing) (hl : s.listsOk) :
    ({ s with engine := e } : State).listsOk := by
  refine listsOk_same hl (fun _ => Or.inl rfl) (fun _ _ => rfl) rfl (fun _ => rfl) (fun _ => rfl) (fun _ _ => id) (fun _ => id) ⟨fun h => ?_, fun h => absurd h he⟩
  exact absurd (hl.2.2.2.2.2.1.1 h).1 hs

theorem drainCheck_lists (s : State) (hl : s.listsOk) : s.drainCheck.listsOk := by
  unfold State.drainCheck
  split
  · rename_i h
    simp only [Bool.and_eq_true, decide_eq_true_eq] at h
    exact listsOk_engine _ (by decide) (by rw [h.1]; decide) hl
  · exact hl

theorem clearClaimable_lists (s : State) (c : CardId) (hl : s.listsOk) : (s.clearClaimable c).listsOk :=
  listsOk_of_keeps (clearClaimable_keeps (P := False) s c) (clearClaimable_stops s c) hl

theorem jobEndAtCard_lists (s : State) (c : CardId) (o : JobOutcome) (hl : s.listsOk) : (s.jobEndAtCard c o).listsOk := by
  unfold State.jobEndAtCard
  split
  · have h1 := listsOk_updCard s c (fun k => { k with presence := .ready }) rfl rfl (fun _ => id) (fun _ => id) hl
    exact listsOk_updCard _ c Card.rearm rfl rfl (fun _ => id) (fun _ => id) (clearClaimable_lists _ c h1)
  · exact clearClaimable_lists _ c hl

/-! ## The passage to DONE -/

theorem slotCard_passDone (s : State) (i j : SlotId) (o : JobOutcome) (w5 w6 : Option Word) : (s.passDone i o w5 w6).slotCard j = s.slotCard j := by
  have h : ∀ b, b = slotAddr j 1 ∨ b = slotAddr j 1 + 1 → readByte (s.passDone i o w5 w6).mem b = readByte s.mem b := fun b hb => by
    refine passDone_stable s i o w5 w6 b (Or.inr (Or.inl ?_))
    have := j.isLt
    unfold slotAddr Config.slotBase at hb
    rcases hb with hb | hb <;> subst hb <;> refine ⟨?_, ?_, ?_⟩ <;> omega
  unfold State.slotCard State.slotWord State.word readWord
  rw [h _ (Or.inl rfl), h _ (Or.inr rfl)]

/-- A cancel notice left by a passage to DONE stood before it, and names the slot that passed at no card that the slot names. -/
theorem cancelNotice_passDone (s : State) (i : SlotId) (o : JobOutcome) (w5 w6 : Option Word) (c : CardId) (j : SlotId)
    (h : ((s.passDone i o w5 w6).card c).cancelNotice = some j) : (s.card c).cancelNotice = some j ∧ (j = i → s.slotCard i ≠ some c) := by
  have e := passDone_eq s i o w5 w6
  have hm := passDone_mem s i o w5 w6
  have hc : (({ s with mem := (s.passWords i o w5 w6).mem, slots := upd s.slots i { state := .done, cause := none }
                       acceptOrder := s.acceptOrder.filter fun j => j ≠ i } : State)).slotCard i = s.slotCard i := by
    rw [← slotCard_passDone s i i o w5 w6]
    unfold State.slotCard State.slotWord State.word
    rw [hm]
  rw [e] at h
  unfold State.dropCancel at h
  rw [hc] at h
  cases hs : s.slotCard i with
  | none => rw [hs] at h; exact ⟨h, fun _ => by simp⟩
  | some d =>
    rw [hs] at h
    simp only at h
    by_cases hd : c = d
    · subst hd
      rw [card_updCard_same] at h
      change ((s.card c).dropCancel i).cancelNotice = some j at h
      unfold Card.dropCancel at h
      split at h
      · simp at h
      · rename_i hx
        exact ⟨h, fun hj => by subst hj; exact absurd h hx⟩
    · rw [card_updCard_other _ _ _ _ hd] at h
      exact ⟨h, fun _ hx => hd (Option.some.inj hx).symm⟩

/-- The passage of a slot to DONE, from a state `u` in which `s` has let go of the slot: out of its queue, and no card's active slot. -/
theorem passDone_lists {s u : State} (hl : s.listsOk) (i : SlotId) (o : JobOutcome) (w5 w6 : Option Word)
    (hslot : u.slots = s.slots) (hcard : ∀ j, u.slotCard j = s.slotCard j) (ho : u.acceptOrder = s.acceptOrder)
    (hq : ∀ c, (u.card c).queue = (s.card c).queue.filter fun j => j ≠ i)
    (ha : ∀ c, (s.card c).activeSlot ≠ some i → (u.card c).activeSlot = (s.card c).activeSlot ∧ (s.card c).stopsKept (u.card c))
    (ha' : ∀ c, (s.card c).activeSlot = some i → (u.card c).seq.active = none ∧ (u.card c).endReport = none ∧ (u.card c).stream = none)
    (hn : ∀ c j, (u.card c).cancelNotice = some j → (s.card c).cancelNotice = some j) (h1 : u.resetPin = s.resetPin) (h2 : u.bclr = s.bclr)
    (h3 : u.engine = s.engine) : (u.passDone i o w5 w6).listsOk := by
  have hf := passDone_frame u i o w5 w6
  have f (α : Type) (g : State → α) : g { u.passDone i o w5 w6 with mem := u.mem, slots := u.slots, acceptOrder := u.acceptOrder, cards := u.cards } = g u := congrArg g hf
  have e1 := f _ State.resetPin; have e2 := f _ State.bclr; have e3 := f _ State.engine
  simp only at e1 e2 e3
  have hsl : ∀ j, (u.passDone i o w5 w6).slot j = if j = i then { state := .done, cause := none } else s.slot j := by
    intro j; rw [passDone_slot]; unfold State.slot; rw [hslot]
  have hk : ∀ c, ∃ n, (u.passDone i o w5 w6).card c = { u.card c with cancelNotice := n } := fun c => ⟨_, passDone_card_same u i o w5 w6 c⟩
  refine listsOk_end hl i (by rw [hsl]; simp) (fun j hj => by rw [hsl]; simp [hj]) (fun j => by rw [slotCard_passDone, hcard])
    (by rw [passDone_acceptOrder, ho]) (fun c => ?_) (fun c hc => ?_) (fun c hc => ?_) (fun c j hj => ?_)
    (startOk_of hl.2.2.2.2.2.1 (e1.trans h1) (e2.trans h2) (e3.trans h3) fun j => ?_)
  · obtain ⟨n, e⟩ := hk c
    rw [e]; exact hq c
  · obtain ⟨n, e⟩ := hk c
    rw [e]; exact ⟨(ha c hc).1, fun p x => (ha c hc).2 p x⟩
  · obtain ⟨n, e⟩ := hk c
    rw [e]; exact ha' c hc
  · obtain ⟨e, e'⟩ := cancelNotice_passDone u i o w5 w6 c j hj
    refine ⟨hn c j e, fun hji => ?_⟩
    have := (hl.2.2.2.2.1 c).2 j (hn c j e)
    exact e' hji (by rw [hcard, ← hji]; exact this.2)
  · rw [hsl]; split
    · exact Or.inr (Or.inr rfl)
    · exact Or.inl rfl

theorem filter_ne_self {l : List SlotId} {i : SlotId} (h : i ∉ l) : (l.filter fun j => j ≠ i) = l := by
  refine List.filter_eq_self.2 fun j hj => ?_
  simp only [ne_eq, decide_not, Bool.not_eq_eq_eq_not, Bool.not_true, decide_eq_false_iff_not]
  intro e; subst e; exact h hj

theorem not_active_of {s : State} (hl : s.listsOk) {i : SlotId} (h : (s.slot i).state ≠ .active) (h' : (s.slot i).state ≠ .cancelling) (d : CardId) :
    (s.card d).activeSlot ≠ some i := by
  intro hd
  rcases (progress_of_active hl hd).1 with e | e
  · exact h e
  · exact h' e

theorem not_queued_of {s : State} (hl : s.listsOk) {i : SlotId} (h : (s.slot i).state ≠ .filed) (d : CardId) : i ∉ (s.card d).queue :=
  fun hd => h (filed_of_mem hl hd).1

/-- The end of a slot that waits in the queue of card `c`, out of the queue as it ends. -/
theorem endFiled_lists {s : State} (hl : s.listsOk) (i : SlotId) (c : CardId) (o : JobOutcome) (w5 w6 : Option Word)
    (hi : (s.slot i).state = .filed) (hc : s.slotCard i = some c) :
    ((s.updCard c fun k => { k with queue := k.queue.filter fun j => j ≠ i }).endWaiting i o w5 w6).listsOk := by
  have hna := not_active_of hl (by rw [hi]; decide : (s.slot i).state ≠ .active) (by rw [hi]; decide)
  refine postJobDone_lists _ _ (passDone_lists hl i o w5 w6 rfl (fun _ => rfl) rfl (fun d => ?_) (fun d _ => ?_) (fun d hd => absurd hd (hna d))
    (fun d j hj => ?_) rfl rfl rfl) <;> by_cases hd : d = c
  · subst hd; rw [card_updCard_same]
  · rw [card_updCard_other _ _ _ _ hd, filter_ne_self]
    intro h
    have := (filed_of_mem hl h).2
    rw [hc] at this; exact hd (Option.some.inj this).symm
  · subst hd; rw [card_updCard_same]; exact ⟨rfl, fun _ => id⟩
  · rw [card_updCard_other _ _ _ _ hd]; exact ⟨rfl, fun _ => id⟩
  · subst hd; rw [card_updCard_same] at hj; exact hj
  · rw [card_updCard_other _ _ _ _ hd] at hj; exact hj

/-! ## Slot requests -/

theorem refuseRequest_lists (s : State) (i : SlotId) (v : Word) (w : Option Reason) (hl : s.listsOk) : (s.refuseRequest i v w).listsOk :=
  post_lists _ _ (listsOk_inert rfl rfl rfl rfl rfl rfl rfl hl)

/-- A slot is filed: FILED, in the queue of its card and at the tail of the acceptance-order list. -/
theorem listsOk_file {s t : State} (h : s.listsOk) (i : SlotId) (c : CardId) (hi : (s.slot i).unlisted) (hc : t.slotCard i = some c)
    (hti : t.slot i = { state := .filed, cause := none }) (hslot : ∀ j, j ≠ i → t.slot j = s.slot j)
    (hcard : ∀ j, j ≠ i → t.slotCard j = s.slotCard j)
    (ho : t.acceptOrder = s.acceptOrder ++ [i]) (front back : List SlotId) (hq : (s.card c).queue = front ++ back)
    (htc : t.card c = { s.card c with queue := front ++ i :: back }) (hd : ∀ d, d ≠ c → t.card d = s.card d) (hstart : t.startOk) :
    t.listsOk := by
  have hst : ∀ j, (t.slot j).state = if j = i then .filed else (s.slot j).state := by
    intro j; split
    · subst j; rw [hti]
    · rw [hslot j (by assumption)]
  have hp : ∀ j, ((t.slot j).state = .active ∨ (t.slot j).state = .cancelling) ↔ ((s.slot j).state = .active ∨ (s.slot j).state = .cancelling) := by
    intro j; rw [hst]; split
    · rename_i e; subst e; rcases hi with e | e <;> rw [e] <;> simp
    · rfl
  have hx : ∀ j, (t.slot j).state = .filed ↔ ((s.slot j).state = .filed ∨ j = i) := by
    intro j; rw [hst]; split
    · rename_i e; simp [e]
    · rename_i e; simp [e]
  have hcan : ∀ j, (t.slot j).state = .cancelling ↔ (s.slot j).state = .cancelling := by
    intro j; rw [hst]; split
    · rename_i e; subst e; rcases hi with e | e <;> rw [e] <;> simp
    · rfl
  have hin : ∀ d, i ∉ (s.card d).queue := fun d hm => by
    have := (filed_of_mem h hm).1
    rcases hi with e | e <;> rw [e] at this <;> simp at this
  have hio : i ∉ s.acceptOrder := fun hm => by
    have := (h.2.1.2 i).1 hm
    rcases hi with e | e <;> rw [e] at this <;> simp at this
  have hk : ∀ d, (t.card d).activeSlot = (s.card d).activeSlot ∧ (s.card d).stopsKept (t.card d) ∧ (t.card d).cancelNotice = (s.card d).cancelNotice := by
    intro d
    by_cases e : d = c
    · subst e; rw [htc]; exact ⟨rfl, fun _ => id, rfl⟩
    · rw [hd d e]; exact ⟨rfl, fun _ => id, rfl⟩
  obtain ⟨g1, g2, g3, g4, g5, g6, g7⟩ := h
  refine ⟨fun d => ?_, ⟨?_, fun j => ?_⟩, fun d j => ?_, fun j hj => ?_, fun d => ⟨?_, fun j hj => ?_⟩, hstart, fun j => ?_⟩
  · by_cases e : d = c
    · subst e
      rw [htc]
      have hn := (g1 d).1
      have hm := hin d
      have hall := (g1 d).2
      simp only
      rw [hq] at hn hm hall
      refine ⟨(List.perm_middle.nodup_iff).2 (List.nodup_cons.2 ⟨hm, hn⟩), fun j => ?_⟩
      rw [List.perm_middle.mem_iff, List.mem_cons, hall, hx]
      by_cases e : j = i
      · subst e; simp [hc]
      · simp [e, hcard j e]
    · rw [hd d e]
      refine ⟨(g1 d).1, fun j => ?_⟩
      rw [(g1 d).2, hx]
      by_cases e' : j = i
      · subst e'
        rw [hc]
        refine ⟨fun x => ?_, fun x => absurd (Option.some.inj x.2).symm e⟩
        rcases hi with e' | e' <;> rw [e'] at x <;> simp at x
      · simp [e', hcard j e']
  · rw [ho]; exact (List.perm_append_singleton i _).nodup_iff.2 (List.nodup_cons.2 ⟨hio, g2.1⟩)
  · rw [ho, (List.perm_append_singleton i _).mem_iff, List.mem_cons, g2.2, hx, hp]
    constructor
    · rintro (e | e | e)
      · exact Or.inl (Or.inr e)
      · exact Or.inl (Or.inl e)
      · exact Or.inr e
    · rintro ((e | e) | e)
      · exact Or.inr (Or.inl e)
      · exact Or.inl e
      · exact Or.inr (Or.inr e)
  · rw [(hk d).1, g3, hp]
    by_cases e : j = i
    · subst e
      refine ⟨fun x => ?_, fun x => ?_⟩ <;> rcases hi with e | e <;> rw [e] at x <;> simp at x
    · rw [hcard j e]
  · by_cases e : j = i
    · subst e; rw [hc]; rfl
    · rw [hcard j e]
      rw [hp, hx] at hj
      rcases hj with (hj | hj) | hj
      · exact g4 j (Or.inl hj)
      · exact absurd hj e
      · exact g4 j (Or.inr hj)
  · exact (hk d).2.1 _ (stopsOk_congr (g5 d).1 fun j _ hj => (hcan j).2 hj)
  · rw [(hk d).2.2] at hj
    have := (g5 d).2 j hj
    have e : j ≠ i := fun e => by
      subst e
      rcases hi with e | e <;> rw [e] at this <;> simp at this
    rw [hcan, hcard j e]; exact this
  · by_cases e : j = i
    · subst e; rw [hti]; simp
    · rw [hslot j e]; exact g7 j

theorem startOk_open {s t : State} (hl : s.listsOk) (he : s.engine.closed = false) (h1 : t.resetPin = s.resetPin) (h2 : t.bclr = s.bclr)
    (h3 : t.engine = s.engine) : t.startOk := by
  unfold State.startOk
  rw [h1, h2, h3]
  exact ⟨hl.2.2.2.2.2.1.1, fun x => by rw [x] at he; exact absurd he (by decide)⟩

theorem takeFile_lists (s : State) (i : SlotId) (hi : (s.slot i).state = .free) (he : s.engine.closed = false) (hl : s.listsOk) :
    (s.takeFile i).listsOk := by
  unfold State.takeFile
  split
  · refine postJobDone_lists _ _ (passDone_lists hl i _ _ _ rfl (fun _ => rfl) rfl (fun d => (filter_ne_self ?_).symm) (fun d _ => ⟨rfl, fun _ => id⟩)
      (fun d hd => absurd hd ?_) (fun _ _ => id) rfl rfl rfl)
    · exact not_queued_of hl (by rw [hi]; decide) d
    · exact not_active_of hl (by rw [hi]; decide) (by rw [hi]; decide) d
  · rename_i c _ hc
    have hhead : ∀ j, (s.setSlotWord i 7 (s.acceptSeq + 1)).slotCard j = s.slotCard j :=
      (setSlotWord_keeps (P := True) s i 7 (s.acceptSeq + 1) (by decide) (by decide)).slotCard
    have h1 : (s.setSlotWord i 7 (s.acceptSeq + 1)).resetPin = s.resetPin := rfl
    have h2 : (s.setSlotWord i 7 (s.acceptSeq + 1)).bclr = s.bclr := rfl
    have h3 : (s.setSlotWord i 7 (s.acceptSeq + 1)).engine = s.engine := rfl
    have h4 : ∀ j, (s.setSlotWord i 7 (s.acceptSeq + 1)).slot j = s.slot j := fun _ => rfl
    have h5 : ∀ d, (s.setSlotWord i 7 (s.acceptSeq + 1)).card d = s.card d := fun _ => rfl
    have h6 : (s.setSlotWord i 7 (s.acceptSeq + 1)).acceptOrder = s.acceptOrder := rfl
    unfold State.acceptFiling State.enqueue
    simp only
    generalize s.setSlotWord i 7 (s.acceptSeq + 1) = w at *
    generalize hx : (({ w with acceptSeq := s.acceptSeq + 1 } : State).setSlot i { state := .filed, cause := none }) = x
    have x1 : ∀ j, x.slotCard j = s.slotCard j := fun j => by rw [← hx]; exact hhead j
    have x2 : x.slot i = { state := .filed, cause := none } := by rw [← hx]; exact slot_setSlot_same _ _ _
    have x3 : ∀ j, j ≠ i → x.slot j = s.slot j := fun j hj => by rw [← hx]; exact (slot_setSlot_other _ _ _ _ hj).trans (h4 j)
    have x4 : ∀ d, x.card d = s.card d := fun d => by rw [← hx]; exact h5 d
    have x5 : x.acceptOrder = s.acceptOrder := by rw [← hx]; exact h6
    have x6 : x.startOk := startOk_open hl he (by rw [← hx]; exact h1) (by rw [← hx]; exact h2) (by rw [← hx]; exact h3)
    clear hx
    have file : ∀ (front back : List SlotId) (f : Card → Card), (s.card c).queue = front ++ back →
        f (s.card c) = { s.card c with queue := front ++ i :: back } →
        ({ x.updCard c f with acceptOrder := (x.updCard c f).acceptOrder ++ [i] } : State).listsOk := by
      intro front back f hq hf
      refine listsOk_file hl i c (Or.inl hi) ((x1 i).trans hc) x2 x3 (fun j _ => x1 j) (congrArg (· ++ [i]) x5) front back hq ?_ (fun d hd => ?_) x6
      · refine (card_updCard_same x c f).trans ?_
        rw [x4, hf]
      · exact (card_updCard_other x c d f hd).trans (x4 d)
    refine file (if headerUrgent (x.slotWord i 1) then (s.card c).queue.takeWhile fun j => headerUrgent (x.slotWord j 1) else (s.card c).queue)
      (if headerUrgent (x.slotWord i 1) then (s.card c).queue.dropWhile fun j => headerUrgent (x.slotWord j 1) else []) _ ?_ ?_
    · split
      · exact List.takeWhile_append_dropWhile.symm
      · exact (List.append_nil _).symm
    · simp only
      split <;> rfl
  · exact hl

theorem requestCancel_lists (s : State) (i : SlotId) (he : s.engine.closed = false) (hl : s.listsOk) : (s.requestCancel i).listsOk := by
  unfold State.requestCancel
  split
  · rename_i hi
    obtain ⟨c, hc⟩ := named_of_listed hl (by rw [SlotCtl.unlisted_iff, hi]; simp)
    unfold State.dequeue
    rw [hc]
    exact endFiled_lists hl i c _ _ _ hi hc
  · rename_i hi
    obtain ⟨c, hc⟩ := named_of_listed hl (by rw [SlotCtl.unlisted_iff, hi]; simp)
    unfold State.tellCancel
    rw [show (s.setSlot i { state := .cancelling, cause := some .cancel }).slotCard i = s.slotCard i from rfl, hc]
    refine listsOk_cancel hl (fun j => ?_) (fun _ => rfl) rfl (fun d => ?_) (fun d j hj => ?_) (startOk_open hl he rfl rfl rfl)
    · by_cases e : j = i
      · subst e; exact Or.inr ⟨hi, by rw [show ∀ f, ((s.setSlot j _).updCard c f).slot j = _ from fun _ => slot_setSlot_same _ _ _]; exact ⟨rfl, rfl⟩⟩
      · exact Or.inl (slot_setSlot_other _ _ _ _ e)
    · by_cases e : d = c
      · subst e; exact ⟨_, card_updCard_same _ _ _⟩
      · exact ⟨(s.card d).cancelNotice, card_updCard_other _ _ _ _ e⟩
    · by_cases e : d = c
      · subst e
        rw [card_updCard_same] at hj
        have := Option.some.inj hj
        subst this
        exact Or.inr ⟨by rw [show ∀ f, ((s.setSlot i _).updCard d f).slot i = _ from fun _ => slot_setSlot_same _ _ _], hc⟩
      · rw [card_updCard_other _ _ _ _ e] at hj; exact Or.inl hj
  all_goals exact refuseRequest_lists _ _ _ _ hl

theorem requestRelease_lists (s : State) (i : SlotId) (he : s.engine.closed = false) (hl : s.listsOk) : (s.requestRelease i).listsOk := by
  unfold State.requestRelease
  split
  · rename_i hi
    refine listsOk_same hl (fun j => ?_) (fun j _ => ?_) rfl (fun _ => rfl) (fun _ => rfl) (fun _ _ => id) (fun _ => id)
      (startOk_open hl he rfl rfl rfl)
    · by_cases e : j = i
      · subst e
        refine Or.inr ⟨Or.inr hi, ?_⟩
        rw [show (s.takeRelease j).slot j = _ from slot_setSlot_same _ _ _]
        exact ⟨Or.inl rfl, rfl⟩
      · exact Or.inl (slot_setSlot_other _ _ _ _ e)
    · have h : ∀ b, b = slotAddr j 1 ∨ b = slotAddr j 1 + 1 → readByte (s.takeRelease i).mem b = readByte s.mem b := fun b hb => by
        show readByte (zeroRange s.mem (slotAddr i 4) (slotAddr i 16)) b = _
        rw [readByte_zeroRange, if_neg]
        have := j.isLt
        have := i.isLt
        unfold slotAddr Config.slotBase at hb ⊢
        omega
      unfold State.slotCard State.slotWord State.word readWord
      rw [h _ (Or.inl rfl), h _ (Or.inr rfl)]
  all_goals exact refuseRequest_lists _ _ _ _ hl

theorem slotRequest_lists (s : State) (i : SlotId) (v : Word) (he : s.engine.closed = false) (hl : s.listsOk) : (s.slotRequest i v).listsOk := by
  unfold State.slotRequest
  split
  · unfold State.requestFile
    split
    · exact takeFile_lists s i (by assumption) he hl
    all_goals exact refuseRequest_lists _ _ _ _ hl
  · split
    · exact requestCancel_lists s i he hl
    · split
      · exact requestRelease_lists s i he hl
      · exact refuseRequest_lists _ _ _ _ hl

theorem hostAccess_lists (s : State) (a : Nat) (f : State → State) (hl : s.listsOk) (h : s.engine.closed = false → (f s).listsOk) :
    (s.hostAccess a f).listsOk := by
  unfold State.hostAccess
  split
  · exact hl
  · exact listsOk_inert rfl rfl rfl rfl rfl rfl rfl hl
  all_goals rename_i he; exact h (by rw [he]; rfl)

end Sys2Proof.Machine
end

