-- ==== Sys2Proof/Laws/Undisturbed.lean ====
section
/-! SUPPORT. Laws of what the part leaves alone: each operation that is not a host write, a zero-fill or a strobe keeps the stable bytes,
the queue of commands and the RESET pin. -/

namespace Sys2Proof.Machine

/-- The stable bytes read as before, and the queue of commands and the RESET pin are untouched. -/
def Stays (s t : State) : Prop := (∀ a, stableByte a → readByte t.mem a = readByte s.mem a) ∧
  t.pending = s.pending ∧ t.resetPin = s.resetPin

theorem Stays.refl (s : State) : Stays s s := ⟨fun _ _ => rfl, rfl, rfl⟩

theorem Stays.trans {s t u : State} (h : Stays s t) (g : Stays t u) : Stays s u := ⟨fun a ha => (g.1 a ha).trans (h.1 a ha), g.2.1.trans h.2.1,
  g.2.2.trans h.2.2⟩

theorem stays_of_keeps {s t : State} (h : Keeps False s t) : Stays s t := ⟨h.stable, h.pending, h.resetPin⟩

theorem stays_of_mem {s t : State} (h : t.mem = s.mem) (g : t.pending = s.pending)
    (r : t.resetPin = s.resetPin := by rfl) : Stays s t := ⟨fun a _ => by rw [h], g, r⟩

theorem updCard_stays (s : State) (c : CardId) (f : Card → Card) : Stays s (s.updCard c f) := ⟨fun _ _ => rfl, rfl, rfl⟩

theorem updSeq_stays (s : State) (c : CardId) (f : Sequencer → Sequencer) : Stays s (s.updSeq c f) := ⟨fun _ _ => rfl, rfl, rfl⟩

theorem tenure_stays (s : State) (o : Option Tenure) : Stays s { s with tenure := o } := ⟨fun _ _ => rfl, rfl, rfl⟩

theorem passDone_stays (s : State) (i : SlotId) (o : JobOutcome) (w5 w6 : Option Word) : Stays s (s.passDone i o w5 w6) := ⟨passDone_stable s i o w5 w6, 
  by have h := congrArg State.pending (passDone_frame s i o w5 w6); exact h,
  by have h := congrArg State.resetPin (passDone_frame s i o w5 w6); exact h⟩

theorem drainCheck_stays (s : State) : Stays s s.drainCheck := by
  have h1 := congrArg State.mem (drainCheck_frame s)
  have h2 := congrArg State.pending (drainCheck_frame s)
  have h3 := congrArg State.resetPin (drainCheck_frame s)
  exact stays_of_mem h1 h2 h3

theorem post_stays (s : State) (n : Notice) : Stays s (s.post n) := stays_of_keeps (post_keeps s n)

theorem postJobDone_stays (s : State) (i : SlotId) : Stays s (s.postJobDone i) := stays_of_keeps (postJobDone_keeps s i)

theorem endWaiting_stays (s : State) (i : SlotId) (o : JobOutcome) (w5 w6 : Option Word) : Stays s (s.endWaiting i o w5 w6) := (passDone_stays _ _ _ _ _).trans (postJobDone_stays _ _)

theorem endInProgress_stays (s : State) (i : SlotId) (o : JobOutcome) (w5 w6 : Option Word) : Stays s (s.endInProgress i o w5 w6) :=
  (passDone_stays _ _ _ _ _).trans ((drainCheck_stays _).trans (postJobDone_stays _ _))

theorem refuseRequest_stays (s : State) (i : SlotId) (v : Word) (w : Option Reason) : Stays s (s.refuseRequest i v w) := (stays_of_mem rfl rfl : Stays s s.countRefusal).trans (post_stays _ _)

theorem jobTenureEnd_stays (s : State) (p : Tenure → Bool) (take : Tenure → SlotId → State → State) (h : ∀ t i u, Stays u
    (take t i u)) : Stays s (s.jobTenureEnd p take) := by
  unfold State.jobTenureEnd
  split
  · rename_i t _
    split
    · simp only
      split
      · exact (stays_of_mem rfl rfl : Stays s { s with tenure := none }).trans (h t _ _)
      · exact stays_of_mem rfl rfl
    · exact Stays.refl s
  · exact Stays.refl s

theorem takeRelease_stays (s : State) (i : SlotId) : Stays s (s.takeRelease i) := by
  refine ⟨fun a ha => ?_, rfl, rfl⟩
  show readByte (zeroRange s.mem (slotAddr i 4) (slotAddr i 16)) a = _
  rw [readByte_zeroRange, if_neg]
  have := i.isLt
  simp only [stableByte, slotAddr, Config.slotBase] at *; omega

theorem slotRequest_stays (s : State) (i : SlotId) (v : Word) : Stays s (s.slotRequest i v) := by
  unfold State.slotRequest
  split
  · unfold State.requestFile State.takeFile
    split
    · split
      · exact endWaiting_stays _ _ _ _ _
      · unfold State.acceptFiling; exact (stays_of_keeps (setSlotWord_keeps _ _ _ _ (by decide) (by decide))).trans (stays_of_mem rfl rfl)
      · exact Stays.refl s
    all_goals exact refuseRequest_stays _ _ _ _
  · split
    · unfold State.requestCancel
      split
      · refine Stays.trans (t := s.dequeue i) ?_ (endWaiting_stays _ _ _ _ _)
        unfold State.dequeue; split <;> exact stays_of_mem rfl rfl
      · refine Stays.trans (t := s.setSlot i { state := .cancelling, cause := some .cancel }) (stays_of_mem rfl rfl) ?_
        unfold State.tellCancel; split <;> exact stays_of_mem rfl rfl
      all_goals exact refuseRequest_stays _ _ _ _
    · split
      · unfold State.requestRelease
        split
        · exact takeRelease_stays s i
        all_goals exact refuseRequest_stays _ _ _ _
      · exact refuseRequest_stays _ _ _ _

theorem hostAccess_stays (s : State) (a : Nat) (f : State → State) (h : Stays s (f s)) : Stays s (s.hostAccess a f) := by
  unfold State.hostAccess; split <;> first | exact h | exact stays_of_mem rfl rfl

theorem engineReset_stays (s : State) : Stays s s.engineReset := by
  rw [engineReset_eq]
  have h1 : Keeps False s ((s.countAllClaimable allCards).writeResetOutcomes allSlots) := (countAllClaimable_keeps allCards s).trans (writeResetOutcomes_keeps allSlots _)
  generalize (s.countAllClaimable allCards).writeResetOutcomes allSlots = t at h1
  refine ⟨fun a ha => ?_, h1.pending, h1.resetPin⟩
  show readByte (zeroRange t.mem (noticeAddr 0 0) Config.stepBase) a = _
  rw [readByte_zeroRange, if_neg, h1.stable a ha]
  simp only [stableByte, noticeAddr, Config.noticeBase, Config.stepBase] at *; omega

theorem writeCtrl_stays (s : State) (w : Word) : Stays s (s.writeCtrl w) := by
  unfold State.writeCtrl
  split
  · exact Stays.refl s
  · split
    · exact engineReset_stays s
    · split
      · refine Stays.trans (t := s.takeLevels w) (stays_of_mem rfl rfl) ?_
        unfold State.takeResume; split
        · split <;> exact stays_of_mem rfl rfl
        · exact Stays.refl _
      · exact stays_of_mem rfl rfl

theorem jobEndAtCard_stays (s : State) (c : CardId) (o : JobOutcome) : Stays s (s.jobEndAtCard c o) := by
  unfold State.jobEndAtCard
  split
  · refine Stays.trans (t := s.updCard c fun k => { k with presence := .ready }) (stays_of_mem rfl rfl) ?_
    exact (stays_of_keeps (clearClaimable_keeps _ _)).trans (updCard_stays _ _ _)
  · exact stays_of_keeps (clearClaimable_keeps _ _)

theorem endReportTaken_stays (s : State) (c : CardId) : Stays s (s.endReportTaken c) := by
  unfold State.endReportTaken
  split
  · unfold State.takeReport
    simp only
    split
    · exact stays_of_mem rfl rfl
    · refine Stays.trans (t := s.updCard c fun k => { k with endReport := none }) (stays_of_mem rfl rfl) ?_
      exact (passDone_stays _ _ _ _ _).trans ((jobEndAtCard_stays _ _ _).trans ((drainCheck_stays _).trans (postJobDone_stays _ _)))
  · exact Stays.refl s

theorem latchProfile_stays (s : State) (c : CardId) (p : Profile) : Stays s (s.latchProfile c p) := by
  unfold State.latchProfile
  simp only
  split
  · exact stays_of_mem rfl rfl
  · split
    · split
      · refine Stays.trans (t := (s.updCard c fun k => { k with profile := p }).updCard c fun k => { k with attnReq := none, attnPhase := .quiet }) (stays_of_mem rfl rfl) ?_
        exact stays_of_keeps (completeAttention_keeps _ _ _ fun h => False.elim h)
      · exact stays_of_mem rfl rfl
    · exact stays_of_mem rfl rfl

theorem jobStart_stays (s : State) (c : CardId) : Stays s (s.jobStart c) := by
  unfold State.jobStart
  split
  · split
    · rename_i i _
      unfold State.startSlot
      simp only
      refine Stays.trans (t := s.updCard c fun k => { k with queue := k.queue.filter fun j => j ≠ i }) (stays_of_mem rfl rfl) ?_
      split
      · exact endWaiting_stays _ _ _ _ _
      · exact (latchProfile_stays _ _ _).trans (Stays.trans (t := (State.latchProfile _ c _).activate c i) ⟨fun _ _ => rfl, rfl, rfl⟩ (stays_of_keeps (runSteps_keeps c _ _ fun h => False.elim h)))
    · exact Stays.refl s
  · exact Stays.refl s

theorem endJob_stays (s : State) (c : CardId) (e : Ending) : Stays s (s.endJob c e) := stays_of_keeps (endJob_keeps _ _ _ fun h => False.elim h)

theorem beginAbandon_stays (s : State) (c : CardId) (e : AbandonReason) : Stays s (s.beginAbandon c e) := stays_of_keeps (beginAbandon_keeps _ _ _ (fun h => False.elim h) fun h => False.elim h)

theorem cancelNoticeTaken_stays (s : State) (c : CardId) : Stays s (s.cancelNoticeTaken c) := by
  unfold State.cancelNoticeTaken
  split
  · exact Stays.refl s
  · simp only
    split
    · refine Stays.trans (t := (s.updCard c fun k => { k with cancelNotice := none }).updSeq c fun q => { q with stop := true }) (stays_of_mem rfl rfl) ?_
      unfold State.stopStep
      split <;> first | exact Stays.refl _ | exact endJob_stays _ _ _ | skip
      unfold State.stopInBusWait
      split
      · exact endJob_stays _ _ _
      · split
        · exact Stays.refl _
        all_goals
          split
          · exact beginAbandon_stays _ _ _
          · exact endJob_stays _ _ _
    · exact stays_of_mem rfl rfl

theorem grantBus_stays (s : State) : Stays s s.grantBus := by
  unfold State.grantBus
  split
  · split
    · split
      · exact stays_of_mem rfl rfl
      · exact Stays.refl s
    · split
      · split
        · exact stays_of_mem rfl rfl
        · exact Stays.refl s
      · exact Stays.refl s
  · exact Stays.refl s

theorem finishStep_stays (s : State) (c : CardId) : Stays s (s.finishStep c) := stays_of_keeps (finishStep_keeps _ _ fun h => False.elim h)

theorem failWithDetail_stays (s : State) (c : CardId) (o : JobOutcome) (d : Word) : Stays s (s.failWithDetail c o d) := stays_of_keeps (failWithDetail_keeps _ _ _ _ fun h => False.elim h)

theorem attentionReadEnd_stays (s : State) : Stays s s.attentionReadEnd := by
  unfold State.attentionReadEnd
  split
  · split
    · simp only
      split
      · exact (tenure_stays s none).trans (stays_of_keeps (completeVoid_keeps _ _ _))
      · exact (tenure_stays s none).trans (stays_of_keeps (completeAttention_keeps _ _ _ fun h => False.elim h))
    · exact Stays.refl s
  · exact Stays.refl s

theorem readyTimeout_stays (s : State) : Stays s s.readyTimeout := by
  unfold State.readyTimeout
  split
  · rename_i t ht
    split
    · simp only
      have h2 : Stays s ((s.setTenure { t with phase := .recovery, mark := .faulted }).recordFault t.req.card t.fault (decide (t.req.kind = .attentionRead))) := by
        unfold State.recordFault
        simp only
        refine Stays.trans (t := (s.setTenure { t with phase := .recovery, mark := .faulted }).setProfileWord t.req.card 15 t.fault) ?_ ((updCard_stays _ _ _).trans (post_stays _ _))
        exact (tenure_stays s (some { t with phase := .recovery, mark := .faulted })).trans (stays_of_keeps (setProfileWord_keeps _ _ _ _ (by decide) (by decide)))
      refine h2.trans ?_
      split
      · unfold State.takeAttentionFault
        exact (stays_of_keeps (writeSnapshot_keeps _ _ _)).trans ((updCard_stays _ _ _).trans (stays_of_keeps (failJob_keeps _ _ _ _ fun h => False.elim h)))
      · unfold State.takeJobFault
        split
        · split <;> first | exact failWithDetail_stays _ _ _ _ | exact stays_of_keeps (failJob_keeps _ _ _ _ fun h => False.elim h)
        · exact Stays.refl _
    · exact Stays.refl s
  · exact Stays.refl s

theorem drainQueue_stays (c : CardId) (q : List SlotId) : ∀ s : State, Stays s (s.drainQueue c q) := by
  induction q with
  | nil => intro s; exact Stays.refl s
  | cons i q ih => intro s; unfold State.drainQueue; exact Stays.trans (t := s.updCard c fun k => { k with queue := q }) (stays_of_mem rfl rfl) ((endWaiting_stays _ _ _ _ _).trans (ih _))

theorem remove_stays (s : State) (c : CardId) : Stays s (s.remove c) := by
  unfold State.remove
  simp only
  refine Stays.trans (t := (s.updCard c fun k => { k with presence := .absent }).takeDown c) ?_ (Stays.trans ?_ ((drainQueue_stays _ _ _).trans (post_stays _ _)))
  · refine Stays.trans (t := s.updCard c fun k => { k with presence := .absent }) (stays_of_mem rfl rfl) ?_
    unfold State.takeDown
    simp only
    refine Stays.trans (t := (s.updCard c fun k => { k with presence := .absent }).cutTenure c) ?_ ((stays_of_keeps (dropStream_keeps _ _)).trans ((stays_of_keeps (clearClaimable_keeps _ _)).trans (updCard_stays _ _ _)))
    unfold State.cutTenure; split
    · split <;> exact stays_of_mem rfl rfl
    · exact stays_of_mem rfl rfl
  · unfold State.endRemoved; split
    · exact endInProgress_stays _ _ _ _ _
    · exact Stays.refl _

theorem arrive_stays (s : State) (c : CardId) : Stays s (s.arrive c) := by
  unfold State.arrive; exact (updCard_stays _ _ _).trans (post_stays _ _)

theorem presenceSample_stays (s : State) (c : CardId) (p : Bool) : Stays s (s.presenceSample c p) := by
  unfold State.presenceSample
  split
  · exact Stays.refl s
  · unfold State.sample
    split
    · exact stays_of_mem rfl rfl
    · exact Stays.refl s
    · split
      · exact arrive_stays s c
      · exact stays_of_mem rfl rfl
    · exact stays_of_mem rfl rfl
    · exact Stays.refl s
    · exact Stays.refl s
    · exact remove_stays s c
    · exact remove_stays s c

theorem enterStandstill_stays (s : State) : Stays s s.enterStandstill := by
  unfold State.enterStandstill; simp only; exact Stays.trans (t := { s with engine := .standstill, slots := tab fun i => (s.slot i).standstill, cards := tab fun c => s.standstillCard c }) ⟨fun _ _ => rfl, rfl, rfl⟩ (post_stays _ _)

theorem strobe_pending (s : State) (t : Tenure) (stop : Bool) (d : Word) : (s.releaseStrobe t stop d).pending = s.pending := by
  unfold State.releaseStrobe
  simp only
  split <;> first | rfl | (split <;> rfl)

end Sys2Proof.Machine
end

