-- ==== Sys2Proof/Laws/ListSteps.lean ====
section
/-! SUPPORT. Laws of the slots and their lists, command by command: each command's operation keeps `State.listsOk`. A proof about a step
cites the lemma of the operation its command runs. -/

namespace Sys2Proof.Machine

/-! ## Host writes -/

/-- A change of the memory that leaves word 1 of every listed slot. -/
theorem listsOk_mem {s t : State} (hl : s.listsOk) (hf : { t with mem := s.mem } = s)
    (hw : ∀ j, ¬ (s.slot j).unlisted → t.slotCard j = s.slotCard j) : t.listsOk := by
  have f (α : Type) (g : State → α) : g { t with mem := s.mem } = g s := congrArg g hf
  have e1 := f _ State.resetPin; have e2 := f _ State.bclr; have e3 := f _ State.engine; have e4 := f _ State.acceptOrder
  have e5 : ∀ j, t.slot j = s.slot j := fun j => f _ (fun x => x.slot j)
  have e6 : ∀ c, t.card c = s.card c := fun c => f _ (fun x => x.card c)
  exact listsOk_same hl (fun j => Or.inl (e5 j)) hw e4 (fun c => by rw [e6]) (fun c => by rw [e6]) (fun c j => by rw [e6]; exact id)
    (fun c => stopsKept_of_cards e6 c _) (startOk_of hl.2.2.2.2.2.1 e1 e2 e3 fun j => Or.inl (e5 j))

/-- A word written at an even address is word 1 of slot `j`, or leaves it. -/
theorem slotCard_setWord (s : State) (a : Nat) (v : Word) (j : SlotId) (h : a % 2 = 0) (hn : a ≠ slotAddr j 1) :
    (s.setWord a v).slotCard j = s.slotCard j := by
  unfold State.slotCard State.slotWord
  rw [word_setWord_other]
  unfold slotAddr Config.slotBase at *
  omega

theorem judgeWrite_lists (s : State) (a : WordAddr) (v : Word) (he : s.engine.closed = false) (hl : s.listsOk) : (s.judgeWrite a v).listsOk := by
  have write : (s.classOf a = .hostOwned ∨ ∃ p, s.classOf a = .dataPage p) → (s.setWord (2 * a.toNat) v).listsOk := by
    intro hc
    refine listsOk_mem hl rfl fun j hj => ?_
    refine slotCard_setWord s _ v j (by omega) fun e => ?_
    have := classOf_slot s a j 1 (by decide) e
    rw [this] at hc
    unfold State.slotClassOf at hc
    simp only [Nat.one_ne_zero, if_false] at hc
    rw [if_pos (by decide), if_neg (fun x => hj (Or.inl x))] at hc
    simp at hc
  unfold State.judgeWrite
  split
  · exact write (Or.inl (by assumption))
  · rename_i p hp
    have h := write (Or.inr ⟨p, hp⟩)
    have hf := reportPageWrite_frame (s.setWord (2 * a.toNat) v) p
    generalize (s.setWord (2 * a.toNat) v) = w at h hf ⊢
    have f (α : Type) (g : State → α) : g { w.reportPageWrite p with breach := w.breach } = g w := congrArg g hf
    exact listsOk_inert (f _ State.slots) (f _ State.mem) (f _ State.acceptOrder) (f _ State.cards) (f _ State.resetPin) (f _ State.bclr)
      (f _ State.engine) h
  · exact listsOk_inert rfl rfl rfl rfl rfl rfl rfl hl
  · exact slotRequest_lists s _ v he hl
  · exact listsOk_inert rfl rfl rfl rfl rfl rfl rfl hl
  · unfold State.takeConsumed; split <;> exact listsOk_inert rfl rfl rfl rfl rfl rfl rfl hl
  · unfold State.takeLost; split <;> exact listsOk_inert rfl rfl rfl rfl rfl rfl rfl hl

/-! ## The bus -/

theorem grantBus_lists (s : State) (hl : s.listsOk) : s.grantBus.listsOk := by
  have begun : ∀ r : Request, (s.beginTenure r).listsOk := fun r => listsOk_inert rfl rfl rfl rfl rfl rfl rfl hl
  unfold State.grantBus
  split
  · split
    · split
      · rename_i c _ _ r _
        unfold State.grantAttention
        have h := listsOk_updCard (s.beginTenure r) c (fun k => { k with attnReq := none, attnPhase := .reading }) rfl rfl (fun _ => id)
          (fun _ => id) (begun r)
        exact listsOk_inert (s := (s.beginTenure r).updCard c fun k => { k with attnReq := none, attnPhase := .reading }) rfl rfl rfl rfl rfl rfl rfl h
      · exact hl
    · split
      · split
        · rename_i c _ _ r _
          unfold State.grantJob
          let f : Card → Card := fun k =>
            { k with jobReq := none, seq := { k.seq with phase := .tenure }
                     stream := if r.kind.isBurst then k.stream.map fun m => { m with begun := true } else k.stream }
          have h : ((s.beginTenure r).updCard c f).listsOk := by
            refine listsOk_updCard (s.beginTenure r) c f rfl rfl (fun _ => id) (stopsKept_of_same rfl ?_ rfl (Or.inr fun hn => ?_)) (begun r)
            · rintro (h | h)
              · exact Or.inl h
              · refine Or.inr ?_
                simp only [f] at h
                split at h
                · rw [Option.map_map] at h
                  exact h
                · exact h
            · simp only [f, hn, Option.map_none]; split <;> rfl
          exact listsOk_inert (s := (s.beginTenure r).updCard c f) rfl rfl rfl rfl rfl rfl rfl h
        · exact hl
      · exact hl
  · exact hl

theorem setTenure_lists (s : State) (t : Tenure) (hl : s.listsOk) : (s.setTenure t).listsOk := listsOk_inert rfl rfl rfl rfl rfl rfl rfl hl

theorem updStream_move_lists (s : State) (c : CardId) (w : Word) (hl : s.listsOk) : (s.updStream c (StreamRec.move w)).listsOk := by
  have h := updStream_stops s c (StreamRec.move w) fun _ h => Or.inl h
  exact listsOk_of_keeps (updStream_keeps (P := False) s c (StreamRec.move w)) h hl

theorem releaseStrobe_lists (s : State) (t : Tenure) (stop : Bool) (data : Word) (hl : s.listsOk) : (s.releaseStrobe t stop data).listsOk := by
  unfold State.releaseStrobe
  simp only
  split
  all_goals first
    | exact setTenure_lists _ _ hl
    | skip
  · split
    · exact setTenure_lists _ _ hl
    · exact setTenure_lists _ _ (updStream_move_lists _ _ _ hl)
  · split
    · exact setTenure_lists _ _ hl
    · refine setTenure_lists _ _ (updStream_move_lists _ _ _ (listsOk_mem hl rfl fun j _ => ?_))
      refine slotCard_setWord s _ data j ?_ ?_
      · unfold State.streamAddr Config.pageBase; omega
      · have := j.isLt
        unfold State.streamAddr Config.pageBase slotAddr Config.slotBase; omega

theorem strobeWidthEnd_lists (s : State) (r st : Bool) (d : Word) (hl : s.listsOk) : (s.strobeWidthEnd r st d).listsOk := by
  unfold State.strobeWidthEnd
  split
  · split
    · split
      · exact releaseStrobe_lists _ _ _ _ hl
      · exact setTenure_lists _ _ hl
    · exact hl
  · exact hl

theorem rdyRise_lists (s : State) (st : Bool) (d : Word) (hl : s.listsOk) : (s.rdyRise st d).listsOk := by
  unfold State.rdyRise
  split
  · split
    · exact releaseStrobe_lists _ _ _ _ hl
    · exact hl
  · exact hl

theorem stallTimeout_lists (s : State) (hl : s.listsOk) : s.stallTimeout.listsOk := by
  unfold State.stallTimeout
  split
  · split
    · exact setTenure_lists _ _ hl
    · exact hl
  · exact hl

theorem strobeRecoveryEnd_lists (s : State) (hl : s.listsOk) : s.strobeRecoveryEnd.listsOk := by
  unfold State.strobeRecoveryEnd
  split
  · split
    · exact setTenure_lists _ _ hl
    · exact hl
  · exact hl

/-- BCLR, asserted outside RESET. -/
theorem listsOk_bclr {s : State} (b : Bool) (o : Option Tenure) (h : s.resetPin = true → b = false) (hl : s.listsOk) :
    ({ s with tenure := o, bclr := b } : State).listsOk :=
  listsOk_same hl (fun _ => Or.inl rfl) (fun _ _ => rfl) rfl (fun _ => rfl) (fun _ => rfl) (fun _ _ => id) (fun _ => id)
    ⟨fun hr => ⟨(hl.2.2.2.2.2.1.1 hr).1, h hr⟩, hl.2.2.2.2.2.1.2⟩

theorem recoveryWidthEnd_lists (s : State) (hl : s.listsOk) : s.recoveryWidthEnd.listsOk := by
  unfold State.recoveryWidthEnd
  split
  · split
    · refine listsOk_bclr _ _ (fun hr => ?_) hl
      obtain ⟨h1, h2⟩ := hl.2.2.2.2.2.1.1 hr
      rw [h1, h2]; rfl
    · exact hl
  · exact hl

/-! ## The ends of tenures, and waits -/

theorem jobTenureEnd_lists (s : State) (p : Tenure → Bool) (take : Tenure → SlotId → State → State)
    (h : ∀ t i u, u.listsOk → (take t i u).listsOk) (hl : s.listsOk) : (s.jobTenureEnd p take).listsOk := by
  unfold State.jobTenureEnd
  split
  · split
    · have hu : ({ s with tenure := none } : State).listsOk := listsOk_inert rfl rfl rfl rfl rfl rfl rfl hl
      simp only
      split
      · exact h _ _ _ hu
      · exact hu
    · exact hl
  · exact hl

theorem finishStep_lists (s : State) (c : CardId) (hl : s.listsOk) : (s.finishStep c).listsOk :=
  listsOk_of_keeps (finishStep_keeps (P := False) s c fun h => h.elim) (finishStep_stops s c) hl

theorem failJob_lists (s : State) (c : CardId) (o : JobOutcome) (d : Option Word) (hl : s.listsOk) : (s.failJob c o d).listsOk :=
  listsOk_of_keeps (failJob_keeps (P := False) s c o d fun h => h.elim) (failJob_stops s c o d) hl

theorem failWithDetail_lists (s : State) (c : CardId) (o : JobOutcome) (d : Word) (hl : s.listsOk) : (s.failWithDetail c o d).listsOk :=
  listsOk_of_keeps (failWithDetail_keeps (P := False) s c o d fun h => h.elim) (failWithDetail_stops s c o d) hl

theorem requestJob_lists (s : State) (c : CardId) (k : TenureKind) (n : Nat) (d : Word) (o : Bool) (hl : s.listsOk) :
    (s.requestJob c k n d o).listsOk := listsOk_updCard s c _ rfl rfl (fun _ => id) (stopsKept_of_same rfl id rfl (Or.inr id)) hl

theorem beginAbandon_lists (s : State) (c : CardId) (why : AbandonReason) (h : why = .stop → (s.card c).seq.stop = true) (hl : s.listsOk) :
    (s.beginAbandon c why).listsOk :=
  listsOk_of_keeps (beginAbandon_keeps (P := False) s c why (fun h => h.elim) fun h => h.elim) (beginAbandon_stops s c why h) hl

theorem registerWriteEnd_lists (s : State) (hl : s.listsOk) : s.registerWriteEnd.listsOk :=
  jobTenureEnd_lists s _ _ (fun _ _ u h => finishStep_lists u _ h) hl

theorem registerReadEnd_lists (s : State) (hl : s.listsOk) : s.registerReadEnd.listsOk := by
  refine jobTenureEnd_lists s _ _ (fun t i u h => ?_) hl
  simp only
  split
  · exact listsOk_of_keeps (judgePoll_keeps (P := False) u _ i _ fun h => h.elim) (judgePoll_stops u _ i _) h
  · exact finishStep_lists _ _ (listsOk_of_keeps (setCapture_keeps (P := False) _ _ _ _) (setCapture_stops _ _ _ _) h)

theorem burstEnd_lists (s : State) (hl : s.listsOk) : s.burstEnd.listsOk :=
  jobTenureEnd_lists s _ _ (fun _ i u h => listsOk_of_keeps (takeBurstEnd_keeps (P := False) u _ i fun h => h.elim) (takeBurstEnd_stops u _ i) h) hl

theorem burstStop_lists (s : State) (hl : s.listsOk) : s.burstStop.listsOk :=
  jobTenureEnd_lists s _ _ (fun _ _ u h => failWithDetail_lists u _ _ _ h) hl

theorem burstStallEnd_lists (s : State) (hl : s.listsOk) : s.burstStallEnd.listsOk :=
  jobTenureEnd_lists s _ _ (fun _ _ u h => beginAbandon_lists u _ _ (fun x => by simp at x) h) hl

theorem recheck_lists (s : State) (c : CardId) (i : SlotId) (v : Word) (hl : s.listsOk) : (s.recheck c i v).listsOk :=
  listsOk_of_keeps (recheck_keeps (P := False) s c i v fun h => h.elim) (recheck_stops s c i v) hl

theorem checkOutEnd_lists (s : State) (hl : s.listsOk) : s.checkOutEnd.listsOk := by
  refine jobTenureEnd_lists s _ _ (fun t i u h => ?_) hl
  split
  · exact failWithDetail_lists _ _ _ _ h
  · exact recheck_lists _ _ _ _ h

theorem checkInEnd_lists (s : State) (hl : s.listsOk) : s.checkInEnd.listsOk := by
  refine jobTenureEnd_lists s _ _ (fun t i u h => ?_) hl
  simp only
  split
  · exact recheck_lists _ _ _ _ h
  · exact failWithDetail_lists _ _ _ _ h

theorem abandonEnd_lists (s : State) (hl : s.listsOk) : s.abandonEnd.listsOk := by
  refine jobTenureEnd_lists s _ _ (fun t i u h => ?_) hl
  have hk : Keeps False u (u.takeAbandonEnd t.req.card i) := by
    unfold State.takeAbandonEnd
    split
    · exact failWithDetail_keeps _ _ _ _ fun h => h.elim
    · exact failWithDetail_keeps _ _ _ _ fun h => h.elim
    · exact endJob_keeps _ _ _ fun h => h.elim
    all_goals exact Keeps.refl u
  exact listsOk_of_keeps hk (takeAbandonEnd_stops u _ i) h

theorem leaseGrantTaken_lists (s : State) (c : CardId) (hl : s.listsOk) : (s.leaseGrantTaken c).listsOk := by
  unfold State.leaseGrantTaken
  split
  · split
    · rename_i m _ _
      have h := listsOk_updCard s c (fun k => { k with leaseGrant := false }) rfl rfl (fun _ => id) (fun _ => id) hl
      exact listsOk_of_keeps (beginBursts_keeps (P := False) _ c m.dir (fun h => h.elim) fun h => h.elim) (beginBursts_stops _ c m.dir) h
    · exact hl
  · exact hl

theorem pollIntervalEnd_lists (s : State) (c : CardId) (hl : s.listsOk) : (s.pollIntervalEnd c).listsOk := by
  unfold State.pollIntervalEnd
  split
  · exact requestJob_lists _ _ _ _ _ _ hl
  · exact hl

theorem awaitTimeout_lists (s : State) (c : CardId) (hl : s.listsOk) : (s.awaitTimeout c).listsOk := by
  unfold State.awaitTimeout
  split
  · exact failJob_lists _ _ _ _ hl
  · exact hl

theorem pauseEnd_lists (s : State) (c : CardId) (hl : s.listsOk) : (s.pauseEnd c).listsOk := by
  unfold State.pauseEnd
  split
  · exact finishStep_lists _ _ hl
  · exact hl

theorem settleWaitEnd_lists (s : State) (c : CardId) (hl : s.listsOk) : (s.settleWaitEnd c).listsOk := by
  unfold State.settleWaitEnd
  split
  · exact finishStep_lists _ _ hl
  · exact hl

theorem endPulse_stops (s : State) (c : CardId) : StopsKept s (s.endPulse c) := by
  unfold State.endPulse
  simp only
  exact (updCard_stops_rest s c (fun k => { k with crst := false, attnPhase := .quiet, attnReq := none }) rfl rfl rfl).trans
    ((clearClaimable_stops _ c).trans (updCard_stops_rest _ c Card.rearm rfl rfl rfl))

theorem pulseEnd_lists (s : State) (c : CardId) (hl : s.listsOk) : (s.pulseEnd c).listsOk := by
  unfold State.pulseEnd
  split
  · simp only
    have h := listsOk_of_keeps (endPulse_keeps (P := False) s c) (endPulse_stops s c) hl
    have hq := (card_endPulse s c).1
    split
    · exact finishStep_lists _ _ h
    · split
      · rename_i hs
        refine listsOk_of_keeps (endJob_keeps (P := False) _ c .stopped fun h => h.elim) (endJob_stops _ c .stopped fun _ => Or.inl ?_) h
        rw [hq]; exact hs
      · exact listsOk_updCard _ c _ rfl rfl (fun _ => id) (stopsKept_of_same rfl id rfl (Or.inr id)) h
  · exact hl

theorem stopStep_keepsRest (s : State) (c : CardId) : Keeps False s (s.stopStep c) := by
  have e : ∀ u : State, Keeps False u (u.endJob c .stopped) := fun u => endJob_keeps _ _ _ fun h => h.elim
  unfold State.stopStep
  split
  · exact Keeps.refl s
  · exact Keeps.refl s
  · exact Keeps.refl s
  · exact e s
  · exact e s
  · exact e s
  · exact e s
  · unfold State.stopInBusWait
    split
    · exact e s
    · split
      · exact Keeps.refl s
      all_goals
        split
        · exact beginAbandon_keeps _ _ _ (fun h => h.elim) fun h => h.elim
        · exact e s

theorem cancelNoticeTaken_lists (s : State) (c : CardId) (hl : s.listsOk) : (s.cancelNoticeTaken c).listsOk := by
  unfold State.cancelNoticeTaken
  split
  · exact hl
  · rename_i i hn
    have hc := ((hl.2.2.2.2.1 c).2 i hn).1
    have h : (s.updCard c fun k => { k with cancelNotice := none }).listsOk :=
      listsOk_updCard s c _ rfl rfl (fun j hj => by simp at hj) (fun _ => id) hl
    simp only
    split
    · rename_i ha
      have h2 : ((s.updCard c fun k => { k with cancelNotice := none }).updSeq c fun q => { q with stop := true }).listsOk := by
        have hk : ∀ d, ((s.updCard c fun k => { k with cancelNotice := none }).updSeq c fun q => { q with stop := true }).card d =
            if d = c then { s.card c with cancelNotice := none, seq := { (s.card c).seq with stop := true } } else s.card d := by
          intro d
          unfold State.updSeq
          split
          · rename_i e; subst e; rw [card_updCard_same, card_updCard_same]
          · rename_i e; rw [card_updCard_other _ _ _ _ e, card_updCard_other _ _ _ _ e]
        refine listsOk_same hl (fun _ => Or.inl rfl) (fun _ _ => rfl) rfl (fun d => ?_) (fun d => ?_) (fun d j hj => ?_) (fun d hd => ?_)
          hl.2.2.2.2.2.1
        · rw [hk]; split
          · rename_i e; rw [e]
          · rfl
        · rw [hk]; split
          · rename_i e; rw [e]; rfl
          · rfl
        · rw [hk] at hj
          split at hj
          · simp at hj
          · exact hj
        · rw [hk]; split
          · rename_i e
            subst e
            obtain ⟨g1, g2, g3, g4⟩ := hd
            refine ⟨fun j hj _ => ?_, g2, g3, g4⟩
            rw [show (s.card d).seq.active = some j from hj] at ha
            rw [Option.some.inj ha]; exact hc
          · exact hd
      exact listsOk_of_keeps (stopStep_keepsRest _ c) (stopStep_stops _ c (by simp [State.updSeq])) h2
    · exact h

/-! ## Attentions and faults -/

theorem completeAttention_lists (s : State) (c : CardId) (v : List Word) (hl : s.listsOk) : (s.completeAttention c v).listsOk :=
  listsOk_of_keeps (completeAttention_keeps (P := False) s c v fun h => h.elim) (completeAttention_stops s c v) hl

theorem atnChange_lists (s : State) (c : CardId) (l : Bool) (hl : s.listsOk) : (s.atnChange c l).listsOk := by
  unfold State.atnChange
  split
  · exact hl
  · split
    · exact listsOk_updCard s c _ rfl rfl (fun _ => id) (fun _ => id) hl
    · have h : (s.updCard c fun k => k.takeLine l).listsOk := listsOk_updCard s c _ rfl rfl (fun _ => id) (fun _ => id) hl
      simp only
      split
      · exact listsOk_of_keeps (detection_keeps (P := False) _ c (fun h => h.elim) fun h => h.elim) (detection_stops _ c) h
      · exact h

theorem attentionReadEnd_lists (s : State) (hl : s.listsOk) : s.attentionReadEnd.listsOk := by
  unfold State.attentionReadEnd
  split
  · rename_i t _
    split
    · have hu : ({ s with tenure := none } : State).listsOk := listsOk_inert rfl rfl rfl rfl rfl rfl rfl hl
      simp only
      split
      · have hst : StopsKept ({ s with tenure := none } : State) (({ s with tenure := none } : State).completeVoid t.req.card t.values) := by
          unfold State.completeVoid
          simp only
          intro d
          rw [card_postUnsolicited, card_updCard]
          split
          · rename_i e; subst e
            simp only [card_countUnclaimed, card_countCompleted, card_writeSnapshot]
            exact stopsKept_of_same rfl id rfl (Or.inr id)
          · simp only [card_countUnclaimed, card_countCompleted, card_writeSnapshot]
            exact fun _ => id
        exact listsOk_of_keeps (completeVoid_keeps (P := False) _ _ _) hst hu
      · exact completeAttention_lists _ _ _ hu
    · exact hl
  · exact hl

theorem attnFault_same (k : Card) (b : Bool) : (k.attnFault b).queue = k.queue ∧ (k.attnFault b).seq = k.seq ∧ (k.attnFault b).stream = k.stream ∧
    (k.attnFault b).endReport = k.endReport ∧ (k.attnFault b).cancelNotice = k.cancelNotice := by
  unfold Card.attnFault
  split
  · exact ⟨rfl, rfl, rfl, rfl, rfl⟩
  · split <;> exact ⟨rfl, rfl, rfl, rfl, rfl⟩

theorem recordFault_lists (s : State) (c : CardId) (d : Word) (b : Bool) (hl : s.listsOk) : (s.recordFault c d b).listsOk := by
  unfold State.recordFault
  simp only
  have h : (s.setProfileWord c 15 d).listsOk :=
    listsOk_of_keeps (setProfileWord_keeps (P := False) s c 15 d (by decide) (by decide)) (stopsKept_of_cards fun _ => rfl) hl
  generalize s.setProfileWord c 15 d = w at h ⊢
  obtain ⟨e1, e2, e3, e4, e5⟩ := attnFault_same (w.card c) b
  have h2 : (w.updCard c fun k => { k.attnFault b with presence := .faulted }).listsOk := by
    refine listsOk_updCard w c _ e1 ?_ (fun j hj => e5 ▸ hj) (stopsKept_of_same (congrArg Sequencer.active e2) ?_ e4 (Or.inr fun x => e3.trans x)) h
    · unfold Card.activeSlot
      simp only [e2, e4]
    · unfold Card.stopping
      simp only [e2, e3]
      exact id
  exact post_lists _ _ h2

theorem takeAttentionFault_lists (s : State) (c : CardId) (v : List Word) (d : Word) (hl : s.listsOk) : (s.takeAttentionFault c v d).listsOk := by
  unfold State.takeAttentionFault
  have h : (s.writeSnapshot c v).listsOk :=
    listsOk_of_keeps (writeSnapshot_keeps (P := False) s c v) (stopsKept_of_cards fun d => card_writeSnapshot s c d v) hl
  generalize s.writeSnapshot c v = w at h ⊢
  exact failJob_lists _ _ _ _ (listsOk_updCard w c _ rfl rfl (fun _ => id) (fun _ => id) h)

theorem takeJobFault_lists (s : State) (c : CardId) (k : TenureKind) (d : Word) (hl : s.listsOk) : (s.takeJobFault c k d).listsOk := by
  unfold State.takeJobFault
  split
  · cases k
    case checkOut => exact failWithDetail_lists _ _ _ _ hl
    case checkIn => exact failWithDetail_lists _ _ _ _ hl
    all_goals exact failJob_lists _ _ _ _ hl
  · exact hl

theorem readyTimeout_lists (s : State) (hl : s.listsOk) : s.readyTimeout.listsOk := by
  unfold State.readyTimeout
  split
  · rename_i t _
    split
    · have h := recordFault_lists (s.setTenure { t with phase := .recovery, mark := .faulted }) t.req.card t.fault (t.req.kind = .attentionRead)
        (setTenure_lists _ _ hl)
      simp only
      split
      · exact takeAttentionFault_lists _ _ _ _ h
      · exact takeJobFault_lists _ _ _ _ h
    · exact hl
  · exact hl

/-! ## The end and the start of a job -/

theorem endReportTaken_lists (s : State) (c : CardId) (hl : s.listsOk) : (s.endReportTaken c).listsOk := by
  unfold State.endReportTaken
  split
  · rename_i r hr
    obtain ⟨e1, e2⟩ := activeSlot_report (hl.2.2.2.2.1 c).1 hr
    obtain ⟨hp, hc⟩ := progress_of_active hl e2
    have h3 := (hl.2.2.2.2.1 c).1.2.2.1 e1
    have hq := not_queued_of hl (i := r.slot) (by rcases hp with e | e <;> rw [e] <;> decide)
    have hdone : ∀ o w5 w6, ((s.updCard c fun k => { k with endReport := none }).passDone r.slot o w5 w6).listsOk := by
      intro o w5 w6
      have hk : ∀ d, (s.updCard c fun k => { k with endReport := none }).card d = if d = c then { s.card c with endReport := none } else s.card d := by
        intro d; split
        · rename_i e; subst e; rw [card_updCard_same]
        · rename_i e; rw [card_updCard_other _ _ _ _ e]
      refine passDone_lists hl r.slot o w5 w6 rfl (fun _ => rfl) rfl (fun d => ?_) (fun d hd => ?_) (fun d hd => ?_) (fun d j hj => ?_) rfl rfl rfl
      · rw [hk]; split
        · rename_i e; rw [e]; exact (filter_ne_self (hq c)).symm
        · exact (filter_ne_self (hq d)).symm
      · have : d ≠ c := fun e => hd (e ▸ e2)
        rw [hk, if_neg this]; exact ⟨rfl, fun _ => id⟩
      · have : d = c := by
          have := (progress_of_active hl hd).2
          rw [hc] at this; exact (Option.some.inj this).symm
        subst this
        rw [hk, if_pos rfl]; exact ⟨e1, rfl, h3⟩
      · rw [hk] at hj
        split at hj
        · rename_i e; rw [e]; exact hj
        · exact hj
    unfold State.takeReport
    simp only
    split
    · rename_i ho
      exfalso
      unfold reportOutcome at ho
      rcases hp with e | e
      · rw [e] at ho
        cases he : r.ending with
        | complete => rw [he] at ho; simp at ho
        | failure o d => rw [he] at ho; simp at ho
        | stopped =>
          have this : (s.slot r.slot).state = .cancelling := (hl.2.2.2.2.1 c).1.2.1 r hr he
          rw [e] at this; simp at this
      · have hcs := (hl.2.2.2.2.2.2 r.slot).2 e
        obtain ⟨x, hx⟩ := Option.isSome_iff_exists.1 hcs
        rw [e, hx] at ho
        cases he : r.ending <;> rw [he] at ho <;> simp at ho
    · exact postJobDone_lists _ _ (drainCheck_lists _ (jobEndAtCard_lists _ _ _ (hdone _ _ _)))
  · exact hl

/-- The slot that starts on a card is filed for it. -/
theorem startChoice_mem {s : State} {c : CardId} {i : SlotId} (h : s.startChoice c = some i) : i ∈ (s.card c).queue := by
  unfold State.startChoice at h
  split at h
  · exact List.mem_of_head? h
  · exact List.mem_of_find?_eq_some h
  · simp at h
  · simp at h

theorem latchProfile_stops (s : State) (c : CardId) (p : Profile) : StopsKept s (s.latchProfile c p) := by
  have h1 : StopsKept s (s.updCard c fun k => { k with profile := p }) := updCard_stops_rest s c _ rfl rfl rfl
  unfold State.latchProfile
  simp only
  split
  · refine h1.trans (updCard_stops_rest _ c _ ?_ ?_ ?_) <;> unfold Card.latchNewSense Card.rearm <;> split <;> rfl
  · split
    · split
      · exact (h1.trans (updCard_stops_rest _ c (fun k => { k with attnReq := none, attnPhase := .quiet }) rfl rfl rfl)).trans
          (completeAttention_stops _ _ _)
      · exact h1.trans (updCard_stops_rest _ c _ rfl rfl rfl)
    · exact h1

/-- A slot starts: ACTIVE, out of its queue, its card's active slot. -/
theorem listsOk_start {s t : State} (h : s.listsOk) (i : SlotId) (c : CardId) (hi : i ∈ (s.card c).queue) (hn : (s.card c).activeSlot = none)
    (hti : t.slot i = { state := .active, cause := none }) (hslot : ∀ j, j ≠ i → t.slot j = s.slot j)
    (hcard : ∀ j, t.slotCard j = s.slotCard j) (ho : t.acceptOrder = s.acceptOrder)
    (hq : ∀ d, (t.card d).queue = (s.card d).queue.filter fun j => j ≠ i) (ha : (t.card c).activeSlot = some i)
    (hc : (t.card c).seq.active = some i ∧ (t.card c).seq.stop = false ∧ (t.card c).stream = none ∧ (t.card c).endReport = none)
    (hk : ∀ d, d ≠ c → (t.card d).activeSlot = (s.card d).activeSlot ∧ (s.card d).stopsKept (t.card d))
    (hnote : ∀ d j, (t.card d).cancelNotice = some j → (s.card d).cancelNotice = some j) (hstart : t.startOk) : t.listsOk := by
  obtain ⟨hif, hic⟩ := filed_of_mem h hi
  have hst : ∀ j, (t.slot j).state = if j = i then .active else (s.slot j).state := by
    intro j; split
    · subst j; rw [hti]
    · rw [hslot j (by assumption)]
  have hcan : ∀ j, (t.slot j).state = .cancelling ↔ (s.slot j).state = .cancelling := by
    intro j; rw [hst]; split
    · rename_i e; subst e; rw [hif]; simp
    · rfl
  obtain ⟨g1, g2, g3, g4, g5, g6, g7⟩ := h
  refine ⟨fun d => ⟨by rw [hq]; exact (g1 d).1.filter _, fun j => ?_⟩, ⟨by rw [ho]; exact g2.1, fun j => ?_⟩, fun d j => ?_, fun j hj => ?_,
    fun d => ⟨?_, fun j hj => ?_⟩, hstart, fun j => ?_⟩
  · rw [hq, List.mem_filter, (g1 d).2, hcard, hst]
    split
    · rename_i e; subst e; simp
    · rename_i e; simp [e]
  · rw [ho, g2.2, hst]
    split
    · rename_i e; subst e; rw [hif]; simp
    · rfl
  · rw [hcard, hst]
    by_cases e : d = c
    · subst e
      rw [ha]
      split
      · rename_i e; subst e; simp [hic]
      · rename_i e
        refine ⟨fun x => absurd (Option.some.inj x).symm e, fun x => ?_⟩
        have := (g3 d j).2 x
        rw [hn] at this; simp at this
    · rw [(hk d e).1, g3]
      split
      · rename_i e'; subst e'
        rw [hif, hic]
        refine ⟨fun x => by simp at x, fun x => absurd (Option.some.inj x.2).symm e⟩
      · rfl
  · rw [hcard]
    by_cases e : j = i
    · subst e; rw [hic]; rfl
    · rw [hst, if_neg e] at hj; exact g4 j hj
  · by_cases e : d = c
    · subst e
      obtain ⟨h1, h2, h3, h4⟩ := hc
      refine ⟨fun j _ hs => ?_, fun r hr => by rw [h4] at hr; simp at hr, fun hx => by rw [h1] at hx; simp at hx, fun _ => h4⟩
      rw [h2, h3] at hs; simp at hs
    · exact stopsOk_congr ((hk d e).2 _ (g5 d).1) fun j _ hj => (hcan j).2 hj
  · rw [hcan, hcard]; exact (g5 d).2 j (hnote d j hj)
  · by_cases e : j = i
    · subst e; rw [hti]; simp
    · rw [hslot j e]; exact g7 j

theorem jobStart_lists (s : State) (c : CardId) (hl : s.listsOk) : (s.jobStart c).listsOk := by
  unfold State.jobStart
  split
  · rename_i hm
    unfold State.mayStart at hm
    simp only [Bool.and_eq_true, decide_eq_true_eq, Option.isNone_iff_eq_none] at hm
    obtain ⟨⟨heng, hna⟩, hph⟩ := hm
    split
    · rename_i i hi
      have hmem := startChoice_mem hi
      obtain ⟨hif, hic⟩ := filed_of_mem hl hmem
      unfold State.startSlot
      simp only
      split
      · exact endFiled_lists hl i c _ _ _ hif hic
      · generalize (s.profileWords c).latch = p
        generalize ht : (s.updCard c fun k => { k with queue := k.queue.filter fun j => j ≠ i }) = t
        have htk : ∀ d, t.card d = if d = c then { s.card c with queue := (s.card c).queue.filter fun j => j ≠ i } else s.card d := by
          intro d; rw [← ht]; split
          · rename_i e; subst e; rw [card_updCard_same]
          · rename_i e; rw [card_updCard_other _ _ _ _ e]
        have hk := setProfile_keeps t c p
        have hst := latchProfile_stops t c p
        have hu : ((t.latchProfile c p).activate c i).listsOk := by
          have f0 : ∀ d, (t.latchProfile c p).slot d = s.slot d := fun d => (hk.slot d).trans (by rw [← ht]; rfl)
          have f1 : ∀ d, (t.latchProfile c p).slotCard d = s.slotCard d := fun d => (hk.slotCard d).trans (by rw [← ht]; rfl)
          have f2 : (t.latchProfile c p).acceptOrder = s.acceptOrder := hk.acceptOrder.trans (by rw [← ht]; rfl)
          have f3 : (t.latchProfile c p).resetPin = s.resetPin := hk.resetPin.trans (by rw [← ht]; rfl)
          have f4 : (t.latchProfile c p).bclr = s.bclr := hk.bclr.trans (by rw [← ht]; rfl)
          have f5 : (t.latchProfile c p).engine = s.engine := hk.engine.trans (by rw [← ht]; rfl)
          have f6 : ∀ d, ((t.latchProfile c p).card d).queue = (s.card d).queue.filter fun j => j ≠ i := by
            intro d
            rw [(hk.card d).2.2.1, card_updCard]
            split
            · rename_i e; subst e; rw [htk, if_pos rfl]
            · rename_i e
              rw [htk, if_neg e, filter_ne_self]
              intro hx
              have := (filed_of_mem hl hx).2
              rw [hic] at this; exact e (Option.some.inj this).symm
          have f7 : ∀ d, ((t.latchProfile c p).card d).activeSlot = (s.card d).activeSlot := by
            intro d
            rw [(hk.card d).2.2.2.1, card_updCard]
            split
            · rename_i e; subst e; rw [htk, if_pos rfl]; rfl
            · rename_i e; rw [htk, if_neg e]
          have f8 : ∀ d, ((t.latchProfile c p).card d).cancelNotice = (s.card d).cancelNotice := by
            intro d
            rw [(hk.card d).2.2.2.2.2.2.2, card_updCard]
            split
            · rename_i e; subst e; rw [htk, if_pos rfl]
            · rename_i e; rw [htk, if_neg e]
          have f9 : ∀ d, (s.card d).stopsKept ((t.latchProfile c p).card d) := by
            intro d q hd
            refine hst d q ?_
            rw [htk]; split
            · rename_i e; subst e; exact hd
            · exact hd
          obtain ⟨n1, n2⟩ := activeSlot_none ((f7 c).trans hna)
          have n3 := (f9 c _ (hl.2.2.2.2.1 c).1).2.2.1 n1
          generalize t.latchProfile c p = u at *
          have hak : ∀ d, (u.activate c i).card d = if d = c then { u.card c with
              startedFaulted := (u.card c).presence = .faulted
              seq := { (u.card c).seq with active := some i, listAddr := u.slotWord i 2, stepCount := (u.slotWord i 3).toNat, stepIndex := 0
                                           copy := none, stop := false } } else u.card d := by
            intro d; unfold State.activate; split
            · rename_i e; subst e; exact card_updCard_same _ _ _
            · rename_i e; exact card_updCard_other _ _ _ _ e
          refine listsOk_start hl i c hmem hna (slot_setSlot_same _ _ _) (fun j hj => (slot_setSlot_other _ _ _ _ hj).trans (f0 j)) f1 f2
            (fun d => ?_) ?_ ?_ (fun d hd => ?_) (fun d j hj => ?_) (startOk_open hl (by rw [heng]; rfl) f3 f4 f5)
          · rw [hak]; split
            · rename_i e; subst e; exact f6 d
            · exact f6 d
          · rw [hak, if_pos rfl]; rfl
          · rw [hak, if_pos rfl]; exact ⟨rfl, rfl, n3, n2⟩
          · rw [hak, if_neg hd]; exact ⟨f7 d, f9 d⟩
          · rw [hak] at hj
            rw [← f8]
            split at hj
            · rename_i e; subst e; exact hj
            · exact hj
        exact listsOk_of_keeps (runSteps_keeps (P := False) c _ _ fun h => h.elim) (runSteps_stops c _ _) hu
    · exact hl
  · exact hl

/-! ## Card presence -/

theorem sameButMessages_stops {k m : Card} (h : Card.sameButMessages k m) : k.stopsKept m := by
  obtain ⟨g, n, rfl⟩ := h
  exact stopsKept_of_same rfl id rfl (Or.inr id)

theorem takeDown_notice (s : State) (c d : CardId) (h : d ≠ c) : ((s.takeDown c).card d).cancelNotice = (s.card d).cancelNotice := by
  unfold State.takeDown
  rw [card_updCard_other _ _ _ _ h, clearClaimable_other _ _ _ h, ((dropStream_keeps (P := False) (s.cutTenure c) c).card d).2.2.2.2.2.2.2,
    card_cutTenure]

theorem drainQueue_lists (c : CardId) (q : List SlotId) : ∀ s : State, s.listsOk → (s.card c).queue = q → (s.drainQueue c q).listsOk := by
  induction q with
  | nil => intro s hl _; exact hl
  | cons i q ih =>
    intro s hl hq
    have hmem : i ∈ (s.card c).queue := by rw [hq]; exact List.mem_cons_self
    obtain ⟨h1, h2⟩ := filed_of_mem hl hmem
    have hn := (hl.1 c).1
    rw [hq] at hn
    have hf : ((s.card c).queue.filter fun j => j ≠ i) = q := by
      rw [hq, List.filter_cons_of_neg (by simp), filter_ne_self (List.nodup_cons.1 hn).1]
    have hu : (s.updCard c fun k => { k with queue := q }) = s.updCard c fun k => { k with queue := k.queue.filter fun j => j ≠ i } :=
      updCard_congr s c _ _ (by simp only [hf])
    unfold State.drainQueue
    rw [hu]
    have hq2 : (((s.updCard c fun k => { k with queue := k.queue.filter fun j => j ≠ i }).endWaiting i .cardAbsent (some 0) none).card c).queue = q := by
      obtain ⟨a, b, e⟩ := endWaiting_eqm (s.updCard c fun k => { k with queue := k.queue.filter fun j => j ≠ i }) i .cardAbsent (some 0) none c
      rw [e, card_updCard_same]; exact hf
    exact ih _ (endFiled_lists hl i c .cardAbsent (some 0) none h1 h2) hq2

theorem remove_lists (s : State) (c : CardId) (hl : s.listsOk) : (s.remove c).listsOk := by
  unfold State.remove
  simp only
  refine post_lists _ _ ?_
  have td := takeDown_takenDown s c
  have hnote : ∀ d, d ≠ c → (((s.updCard c fun k => { k with presence := .absent }).takeDown c).card d).cancelNotice = (s.card d).cancelNotice := by
    intro d hd
    rw [takeDown_notice _ c d hd, card_updCard_other _ _ _ _ hd]
  generalize (s.updCard c fun k => { k with presence := .absent }).takeDown c = t at td hnote ⊢
  have f (α : Type) (g : State → α) : g { t with mem := s.mem, cards := s.cards, tenure := s.tenure, pageHolder := s.pageHolder, breach := s.breach, leaseWaiting := s.leaseWaiting } = g s := congrArg g td.frame
  have e1 := f _ State.resetPin; have e2 := f _ State.bclr; have e3 := f _ State.engine; have e4 := f _ State.acceptOrder
  have e5 := f _ State.slots
  have e7 : ∀ j, t.slot j = s.slot j := fun j => f _ fun x => x.slot j
  have e6 : ∀ j, t.slotCard j = s.slotCard j := by
    intro j
    have h : ∀ b, b = slotAddr j 1 ∨ b = slotAddr j 1 + 1 → readByte t.mem b = readByte s.mem b := fun b hb => by
      refine td.bytes b (Or.inl ?_)
      have := j.isLt
      unfold slotAddr Config.slotBase at hb
      unfold profileAddr Config.profileBase
      rcases hb with hb | hb <;> omega
    unfold State.slotCard State.slotWord State.word readWord
    rw [h _ (Or.inl rfl), h _ (Or.inr rfl)]
  obtain ⟨g, b, hc⟩ := td.card
  have hcq : (t.card c).queue = (s.card c).queue := by rw [hc]
  have hca : (t.card c).activeSlot = none := by rw [hc]; rfl
  have hcs : (t.card c).seq.active = none ∧ (t.card c).endReport = none ∧ (t.card c).stream = none := by rw [hc]; exact ⟨rfl, rfl, rfl⟩
  have hcn : (t.card c).cancelNotice = none := by rw [hc]
  have hok : ∀ p : SlotId → Prop, (t.card c).stopsOk p := fun p =>
    ⟨fun i hi => by rw [hcs.1] at hi; simp at hi, fun r hr => by rw [hcs.2.1] at hr; simp at hr, fun _ => hcs.2.2, fun h => by rw [hcs.1] at h; simp at h⟩
  have hoq : ∀ d, (t.card d).queue = (s.card d).queue := by
    intro d
    by_cases hd : d = c
    · rw [hd]; exact hcq
    · obtain ⟨g, n, e⟩ := td.cards d hd
      rw [e]
  have hoa : ∀ d, d ≠ c → (t.card d).activeSlot = (s.card d).activeSlot := by
    intro d hd
    obtain ⟨g, n, e⟩ := td.cards d hd
    rw [e]; rfl
  have hon : ∀ d j, (t.card d).cancelNotice = some j → (s.card d).cancelNotice = some j := by
    intro d j hj
    by_cases hd : d = c
    · rw [hd, hcn] at hj; simp at hj
    · rw [hnote d hd] at hj; exact hj
  have hend : (t.endRemoved (s.card c).activeSlot).listsOk := by
    cases ha : (s.card c).activeSlot with
    | none =>
      show t.listsOk
      refine listsOk_same hl (fun j => Or.inl (e7 j)) (fun j _ => e6 j) e4 hoq (fun d => ?_) hon (fun d => ?_)
        (startOk_of hl.2.2.2.2.2.1 e1 e2 e3 fun j => Or.inl (e7 j))
      · by_cases hd : d = c
        · rw [hd, hca, ha]
        · exact hoa d hd
      · by_cases hd : d = c
        · rw [hd]; exact fun _ => hok _
        · exact sameButMessages_stops (td.cards d hd) _
    | some i =>
      unfold State.endRemoved State.endInProgress
      have hp := progress_of_active hl ha
      have hnq := not_queued_of hl (i := i) (by rcases hp.1 with e | e <;> rw [e] <;> decide)
      refine postJobDone_lists _ _ (drainCheck_lists _ (passDone_lists hl i _ _ _ e5 e6 e4 (fun d => ?_) (fun d hd => ?_) (fun d hd => ?_) hon e1 e2 e3))
      · rw [hoq, filter_ne_self (hnq d)]
      · have hdc : d ≠ c := fun e => hd (by rw [e]; exact ha)
        exact ⟨hoa d hdc, sameButMessages_stops (td.cards d hdc)⟩
      · have := (progress_of_active hl hd).2
        rw [hp.2] at this
        rw [← Option.some.inj this]; exact hcs
  refine drainQueue_lists c _ _ hend ?_
  obtain ⟨x, y, e⟩ := endRemoved_eqm t (s.card c).activeSlot c
  rw [e]; exact hcq

theorem arrive_lists (s : State) (c : CardId) (hl : s.listsOk) : (s.arrive c).listsOk := by
  unfold State.arrive
  simp only
  exact post_lists _ _ (listsOk_updCard s c _ rfl rfl (fun _ => id) (fun _ => id) hl)

theorem presenceSample_lists (s : State) (c : CardId) (p : Bool) (hl : s.listsOk) : (s.presenceSample c p).listsOk := by
  unfold State.presenceSample
  split
  · exact hl
  · unfold State.sample
    split
    · exact listsOk_updCard s c _ rfl rfl (fun _ => id) (fun _ => id) hl
    · exact hl
    · split
      · exact arrive_lists _ _ hl
      · exact listsOk_updCard s c _ rfl rfl (fun _ => id) (fun _ => id) hl
    · exact listsOk_updCard s c _ rfl rfl (fun _ => id) (fun _ => id) hl
    · exact hl
    · exact hl
    · exact remove_lists _ _ hl
    · exact remove_lists _ _ hl

theorem cardArrival_lists (s : State) (c : CardId) (hl : s.listsOk) : (s.cardArrival c).listsOk := by
  unfold State.cardArrival
  split
  · exact arrive_lists _ _ hl
  · exact hl

/-! ## The engine -/

/-- The lists where nothing is listed: every slot FREE or DONE with no cause, and every card without queue, active slot or message. -/
theorem listsOk_empty {s : State} (h1 : ∀ i, (s.slot i).unlisted ∧ (s.slot i).cause = none) (h2 : s.acceptOrder = [])
    (h3 : ∀ c, (s.card c).queue = [] ∧ (s.card c).seq.active = none ∧ (s.card c).endReport = none ∧ (s.card c).stream = none ∧
      (s.card c).cancelNotice = none) (h4 : s.resetPin = true → s.engine = .initializing ∧ s.bclr = false) : s.listsOk := by
  have hno : ∀ (p : SlotState → Prop), ¬ p .free → ¬ p .done → ∀ i, ¬ p (s.slot i).state := by
    intro p a b i
    rcases (h1 i).1 with e | e <;> rw [e] <;> assumption
  refine ⟨fun c => ?_, ?_, fun c i => ?_, fun i hi => absurd hi (hno (fun x => x = .filed ∨ x = .active ∨ x = .cancelling) (by simp) (by simp) i),
    fun c => ?_, ⟨h4, fun _ i => (h1 i).1⟩, fun i => ?_⟩
  · rw [(h3 c).1]
    exact ⟨List.nodup_nil, fun i => ⟨fun x => by simp at x, fun x => absurd x.1 (hno (fun x => x = .filed) (by decide) (by decide) i)⟩⟩
  · unfold State.orderOk
    rw [h2]
    exact ⟨List.nodup_nil, fun i => ⟨fun x => by simp at x, fun x => absurd x (hno (fun x => x = .filed ∨ x = .active ∨ x = .cancelling) (by simp) (by simp) i)⟩⟩
  · have : (s.card c).activeSlot = none := by unfold Card.activeSlot; rw [(h3 c).2.1, (h3 c).2.2.1]; rfl
    rw [this]
    exact ⟨fun x => by simp at x, fun x => absurd x.1 (hno (fun x => x = .active ∨ x = .cancelling) (by simp) (by simp) i)⟩
  · obtain ⟨q1, q2, q3, q4, q5⟩ := h3 c
    exact ⟨⟨fun i hi => by rw [q2] at hi; simp at hi, fun r hr => by rw [q3] at hr; simp at hr, fun _ => q4, fun h => by rw [q2] at h; simp at h⟩,
      fun i hi => by rw [q5] at hi; simp at hi⟩
  · rw [(h1 i).2]
    exact ⟨fun x => by simp at x, fun x => absurd x (hno (fun x => x = .cancelling) (by decide) (by decide) i)⟩

theorem engineReset_slot (x : SlotCtl) (h : x.cause.isSome = true ↔ x.state = .cancelling) : x.engineReset.unlisted ∧ x.engineReset.cause = none := by
  unfold SlotCtl.engineReset SlotCtl.unlisted
  cases hs : x.state <;> simp [hs] at h ⊢
  all_goals cases hc : x.cause <;> simp [hc] at h ⊢

theorem engineReset_lists (s : State) (he : s.engine.closed = false) (hl : s.listsOk) : s.engineReset.listsOk := by
  rw [engineReset_eq]
  have hk := (countAllClaimable_keeps (P := False) allCards s).trans (writeResetOutcomes_keeps allSlots _)
  generalize (s.countAllClaimable allCards).writeResetOutcomes allSlots = t at hk ⊢
  unfold engineResetFrom
  refine listsOk_empty (fun i => ?_) rfl (fun c => ?_) (fun hr => ?_)
  · have : ∀ (a : State) (b : SlotId → SlotCtl), ({ a with slots := tab b } : State).slot i = b i := fun a b => get_tab b i
    have hx := engineReset_slot (t.slot i) (by rw [hk.slot i]; exact hl.2.2.2.2.2.2 i)
    rw [show ∀ u : State, u.slots = (tab fun i => (t.slot i).engineReset) → u.slot i = (t.slot i).engineReset from fun u hu => by
      unfold State.slot; rw [hu]; exact get_tab _ i]
    · exact hx
    · rfl
  · rw [show ∀ u : State, u.cards = (tab fun c => (t.card c).engineReset) → u.card c = (t.card c).engineReset from fun u hu => by
      unfold State.card; rw [hu]; exact get_tab _ c]
    · exact ⟨rfl, rfl, rfl, rfl, rfl⟩
    · rfl
  · have hr' : s.resetPin = true := hk.resetPin ▸ hr
    have := (hl.2.2.2.2.2.1.1 hr').1
    rw [this] at he; exact absurd he (by decide)

theorem runChange_ne (s : State) (a b : Bool) (h : s.engine ≠ .initializing) : s.runChange a b ≠ .initializing := by
  unfold State.runChange
  split
  · split <;> first | decide | exact h
  · split
    · split <;> decide
    all_goals exact h
  all_goals exact h

theorem open_ne {s : State} (he : s.engine.closed = false) : s.engine ≠ .initializing := fun h => by rw [h] at he; exact absurd he (by decide)

theorem takeLevels_lists (s : State) (w : Word) (he : s.engine.closed = false) (hl : s.listsOk) : (s.takeLevels w).listsOk := by
  have h := listsOk_engine (s.runChange s.ctrlRun (ctrlRunBit w)) (runChange_ne s _ _ (open_ne he)) (open_ne he) hl
  exact listsOk_inert (s := { s with engine := s.runChange s.ctrlRun (ctrlRunBit w) }) rfl rfl rfl rfl rfl rfl rfl h

theorem takeResume_lists (s : State) (hl : s.listsOk) : s.takeResume.listsOk := by
  unfold State.takeResume
  split
  · rename_i he
    split
    · exact listsOk_inert rfl rfl rfl rfl rfl rfl rfl hl
    · refine listsOk_engine _ ?_ (by rw [he]; decide) hl
      split
      · decide
      · split <;> decide
  · exact hl

theorem writeCtrl_lists (s : State) (w : Word) (hl : s.listsOk) : (s.writeCtrl w).listsOk := by
  unfold State.writeCtrl
  split
  · exact hl
  · rename_i he
    have he : s.engine.closed = false := by simpa using he
    split
    · exact engineReset_lists s he hl
    · split
      · exact takeResume_lists _ (takeLevels_lists s w he hl)
      · exact takeLevels_lists s w he hl

theorem enterStandstill_lists (s : State) (he : s.engine ≠ .initializing) (hl : s.listsOk) : s.enterStandstill.listsOk := by
  unfold State.enterStandstill
  simp only
  refine post_lists _ _ ?_
  have hstand : ∀ j, (s.slot j).standstill = s.slot j ∨ (s.slot j).state = .active ∧ (s.slot j).standstill.state = .cancelling ∧
      (s.slot j).standstill.cause.isSome = true := by
    intro j
    unfold SlotCtl.standstill
    split
    · rename_i h; exact Or.inr ⟨h, rfl, rfl⟩
    · exact Or.inl rfl
  generalize hu : ({ s with engine := .standstill, slots := tab fun i => (s.slot i).standstill, cards := tab fun c => s.standstillCard c } : State) = u
  have hs : ∀ j, u.slot j = (s.slot j).standstill := fun j => by rw [← hu]; exact get_tab _ j
  have hc : ∀ c, u.card c = s.standstillCard c := fun c => by rw [← hu]; exact get_tab _ c
  have ho : u.acceptOrder = s.acceptOrder := by rw [← hu]
  have hw : ∀ j, u.slotCard j = s.slotCard j := fun j => by rw [← hu]; rfl
  have hstart : u.startOk := by
    rw [← hu]; exact ⟨fun hr => absurd (hl.2.2.2.2.2.1.1 hr).1 he, fun x => by simp at x⟩
  clear hu
  refine listsOk_cancel hl (fun j => by rw [hs]; exact hstand j) hw ho (fun c => ?_) (fun c j hj => ?_) hstart
  · rw [hc]
    unfold State.standstillCard
    split
    · split
      · exact ⟨_, rfl⟩
      · exact ⟨_, rfl⟩
    · exact ⟨_, rfl⟩
  · rw [hc] at hj
    rw [hs]
    unfold State.standstillCard at hj
    split at hj
    · rename_i i hi
      split at hj
      · rename_i h
        have := Option.some.inj hj
        subst this
        refine Or.inr ⟨?_, (progress_of_active hl hi).2⟩
        unfold SlotCtl.standstill; rw [if_pos h]
      · exact Or.inl hj
    · exact Or.inl hj

theorem tick_ne {s : State} (h : s.tickCounts = true) : s.engine ≠ .initializing := by
  rcases tick_states h with e | e <;> rw [e] <;> decide

theorem tally_lists (s : State) (w : Word) (hl : s.listsOk) : ({ s with tally := w } : State).listsOk :=
  listsOk_inert rfl rfl rfl rfl rfl rfl rfl hl

theorem presenceTick_lists (s : State) (hl : s.listsOk) : s.presenceTick.listsOk := by
  unfold State.presenceTick
  split
  · rename_i h
    split
    · exact enterStandstill_lists { s with tally := 0 } (tick_ne h) (tally_lists s 0 hl)
    · exact tally_lists s _ hl
  · exact hl

theorem standstillEntry_lists (s : State) (hl : s.listsOk) : s.standstillEntry.listsOk := by
  unfold State.standstillEntry
  split
  · rename_i h
    exact enterStandstill_lists { s with tally := 0 } (tick_ne (by simp only [Bool.and_eq_true] at h; exact h.1)) (tally_lists s 0 hl)
  · exact hl

theorem hardwareReset_lists (s : State) : s.hardwareReset.listsOk := by
  have hc : ∀ c, s.hardwareReset.card c = { Card.reset with atnLine := (s.card c).atnLine } := fun c => get_tab _ c
  refine listsOk_empty (fun i => ?_) rfl (fun c => ?_) (fun _ => ⟨rfl, rfl⟩)
  · have : s.hardwareReset.slot i = SlotCtl.reset := slot_replicate i
    rw [this]; exact ⟨Or.inl rfl, rfl⟩
  · rw [hc]; exact ⟨rfl, rfl, rfl, rfl, rfl⟩

theorem resetRelease_lists (s : State) (hl : s.listsOk) : s.resetRelease.listsOk := by
  unfold State.resetRelease
  split
  · rename_i hr
    have he := (hl.2.2.2.2.2.1.1 hr).1
    have hun := hl.2.2.2.2.2.1.2 he
    exact listsOk_same hl (fun _ => Or.inl rfl) (fun j hj => absurd (hun j) hj) rfl (fun _ => rfl) (fun _ => rfl) (fun _ _ => id) (fun _ => id)
      ⟨fun x => by simp at x, fun _ => hun⟩
  · exact hl

theorem bclrPulseEnd_lists (s : State) (hl : s.listsOk) : s.bclrPulseEnd.listsOk := by
  unfold State.bclrPulseEnd
  split
  · rename_i h
    simp only [Bool.and_eq_true] at h
    refine listsOk_same hl (fun _ => Or.inl rfl) (fun _ _ => rfl) rfl (fun _ => rfl) (fun _ => rfl) (fun _ _ => id) (fun _ => id) ⟨fun hr => ?_, fun x => by simp at x⟩
    have := (hl.2.2.2.2.2.1.1 hr).2
    rw [this] at h; exact absurd h.1 (by decide)
  · exact hl

end Sys2Proof.Machine
end

