-- ==== Sys2Proof/Laws/Ring.lean ====
section
/-! SUPPORT. Laws of the notice list: two states whose lists agree still agree after the same notice, and the notices a removal hands on. -/

namespace Sys2Proof.Machine

/-- The notice list of `t` is that of `s`, and takes the next notice as that of `s` does (R162–R167, R176). -/
structure SameRing (s t : State) : Prop where
  produced : t.produced = s.produced
  lost : t.lost = s.lost
  consumed : t.consumed = s.consumed
  msClock : t.msClock = s.msClock
  closed : t.engine.closed = s.engine.closed
  bytes : ∀ a, 0x0520 ≤ a → a ≤ 0x091F → readByte t.mem a = readByte s.mem a

theorem SameRing.refl (s : State) : SameRing s s := ⟨rfl, rfl, rfl, rfl, rfl, fun _ _ _ => rfl⟩

theorem SameRing.trans {s t u : State} (h : SameRing s t) (g : SameRing t u) : SameRing s u :=
  ⟨g.produced.trans h.produced, g.lost.trans h.lost, g.consumed.trans h.consumed, g.msClock.trans h.msClock, g.closed.trans h.closed,
    fun a h1 h2 => (g.bytes a h1 h2).trans (h.bytes a h1 h2)⟩

theorem readByte_writeWord_congr (m n : Memory) (a x : Nat) (w : Word) (h : readByte m x = readByte n x) :
    readByte (writeWord m a w) x = readByte (writeWord n a w) x := by
  unfold writeWord
  by_cases h1 : x = a + 1
  · subst h1; rw [readByte_writeByte_same, readByte_writeByte_same]
  · rw [readByte_writeByte_other _ _ _ _ h1, readByte_writeByte_other _ _ _ _ h1]
    by_cases h2 : x = a
    · subst h2; rw [readByte_writeByte_same, readByte_writeByte_same]
    · rw [readByte_writeByte_other _ _ _ _ h2, readByte_writeByte_other _ _ _ _ h2]; exact h

theorem setWords_congr (ws : List Word) (x : Nat) : ∀ (s t : State) (a : Nat), readByte t.mem x = readByte s.mem x →
    readByte (t.setWords a ws).mem x = readByte (s.setWords a ws).mem x := by
  induction ws with
  | nil => intro s t a h; exact h
  | cons w ws ih =>
    intro s t a h
    exact ih (s.setWord a w) (t.setWord a w) (a + 2) (readByte_writeWord_congr _ _ _ _ _ h)

/-- The same notice handed on in both states. -/
theorem SameRing.post {s t : State} (h : SameRing s t) (n : Notice) : SameRing (s.post n) (t.post n) := by
  have hin : t.inList = s.inList := by unfold State.inList; rw [h.produced, h.consumed]
  obtain ⟨h1, h2, h3, h4, h5, h6⟩ := h
  unfold State.post
  rw [h5, hin]
  split
  · exact ⟨h1, h2, h3, h4, h5, h6⟩
  · split
    · exact ⟨h1, congrArg satInc h2, h3, h4, h5, h6⟩
    · rw [h1, h4]
      have e1 := setWords_frame (n.entry s.msClock s.produced) s (noticeAddr s.produced.toNat 0)
      have e2 := setWords_frame (n.entry s.msClock s.produced) t (noticeAddr s.produced.toNat 0)
      have e3 := fun a g1 g2 => setWords_congr (n.entry s.msClock s.produced) a s t (noticeAddr s.produced.toNat 0) (h6 a g1 g2)
      generalize s.setWords _ _ = p at *
      generalize t.setWords _ _ = q at *
      have g1 (α : Type) (f : State → α) : f { p with mem := s.mem } = f s := congrArg f e1
      have g2 (α : Type) (f : State → α) : f { q with mem := t.mem } = f t := congrArg f e2
      have d (α : Type) (f : State → α) (e : f t = f s) : f { q with mem := t.mem } = f { p with mem := s.mem } :=
        (g2 α f).trans (e.trans (g1 α f).symm)
      exact ⟨congrArg (· + 1) (d _ State.produced h1), d _ State.lost h2, d _ State.consumed h3, d _ State.msClock h4,
        d _ (fun x => x.engine.closed) h5, e3⟩

/-- The same notices handed on in both states, in order. -/
theorem SameRing.foldl_post {s t : State} (ns : List Notice) (h : SameRing s t) : SameRing (ns.foldl State.post s) (ns.foldl State.post t) := by
  induction ns generalizing s t with
  | nil => exact h
  | cons n ns ih => exact ih (h.post n)

theorem SameRing.postsInOrder {s t : State} {ns : List Notice} (h : SameRing (ns.foldl State.post s) t) : s.postsInOrder t ns :=
  ⟨h.produced, h.lost, h.bytes⟩

/-- A notice handed on leaves every slot word. -/
theorem slotWord_post (s : State) (n : Notice) (j : SlotId) (m : Nat) (hm : m < 16) : (s.post n).slotWord j m = s.slotWord j m :=
  slotWord_congr j m fun a h1 h2 => post_bytes s n a (by have := j.isLt; simp only [slotAddr, Config.slotBase] at *; omega)

theorem slotWord_postJobDone (s : State) (i j : SlotId) (m : Nat) (hm : m < 16) : (s.postJobDone i).slotWord j m = s.slotWord j m :=
  slotWord_congr j m fun a h1 h2 => postJobDone_bytes s i a (by have := j.isLt; simp only [slotAddr, Config.slotBase] at *; omega)

theorem passDone_sameRing (s : State) (i : SlotId) (o : JobOutcome) (w5 w6 : Option Word) : SameRing s (s.passDone i o w5 w6) := by
  have f := passDone_frame s i o w5 w6
  have b := passDone_bytes s i o w5 w6
  generalize s.passDone i o w5 w6 = p at *
  have g (α : Type) (f' : State → α) : f' { p with mem := s.mem, slots := s.slots, acceptOrder := s.acceptOrder, cards := s.cards } = f' s := congrArg f' f
  exact ⟨g _ State.produced, g _ State.lost, g _ State.consumed, g _ State.msClock, g _ fun x => x.engine.closed, fun a h1 h2 => b a (by
    have := i.isLt; simp only [slotAddr, Config.slotBase] at *; omega)⟩

theorem drainCheck_sameRing (s : State) : SameRing s s.drainCheck := by
  unfold State.drainCheck
  split
  · rename_i h
    refine ⟨rfl, rfl, rfl, rfl, ?_, fun _ _ _ => rfl⟩
    simp only [Bool.and_eq_true, decide_eq_true_eq] at h
    rw [h.1]; rfl
  · exact SameRing.refl s

theorem drainCheck_slotWord (s : State) (j : SlotId) (m : Nat) : s.drainCheck.slotWord j m = s.slotWord j m := by
  unfold State.drainCheck; split <;> rfl

/-- The words of a slot that its JOB_DONE notice carries, as they stand in `s` (R20). -/
structure SameHeads (s t : State) : Prop where
  w1 : ∀ j, t.slotWord j 1 = s.slotWord j 1
  w6 : ∀ j, t.slotWord j 6 = s.slotWord j 6
  w7 : ∀ j, t.slotWord j 7 = s.slotWord j 7

/-- The notice of a slot that ends with word 6 kept, seen from a state with the same heads. -/
theorem end_posts {s t : State} (h : SameHeads s t) (i : SlotId) (o : JobOutcome) (w5 : Option Word) {p : State}
    (hw : ∀ j m, m < 16 → p.slotWord j m = (t.passDone i o w5 none).slotWord j m) :
    p.postJobDone i = (s.doneNotices i o (w5.getD (t.slotWord i 5)) (s.slotWord i 6)).foldl State.post p := by
  rw [postJobDone_passed s p i o (w5.getD (t.slotWord i 5)) (s.slotWord i 6)]
  · unfold State.notifyDone State.doneNotices
    split <;> rfl
  all_goals
    rw [hw _ _ (by decide), slotWord_passDone _ _ _ _ _ _ _ (by decide)]
    simp [h.w1, h.w6, h.w7]

theorem passDone_heads {s t : State} (h : SameHeads s t) (i : SlotId) (o : JobOutcome) (w5 : Option Word) : SameHeads s (t.passDone i o w5 none) := by
  refine ⟨fun j => ?_, fun j => ?_, fun j => ?_⟩ <;> rw [slotWord_passDone _ _ _ _ _ _ _ (by decide)] <;> simp
  · split
    · rename_i e; rw [← e]; exact h.w1 j
    · exact h.w1 j
  · split
    · rename_i e; rw [← e]; exact h.w6 j
    · exact h.w6 j
  · split
    · rename_i e; rw [← e]; exact h.w7 j
    · exact h.w7 j

/-- The slots of a removed card's queue hand on their notices in queue order (R22, R149). -/
theorem drainQueue_posts (c : CardId) (q : List SlotId) (s : State) : ∀ (t u : State), SameHeads s t → SameRing u t →
    SameRing ((q.flatMap fun j => s.doneNotices j .cardAbsent 0 (s.slotWord j 6)).foldl State.post u) (t.drainQueue c q) := by
  induction q with
  | nil => intro t u _ h; exact h
  | cons i q ih =>
    intro t u hh hr
    rw [List.flatMap_cons, List.foldl_append]
    show SameRing _ (((t.updCard c fun k => { k with queue := q }).endWaiting i .cardAbsent (some 0) none).drainQueue c q)
    generalize hx : (t.updCard c fun k => { k with queue := q }) = x
    have hhx : SameHeads s x := by subst hx; exact ⟨hh.w1, hh.w6, hh.w7⟩
    have hrx : SameRing u x := by subst hx; exact ⟨hr.produced, hr.lost, hr.consumed, hr.msClock, hr.closed, hr.bytes⟩
    have e : x.endWaiting i .cardAbsent (some 0) none = (s.doneNotices i .cardAbsent 0 (s.slotWord i 6)).foldl State.post
        (x.passDone i .cardAbsent (some 0) none) := end_posts hhx i .cardAbsent (some 0) fun _ _ _ => rfl
    refine ih _ _ ?_ ?_
    · have hp := passDone_heads hhx i .cardAbsent (some 0)
      refine ⟨fun j => ?_, fun j => ?_, fun j => ?_⟩
      · exact (slotWord_postJobDone _ _ _ _ (by decide)).trans (hp.w1 j)
      · exact (slotWord_postJobDone _ _ _ _ (by decide)).trans (hp.w6 j)
      · exact (slotWord_postJobDone _ _ _ _ (by decide)).trans (hp.w7 j)
    · rw [e]
      exact SameRing.foldl_post _ (hrx.trans (passDone_sameRing _ _ _ _ _))

/-- The active slot of a removed card hands on its notice (R22). -/
theorem endRemoved_posts (s t u : State) (slot : Option SlotId) (hh : SameHeads s t) (hr : SameRing u t)
    (h5 : ∀ i, slot = some i → t.slotWord i 5 = s.slotWord i 5) :
    SameRing ((match slot with | some i => s.doneNotices i .cardRemoved (s.slotWord i 5) (s.slotWord i 6) | none => []).foldl State.post u)
      (t.endRemoved slot) ∧ SameHeads s (t.endRemoved slot) := by
  cases slot with
  | none => exact ⟨hr, hh⟩
  | some i =>
    show SameRing ((s.doneNotices i .cardRemoved (s.slotWord i 5) (s.slotWord i 6)).foldl State.post u)
      ((t.passDone i .cardRemoved none none).drainCheck.postJobDone i) ∧ _
    have e := end_posts hh i .cardRemoved none (p := (t.passDone i .cardRemoved none none).drainCheck) fun j m _ => drainCheck_slotWord _ j m
    simp only [Option.getD_none] at e
    rw [h5 i rfl] at e
    refine ⟨?_, ?_⟩
    · rw [e]
      exact SameRing.foldl_post _ (hr.trans ((passDone_sameRing _ _ _ _ _).trans (drainCheck_sameRing _)))
    · have hp := passDone_heads hh i .cardRemoved none
      refine ⟨fun j => ?_, fun j => ?_, fun j => ?_⟩
      · exact (slotWord_postJobDone _ _ _ _ (by decide)).trans ((drainCheck_slotWord _ _ _).trans (hp.w1 j))
      · exact (slotWord_postJobDone _ _ _ _ (by decide)).trans ((drainCheck_slotWord _ _ _).trans (hp.w6 j))
      · exact (slotWord_postJobDone _ _ _ _ (by decide)).trans ((drainCheck_slotWord _ _ _).trans (hp.w7 j))

end Sys2Proof.Machine
end

