-- ==== Sys2Proof/WellFormed.lean ====
section
/-! DEFINITION. The checks that tell which row of the table a command's operands spell. An ill-formed term still has a meaning
in the machine (the host write it carries is taken as that write): see log 9, 10 and 11. -/

namespace Sys2Proof

/-- Bit `n` of a word, as Record layouts numbers them. -/
def wordBit (w : Word) (n : Nat) : Bool := w.getLsbD n

/-- The request codes of 11.3: FILE, CANCEL, RELEASE. -/
def isRequestCode (v : Word) : Bool := v == 0x0011 || v == 0x0012 || v == 0x0013

/-- The guarded words of R180, by word address: header words 2, 4, 5 and word 0 of each slot. -/
def isGuardedAddr (a : WordAddr) : Bool :=
  a == 2 || a == 4 || a == 5 || (0x10 ≤ a.toNat && a.toNat < 0x210 && a.toNat % 16 == 0)

/-- The operands of a command are those of its row. -/
def Instr.wellFormed : Instr → Bool
  | .unknownRequest _ value => !isRequestCode value
  | .hostExchangeWrite address _ => !isGuardedAddr address
  | .runSet ctrl => wordBit ctrl 0 && !wordBit ctrl 9
  | .runClear ctrl => !wordBit ctrl 0 && !wordBit ctrl 9
  | .presenceLevel ctrl => !wordBit ctrl 9
  | .interruptLevel ctrl => !wordBit ctrl 9
  | .resume ctrl => wordBit ctrl 8 && !wordBit ctrl 9
  | .engineReset ctrl => wordBit ctrl 9
  | .statClearDiscard stat => wordBit stat 8
  | .statClearRefused stat => wordBit stat 9
  | .file _ | .cancel _ | .release _ => true
  | .presenceTallyWrite _ | .noticesConsumedWrite _ | .noticesLostWrite _ => true
  | .ignoredWindowWrite _ _ => true
  | .hardwareReset | .resetRelease | .bclrPulseEnd => true
  | .jobStart _ | .cancelNoticeTaken _ | .endReportTaken _ | .busGrant => true
  | .registerWriteEnd | .registerReadEnd | .attentionReadEnd => true
  | .burstEnd | .burstStop | .stallTimeout | .burstStallEnd => true
  | .checkOutEnd | .checkInEnd | .abandonEnd => true
  | .readyTimeout | .recoveryWidthEnd => true
  | .pollIntervalEnd _ | .awaitTimeout _ | .pauseEnd _ | .pulseEnd _ | .settleWaitEnd _ => true
  | .presenceTick | .standstillEntry | .msClockTick => true
  | .presenceSample _ _ | .cardArrival _ | .atnChange _ _ | .leaseGrantTaken _ => true
  | .strobeWidthEnd _ _ _ | .rdyRise _ _ | .strobeRecoveryEnd => true

end Sys2Proof
end

