-- ==== Sys2Proof/Tests/Slice0.lean ====
section
/-! SUPPORT. The model's own tests: an ill-formed term for each check of WellFormed; single commands on small states; and, for every
statement with hypotheses, a state and operands that meet them, with the edges of its ranges. -/

namespace Sys2Proof.Tests

open Sys2Proof.Machine

/-! ## WellFormed refuses -/

theorem test_unknown_request_with_code : Instr.wellFormed (.unknownRequest 3 0x0012) = false := by decide
theorem test_exchange_write_to_tally : Instr.wellFormed (.hostExchangeWrite 2 0) = false := by decide
theorem test_exchange_write_to_slot_control : Instr.wellFormed (.hostExchangeWrite 0x200 0) = false := by decide
theorem test_exchange_write_past_slots : Instr.wellFormed (.hostExchangeWrite 0x210 0) = true := by decide
theorem test_run_set_without_run : Instr.wellFormed (.runSet 0x0002) = false := by decide
theorem test_run_clear_with_run : Instr.wellFormed (.runClear 0x0001) = false := by decide
theorem test_presence_level_with_reset : Instr.wellFormed (.presenceLevel 0x0202) = false := by decide
theorem test_interrupt_level_with_reset : Instr.wellFormed (.interruptLevel 0x0204) = false := by decide
theorem test_resume_without_resume : Instr.wellFormed (.resume 0x0001) = false := by decide
theorem test_engine_reset_without_bit : Instr.wellFormed (.engineReset 0x0101) = false := by decide
theorem test_clear_discard_without_bit : Instr.wellFormed (.statClearDiscard 0x0200) = false := by decide
theorem test_clear_refused_without_bit : Instr.wellFormed (.statClearRefused 0x0100) = false := by decide

/-! ## Small states -/

/-- The state a command leaves. -/
def after (c : Instr) (s : State) : State :=
  match exec c s with
  | .next t => t
  | .fault _ => s
  | .refused _ => s

/-- The part in RUNNING, with every position ABSENT. -/
def part : State := { State.reset with resetPin := false, engine := .running, ctrlRun := true }

/-- Words stored at byte addresses. -/
def storing (words : List (Nat × Word)) (s : State) : State :=
  { s with mem := words.foldl (fun m w => writeWord m w.1 w.2) s.mem }

/-- Card 0 changed. -/
def card0 (f : Card → Card) (s : State) : State := s.updCard 0 f

/-- Card 0 READY. -/
def seated : State := card0 (fun k => { k with presence := .ready }) part

/-- Slot 3 in a state. -/
def slot3 (x : SlotState) (s : State) : State := s.setSlot 3 { state := x, cause := if x = .cancelling then some .cancel else none }

/-- Slot 3 asks for card 0, one step at the last place of the step area: a MARK. -/
def asking : State := storing [(slotAddr 3 1, 0x4000), (slotAddr 3 2, 0x3FF8), (slotAddr 3 3, 1), (0x3FF8, 6)] seated

/-- Slot 3 waits FILED for card 0, whose profile words are the default ones. -/
def waiting : State :=
  storing [(profileAddr 0 0, 10), (profileAddr 0 1, 5), (profileAddr 0 2, 100), (profileAddr 0 3, 100)]
    (card0 (fun k => { k with queue := [3] }) (slot3 .filed { asking with acceptOrder := [3] }))

/-- Card 0 runs slot 3, at step copy `e` in phase `p`. -/
def job (e : StepRecord) (p : SeqPhase) : State :=
  card0 (fun k => { k with seq := { k.seq with active := some 3, stepCount := 1, copy := some e, phase := p } })
    (slot3 .active { seated with acceptOrder := [3] })

def getStep : StepRecord := { w0 := 0x0502, w1 := 7, w2 := 0, w3 := 0 }
def pollStep : StepRecord := { w0 := 0x0503, w1 := 0x00FF, w2 := 0x0012, w3 := 0x0102 }
def awaitStep : StepRecord := { w0 := 0x0704, w1 := 10, w2 := 0x000F, w3 := 0x0001 }
def pauseStep : StepRecord := { w0 := 0x0005, w1 := 10, w2 := 0, w3 := 0 }
def pulseStep : StepRecord := { w0 := 0x0007, w1 := 10, w2 := 4, w3 := 0 }
/-- Pages 96 to 127, every word of them. -/
def streamInStep : StepRecord := { w0 := 0x3F08, w1 := 96, w2 := 32, w3 := 2048 }
def streamOutStep : StepRecord := { w0 := 0x0009, w1 := 127, w2 := 1, w3 := 64 }

/-- A stream record. -/
def moving (d : StreamDir) (g : StreamStage) (n words : Nat) : StreamRec :=
  { stage := g, dir := d, nextBurst := n, wordsMoved := words, check := 0x8001, begun := true }

/-- Card 0's stream record set. -/
def streaming (m : StreamRec) (s : State) : State := card0 (fun k => { k with stream := some m }) s

/-- A tenure of card 0 in flight. -/
def inFlight (k : TenureKind) (p : TenurePhase) (m : TenureMark) (values : List Word) : Tenure :=
  { req := { card := 0, kind := k, regs := [5], count := 1, data := 0x00AA, opening := false }
    timing := Profile.default.timing
    phase := p, mark := m, strobe := 0, moved := 0, values := values, driven := 0x00AA }

/-- The state with a tenure in flight. -/
def onBus (t : Tenure) (s : State) : State := { s with tenure := some t }

/-- A request of a card. -/
def request (c : CardId) (k : TenureKind) : Request :=
  { card := c, kind := k, regs := [5], count := 1, data := 0, opening := false }

/-! ## Single commands -/

theorem test_file_accepted : ((after (.file 3) asking).slot 3).state = .filed ∧ (after (.file 3) asking).slotWord 3 7 = 1 := by decide
theorem test_file_rejected : (after (.file 4) asking).slotWord 4 4 = JobOutcome.rejected.code ∧
    (after (.file 4) asking).slotWord 4 6 = Reason.countRange.code := by decide
theorem test_start_runs_mark_to_end : ((after (.jobStart 0) waiting).card 0).endReport =
    some { slot := 3, ending := .complete, stepsDone := 1 } ∧ (after (.jobStart 0) waiting).produced = 1 := by decide
theorem test_poll_matches : (after .registerReadEnd (onBus (inFlight .registerRead .recovery .going [0x3412]) (job pollStep .tenure))).slotWord 3 5
    = 1 := by decide
theorem test_poll_waits : ((after .registerReadEnd (onBus (inFlight .registerRead .recovery .going [0x3413]) (job pollStep .tenure))).card 0).seq.phase
    = .timedWait := by decide
theorem test_running_check : (((after (.rdyRise false 0x0003) (onBus (inFlight .burstIn .stretch .going [])
    (streaming (moving .into .bursting 0 2047) (job streamInStep .tenure)))).card 0).stream.map StreamRec.check) = some 0x0000 := by decide
theorem test_last_page_word_written : (after (.rdyRise false 0x0103) (onBus (inFlight .burstIn .stretch .going [])
    (streaming (moving .into .bursting 31 2047) (job streamInStep .tenure)))).word 0x7FFE = 0x0103 := by decide
theorem test_grant_attention_first : (after .busGrant (card0 (fun k => { k with
    attnReq := some (request 0 .attentionRead), jobReq := some (request 0 .registerRead) }) seated)).tenure.map (fun t => t.req.kind)
    = some .attentionRead := by decide
theorem test_ring_wraps : (after (.cardArrival 0) (card0 (fun k => { k with presence := .settling, settle := 49 })
    { part with produced := 0xFFFF, consumed := 0xFFF0 })).word 0x0910 = 4 := by decide
theorem test_stat_reads_flags : ({ part with statRefused := true, lost := 2 } : State).windowRead 1 = 0x0222 := by decide
theorem test_unknown_request_refused : (after (.unknownRequest 3 7) asking).refusedCount = 1 ∧
    ((after (.unknownRequest 3 7) asking).word 0x0522) = 3 := by decide

theorem test_both_selects_read_zero : part.hostRead .bothSelects = 0 ∧ part.hostRead (.window 2) = 0x2601 := by decide
theorem test_card_state_read : seated.hostRead (.exchange 0x0218) = (seated.card 0).stateWord ∧ (seated.card 0).stateWord = 2 := by decide

/-! ## The hypotheses of the statements can be met -/

theorem test_hyp_step_runs_front : ({ part with pending := [.msClockTick] } : State).pending = .msClockTick :: [] ∧ part.pending = [] := by
  decide

theorem test_hyp_step_keeps_memory : ({ asking with pending := [.file 3] } : State).memOk ∧
    ∃ t, step { asking with pending := [.file 3] } = .next t := ⟨by unfold State.memOk; decide, _, rfl⟩

theorem test_hyp_step_keeps_header : let s : State := { after .resetRelease State.reset with pending := [.msClockTick] }
    s.headerOk ∧ s.resetPin = false ∧ ∃ t, step s = .next t :=
  ⟨by unfold State.headerOk; decide, by decide, _, rfl⟩

/-- Slot 3 runs on card 0, and slot 4 waits FILED behind it. -/
def listedPart : State := card0 (fun k => { k with queue := [4] })
  ({ job getStep .tenure with acceptOrder := [3, 4], pending := [.presenceSample 0 false] }.setSlot 4 { state := .filed, cause := none })

theorem test_hyp_step_keeps_lists : listedPart.listsOk ∧ (∃ t, step listedPart = .next t) ∧ listedPart.slotCard 3 = some 0 ∧
    (listedPart.slot 3).state = .active ∧ (listedPart.card 0).activeSlot = some 3 := by
  refine ⟨⟨?_, ?_, ?_, ?_, fun c => ⟨⟨?_, fun r h => ?_, ?_, ?_⟩, ?_⟩, ?_, ?_⟩, ⟨_, rfl⟩, by decide, by decide, by decide⟩
  · unfold State.queuesOk; decide
  · unfold State.orderOk; decide
  · unfold State.activeOk; decide
  · unfold State.namesOk; decide
  · revert c; decide
  · have e : ∀ c, (listedPart.card c).endReport = none := by decide
    exact absurd ((e c).symm.trans h) (by simp)
  · revert c; decide
  · revert c; decide
  · revert c; decide
  · unfold State.startOk; decide
  · unfold State.causesOk; decide

theorem test_hyp_step_keeps_counts : let s : State := { slot3 .cancelling asking with produced := 64, pending := [.release 3] }
    s.ringOk ∧ s.causesOk ∧ s.runOk ∧ ∃ t, step s = .next t :=
  ⟨by unfold State.ringOk; decide, by unfold State.causesOk; decide, by unfold State.runOk; decide, _, rfl⟩

theorem test_hyp_step_keeps_cards : let s : State := { asking with pending := [.presenceSample 0 false] }
    s.serviceOk ∧ ∃ t, step s = .next t := by
  have ha : ∀ c, (asking.card c).attnReq = none := by decide
  have hj : ∀ c, (asking.card c).jobReq = none := by decide
  have ht : asking.tenure = none := by decide
  refine ⟨⟨fun c => ⟨?_, ?_, ?_, ?_, fun r h => ?_, fun r h => ?_⟩, fun t h => ?_⟩, _, rfl⟩
  · unfold Card.outOfServiceOk; revert c; decide
  · unfold Card.detectorOk; revert c; decide
  · unfold Card.settleOk; revert c; decide
  · unfold Card.phaseOk; revert c; decide
  · exact absurd ((ha c).symm.trans h) (by simp)
  · exact absurd ((hj c).symm.trans h) (by simp)
  · exact absurd (ht.symm.trans h) (by simp)

theorem test_hyp_part_leaves_host_words : (∃ t, exec (.file 3) asking = .next t) ∧
    (∀ (a : WordAddr) (v : Word), Instr.file 3 ≠ .hostExchangeWrite a v) ∧ Instr.file 3 ≠ .resetRelease ∧
    (∀ r p d, Instr.file 3 ≠ .strobeWidthEnd r p d) ∧ (∀ p d, Instr.file 3 ≠ .rdyRise p d) ∧
    slotAddr 31 3 + 1 = 0x0407 ∧ profileAddr 7 7 + 1 = 0x050F :=
  ⟨⟨_, rfl⟩, fun _ _ => by simp, by simp, fun _ _ _ => by simp, fun _ _ => by simp, by decide, by decide⟩

theorem test_hyp_initialisation : State.reset.resetPin = true ∧
    (let s : State := { State.reset with resetPin := false, bclr := true }
     s.bclr = true ∧ s.engine = .initializing ∧ ({ s with engine := .resetting } : State).engine = .resetting) := by decide

theorem test_hyp_engine_reset : part.engine.closed = false ∧ (0x0200 : Word).getLsbD 9 = true := by decide

/-- A record for each class of check, at the edges of the ranges. -/
theorem test_hyp_record_checks :
    let record (w0 w1 w2 w3 : Word) : StepRecord := { w0 := w0, w1 := w1, w2 := w2, w3 := w3 }
    (record 0x0000 0 0 0).invalid = some .stepKind ∧ (record 0x000A 0 0 0).invalid = some .stepKind ∧
      (record 0x4001 0 0 0).invalid = some .stepField ∧ (record 0x0503 0 0 0x0100).invalid = some .stepField ∧
      (record 0x0804 1 0 0).invalid = some .stepField ∧ (record 0x4008 128 0 0).invalid = some .stepField ∧
      (record 0x3F08 127 2 0).invalid = some .pageRange ∧ (record 0x3F09 128 1 1).invalid = some .pageRange ∧
      (record 0x3F09 0 33 1).invalid = some .pageRange ∧ (record 0x3F08 0 0 1).invalid = some .pageRange ∧
      (record 0x3F08 96 32 2049).invalid = some .wordCount ∧ (record 0x3F08 96 32 0).invalid = some .wordCount ∧
      (record 0x3F08 96 32 2048).invalid = none ∧ (record 0x3F09 127 1 1).invalid = none ∧ (record 0xFF06 0 0 0).invalid = none := by
  decide

/-- Every check of a filing decides somewhere: slot 3's words by word 1, word 2 and word 3. -/
theorem test_hyp_filing_checks :
    let filing (w1 w2 w3 : Word) := storing [(slotAddr 3 1, w1), (slotAddr 3 2, w2), (slotAddr 3 3, w3), (0x3FF0, 6), (0x3FF8, 1)] seated
    (filing 7 0x0920 1).filingInvalid 3 = some (.cardNotReady, 0) ∧ (filing 8 0x0920 1).filingInvalid 3 = some (.cardRange, 0) ∧
      (filing 0x0100 0x3FF0 1).filingInvalid 3 = none ∧ (filing 0x0200 0x3FF0 1).filingInvalid 3 = some (.badClass, 0) ∧
      (filing 0 0x3FF0 0).filingInvalid 3 = some (.countRange, 0) ∧ (filing 0 0x0920 65).filingInvalid 3 = some (.countRange, 0) ∧
      (filing 0 0x0920 64).filingInvalid 3 = some (.stepKind, 0) ∧ (filing 0 0x3FF8 2).filingInvalid 3 = some (.listPlace, 0) ∧
      (filing 0 0x0918 1).filingInvalid 3 = some (.listPlace, 0) ∧ (filing 0 0x0924 1).filingInvalid 3 = some (.listPlace, 0) ∧
      (filing 0 0x4000 1).filingInvalid 3 = some (.listPlace, 0) ∧ (filing 0 0x3FF0 2).filingInvalid 3 = none := by decide

theorem test_hyp_file : asking.engine.closed = false ∧ (asking.slot 3).state = .free ∧ asking.filingInvalid 3 = none ∧
    asking.slotCard 3 = some 0 ∧ headerUrgent (asking.slotWord 3 1) = false ∧ (asking.slot 4).state = .free ∧
    asking.filingInvalid 4 = some (.countRange, 0) ∧
    (let s := storing [(slotAddr 3 1, 0x0100)] asking
     headerUrgent (s.slotWord 3 1) = true ∧ s.filingInvalid 3 = none) := by decide

theorem test_hyp_requests : ((slot3 .filed asking).slot 3).state = .filed ∧ ((slot3 .done asking).slot 3).state = .done ∧
    waiting.slotCard 3 = some 0 ∧ (waiting.slot 3).state = .filed ∧ (job getStep .tenure).slotCard 3 = some 0 ∧
    ((job getStep .tenure).slot 3).state = .active ∧ (job getStep .tenure).engine.closed = false ∧
    (0x0014 : Word) ≠ 0x0011 ∧ (0x0014 : Word) ≠ 0x0012 ∧ (0x0014 : Word) ≠ 0x0013 := by decide

/-- Slot 3 in a state, its end report on the way. -/
def reported (x : SlotState) (e : Ending) : State :=
  card0 (fun k => { k with endReport := some { slot := 3, ending := e, stepsDone := 64 } }) (slot3 x { seated with engine := .draining })

theorem test_hyp_end_report :
    (∀ x ∈ [SlotState.active, .cancelling], ∀ e ∈ [Ending.complete, .failure .busTimeout (some 0), .failure .awaitTimeout none, .stopped],
      ((reported x e).card 0).endReport = some { slot := 3, ending := e, stepsDone := 64 } ∧ ((reported x e).slot 3).state = x) ∧
    ((reported .cancelling .stopped).slot 3).cause = some .cancel ∧
    (((reported .cancelling .complete).setSlot 3 { state := .cancelling, cause := some .hostLost }).slot 3).cause = some .hostLost ∧
    (∃ t, exec (.endReportTaken 0) (reported .active .complete) = .next t) ∧
    (reported .active .complete).engine = .draining ∧
    (∀ j, j ≠ 3 → ((reported .active .complete).slot j).state ≠ .active ∧ ((reported .active .complete).slot j).state ≠ .cancelling) ∧
    ∀ d, Ending.complete ≠ .failure .complete d := by
  refine ⟨by decide, by decide, by decide, ⟨_, rfl⟩, by decide, by decide, fun d => by simp⟩

/-- The job that returns its card to service, and one that does not. -/
theorem test_hyp_return_to_service :
    let s := card0 (fun k => { k with presence := .faulted, startedFaulted := true, atnLine := true }) (reported .active .complete)
    ((s.card 0).startedFaulted = true ∧ (s.card 0).presence = .faulted ∧ (s.slot 3).state = .active) ∧
      ((after (.endReportTaken 0) s).card 0).presence = .ready ∧ ((after (.endReportTaken 0) s).card 0).baseline = true ∧
      ((reported .active .complete).card 0).presence ≠ .faulted := by decide

theorem test_hyp_host_writes : part.resetPin = false ∧ (part.slot 31).state = .free ∧ 2 * (0x0203 : WordAddr).toNat = slotAddr 31 3 ∧
    2 * (0x0287 : WordAddr).toNat = profileAddr 7 7 ∧ 2 * (0x0490 : WordAddr).toNat = 0x0920 ∧ 2 * (0x3FFF : WordAddr).toNat = 0x7FFE ∧
    2 * (0x000F : WordAddr).toNat = 0x001E ∧ 2 * (0x0204 : WordAddr).toNat = slotAddr 31 4 ∧ 2 * (0x0031 : WordAddr).toNat = slotAddr 2 1 ∧
    ((part.setSlot 2 { state := .done, cause := none }).slot 2).state ≠ .free ∧ 2 * (0x0288 : WordAddr).toNat = profileAddr 7 8 ∧
    2 * (0x0290 : WordAddr).toNat = 0x0520 ∧ 2 * (0x048F : WordAddr).toNat = 0x091E := by decide

theorem test_hyp_page_writes : 0x4000 + 128 * (127 : PageId).val ≤ 2 * (0x3FFF : WordAddr).toNat ∧
    2 * (0x3FFF : WordAddr).toNat < 0x4000 + 128 * ((127 : PageId).val + 1) ∧ 0x4000 + 128 * (0 : PageId).val ≤ 2 * (0x2000 : WordAddr).toNat ∧
    part.pageHolder.get 127 = none ∧ ({ part with pageHolder := Vector.replicate 128 (some 3) } : State).pageHolder.get 127 = some 3 := by
  decide

theorem test_hyp_closed_states : State.reset.engine = .initializing ∧ ({ part with engine := .resetting } : State).engine = .resetting := by
  decide

theorem test_hyp_guarded_writes : let s : State := { part with produced := 0x0002, consumed := 0xFFFE }
    s.engine.closed = false ∧ ((2 : Word) - s.consumed).toNat = (s.produced - s.consumed).toNat ∧
      (s.produced - s.consumed).toNat < ((3 : Word) - s.consumed).toNat ∧
      (s.produced - s.consumed).toNat < ((0xFFFD : Word) - s.consumed).toNat := by decide

theorem test_hyp_window : (0x0300 : Word).getLsbD 8 = true ∧ (0x0300 : Word).getLsbD 9 = true ∧ part.resetPin = false ∧
    State.reset.engine = .initializing ∧ ({ Card.reset with queue := List.replicate 32 3 } : Card).queue.length ≤ 32 := by decide

theorem test_hyp_ctrl : (0x0007 : Word).getLsbD 8 = false ∧ (0x0007 : Word).getLsbD 9 = false ∧ (0x0007 : Word).getLsbD 0 = true ∧
    (0x0006 : Word).getLsbD 0 = false ∧ (0x0102 : Word).getLsbD 8 = true ∧ (0x0102 : Word).getLsbD 1 = true ∧ part.ctrlRun = true ∧
    part.engine = .running ∧ (∀ i, (part.slot i).state ≠ .active ∧ (part.slot i).state ≠ .cancelling) ∧
    ((job getStep .tenure).slot 3).state = .active ∧ ({ part with ctrlRun := false, engine := .halted } : State).ctrlRun = false ∧
    ({ part with engine := .standstill, tally := 1 } : State).tally ≠ 0 ∧ part.tally = 0 ∧
    (0x0005 : Word) = 0x0105 &&& 0x0007 ∧ (0x0105 : Word).getLsbD 0 = part.ctrlRun ∧
    ({ part with engine := .draining } : State).engine = .draining := by decide

theorem test_hyp_ticks : let s : State := { job getStep .tenure with ctrlPresence := true, tally := 2 }
    s.ctrlPresence = true ∧ s.engine = .running ∧ 2 ≤ s.tally.toNat ∧ ({ s with tally := 1 } : State).tally.toNat ≤ 1 ∧
      ({ s with tally := 0 } : State).tally.toNat ≤ 1 ∧ (s.card 0).activeSlot = some 3 ∧ (s.slot 3).state = .active ∧
      (∀ i, (s.card 1).activeSlot = some i → (s.slot i).state ≠ .active) ∧ s.engine ≠ .initializing := by decide

theorem test_hyp_notices : part.inList ≠ 64 ∧ ({ part with produced := 63 } : State).inList ≠ 64 ∧
    (let full : State := { part with produced := 10, consumed := 0xFFCA, lost := 65534 }
     full.engine.closed = false ∧ full.inList = 64 ∧ full.lost.toNat < 65535 ∧ ({ full with lost := 65535 } : State).lost.toNat = 65535) := by
  decide

theorem test_hyp_profile : let p : ProfileWords := { w0 := 63, w1 := 1, w2 := 1000, w3 := 1, w4 := 4, w5 := 4, w6 := 0x3F3F, w7 := 0x403F }
    p.invalid = some 7 ∧ ({ p with w7 := 0 } : ProfileWords).invalid = none ∧ ({ p with w0 := 1 } : ProfileWords).invalid = some 0 := by
  decide

theorem test_hyp_start : waiting.engine = .running ∧ (waiting.card 0).activeSlot = none ∧ (waiting.card 0).seq.phase = .idle ∧
    waiting.startsSlot 0 3 ∧ (waiting.profileWords 0).invalid = none ∧ (storing [(profileAddr 0 5, 5)] waiting).startsSlot 0 3 ∧
    ((storing [(profileAddr 0 5, 5)] waiting).profileWords 0).invalid = some 5 ∧ 1 ≤ (waiting.slotWord 3 3).toNat ∧
    0x0920 ≤ (waiting.slotWord 3 2).toNat ∧ (waiting.slotWord 3 2).toNat + 7 ≤ 0x3FFF ∧
    (card0 (fun k => { k with presence := .faulted, queue := [4, 3] }) (storing [(slotAddr 3 1, 0x8000)] waiting)).startsSlot 0 3 :=
  ⟨by decide, by decide, by decide, Or.inl (by decide), by decide, Or.inl (by decide), by decide, by decide, by decide, by decide,
    Or.inr ⟨by decide, [4], [], by decide, by decide, by decide⟩⟩

/-- A start whose profile keeps the sense OFF, or takes sense 3, with a read list of `n` registers, while the attention stands in `p`. -/
def latching (sense n : Word) (p : AttnPhase) : State :=
  card0 (fun k => { k with attnPhase := p, attnReq := if p = .waiting then some (request 0 .attentionRead) else none })
    (storing [(profileAddr 0 4, sense), (profileAddr 0 5, n)] waiting)

theorem test_hyp_latch (sense n : Word) (h : (sense, n) ∈ [((0 : Word), (0 : Word)), (0, 4), (3, 0), (3, 4)]) (p : AttnPhase) :
    let s := latching sense n p
    s.engine = .running ∧ (s.card 0).activeSlot = none ∧ (s.card 0).seq.phase = .idle ∧ (s.profileWords 0).invalid = none ∧
      (s.card 0).presence = .ready ∧ (s.card 0).queue.head? = some 3 ∧ (s.card 0).attnPhase = p := by
  simp only [List.mem_cons, Prod.mk.injEq, List.not_mem_nil, or_false] at h
  rcases h with ⟨rfl, rfl⟩ | ⟨rfl, rfl⟩ | ⟨rfl, rfl⟩ | ⟨rfl, rfl⟩ <;> cases p <;> decide

/-- Sense 0 is the sense the card has, and 3 is another; a count of 0 makes the list empty. -/
theorem test_hyp_latch_senses : ((latching 0 0 .waiting).profileWords 0).latch.sense = ((latching 0 0 .waiting).card 0).profile.sense ∧
    ((latching 3 4 .waiting).profileWords 0).latch.sense ≠ ((latching 3 4 .waiting).card 0).profile.sense ∧
    ((latching 0 0 .waiting).profileWords 0).latch.readList = [] ∧ ((latching 3 4 .waiting).profileWords 0).latch.readList ≠ [] := by decide

/-- A start whose first step is a PULSE, with an attention WAITING. -/
theorem test_hyp_pulse_start : let s := storing [(0x3FF8, pulseStep.w0), (0x3FFA, pulseStep.w1), (0x3FFC, pulseStep.w2)] (latching 0 4 .waiting)
    senseOf (s.profileWord 0 4) = some (s.card 0).profile.sense ∧ s.profileWord 0 5 ≠ 0 ∧ (s.card 0).attnPhase = .waiting ∧
      s.readRecord 0x3FF8 = pulseStep ∧ ((after (.jobStart 0) s).card 0).attnPhase = .held := by decide

/-- One way for each condition of a start to fail. -/
theorem test_hyp_no_start : let f := card0 (fun k => { k with presence := .faulted }) waiting
    ({ waiting with engine := .halted } : State).engine ≠ .running ∧ ((job getStep .busWait).card 0).activeSlot.isSome = true ∧
      ((job getStep .busWait).card 0).seq.phase ≠ .idle ∧ (seated.card 0).queue = [] ∧ (part.card 0).presence = .absent ∧
      (f.card 0).presence = .faulted ∧ ∀ i ∈ (f.card 0).queue, headerRecovery (f.slotWord i 1) = false := by decide

/-- The first record of the list as a step copy. -/
def listed (e : StepRecord) (s : State) : State :=
  storing [(0x3FF8, e.w0), (0x3FFA, e.w1), (0x3FFC, e.w2), (0x3FFE, e.w3)]
    (card0 (fun k => { k with seq := { k.seq with active := some 3, listAddr := 0x3FF8, stepCount := 1 } }) s)

theorem test_hyp_first_step :
    (∀ e ∈ [getStep, pollStep, pauseStep, pulseStep, awaitStep, streamInStep, streamOutStep, { getStep with w0 := 0x3F01 }],
      e.invalid = none ∧ (listed e seated).readRecord 0x3FF8 = e ∧ ((listed e seated).card 0).seq.active = some 3 ∧
        ((listed e seated).card 0).seq.listAddr.toNat + 8 * ((listed e seated).card 0).seq.stepIndex = 0x3FF8) ∧
    ({ getStep with w1 := 8 } : StepRecord).invalid = some .stepField ∧ getStep.kind = some .get ∧ pollStep.kind = some .poll ∧
    pauseStep.kind = some .pause ∧ pulseStep.kind = some .pulse ∧ awaitStep.kind = some .await ∧ streamInStep.kind = some .streamIn ∧
    streamOutStep.kind = some .streamOut ∧ ({ getStep with w0 := 0x3F01 } : StepRecord).kind = some .put := by decide

theorem test_hyp_await : let s := card0 (fun k => { k with claimable := true, profile := { k.profile with readCount := 4 } }) (listed awaitStep seated)
    (s.card 0).claimable = true ∧ (s.card 0).profile.readCount ≤ 4 ∧ ((listed awaitStep seated).card 0).claimable = false ∧
      highByte awaitStep.w0 + 0 < 8 ∧ ¬ highByte awaitStep.w0 + 1 < 8 := by decide

theorem test_hyp_stream_asks : let s := listed streamInStep seated
    (∀ p : PageId, streamInStep.w1.toNat ≤ p.val → s.pageHolder.get p = none) ∧
      ({ s with pageHolder := Vector.replicate 128 (some 4) } : State).pageHolder.get 127 ≠ none ∧
      (127 : PageId).val < streamInStep.w1.toNat + streamInStep.w2.toNat := by decide

theorem test_hyp_boundary : let s := listed getStep seated
    (s.card 0).seq.active = some 3 ∧ (s.card 0).stream = none ∧ (s.card 0).seq.stepCount ≤ (s.card 0).seq.stepIndex + 1 ∧
      (let u := s.updSeq 0 fun q => { q with stepCount := 2 }
       (u.card 0).seq.stepIndex + 1 < (u.card 0).seq.stepCount ∧ (u.card 0).seq.stop = false) := by decide

theorem test_hyp_ended_job : ((job getStep .tenure).card 0).seq.active = some 3 ∧ ((job getStep .tenure).card 0).stream = none := by decide

theorem test_hyp_bus_grant : let s := (seated.updCard 7 fun k => { k with attnReq := some (request 7 .attentionRead) }).updCard 7 fun k =>
      { k with jobReq := some (request 7 .burstOut) }
    s.tenure = none ∧ s.engine.closed = false ∧ (7 : CardId) = s.attnPtr + 1 + 7 ∧ (s.card 7).attnReq = some (request 7 .attentionRead) ∧
      (∀ m, m < 7 → (s.card (s.attnPtr + 1 + m)).attnReq = none) ∧ (∀ d, (seated.card d).attnReq = none) ∧
      (s.card 7).jobReq = some (request 7 .burstOut) ∧ (∀ m, m < 7 → (s.card (s.jobPtr + 1 + m)).jobReq = none) ∧
      (request 7 .burstOut).card = 7 := by decide

theorem test_hyp_strobe : let t := inFlight .burstOut .strobe .going []
    let u := inFlight .checkOut .stretch .going []
    (onBus t seated).tenure = some t ∧ (onBus t seated).releases t true 0 (.strobeWidthEnd true true 0) ∧
      (onBus u seated).releases u false 5 (.rdyRise false 5) :=
  ⟨by decide, by unfold State.releases; decide, by unfold State.releases; decide⟩

/-- The last word of page 127, and the last page word there is. -/
theorem test_hyp_burst_strobe : let s := streaming (moving .into .bursting 31 2047) (job streamInStep .tenure)
    (s.card 0).stream = some (moving .into .bursting 31 2047) ∧ (s.card 0).seq.copy = some streamInStep ∧
      0x4000 + 128 * streamInStep.w1.toNat + 2 * 2047 = 0x7FFE := by decide

theorem test_hyp_widths : (∀ k ∈ [TenureKind.burstOut, .burstIn], ({ inFlight k .recovery .going [] with
      req := { card := 0, kind := k, regs := [5], count := 64, data := 0, opening := true }, strobe := 62 } : Tenure).strobe + 1 < 64) ∧
    (let t : Tenure := { inFlight .attentionRead .recovery .going [] with
      req := { card := 0, kind := .attentionRead, regs := [1, 2, 3, 4], count := 4, data := 0, opening := false }, strobe := 2 }
     t.strobe + 1 < t.req.regs.length ∧ t.phase = .recovery ∧ t.mark = .going) ∧
    (inFlight .burstIn .stretch .going []).phase = .stretch ∧ (inFlight .registerRead .recovery .cut []).mark = .cut ∧
    ({ part with engine := .resetting } : State).engine = .resetting := by decide

theorem test_hyp_ready_timeout : (∀ k ∈ [TenureKind.registerWrite, .registerRead, .checkOut, .checkIn, .attentionRead],
      let t := inFlight k .stretch .going []
      (onBus t (job getStep .tenure)).tenure = some t ∧ t.phase = .stretch ∧ t.mark = .going ∧ t.req.regs[t.strobe]? = some 5 ∧
        t.req.regs.head? = some 5) ∧
    ((job getStep .tenure).card 0).seq.active = some 3 ∧ ((job getStep .tenure).card 0).seq.phase = .tenure ∧
    (seated.card 0).seq.active = none := by decide

/-- A job tenure of card 0 that has run out. -/
theorem test_hyp_tenure_over : (∀ k ∈ [TenureKind.registerWrite, .registerRead, .burstOut, .burstIn, .checkOut, .checkIn, .abandon],
      ∀ m ∈ [TenureMark.going, .stopped, .stalled, .refused],
      let t := inFlight k .recovery m [0x1234]
      let s := onBus t (job streamOutStep .tenure)
      s.tenure = some t ∧ t.phase = .recovery ∧ (s.card t.req.card).seq.active = some 3 ∧ (s.card t.req.card).seq.phase = .tenure ∧
        (s.card t.req.card).seq.copy = some streamOutStep ∧ t.values = [0x1234] ∧ t.mark = m ∧ t.req.count ≤ t.strobe + 1) ∧
    (let t := inFlight .checkIn .recovery .going [0x1234]
     (onBus t (job streamInStep .tenure)).jobTenureOver t 3 streamInStep) := by
  refine ⟨by decide, ?_⟩
  unfold State.jobTenureOver
  decide

theorem test_hyp_poll : getStep.w1.toNat ≤ 7 ∧ getStep.kind = some .get ∧ (0x3412 : Word) &&& pollStep.w1 = pollStep.w2 ∧
    (0x3413 : Word) &&& pollStep.w1 ≠ pollStep.w2 ∧ 0 + 1 < lowByte pollStep.w3 ∧ lowByte pollStep.w3 ≤ 1 + 1 := by decide

theorem test_hyp_burst_end : 64 * ((moving .into .bursting 30 1984).nextBurst + 1) < streamInStep.w3.toNat ∧
    streamInStep.w3.toNat ≤ 64 * ((moving .into .bursting 31 2048).nextBurst + 1) ∧ part.breach.get 3 = none ∧
    ({ part with breach := Vector.replicate 32 (some 127) } : State).breach.get 3 = some 127 ∧
    (moving .out (.abandoning .breach) 0 64).stage = .abandoning .breach ∧
    (0x8001 : Word) = (moving .into .closing 31 2048).check ∧ (0x1234 : Word) ≠ (moving .into .closing 31 2048).check := by decide

theorem test_hyp_leases : (∀ q ∈ part.leaseWaiting, q.slot ≠ 3) ∧
    ((streaming (moving .into .leasing 0 0) (job streamInStep .leaseWait)).card 0).stream.isSome = true ∧
    ∃ q ∈ ({ part with leaseWaiting := [{ slot := 3, card := 0, first := 96, count := 32 }] } : State).leaseWaiting, q.slot = 3 := by
  decide

/-- Two requests for page 97: the one at the head of the list is granted. -/
theorem test_examination_from_head : let a : LeaseRequest := { slot := 4, card := 1, first := 96, count := 2 }
    let b : LeaseRequest := { slot := 5, card := 2, first := 97, count := 2 }
    let s : State := { part with pageHolder := Vector.replicate 128 (some 3), leaseWaiting := [a, b] }
    (s.releaseLeases 3).pageHolder.get 97 = some 4 ∧ (s.releaseLeases 3).pageHolder.get 98 = none ∧
      (s.releaseLeases 3).leaseWaiting = [b] := by decide +kernel

/-- Card 0 waits for a lease, and the grant is on its way. -/
def granted : State := card0 (fun k => { k with leaseGrant := true }) (streaming (moving .into .leasing 0 0) (job streamInStep .leaseWait))

theorem test_hyp_lease_grant : (granted.card 0).leaseGrant = true ∧ (granted.card 0).stream = some (moving .into .leasing 0 0) ∧
    (granted.card 0).seq.active.isSome = true ∧ (granted.card 0).seq.phase = .leaseWait ∧
    (granted.card 0).seq.copy = some streamInStep := by decide

theorem test_hyp_waits : ∀ e ∈ [pollStep, pauseStep, awaitStep, pulseStep],
    ∀ p ∈ [SeqPhase.timedWait, .attentionWait, .settleWait, .pulsing, .leaseWait, .busWait, .tenure],
    ((job e p).card 0).seq.active.isSome = true ∧ ((job e p).card 0).seq.copy = some e ∧ ((job e p).card 0).seq.phase = p := by decide

theorem test_hyp_pulse : pulseStep.w2 ≠ 0 ∧ ({ pulseStep with w2 := 0 } : StepRecord).w2 = 0 ∧
    ((job pulseStep .pulsing).card 0).seq.stop = false ∧
    (((job pulseStep .pulsing).updSeq 0 fun q => { q with stop := true }).card 0).seq.stop = true := by decide

/-- Card 0 waits for the bus in a stream, and a cancel notice names its slot. -/
def told : State := card0 (fun k => { k with cancelNotice := some 3 }) (streaming (moving .out .bursting 0 0) (job streamOutStep .busWait))

theorem test_hyp_cancel_notice : (told.card 0).cancelNotice = some 3 ∧ (told.card 0).seq.active = some 3 ∧
    (told.card 0).seq.phase = .busWait ∧ (told.card 0).stream = some (moving .out .bursting 0 0) ∧
    (moving .out .bursting 0 0).begun = true ∧ (∀ why, (moving .out .bursting 0 0).stage ≠ .abandoning why) ∧
    (moving .out (.abandoning .stall) 0 0).stage = .abandoning .stall ∧ (told.card 0).seq.active ≠ some 4 :=
  ⟨by decide, by decide, by decide, by decide, by decide, fun why => by cases why <;> decide, by decide, by decide⟩

/-- A READY card with a detector, a sense and one register to read. -/
def sensing (d : Detector) (x : Sense) : Card :=
  { Card.reset with presence := .ready, detector := d, profile := { Profile.default with sense := x, readCount := 1 } }

/-- A line at each kind of detector, with changes that are detections and changes that are not. -/
theorem test_hyp_line : true ≠ (sensing .armed .rising).atnLine ∧ false = (sensing .armed .rising).atnLine ∧
    (sensing .armed .rising).judges true .armed true ∧ (sensing .armed .rising).attnPhase = .quiet ∧
    (sensing .armed .rising).profile.readList ≠ [] ∧ Card.reset.profile.readList = [] ∧
    (sensing .disarmed .off).judges true .disarmed false ∧ (sensing .armed .levelHigh).judges true .masked true ∧
    (sensing .masked .levelLow).judges true .armed false ∧ (sensing .armed .falling).judges true .armed false ∧
    State.reset.engine.closed = true :=
  ⟨by decide, by decide, Or.inr (Or.inl (by decide)), by decide, by decide, by decide, Or.inl (by decide),
    Or.inr (Or.inr (Or.inr (Or.inl (by decide)))), Or.inr (Or.inr (Or.inr (Or.inr (by decide)))),
    Or.inr (Or.inr (Or.inl (by decide))), by decide⟩

theorem test_hyp_attention_read : let t : Tenure := { inFlight .attentionRead .recovery .going [1, 2, 3, 4] with
      req := { card := 0, kind := .attentionRead, regs := [1, 2, 3, 4], count := 4, data := 0, opening := false }, strobe := 3 }
    (onBus t seated).tenure = some t ∧ t.phase = .recovery ∧ t.mark = .going ∧ t.req.kind = .attentionRead ∧
      t.req.regs.length ≤ t.strobe + 1 ∧ t.values.length ≤ 4 ∧ (seated.card 0).voidRead = false ∧
      ((card0 (fun k => { k with voidRead := true }) seated).card 0).voidRead = true := by decide

theorem test_hyp_attention_done : ((job awaitStep .attentionWait).card 0).seq.phase = .attentionWait ∧
    ((job awaitStep .attentionWait).card 0).seq.copy = some awaitStep ∧ ((job awaitStep .attentionWait).card 0).profile.readCount ≤ 4 ∧
    ((job getStep .tenure).card 0).activeSlot.isSome = true ∧ ((job getStep .tenure).card 0).seq.phase ≠ .attentionWait ∧
    (seated.card 0).activeSlot = none ∧ awaitStep.w2 ≠ 0 ∧ (0x1231 : Word) &&& awaitStep.w2 = awaitStep.w3 ∧
    (0x1232 : Word) &&& awaitStep.w2 ≠ awaitStep.w3 := by decide

theorem test_hyp_presence : part.engine.closed = false ∧ State.reset.engine.closed = true ∧ (part.card 0).presence = .absent ∧
    (seated.card 0).presence = .ready ∧
    (let s := card0 (fun k => { k with presence := .settling, settle := 48 }) part
     (s.card 0).presence = .settling ∧ (s.card 0).settle < 49 ∧ ((card0 (fun k => { k with settle := 49 }) s).card 0).settle = 49) := by
  decide

theorem test_hyp_removal : let s := card0 (fun k => { k with queue := [4, 5], claimable := true }) { job getStep .tenure with engine := .draining }
    s.engine.closed = false ∧ (s.card 0).presence = .ready ∧ (s.card 0).activeSlot = some 3 ∧ (3 : SlotId) ∉ (s.card 0).queue ∧
      (s.card 0).seq.active = some 3 ∧ s.engine = .draining ∧ (∀ q ∈ s.leaseWaiting, q.slot ≠ 3) ∧
      (∀ j, j ≠ 3 → (s.slot j).state ≠ .active ∧ (s.slot j).state ≠ .cancelling) ∧
      ((streaming (moving .into .leasing 0 0) s).card 0).stream.isSome = true := by decide

/-- A removal hands on the notice of the active slot, those of the queue in its order, and its own. -/
theorem test_removal_notices : let s := card0 (fun k => { k with queue := [5, 4] }) (job getStep .tenure)
    let t := after (.presenceSample 0 false) (storing [(slotAddr 3 1, 0x4000), (slotAddr 4 1, 0x4000), (slotAddr 5 1, 0x4000)] s)
    t.produced = 4 ∧ t.word 0x0522 = 3 ∧ t.word 0x0532 = 5 ∧ t.word 0x0542 = 4 ∧ (t.word 0x0550).extractLsb' 0 8 = 5 := by decide

end Sys2Proof.Tests
end

/-! ## What every step keeps -/

namespace Sys2Proof.Machine

/-- Every command answers a next state that keeps the invariants, each by the lemma of its operation. -/
theorem exec_preserves (c : Instr) (s : State) : ∃ t, exec c s = .next t ∧ StepPreserves s t := by
  cases c with
  | file i => exact ⟨_, rfl, writeControl_preserves s i fileCode⟩
  | cancel i => exact ⟨_, rfl, writeControl_preserves s i cancelCode⟩
  | release i => exact ⟨_, rfl, writeControl_preserves s i releaseCode⟩
  | unknownRequest i v => exact ⟨_, rfl, writeControl_preserves s i v⟩
  | hostExchangeWrite a v => exact ⟨_, rfl, hostAccess_preserves s _ _ (judgeWrite_preserves s a v)⟩
  | presenceTallyWrite v => exact ⟨_, rfl, hostAccess_preserves s 4 _ (tally_preserves s v)⟩
  | noticesConsumedWrite v => exact ⟨_, rfl, hostAccess_preserves s 8 _ (takeConsumed_preserves s v)⟩
  | noticesLostWrite v => exact ⟨_, rfl, hostAccess_preserves s 10 _ (takeLost_preserves s v)⟩
  | runSet w | runClear w | presenceLevel w | interruptLevel w | resume w | engineReset w =>
    exact ⟨_, rfl, writeCtrl_preserves s w⟩
  | statClearDiscard w | statClearRefused w =>
    exact ⟨s.writeStat w, rfl, inert_preserves rfl rfl rfl rfl rfl rfl rfl rfl rfl⟩
  | ignoredWindowWrite target v => exact ⟨s, rfl, Preserves.refl s⟩
  | hardwareReset => exact ⟨_, rfl, hardwareReset_preserves s⟩
  | resetRelease => exact ⟨_, rfl, resetRelease_preserves s⟩
  | bclrPulseEnd => exact ⟨_, rfl, bclrPulseEnd_preserves s⟩
  | jobStart k => exact ⟨_, rfl, jobStart_preserves s k⟩
  | cancelNoticeTaken k => exact ⟨_, rfl, cancelNoticeTaken_preserves s k⟩
  | endReportTaken k => exact ⟨_, rfl, endReportTaken_preserves s k⟩
  | busGrant => exact ⟨_, rfl, grantBus_preserves s⟩
  | registerWriteEnd => exact ⟨_, rfl, registerWriteEnd_preserves s⟩
  | registerReadEnd => exact ⟨_, rfl, registerReadEnd_preserves s⟩
  | attentionReadEnd => exact ⟨_, rfl, attentionReadEnd_preserves s⟩
  | burstEnd => exact ⟨_, rfl, burstEnd_preserves s⟩
  | burstStop => exact ⟨_, rfl, burstStop_preserves s⟩
  | stallTimeout => exact ⟨_, rfl, stallTimeout_preserves s⟩
  | burstStallEnd => exact ⟨_, rfl, burstStallEnd_preserves s⟩
  | checkOutEnd => exact ⟨_, rfl, checkOutEnd_preserves s⟩
  | checkInEnd => exact ⟨_, rfl, checkInEnd_preserves s⟩
  | abandonEnd => exact ⟨_, rfl, abandonEnd_preserves s⟩
  | readyTimeout => exact ⟨_, rfl, readyTimeout_preserves s⟩
  | recoveryWidthEnd => exact ⟨_, rfl, recoveryWidthEnd_preserves s⟩
  | pollIntervalEnd k => exact ⟨_, rfl, pollIntervalEnd_preserves s k⟩
  | awaitTimeout k => exact ⟨_, rfl, awaitTimeout_preserves s k⟩
  | pauseEnd k => exact ⟨_, rfl, pauseEnd_preserves s k⟩
  | pulseEnd k => exact ⟨_, rfl, pulseEnd_preserves s k⟩
  | settleWaitEnd k => exact ⟨_, rfl, settleWaitEnd_preserves s k⟩
  | presenceTick => exact ⟨_, rfl, presenceTick_preserves s⟩
  | standstillEntry => exact ⟨_, rfl, standstillEntry_preserves s⟩
  | msClockTick => exact ⟨_, rfl, msClockTick_preserves s⟩
  | presenceSample k level => exact ⟨_, rfl, presenceSample_preserves s k level⟩
  | cardArrival k => exact ⟨_, rfl, cardArrival_preserves s k⟩
  | atnChange k level => exact ⟨_, rfl, atnChange_preserves s k level⟩
  | leaseGrantTaken k => exact ⟨_, rfl, leaseGrantTaken_preserves s k⟩
  | strobeWidthEnd rdy stop data => exact ⟨_, rfl, strobeWidthEnd_preserves s rdy stop data⟩
  | rdyRise stop data => exact ⟨_, rfl, rdyRise_preserves s stop data⟩
  | strobeRecoveryEnd => exact ⟨_, rfl, strobeRecoveryEnd_preserves s⟩

/-- Taking a command off the queue keeps the invariants, so a step does. -/
theorem step_preserves {s t : State} (h : step s = .next t) : StepPreserves s t := by
  unfold step at h
  split at h
  · cases h
    exact Preserves.refl s
  · rename_i c rest _
    obtain ⟨u, hu, hk⟩ := exec_preserves c { s with pending := rest }
    obtain rfl : u = t := Host.Outcome.next.inj (hu.symm.trans h)
    exact Preserves.trans (t := { s with pending := rest }) (inert_preserves rfl rfl rfl rfl rfl rfl rfl rfl rfl) hk

/-- Settles O4: each command's operation keeps the three invariants. -/
theorem stepKeepsCountsCausesLevels : Obligations.StepKeepsCountsCausesLevels := fun _ _ h =>
  ⟨(step_preserves h).ringOk, (step_preserves h).causesOk, (step_preserves h).runOk⟩

end Sys2Proof.Machine

/-! ## Filing checks -/

namespace Sys2Proof.Machine

/-- The kind codes of 11.8. -/
def StepKind.code : StepKind → Nat
  | .put => 1 | .get => 2 | .poll => 3 | .await => 4 | .pause => 5 | .mark => 6 | .pulse => 7 | .streamIn => 8 | .streamOut => 9

theorem stepKindOf_eq_some_iff (n : Nat) (k : StepKind) : stepKindOf n = some k ↔ n = k.code := by
  constructor
  · intro h
    unfold stepKindOf at h
    split_ifs at h <;> cases h <;> assumption
  · rintro rfl
    cases k <;> rfl

theorem kind_eq_some_iff (r : StepRecord) (k : StepKind) : r.kind = some k ↔ lowByte r.w0 = k.code :=
  stepKindOf_eq_some_iff _ _

theorem exists_kind_iff (r : StepRecord) : (∃ k, r.kind = some k) ↔ 1 ≤ lowByte r.w0 ∧ lowByte r.w0 ≤ 9 := by
  rw [← Option.ne_none_iff_exists', StepRecord.kind, ne_eq, stepKindOf_none_iff]
  omega

theorem isStream_iff_code (k : StepKind) : k.isStream = true ↔ k.code = 8 ∨ k.code = 9 := by
  cases k <;> decide

/-- Check 2 of R9 on the numbers a record's fields hold. -/
def StepRecord.fieldsInRange (r : StepRecord) : StepKind → Prop
  | .put | .streamIn | .streamOut => highByte r.w0 ≤ 63
  | .get => highByte r.w0 ≤ 63 ∧ r.w1.toNat ≤ 7
  | .poll => highByte r.w0 ≤ 63 ∧ 1 ≤ lowByte r.w3 ∧ 1 ≤ highByte r.w3
  | .await => 1 ≤ r.w1.toNat ∧ highByte r.w0 ≤ 7
  | .pause | .pulse => 1 ≤ r.w1.toNat
  | .mark => True

theorem fieldsOk_kind (r : StepRecord) (k : StepKind) : r.fieldsOk k = true ↔ r.fieldsInRange k := by
  have hw := word_ne_zero_iff r.w1
  have hreg : r.regField = highByte r.w0 := rfl
  have hcapture : r.captureIndex = r.w1.toNat := rfl
  have hattempts : r.attempts = lowByte r.w3 := rfl
  have hinterval : r.interval = highByte r.w3 := rfl
  have hbase : r.captureBase = highByte r.w0 := rfl
  cases k <;>
    simp only [StepRecord.fieldsOk, StepRecord.fieldsInRange, Bool.and_eq_true, bne_iff_ne, decide_eq_true_eq, hw] <;>
    omega

/-- Check 2 of R9 over the kind codes: some kind has the record's code and its fields in range. -/
theorem fieldsOk_iff (r : StepRecord) :
    (∃ k, r.kind = some k ∧ r.fieldsOk k = true) ↔
      (lowByte r.w0 = 1 ∧ highByte r.w0 ≤ 63) ∨ (lowByte r.w0 = 2 ∧ highByte r.w0 ≤ 63 ∧ r.w1.toNat ≤ 7) ∨
      (lowByte r.w0 = 3 ∧ highByte r.w0 ≤ 63 ∧ 1 ≤ lowByte r.w3 ∧ 1 ≤ highByte r.w3) ∨
      (lowByte r.w0 = 4 ∧ 1 ≤ r.w1.toNat ∧ highByte r.w0 ≤ 7) ∨ (lowByte r.w0 = 5 ∧ 1 ≤ r.w1.toNat) ∨ lowByte r.w0 = 6 ∨
      (lowByte r.w0 = 7 ∧ 1 ≤ r.w1.toNat) ∨ ((lowByte r.w0 = 8 ∨ lowByte r.w0 = 9) ∧ highByte r.w0 ≤ 63) := by
  constructor
  · rintro ⟨k, hk, hf⟩
    rw [kind_eq_some_iff] at hk
    rw [fieldsOk_kind] at hf
    cases k <;> dsimp only [StepRecord.fieldsInRange, StepKind.code] at hk hf <;> omega
  · intro h
    obtain ⟨k, hk⟩ := (exists_kind_iff r).2 (by omega)
    refine ⟨k, hk, ?_⟩
    rw [kind_eq_some_iff] at hk
    rw [fieldsOk_kind]
    cases k <;> dsimp only [StepRecord.fieldsInRange, StepKind.code] at hk ⊢ <;> omega

theorem pagesOk_iff (r : StepRecord) : r.pagesOk = true ↔
    1 ≤ r.w2.toNat ∧ r.w2.toNat ≤ 32 ∧ r.w1.toNat ≤ 127 ∧ r.w1.toNat + r.w2.toNat - 1 ≤ 127 := by
  simp only [StepRecord.pagesOk, Bool.and_eq_true, bne_iff_ne, decide_eq_true_eq]
  unfold StepRecord.pageCount StepRecord.firstPage
  omega

theorem wordsOk_iff (r : StepRecord) : r.wordsOk = true ↔ 1 ≤ r.w3.toNat ∧ r.w3.toNat ≤ r.w2.toNat * 64 := by
  simp only [StepRecord.wordsOk, Bool.and_eq_true, bne_iff_ne, decide_eq_true_eq]
  unfold StepRecord.wordCount StepRecord.pageCount
  omega

/-- The checks of a record of a known kind, in order. -/
theorem invalid_of_kind (r : StepRecord) (k : StepKind) (h : r.kind = some k) :
    r.invalid = if r.fieldsOk k = false then some .stepField else if k.isStream = true ∧ r.pagesOk = false then some .pageRange
      else if k.isStream = true ∧ r.wordsOk = false then some .wordCount else none := by
  unfold StepRecord.invalid
  rw [h]
  simp

/-- Settles O12: each clause reads off the one check it names from the record's kind. -/
theorem stepRecordChecks : Obligations.StepRecordChecks := by
  intro r kind fields pages words
  have hf : (∃ k, r.kind = some k ∧ r.fieldsOk k = true) ↔ fields := fieldsOk_iff r
  have hp : r.pagesOk = true ↔ pages := pagesOk_iff r
  have hw : r.wordsOk = true ↔ words := wordsOk_iff r
  have hstream : ∀ k, r.kind = some k → (k.isStream = true ↔ kind = 8 ∨ kind = 9) := fun k hk => by
    rw [isStream_iff_code, ← (kind_eq_some_iff r k).1 hk]
  refine ⟨fun h => ?_, fun h1 h9 hn => ?_, fun hF hs hn => ?_, fun hF hs hP hn => ?_, fun hF hs => ?_⟩
  · have hnone : r.kind = none := (stepKindOf_none_iff _).2 (by omega)
    rw [StepRecord.invalid, hnone]
  · obtain ⟨k, hk⟩ := (exists_kind_iff r).2 ⟨h1, h9⟩
    rw [invalid_of_kind r k hk, if_pos]
    exact Bool.eq_false_iff.2 fun hok => hn (hf.1 ⟨k, hk, hok⟩)
  · obtain ⟨k, hk, hok⟩ := hf.2 hF
    rw [← hp, Bool.not_eq_true] at hn
    rw [invalid_of_kind r k hk, if_neg (by simp [hok]), if_pos ⟨(hstream k hk).2 hs, hn⟩]
  · obtain ⟨k, hk, hok⟩ := hf.2 hF
    rw [← hw, Bool.not_eq_true] at hn
    rw [invalid_of_kind r k hk, if_neg (by simp [hok]), if_neg (by simp [hp.2 hP]), if_pos ⟨(hstream k hk).2 hs, hn⟩]
  · obtain ⟨k, hk, hok⟩ := hf.2 hF
    rw [invalid_none_iff r k hk]
    exact ⟨hok, fun hk' => (hs ((hstream k hk).1 hk')).imp hp.2 hw.2⟩

theorem headerCard_of_lt {w : Word} {c : CardId} (h : lowByte w = c.val) : headerCard w = some c := by
  have hlt : lowByte w < 8 := h ▸ c.isLt
  rw [headerCard, dif_pos hlt]
  exact congrArg some (Fin.ext h)

/-- Checks 2 to 6 of R8 in order, the slot naming card `c`. -/
theorem filingInvalid_named {s : State} {i : SlotId} {c : CardId} (h : lowByte (s.slotWord i 1) = c.val) :
    s.filingInvalid i =
      if (s.card c).presence.inService = false then some (.cardNotReady, 0)
      else if 1 < headerClass (s.slotWord i 1) then some (.badClass, 0)
      else if (s.slotWord i 3).toNat < 1 ∨ 64 < (s.slotWord i 3).toNat then some (.countRange, 0)
      else if listPlaceOk (s.slotWord i 2).toNat (s.slotWord i 3).toNat = false then some (.listPlace, 0)
      else s.stepsInvalid (s.slotWord i 2).toNat 0 (s.slotWord i 3).toNat := by
  unfold State.filingInvalid
  simp only [headerCard_of_lt h, Bool.not_eq_true', Bool.or_eq_true, decide_eq_true_eq]
  rfl

theorem inService_iff (p : Presence) : p.inService = true ↔ p = .ready ∨ p = .faulted := by
  cases p <;> decide

theorem listPlaceOk_iff (a n : Nat) :
    listPlaceOk a n = true ↔ a % 8 = 0 ∧ 0x0920 ≤ a ∧ a ≤ 0x3FFF ∧ a + 8 * n - 1 ≤ 0x3FFF := by
  simp only [listPlaceOk, Bool.and_eq_true, decide_eq_true_eq]
  unfold Config.stepBase Config.stepLast
  omega

/-- Settles O13: the checks stand in the order of R8, and check 6 stops at the first record that fails. -/
theorem filingChecksInOrder : Obligations.FilingChecksInOrder := by
  rintro s i w1 a n rfl rfl rfl
  refine ⟨fun h => ?_, fun c hc => ?_⟩
  · have hnone : headerCard (s.slotWord i 1) = none := dif_neg (by omega)
    simp [State.filingInvalid, hnone]
  · rw [filingInvalid_named hc]
    refine ⟨fun h => if_pos ?_, fun hin => ?_⟩
    · rcases h with h | h <;> rw [h] <;> rfl
    · rw [if_neg (by simp [(inService_iff _).2 hin])]
      refine ⟨fun h => if_pos h, fun h hn => ?_, fun h h1 h64 => ⟨fun hp => ?_, fun p1 p2 p3 p4 => ⟨fun hall => ?_, ?_⟩⟩⟩
      · rw [if_neg (by omega), if_pos hn]
      · rw [if_neg (by omega), if_neg (by omega), if_pos]
        rw [Bool.eq_false_iff, ne_eq, listPlaceOk_iff]
        omega
      · have hplace := (listPlaceOk_iff _ _).2 ⟨p1, p2, p3, p4⟩
        rw [if_neg (by omega), if_neg (by omega), if_neg (by simp [hplace])]
        exact stepsInvalid_none _ _ _ _ fun k _ hk => hall k (by omega)
      · intro k why hk hbefore hwhy
        have hplace := (listPlaceOk_iff _ _).2 ⟨p1, p2, p3, p4⟩
        rw [if_neg (by omega), if_neg (by omega), if_neg (by simp [hplace])]
        exact stepsInvalid_some _ _ why k hwhy _ _ (by omega) (by omega) fun j _ hj => hbefore j hj

end Sys2Proof.Machine

/-! ## Slot requests -/

namespace Sys2Proof.Machine

theorem exec_file_open {s : State} (h : s.engine.closed = false) (i : SlotId) : exec (.file i) s = .next (s.requestFile i) :=
  next_congr (open_access s _ _ h)

theorem exec_cancel_open {s : State} (h : s.engine.closed = false) (i : SlotId) :
    exec (.cancel i) s = .next (s.requestCancel i) :=
  next_congr (open_access s _ _ h)

theorem exec_release_open {s : State} (h : s.engine.closed = false) (i : SlotId) :
    exec (.release i) s = .next (s.requestRelease i) :=
  next_congr (open_access s _ _ h)

/-- A value that is no request code is refused as an unknown request (R16). -/
theorem exec_unknownRequest_open {s : State} (h : s.engine.closed = false) (i : SlotId) {v : Word} (hf : v ≠ fileCode)
    (hc : v ≠ cancelCode) (hr : v ≠ releaseCode) :
    exec (.unknownRequest i v) s = .next (s.refuseRequest i v (some .unknownRequest)) := by
  refine next_congr ((open_access s _ _ h).trans ?_)
  rw [State.slotRequest, if_neg hf, if_neg hc, if_neg hr]

theorem requestFile_free {s : State} {i : SlotId} (h : (s.slot i).state = .free) : s.requestFile i = s.takeFile i := by
  rw [State.requestFile, h]

theorem requestFile_refused {s : State} {i : SlotId} (h : (s.slot i).state ≠ .free) :
    s.requestFile i = s.refuseRequest i fileCode none := by
  unfold State.requestFile
  split
  · exact absurd ‹_› h
  all_goals rfl

theorem requestCancel_filed {s : State} {i : SlotId} (h : (s.slot i).state = .filed) :
    s.requestCancel i = (s.dequeue i).endWaiting i .cancelled (some 0) none := by
  rw [State.requestCancel, h]

theorem requestCancel_active {s : State} {i : SlotId} (h : (s.slot i).state = .active) :
    s.requestCancel i = (s.setSlot i { state := .cancelling, cause := some .cancel }).tellCancel i := by
  rw [State.requestCancel, h]

theorem requestCancel_refused {s : State} {i : SlotId} (hf : (s.slot i).state ≠ .filed) (ha : (s.slot i).state ≠ .active) :
    s.requestCancel i = s.refuseRequest i cancelCode none := by
  unfold State.requestCancel
  split
  · exact absurd ‹_› hf
  · exact absurd ‹_› ha
  all_goals rfl

theorem requestRelease_done {s : State} {i : SlotId} (h : (s.slot i).state = .done) :
    s.requestRelease i = s.takeRelease i := by
  rw [State.requestRelease, h]

theorem requestRelease_refused {s : State} {i : SlotId} (h : (s.slot i).state ≠ .done) :
    s.requestRelease i = s.refuseRequest i releaseCode none := by
  unfold State.requestRelease
  split
  · exact absurd ‹_› h
  all_goals rfl

/-- Settles O16: each request's operation, in a state of the slot it does not answer, is the refusal. -/
theorem requestsRefused : Obligations.RequestsRefused := fun _ i _ h =>
  ⟨fun hs => (exec_file_open h i).trans (next_congr (requestFile_refused hs)),
    fun hf ha => (exec_cancel_open h i).trans (next_congr (requestCancel_refused hf ha)),
    fun hs => (exec_release_open h i).trans (next_congr (requestRelease_refused hs)),
    fun hf hc hr => exec_unknownRequest_open h i hf hc hr⟩

/-! ### Filing -/

/-- The place of slot `i` in a card queue it joins (R54). -/
def State.joined (s : State) (i : SlotId) (q : List SlotId) : List SlotId :=
  if headerUrgent (s.slotWord i 1) then
    (q.takeWhile fun j => headerUrgent (s.slotWord j 1)) ++ i :: q.dropWhile fun j => headerUrgent (s.slotWord j 1)
  else q ++ [i]

/-- An accepted filing, field by field. -/
theorem acceptFiling_eq (s : State) (c : CardId) (i : SlotId) :
    s.acceptFiling c i = { s with
      acceptSeq := s.acceptSeq + 1, mem := writeWord s.mem (slotAddr i 7) (s.acceptSeq + 1)
      slots := upd s.slots i { state := .filed, cause := none }, acceptOrder := s.acceptOrder ++ [i]
      cards := upd s.cards c { s.card c with queue := s.joined i (s.card c).queue } } := by
  have hhead : ∀ j, (s.setSlotWord i 7 (s.acceptSeq + 1)).slotWord j 1 = s.slotWord j 1 := fun j => by
    rw [slotWord_setSlotWord _ _ _ _ _ _ (by decide) (by decide), if_neg (by simp)]
  have hqueue : ∀ k : Card,
      (if headerUrgent (s.slotWord i 1) then
        { k with queue := (k.queue.takeWhile fun j => headerUrgent (s.slotWord j 1)) ++
            i :: k.queue.dropWhile fun j => headerUrgent (s.slotWord j 1) }
      else { k with queue := k.queue ++ [i] }) = { k with queue := s.joined i k.queue } := fun k => by
    unfold State.joined
    split <;> rfl
  rw [← hqueue]
  simp only [← hhead]
  rfl

/-- An URGENT slot joins after the URGENT slots at the head of the queue (R54). -/
theorem joined_urgent {s : State} {i : SlotId} (h : headerUrgent (s.slotWord i 1) = true) (q : List SlotId) :
    ∃ front back, q = front ++ back ∧ s.joined i q = front ++ i :: back ∧
      (∀ j ∈ front, headerUrgent (s.slotWord j 1) = true) ∧ ∀ j, back.head? = some j → headerUrgent (s.slotWord j 1) = false := by
  refine ⟨_, _, List.takeWhile_append_dropWhile.symm, if_pos h,
    fun j hj => List.mem_takeWhile_imp (p := fun j => headerUrgent (s.slotWord j 1)) hj, fun j hj => ?_⟩
  have hhead := List.head?_dropWhile_not (fun j => headerUrgent (s.slotWord j 1)) q
  rw [hj] at hhead
  simpa using hhead

/-- Settles O14: the accepted filing, field by field, and the place it takes in the queue. -/
theorem fileAccepted : Obligations.FileAccepted := by
  intro s i c hopen hfree hok hcard
  have haccept : exec (.file i) s = .next (s.acceptFiling c i) := by
    rw [exec_file_open hopen, requestFile_free hfree, State.takeFile, hok, hcard]
  rw [acceptFiling_eq] at haccept
  refine ⟨_, haccept, rfl, readWord_writeWord_same _ _ _, fun a ha => ?_, get_upd_same _ _ _, fun j hj => get_upd_other _ _ _ _ hj,
    rfl, fun hn => ?_, fun hu => ?_, ?_, fun d hd => get_upd_other _ _ _ _ hd, rfl⟩
  · exact readByte_writeWord_other _ _ _ _ (by unfold slotAddr at *; omega)
  · exact (congrArg Card.queue (get_upd_same _ _ _)).trans (if_neg (by simp [hn]))
  · obtain ⟨front, back, hq, hjoin, hfront, hback⟩ := joined_urgent hu (s.card c).queue
    exact ⟨front, back, hq, (congrArg Card.queue (get_upd_same _ _ _)).trans hjoin, hfront, hback⟩
  · exact congrArg (fun k : Card => { k with queue := (s.card c).queue }) (get_upd_same _ _ _)

/-- Settles O15: a rejected filing is the passage of a slot that was not in progress, and its notice. -/
theorem fileRejected : Obligations.FileRejected := by
  intro s i why idx hopen hfree hbad
  refine ⟨s.passDone i .rejected (some (wordOf idx)) (some why.code), ?_, passDone_endsSlot s i .rejected _ _⟩
  rw [exec_file_open hopen, requestFile_free hfree, State.takeFile, hbad]
  exact next_congr (endWaiting_eq s i .rejected _ _)

/-! ### Cancel and release -/

/-- Settles O17: a FILED slot leaves its queue and passes to DONE; an ACTIVE one becomes CANCELLING and its card is told. -/
theorem cancelByState : Obligations.CancelByState := by
  intro s i c hopen hcard
  refine ⟨fun hfiled => ?_, fun hactive => ?_⟩
  · have hdequeue : s.dequeue i = s.updCard c fun k => { k with queue := k.queue.filter fun j => j ≠ i } := by
      rw [State.dequeue, hcard]
    refine ⟨_, ?_, passDone_endsSlot _ i .cancelled (some 0) none⟩
    rw [exec_cancel_open hopen, requestCancel_filed hfiled, hdequeue]
    exact next_congr (endWaiting_eq _ i .cancelled (some 0) none)
  · have htell : (s.setSlot i { state := .cancelling, cause := some .cancel }).tellCancel i =
        (s.setSlot i { state := .cancelling, cause := some .cancel }).updCard c fun k => { k with cancelNotice := some i } := by
      rw [State.tellCancel, show (s.setSlot i _).slotCard i = some c from hcard]
    refine ⟨_, (exec_cancel_open hopen i).trans (next_congr ((requestCancel_active hactive).trans htell)), ?_⟩
    exact ⟨slot_setSlot_same _ _ _, fun j hj => slot_setSlot_other _ _ _ _ hj, card_updCard_same _ _ _,
      fun d hd => card_updCard_other _ _ _ _ hd, fun _ => rfl, rfl⟩

theorem readWord_zeroRange {m : Memory} {lo hi a : Nat} (h : lo ≤ a ∧ a + 1 < hi) : readWord (zeroRange m lo hi) a = 0 := by
  unfold readWord
  rw [readByte_zeroRange, readByte_zeroRange, if_pos (by omega), if_pos (by omega)]
  rfl

/-- Settles O18: words 4 to 15 are one zeroed range of the memory. -/
theorem releaseFreesDoneSlot : Obligations.ReleaseFreesDoneSlot := by
  intro s i hopen hdone
  refine ⟨s.takeRelease i, ?_, slot_setSlot_same _ _ _, fun j hj => slot_setSlot_other _ _ _ _ hj, fun w h4 h16 => ?_,
    fun a ha => ?_, rfl⟩
  · rw [exec_release_open hopen, requestRelease_done hdone]
  · exact readWord_zeroRange (by unfold slotAddr; omega)
  · exact (readByte_zeroRange _ _ _ _).trans (if_neg (by omega))

/-! ### Writes while the engine is closed -/

theorem hostAccess_initializing {s : State} (h : s.engine = .initializing) (a : Nat) (judge : State → State) :
    s.hostAccess a judge = s := by
  rw [State.hostAccess, h]

theorem hostAccess_resetting {s : State} (h : s.engine = .resetting) (a : Nat) (judge : State → State) :
    s.hostAccess a judge = s.discard a := by
  rw [State.hostAccess, h]

theorem writeCtrl_closed {s : State} (h : s.engine.closed = true) (w : Word) : s.writeCtrl w = s := if_pos h

/-- Settles O24: every host write goes through `State.hostAccess` or `State.writeCtrl`. -/
theorem closedStatesTakeNoWrite : Obligations.ClosedStatesTakeNoWrite := by
  intro s i a v
  refine ⟨fun h => ?_, fun h => ?_, fun h => ?_⟩
  · have hkeep : ∀ adr judge, (Host.Outcome.next (s.hostAccess adr judge) : Host.Outcome State Fault Refusal) = .next s :=
      fun adr judge => next_congr (hostAccess_initializing h adr judge)
    exact ⟨hkeep _ _, hkeep _ _, hkeep _ _, hkeep _ _, hkeep _ _, hkeep _ _, hkeep _ _, hkeep _ _⟩
  · have hkeep : ∀ adr judge, (Host.Outcome.next (s.hostAccess adr judge) : Host.Outcome State Fault Refusal) =
        .next (s.discard adr) := fun adr judge => next_congr (hostAccess_resetting h adr judge)
    exact ⟨hkeep _ _, hkeep _ _, hkeep _ _, hkeep _ _, hkeep _ _, hkeep _ _, hkeep _ _, hkeep _ _⟩
  · have hclosed : s.engine.closed = true := by rcases h with h | h <;> rw [h] <;> rfl
    have hkeep : (Host.Outcome.next (s.writeCtrl v) : Host.Outcome State Fault Refusal) = .next s :=
      next_congr (writeCtrl_closed hclosed v)
    exact ⟨hkeep, hkeep, hkeep, hkeep, hkeep, hkeep⟩

/-! ## Standstill -/

/-- The state STANDSTILL is entered in, before its notice is handed on (R21, R204). -/
def State.stoodStill (s : State) : State :=
  { s with engine := .standstill, tally := 0, slots := tab fun i => (s.slot i).standstill, cards := tab fun c => s.standstillCard c }

theorem standstillCard_told {s : State} {c : CardId} {i : SlotId} (h : (s.card c).activeSlot = some i)
    (ha : (s.slot i).state = .active) : s.standstillCard c = { s.card c with cancelNotice := some i } := by
  rw [State.standstillCard, h]
  exact if_pos ha

theorem standstillCard_untold {s : State} {c : CardId} (h : ∀ i, (s.card c).activeSlot = some i → (s.slot i).state ≠ .active) :
    s.standstillCard c = s.card c := by
  unfold State.standstillCard
  split
  · exact if_neg (h _ ‹_›)
  · rfl

/-- Settles O31: under either name the tick enters `State.stoodStill` and hands on its notice. -/
theorem tallyRunsOutToStandstill : Obligations.TallyRunsOutToStandstill := by
  intro s hp he ht
  have hcounts : s.tickCounts = true := by simpa [State.tickCounts, hp] using he
  have hends : s.tallyEnds = true := by simpa [State.tallyEnds] using ht
  refine ⟨s.stoodStill, ⟨?_, ?_⟩, rfl, rfl, fun i => get_tab _ i, fun c i hc hi => ?_, fun c hc => ?_, fun _ => rfl, rfl⟩
  · have htick : s.presenceTick = ({ s with tally := 0 } : State).enterStandstill := by
      rw [State.presenceTick, if_pos hcounts, if_pos hends]
    exact next_congr htick
  · have hentry : s.standstillEntry = ({ s with tally := 0 } : State).enterStandstill := by
      rw [State.standstillEntry, if_pos (by rw [hcounts, hends]; rfl)]
    exact next_congr hentry
  · exact (get_tab _ c).trans (standstillCard_told hc hi)
  · exact (get_tab _ c).trans (standstillCard_untold hc)

end Sys2Proof.Machine

/-! ## End reports -/

namespace Sys2Proof.Machine

theorem outcome_ne_complete (cause : CancelCause) : cause.outcome ≠ .complete := by
  cases cause <;> decide

theorem reportOutcome_failure {x : SlotCtl} (h : x.state = .active ∨ x.state = .cancelling) (o : JobOutcome) (d : Option Word) :
    reportOutcome x (.failure o d) = some (o, d) := by
  rcases h with h | h <;> simp [reportOutcome, h]

theorem reportOutcome_complete {x : SlotCtl} (h : x.state = .active) : reportOutcome x .complete = some (.complete, none) := by
  simp [reportOutcome, h]

/-- A COMPLETE or STOPPED report of a CANCELLING slot gives the cause's outcome (R19). -/
theorem reportOutcome_cancelled {x : SlotCtl} {cause : CancelCause} {e : Ending} (h : x.state = .cancelling)
    (hc : x.cause = some cause) (he : e = .complete ∨ e = .stopped) : reportOutcome x e = some (cause.outcome, none) := by
  rcases he with rfl | rfl <;> simp [reportOutcome, h, hc]

/-- The card's own part of what `ReportTaken` says that does not turn on the outcome. -/
theorem ReportTaken.card_kept {s u : State} {c : CardId} {i : SlotId} {o : JobOutcome} {w5 w6 : Word}
    (r : ReportTaken s u c i o w5 w6) : (u.card c).endReport = none ∧ (u.card c).seq = (s.card c).seq ∧
      (u.card c).queue = (s.card c).queue ∧ (u.card c).profile = (s.card c).profile := by
  obtain ⟨n, hn⟩ := r.card
  rw [hn]
  split <;> exact ⟨rfl, rfl, rfl, rfl⟩

/-- Settles O19: the report has an outcome and a detail, and `ReportTaken` says what taking it leaves. -/
theorem endReportEndsSlot : Obligations.EndReportEndsSlot := by
  intro s c i e n o w6 hreport hcase
  obtain ⟨detail, hout, rfl⟩ : ∃ d, reportOutcome (s.slot i) e = some (o, d) ∧ w6 = d.getD (s.slotWord i 6) := by
    rcases hcase with ⟨hst, ⟨d, rfl, rfl⟩ | ⟨rfl, rfl⟩⟩ | ⟨hst, rfl, rfl, rfl⟩ | ⟨hst, he, rfl, ⟨hc, rfl⟩ | ⟨hc, rfl⟩⟩
    · exact ⟨_, reportOutcome_failure hst o _, rfl⟩
    · exact ⟨_, reportOutcome_failure hst o _, rfl⟩
    · exact ⟨_, reportOutcome_complete hst, rfl⟩
    · exact ⟨_, reportOutcome_cancelled hst hc he, rfl⟩
    · exact ⟨_, reportOutcome_cancelled hst hc he, rfl⟩
  obtain ⟨u, hu, r⟩ := endReportTaken_eq s c i e n o detail hreport hout
  obtain ⟨hend, hseq, hqueue, hprofile⟩ := r.card_kept
  exact ⟨u, next_congr hu, r.slot, r.slots, r.w4, r.w5, r.w6, r.order, hend, hseq, hqueue, hprofile, r.cards, r.bytes, r.frame⟩

theorem card_notifyDone (s u : State) (i : SlotId) (o : JobOutcome) (w5 w6 : Word) (d : CardId) :
    (s.notifyDone u i o w5 w6).card d = u.card d := by
  unfold State.notifyDone
  split
  · exact card_post _ _ _
  · rfl

theorem profileWord14_notifyDone (s u : State) (i : SlotId) (o : JobOutcome) (w5 w6 : Word) (d : CardId) :
    (s.notifyDone u i o w5 w6).profileWord d 14 = u.profileWord d 14 := by
  unfold State.notifyDone
  split
  · exact post_profileWord _ _ _
  · rfl

/-- A report that ends its slot has outcome COMPLETE just where it is a COMPLETE report of an ACTIVE slot (R18, R19). -/
theorem reportOutcome_complete_iff {x : SlotCtl} {e : Ending}
    (h : x.state = .active ∧ e ≠ .stopped ∨ x.state = .cancelling ∧ x.cause.isSome = true) (hf : ∀ d, e ≠ .failure .complete d) :
    ∃ o d, reportOutcome x e = some (o, d) ∧ (o = .complete ↔ x.state = .active ∧ e = .complete) := by
  cases e with
  | failure o d =>
    have hst : x.state = .active ∨ x.state = .cancelling := h.imp And.left And.left
    exact ⟨o, d, reportOutcome_failure hst o d, by rintro rfl; exact absurd rfl (hf d), by simp⟩
  | complete =>
    rcases h with ⟨hst, -⟩ | ⟨hst, hc⟩
    · exact ⟨_, _, reportOutcome_complete hst, by simp [hst]⟩
    · obtain ⟨cause, hc⟩ := Option.isSome_iff_exists.1 hc
      exact ⟨_, _, reportOutcome_cancelled hst hc (Or.inl rfl), by simp [hst, outcome_ne_complete]⟩
  | stopped =>
    rcases h with ⟨-, hne⟩ | ⟨hst, hc⟩
    · exact absurd rfl hne
    · obtain ⟨cause, hc⟩ := Option.isSome_iff_exists.1 hc
      exact ⟨_, _, reportOutcome_cancelled hst hc (Or.inr rfl), by simp [outcome_ne_complete]⟩

/-- Settles O20: the notice leaves the card and the engine, and `ReportTaken` says what stands there before it. -/
theorem endReportAtCardAndEngine : Obligations.EndReportAtCardAndEngine := by
  intro s t c i e n hreport hstate hfail hexec
  obtain ⟨o, detail, hout, hcomplete⟩ := reportOutcome_complete_iff hstate hfail
  obtain ⟨u, hu, r⟩ := endReportTaken_eq s c i e n o detail hreport hout
  obtain rfl : s.notifyDone u i o (wordOf n) (detail.getD (s.slotWord i 6)) = t :=
    Host.Outcome.next.inj ((next_congr hu).symm.trans hexec)
  obtain ⟨note, hcard⟩ := r.card
  rw [card_notifyDone, profileWord14_notifyDone, (notifyDone_keeps s u i o _ _).engine, r.w14, r.engine, hcard]
  have hreturn : (o = .complete ∧ (s.card c).startedFaulted = true ∧ (s.card c).presence = .faulted) ↔
      ((s.slot i).state = .active ∧ e = .complete ∧ (s.card c).startedFaulted = true ∧ (s.card c).presence = .faulted) := by
    rw [hcomplete, and_assoc]
  simp only [hreturn]
  refine ⟨?_, trivial, ?_, fun h1 h2 h3 h4 => ?_, fun hn => ?_, fun hd hall => ?_, fun hd hex => ?_, fun hd => ?_⟩
  · split <;> rfl
  · split <;> rfl
  · rw [if_pos ⟨h1, h2, h3, h4⟩]
    exact ⟨rearm_rearmsTo { s.card c with presence := .ready }, rfl⟩
  · rw [if_neg hn]
    exact ⟨rfl, rfl⟩
  · exact if_pos ⟨hd, hall⟩
  · obtain ⟨j, hj, hst⟩ := hex
    rw [if_neg, hd]
    rintro ⟨-, hall⟩
    exact hst.elim (hall j hj).1 (hall j hj).2
  · exact if_neg fun h => hd h.1

end Sys2Proof.Machine

/-! ## Starts -/

namespace Sys2Proof.Machine

theorem startChoice_eq_none {s : State} {c : CardId}
    (h : (s.card c).queue = [] ∨ (s.card c).presence = .absent ∨ (s.card c).presence = .settling ∨
      ((s.card c).presence = .faulted ∧ ∀ i ∈ (s.card c).queue, headerRecovery (s.slotWord i 1) = false)) :
    s.startChoice c = none := by
  unfold State.startChoice
  rcases h with h | h | h | ⟨h, hnone⟩
  · rw [h]
    split <;> rfl
  · rw [h]
  · rw [h]
  · rw [h]
    exact List.find?_eq_none.2 fun i hi => by simp [hnone i hi]

/-- JOB_START changes nothing where a condition of R57 fails. -/
theorem jobStart_unchanged {s : State} {c : CardId}
    (h : s.engine ≠ .running ∨ (s.card c).activeSlot.isSome = true ∨ (s.card c).seq.phase ≠ .idle ∨ s.startChoice c = none) :
    s.jobStart c = s := by
  unfold State.jobStart
  split
  · rename_i hmay
    have hnone : s.startChoice c = none := by
      simp only [State.mayStart, Bool.and_eq_true, decide_eq_true_eq, Option.isNone_iff_eq_none] at hmay
      obtain ⟨⟨hrun, hslot⟩, hidle⟩ := hmay
      rcases h with h | h | h | h
      · exact absurd hrun h
      · simp [hslot] at h
      · exact absurd hidle h
      · exact h
    rw [hnone]
  · rfl

/-- Settles O34: without its conditions JOB_START is idle, and with a bad profile word the start ends a slot that waited. -/
theorem startNotMadeOrInvalid : Obligations.StartNotMadeOrInvalid := by
  refine ⟨fun s c h => next_congr (jobStart_unchanged ?_), fun s c i n hrun hslot hidle hstarts hbad => ?_⟩
  · rcases h with h | h | h | h
    · exact Or.inl h
    · exact Or.inr (Or.inl h)
    · exact Or.inr (Or.inr (Or.inl h))
    · exact Or.inr (Or.inr (Or.inr (startChoice_eq_none h)))
  · refine ⟨_, ?_, passDone_endsSlot _ i .profileInvalid none (some (wordOf n))⟩
    have hstart := jobStart_eq s c i hrun hslot hidle hstarts
    rw [State.startSlot, hbad] at hstart
    exact next_congr (hstart.trans (endWaiting_eq _ i .profileInvalid none _))

/-- A profile that passes the checks of R66 has a sense. -/
theorem senseOf_of_valid {p : ProfileWords} (h : p.invalid = none) : senseOf p.w4 = some p.latch.sense := by
  refine senseOf_of_range p.w4 ?_
  unfold ProfileWords.invalid at h
  split_ifs at h
  omega

theorem Started.acceptOrder {s u : State} {c : CardId} {i : SlotId} (h : Started s u c i) : u.acceptOrder = s.acceptOrder := by
  have horder := congrArg State.acceptOrder h.frame
  exact horder

/-- Settles O35: `Started` says what stands before the first step, and the steps keep it (`Keeps`). -/
theorem startActivatesSlot : Obligations.StartActivatesSlot := by
  intro s c i hrun hslot hidle hstarts hvalid
  obtain ⟨u, hu, hs⟩ := jobStart_started s c i hrun hslot hidle hstarts hvalid
  have hk : Keeps False u (runSteps (u.stepsLeft c) c u) := runSteps_keeps c _ u False.elim
  generalize runSteps (u.stepsLeft c) c u = t at hu hk
  obtain ⟨hpresence, -, hqueue, hactive, hprofile, hfaulted, -, -⟩ := hk.card c
  refine ⟨t, next_congr hu, ?_, fun j hj => ?_, ?_, ?_, ?_, ?_, ?_, ?_, ?_, ?_, ?_, ?_, ?_, fun d hd => ?_, ?_⟩
  · rw [hk.slot, hs.slot]
  · rw [hk.slot, hs.slots j hj]
  · exact hk.acceptOrder.trans hs.acceptOrder
  · rw [hactive]
    exact activeSlot_seq (by rw [hs.seq])
  · rw [hqueue, hs.queue]
  · rw [hpresence, hs.presence]
  · rw [hfaulted, hs.startedFaulted]
  · rw [hprofile, hs.profile]
    rfl
  · rw [hprofile, hs.profile]
    rfl
  · rw [hprofile, hs.profile]
    rfl
  · rw [hprofile, hs.profile]
    rfl
  · rw [hprofile, hs.profile]
    exact senseOf_of_valid hvalid
  · rw [hprofile, hs.profile]
    rfl
  · obtain ⟨h1, -, h3, h4, h5, -⟩ := Card.sameStanding_trans (hs.others d hd) (hk.card d)
    exact ⟨h3, h1, h4, h5⟩
  · have hframe := congrArg (fun x : State => { x with slots := s.slots, cards := s.cards, mem := s.mem, produced := s.produced
                                                       lost := s.lost, pageHolder := s.pageHolder, breach := s.breach
                                                       leaseWaiting := s.leaseWaiting }) hk.frame
    exact hframe.trans hs.frame

end Sys2Proof.Machine

/-! ## The first step of a started job -/

namespace Sys2Proof.Machine

/-- A step that does not complete as it begins ends the run of steps. -/
theorem runSteps_first {n : Nat} {c : CardId} {s t : State} (hn : 1 ≤ n) (h : s.startStep c = (t, false)) :
    runSteps n c s = t := by
  obtain ⟨m, rfl⟩ := Nat.exists_eq_add_of_le' hn
  rw [runSteps, h]

/-- A record of the step area reads as it did before the start's own work. -/
theorem Started.readRecord {s u : State} {c : CardId} {i : SlotId} (h : Started s u c i) {a : Nat} (ha : 0x0920 ≤ a) :
    u.readRecord a = s.readRecord a := by
  have hword : ∀ b, 0x0920 ≤ b → u.word b = s.word b := fun b hb => by
    unfold State.word readWord
    rw [h.stable b (Or.inr (Or.inr (Or.inr hb))), h.stable (b + 1) (Or.inr (Or.inr (Or.inr (by omega))))]
  unfold State.readRecord
  rw [hword _ ha, hword _ (by omega), hword _ (by omega), hword _ (by omega)]

/-- The sequencer of a started job that has fetched its first record (R27, R28). -/
def Sequencer.fetched (q : Sequencer) (s : State) (i : SlotId) (r : StepRecord) : Sequencer :=
  { q with active := some i, listAddr := s.slotWord i 2, stepCount := (s.slotWord i 3).toNat, stepIndex := 0
           copy := some r, stop := false }

/-- The state in which a started job's first record, fetched, is judged: a record that fails its checks ends the job, and a valid one
begins by its kind. -/
theorem jobStart_fetched {s : State} {c : CardId} {i : SlotId} {r : StepRecord} (hrun : s.engine = .running)
    (hslot : (s.card c).activeSlot = none) (hidle : (s.card c).seq.phase = .idle) (hstarts : s.startsSlot c i)
    (hvalid : (s.profileWords c).invalid = none) (hcount : 1 ≤ (s.slotWord i 3).toNat) (hplace : 0x0920 ≤ (s.slotWord i 2).toNat)
    (hr : r = s.readRecord (s.slotWord i 2).toNat) :
    ∃ v : State, (v.card c).seq = (s.card c).seq.fetched s i r ∧
      ((s.profileWords c).latch.sense = (s.card c).profile.sense → (s.card c).attnPhase = .waiting →
        (s.profileWords c).latch.readList ≠ [] → (v.card c).attnPhase = .waiting) ∧
      (∀ why, r.invalid = some why → s.jobStart c = v.failJob c .stepInvalid (some why.code)) ∧
      ∀ kind t, r.invalid = none → r.kind = some kind → v.beginKind c i kind = (t, false) → s.jobStart c = t := by
  obtain ⟨u, hu, hs⟩ := jobStart_started s c i hrun hslot hidle hstarts hvalid
  have hactive : (u.card c).seq.active = some i := by rw [hs.seq]
  have hleft : 1 ≤ u.stepsLeft c := by rw [State.stepsLeft, hs.seq]; exact hcount
  have hfetch : r = u.readRecord ((u.card c).seq.listAddr.toNat + 8 * (u.card c).seq.stepIndex) := by
    rw [hs.seq, hr]
    exact (hs.readRecord hplace).symm
  refine ⟨u.updSeq c fun q => { q with copy := some r }, ?_, fun h1 h2 h3 => ?_, fun why hwhy => ?_,
    fun kind t hok hkind hbegin => ?_⟩
  · rw [card_updSeq_same, hs.seq]
    rfl
  · rw [card_updSeq_same]
    exact hs.waits h1 h2 h3
  · rw [hu, runSteps_first hleft (startStep_invalid u c i r why hactive hfetch hwhy)]
  · rw [hu, runSteps_first hleft ((startStep_valid u c i r kind hactive hfetch hok hkind).trans hbegin)]

/-- A pulse's start leaves no attention waiting, and holds one that was (R138). -/
theorem attnPulseStart_phase (k : Card) : k.attnPulseStart.attnPhase ≠ .waiting ∧
    (k.attnPhase = .waiting → k.attnPulseStart.attnPhase = .held ∧ k.attnPulseStart.attnReq = none) := by
  unfold Card.attnPulseStart
  split
  · exact ⟨by simp, fun _ => ⟨rfl, rfl⟩⟩
  · rename_i h
    exact ⟨h, fun hw => absurd hw h⟩

theorem attnPulseStart_detector (k : Card) : k.attnPulseStart.detector = .disarmed := by
  unfold Card.attnPulseStart
  split <;> rfl

/-- A latched read count that is not 0 gives a read list that is not empty (R122). -/
theorem latch_readList_ne_nil {p : ProfileWords} (h : p.w5 ≠ 0) : p.latch.readList ≠ [] := by
  have hpos : 1 ≤ p.w5.toNat := (word_ne_zero_iff _).1 h
  intro hnil
  have hlen := congrArg List.length hnil
  rw [show p.latch.readList = List.take p.w5.toNat [p.latch.reg0, p.latch.reg1, p.latch.reg2, p.latch.reg3] from rfl,
    List.length_take] at hlen
  simp at hlen
  omega

/-- Settles O37: the fetched record fails, or its kind's first phase begins in the state `jobStart_fetched` gives. -/
theorem startBeginsFirstStep : Obligations.StartBeginsFirstStep := by
  intro s c i r hrun hslot hidle hstarts hvalid hcount hplace _ hr
  obtain ⟨v, hseq, hwaits, hbad, hbegin⟩ := jobStart_fetched hrun hslot hidle hstarts hvalid hcount hplace hr
  have hactive : (v.card c).seq.active = some i := by rw [hseq]; rfl
  have hrecord : v.record c = r := record_of_copy v c r (by rw [hseq]; rfl)
  have hreg : (v.card c).seq.record = r := hrecord
  refine ⟨s.jobStart c, rfl, fun why hwhy => ?_, fun hok hkind => ?_, fun hok hkind => ?_, fun hok hkind => ?_,
    fun hok hkind => ?_, fun hok hkind => ?_⟩
  · obtain ⟨g, hg⟩ := failJob_card v c i .stepInvalid (some why.code) hactive
    rw [hbad why hwhy, hg, hseq]
    exact ⟨rfl, rfl, rfl⟩
  · rw [hbegin .put _ hok hkind rfl, hrecord, State.requestJob, card_updCard_same, hreg, hseq]
    exact ⟨rfl, rfl, rfl, rfl, rfl⟩
  · rcases hkind with hkind | hkind
    · rw [hbegin .get _ hok hkind rfl, State.requestJob, card_updCard_same, hreg, hseq]
      exact ⟨rfl, rfl, rfl, rfl, rfl⟩
    · rw [hbegin .poll _ hok hkind rfl, State.requestJob, card_updCard_same, card_updSeq_same, hseq]
      exact ⟨rfl, rfl, rfl, rfl, rfl⟩
  · rw [hbegin .poll _ hok hkind rfl, State.requestJob, card_updCard_same, card_updSeq_same]
  · rw [hbegin .pause _ hok hkind rfl, card_updSeq_same, hseq]
    exact ⟨rfl, rfl, rfl⟩
  · obtain ⟨hnot, hheld⟩ := attnPulseStart_phase (v.card c)
    rw [hbegin .pulse _ hok hkind rfl, State.startPulse, card_updCard_same, hseq]
    refine ⟨rfl, rfl, attnPulseStart_detector _, rfl, rfl, hnot, fun hw hsense hcount5 => hheld ?_⟩
    refine hwaits (Option.some.inj ((senseOf_of_valid hvalid).symm.trans hsense)) hw (latch_readList_ne_nil hcount5)

end Sys2Proof.Machine

/-! ## Stopping points -/

namespace Sys2Proof.Machine

/-- Card `c` with its cancel notice taken and its stop flag set (R13). -/
def State.told (s : State) (c : CardId) : State :=
  s.updCard c fun k => { k with cancelNotice := none, seq := { k.seq with stop := true } }

theorem card_told (s : State) (c : CardId) :
    (s.told c).card c = { s.card c with cancelNotice := none, seq := { (s.card c).seq with stop := true } } :=
  card_updCard_same _ _ _

/-- A notice that names another slot than the active one is dropped (R13). -/
theorem cancelNoticeTaken_other {s : State} {c : CardId} {i : SlotId} (h : (s.card c).cancelNotice = some i)
    (ha : (s.card c).seq.active ≠ some i) : s.cancelNoticeTaken c = s.updCard c fun k => { k with cancelNotice := none } := by
  simp only [State.cancelNoticeTaken, h, if_neg ha]

/-- A notice that names the active slot sets the stop flag and brings the step to its stopping point (R13). -/
theorem cancelNoticeTaken_active {s : State} {c : CardId} {i : SlotId} (h : (s.card c).cancelNotice = some i)
    (ha : (s.card c).seq.active = some i) : s.cancelNoticeTaken c = (s.told c).stopStep c := by
  simp only [State.cancelNoticeTaken, h, if_pos ha, State.updSeq, updCard_updCard, State.told]

theorem stopStep_goesOn {s : State} {c : CardId} (h : (s.card c).seq.phase = .tenure ∨ (s.card c).seq.phase = .pulsing) :
    s.stopStep c = s := by
  rcases h with h | h <;> rw [State.stopStep, h]

theorem stopStep_wait {s : State} {c : CardId} (h : (s.card c).seq.phase = .timedWait ∨ (s.card c).seq.phase = .attentionWait ∨
    (s.card c).seq.phase = .leaseWait ∨ (s.card c).seq.phase = .settleWait) : s.stopStep c = s.endJob c .stopped := by
  rcases h with h | h | h | h <;> rw [State.stopStep, h]

theorem stopStep_request {s : State} {c : CardId} (h : (s.card c).seq.phase = .busWait) (hst : (s.card c).stream = none) :
    s.stopStep c = s.endJob c .stopped := by
  rw [State.stopStep, h]
  simp only [State.stopInBusWait, hst]

/-- A step in BUS_WAIT with a stream record: an abandon request stays, a stream not begun stops, one begun abandons (R79, R94). -/
theorem stopStep_stream {s : State} {c : CardId} {m : StreamRec} (h : (s.card c).seq.phase = .busWait)
    (hst : (s.card c).stream = some m) :
    (∀ why, m.stage = .abandoning why → s.stopStep c = s) ∧
      ((∀ why, m.stage ≠ .abandoning why) → s.stopStep c = if m.begun then s.beginAbandon c .stop else s.endJob c .stopped) := by
  rw [State.stopStep, h]
  simp only [State.stopInBusWait, hst]
  refine ⟨fun why hwhy => by rw [hwhy], fun hnot => ?_⟩
  cases hstage : m.stage with
  | abandoning why => exact absurd hstage (hnot why)
  | leasing | bursting | closing => rfl

/-- Settles O54: the stopping point by the sequencer's phase and, in BUS_WAIT, by its stream record. -/
theorem cancelNoticeStopsStep : Obligations.CancelNoticeStopsStep := by
  intro s c i hnote
  refine ⟨fun ha => next_congr (cancelNoticeTaken_other hnote ha), fun ha => ?_⟩
  have hexec : ∀ {t : State}, (s.told c).stopStep c = t → exec (.cancelNoticeTaken c) s = .next t := fun ht =>
    next_congr ((cancelNoticeTaken_active hnote ha).trans ht)
  have hphase : ((s.told c).card c).seq.phase = (s.card c).seq.phase := by rw [card_told]
  have hstream : ((s.told c).card c).stream = (s.card c).stream := by rw [card_told]
  have hcopy : ((s.told c).card c).seq.copy = (s.card c).seq.copy := by rw [card_told]
  refine ⟨fun h => hexec (stopStep_goesOn (hphase ▸ h)), fun h => hexec (stopStep_wait (hphase ▸ h)),
    fun h hst => hexec (stopStep_request (hphase.trans h) (hstream.trans hst)), fun m h hst => ?_⟩
  obtain ⟨habandoning, hother⟩ := stopStep_stream (hphase.trans h) (hstream.trans hst)
  refine ⟨fun why hwhy => hexec (habandoning why hwhy), fun hnot hb => hexec ?_, fun hnot hb e he => hexec ?_⟩
  · rw [hother hnot, if_neg (by simp [hb])]
    rfl
  · rw [hother hnot, if_pos hb]
    exact beginAbandon_eq (s.told c) c e m .stop (hcopy.trans he) (hstream.trans hst)

end Sys2Proof.Machine

/-! ## Engine reset -/

namespace Sys2Proof.Machine

theorem slotCtl_engineReset (x : SlotCtl) : x.engineReset =
    if x.state = .filed ∨ x.state = .active ∨ x.state = .cancelling then { state := .done, cause := none } else x := by
  unfold SlotCtl.engineReset
  split <;> rename_i h <;> simp [h]

/-- The state with each reset outcome and each unclaimed attention written, before the blocks are cleared (R209). -/
def State.resetWords (s : State) : State := (s.countAllClaimable allCards).writeResetOutcomes allSlots

theorem resetWords_frame (s : State) (cs : List CardId) (is : List SlotId) :
    { (s.countAllClaimable cs).writeResetOutcomes is with mem := s.mem } = s := by
  have houter := congrArg (fun x : State => { x with mem := s.mem }) (writeResetOutcomes_frame is (s.countAllClaimable cs))
  exact houter.trans (countAllClaimable_frame cs s)

/-- Only the memory changes. -/
theorem resetWords_eq (s : State) : s.resetWords = { s with mem := s.resetWords.mem } :=
  eq_of_memOnly (resetWords_frame s allCards allSlots)

/-- What the reset clears, set apart from the words it writes. -/
theorem engineReset_resetWords (s : State) : ∃ m, s.resetWords.mem = m ∧ s.engineReset = engineResetFrom s { s with mem := m } := by
  have hwords : (s.countAllClaimable allCards).writeResetOutcomes allSlots = s.resetWords := rfl
  refine ⟨_, rfl, ?_⟩
  rw [engineReset_eq, hwords]
  exact congrArg (engineResetFrom s) (resetWords_eq s)

theorem resetWords_bytes (s : State) (a : Nat) (hs : ∀ i, a < slotAddr i 4 ∨ slotAddr i 5 ≤ a)
    (hc : ∀ c, a < profileAddr c 14 ∨ profileAddr c 15 ≤ a) : readByte s.resetWords.mem a = readByte s.mem a :=
  (writeResetOutcomes_bytes allSlots _ a hs).trans (countAllClaimable_bytes allCards s a hc)

/-- Word 4 of each slot the reset ends (R23). -/
theorem resetWords_slotWord (s : State) (i : SlotId) : s.resetWords.slotWord i 4 =
    if (s.slot i).state = .filed ∨ (s.slot i).state = .active ∨ (s.slot i).state = .cancelling then JobOutcome.engineReset.code
    else s.slotWord i 4 := by
  have hslot : (s.countAllClaimable allCards).slot i = s.slot i := (countAllClaimable_keeps (P := False) allCards s).slot i
  have hword : (s.countAllClaimable allCards).slotWord i 4 = s.slotWord i 4 := slotWord_congr i 4 fun a h1 h2 =>
    countAllClaimable_bytes allCards s a fun c => Or.inl (by
      have := i.isLt
      simp only [slotAddr, profileAddr, Config.slotBase, Config.profileBase] at *
      omega)
  rw [State.resetWords, writeResetOutcomes_word allSlots (List.nodup_finRange 32), hslot, hword]
  simp [allSlots]

/-- Word 14 of each card whose claimable flag the reset clears (R141). -/
theorem resetWords_profileWord (s : State) (c : CardId) : s.resetWords.profileWord c 14 =
    if (s.card c).claimable then s.profileWord c 14 + 1 else s.profileWord c 14 := by
  have hword : s.resetWords.profileWord c 14 = (s.countAllClaimable allCards).profileWord c 14 :=
    profileWord_congr c 14 fun a h1 h2 => writeResetOutcomes_bytes allSlots _ a fun i => Or.inr (by
      have := i.isLt
      simp only [slotAddr, profileAddr, Config.slotBase, Config.profileBase] at *
      omega)
  rw [hword, countAllClaimable_word allCards (List.nodup_finRange 8)]
  simp [allCards]

/-- A reset zeroes the notice list and no other byte. -/
theorem engineReset_bytes (s : State) (a : Nat) : readByte s.engineReset.mem a =
    if 0x0520 ≤ a ∧ a < 0x0920 then 0 else readByte s.resetWords.mem a := by
  obtain ⟨m, hm, hreset⟩ := engineReset_resetWords s
  rw [hreset, hm]
  exact readByte_zeroRange m 0x0520 0x0920 a

theorem engineReset_slotWord (s : State) (i : SlotId) : s.engineReset.slotWord i 4 = s.resetWords.slotWord i 4 :=
  slotWord_congr i 4 fun a h1 h2 => by
    have := i.isLt
    rw [engineReset_bytes, if_neg]
    simp only [slotAddr, Config.slotBase] at h1 h2
    omega

theorem engineReset_profileWord (s : State) (c : CardId) : s.engineReset.profileWord c 14 = s.resetWords.profileWord c 14 :=
  profileWord_congr c 14 fun a h1 h2 => by
    have := c.isLt
    rw [engineReset_bytes, if_neg]
    simp only [profileAddr, Config.profileBase] at h1 h2
    omega

theorem engineReset_card (s : State) (c : CardId) : s.engineReset.card c = (s.card c).engineReset := by
  obtain ⟨m, -, hreset⟩ := engineReset_resetWords s
  rw [hreset]
  exact get_tab _ c

theorem writeCtrl_reset {s : State} {w : Word} (h : s.engine.closed = false) (hw : w.getLsbD 9 = true) :
    s.writeCtrl w = s.engineReset := by
  rw [State.writeCtrl, if_neg (by simp [h]), if_pos (show ctrlResetBit w = true from hw)]

/-- Settles O11: the words the reset writes by `State.resetWords`, and all it clears by `engineResetFrom`. -/
theorem engineResetTakesDown : Obligations.EngineResetTakesDown := by
  intro s w hopen hw
  refine ⟨s.engineReset, next_congr (writeCtrl_reset hopen hw), ?_⟩
  have hslotWord : ∀ i, s.engineReset.slotWord i 4 = if (s.slot i).state = .filed ∨ (s.slot i).state = .active ∨
      (s.slot i).state = .cancelling then JobOutcome.engineReset.code else s.slotWord i 4 := fun i =>
    (engineReset_slotWord s i).trans (resetWords_slotWord s i)
  have hprofileWord : ∀ c, s.engineReset.profileWord c 14 =
      if (s.card c).claimable then s.profileWord c 14 + 1 else s.profileWord c 14 := fun c =>
    (engineReset_profileWord s c).trans (resetWords_profileWord s c)
  have hzero : ∀ a, 0x0520 ≤ a → a ≤ 0x091F → readByte s.engineReset.mem a = 0 := fun a h1 h2 => by
    rw [engineReset_bytes, if_pos (by omega)]
  have hkept : ∀ a, (∀ i, a < slotAddr i 4 ∨ slotAddr i 5 ≤ a) → (∀ c, a < profileAddr c 14 ∨ profileAddr c 15 ≤ a) →
      (a < 0x0520 ∨ 0x091F < a) → readByte s.engineReset.mem a = readByte s.mem a := fun a h1 h2 h3 => by
    rw [engineReset_bytes, if_neg (by omega), resetWords_bytes s a h1 h2]
  have hcard := engineReset_card s
  obtain ⟨m, -, hreset⟩ := engineReset_resetWords s
  rw [hreset] at hslotWord hprofileWord hzero hkept hcard ⊢
  refine ⟨rfl, rfl, rfl, rfl, fun i => (get_tab _ i).trans (slotCtl_engineReset _), hslotWord, rfl, fun c => ?_,
    fun p => get_tab _ p, fun i => get_tab _ i, rfl, rfl, rfl, rfl, rfl, rfl, rfl, rfl, hzero,
    rfl, rfl, rfl, rfl, rfl, rfl, rfl, rfl, hkept⟩
  rw [hprofileWord c, hcard c]
  exact ⟨rfl, rfl, rfl, rfl, rfl, rfl, rfl, rfl, rfl, rfl, rfl, rfl, rfl, rfl, rfl, rfl, rfl, rfl, rfl, rfl, rfl, rfl, rfl, rfl⟩

end Sys2Proof.Machine

/-! ## Removal -/

namespace Sys2Proof.Machine

/-- What the end of a removed card's active slot, if it has one, leaves (R22, R201). -/
structure EndsActive (x y : State) (slot : Option SlotId) : Prop where
  ended : ∀ i, slot = some i → y.slot i = { state := .done, cause := none }
  slots : ∀ j, slot ≠ some j → y.slot j = x.slot j
  words : ∀ i, slot = some i → y.slotWord i 4 = JobOutcome.cardRemoved.code ∧ y.slotWord i 5 = x.slotWord i 5 ∧
    y.slotWord i 6 = x.slotWord i 6
  bytes : ∀ a, (∀ i, slot = some i → a < slotAddr i 4 ∨ slotAddr i 7 ≤ a) → (a < 0x0520 ∨ 0x091F < a) →
    readByte y.mem a = readByte x.mem a
  order : y.acceptOrder = x.acceptOrder.filter fun j => decide (slot ≠ some j)
  card : ∀ d, { y.card d with cancelNotice := (x.card d).cancelNotice } = x.card d
  idle : slot = none → y.engine = x.engine
  engine : ∀ i, slot = some i → y.engine = if x.engine = .draining ∧ ∀ j, j ≠ i → (x.slot j).state ≠ .active ∧
    (x.slot j).state ≠ .cancelling then .halted else x.engine
  frame : { y with mem := x.mem, slots := x.slots, acceptOrder := x.acceptOrder, cards := x.cards, produced := x.produced
                   lost := x.lost, engine := x.engine } = x

theorem endRemoved_endsActive (x : State) (slot : Option SlotId) : EndsActive x (x.endRemoved slot) slot := by
  cases slot with
  | none =>
    have hall : x.acceptOrder = x.acceptOrder.filter fun j => decide (none ≠ some j) := by simp
    exact ⟨by simp, fun _ _ => rfl, by simp, fun _ _ _ => rfl, hall, fun _ => rfl, fun _ => rfl, by simp, rfl⟩
  | some i =>
    have h : EndsSlot x (x.endRemoved (some i)) i JobOutcome.cardRemoved.code (x.slotWord i 5) (x.slotWord i 6) :=
      endInProgress_endsSlot x i .cardRemoved none none
    refine ⟨?_, fun j hj => h.slots j fun e => hj (congrArg some e.symm), ?_, fun a ha => h.bytes a (ha i rfl), ?_, h.card,
      by simp, ?_, h.frame⟩
    · rintro _ ⟨⟩
      exact h.slot
    · rintro _ ⟨⟩
      exact ⟨h.w4, h.w5, h.w6⟩
    · rw [h.order]
      exact List.filter_congr fun j _ => by simp [eq_comm]
    · rintro _ ⟨⟩
      exact endInProgress_engine x i .cardRemoved none none

/-- A removal of card `c` by its three acts: from `s` to `t` the part's work for the card is taken down, from `t` to `x` its active slot
ends, and from `x` to `u` its queue (R147–R149). -/
structure Removal (s t x u : State) (c : CardId) : Prop where
  down : TakenDown s t c
  active : EndsActive t x (s.card c).activeSlot
  queue : Drains x u c (s.card c).queue

/-- The state in which a removal hands on its own notice. -/
def State.removed (s : State) (c : CardId) : State :=
  (((s.updCard c fun k => { k with presence := .absent }).takeDown c).endRemoved (s.card c).activeSlot).drainQueue c
    (s.card c).queue

theorem removed_removal (s : State) (c : CardId) : Removal s ((s.updCard c fun k => { k with presence := .absent }).takeDown c)
    (((s.updCard c fun k => { k with presence := .absent }).takeDown c).endRemoved (s.card c).activeSlot) (s.removed c) c :=
  ⟨takeDown_takenDown s c, endRemoved_endsActive _ _, drainQueue_drains c _ _⟩

/-- A slot that a removal of card `k` ends (R22). -/
def Card.endsWith (k : Card) (j : SlotId) : Prop := k.activeSlot = some j ∨ j ∈ k.queue

namespace Removal

variable {s t x u : State} {c : CardId}

/-! ### The memory -/

theorem bytes (h : Removal s t x u c) (a : Nat) (hs : ∀ j, (s.card c).endsWith j → a < slotAddr j 4 ∨ slotAddr j 7 ≤ a)
    (hc : a < profileAddr c 14 ∨ profileAddr c 15 ≤ a) (hn : a < 0x0520 ∨ 0x091F < a) : readByte u.mem a = readByte s.mem a := by
  rw [h.queue.bytes a (fun j hj => hs j (Or.inr hj)) hn, h.active.bytes a (fun i hi => hs i (Or.inl hi)) hn, h.down.bytes a hc]

/-- Taking down the part's work for a card leaves every slot word. -/
theorem down_slotWord (h : Removal s t x u c) (j : SlotId) (m : Nat) (hm : m < 16) : t.slotWord j m = s.slotWord j m :=
  slotWord_congr j m fun a h1 h2 => h.down.bytes a (Or.inl (by
    have := j.isLt
    simp only [slotAddr, profileAddr, Config.slotBase, Config.profileBase] at *
    omega))

/-- The end of a slot writes words 4 to 6 of that slot only. -/
theorem outside_of_other (i j : SlotId) {m a : Nat} (h : j ≠ i ∨ m < 4 ∨ 7 ≤ m) (hm : m < 16) (h1 : slotAddr i m ≤ a)
    (h2 : a ≤ slotAddr i m + 1) : a < slotAddr j 4 ∨ slotAddr j 7 ≤ a := by
  have hval : j.val ≠ i.val ∨ m < 4 ∨ 7 ≤ m := h.imp_left fun hne he => hne (Fin.ext he)
  simp only [slotAddr, Config.slotBase] at *
  omega

theorem slotWord_outside_notices (i : SlotId) {m a : Nat} (hm : m < 16) (h2 : a ≤ slotAddr i m + 1) : a < 0x0520 ∨ 0x091F < a := by
  have := i.isLt
  simp only [slotAddr, Config.slotBase] at h2
  omega

/-- Word 6 of a slot is kept as the active slot ends. -/
theorem active_word6 (h : Removal s t x u c) (j : SlotId) : x.slotWord j 6 = s.slotWord j 6 := by
  rw [← h.down_slotWord j 6 (by decide)]
  by_cases hj : (s.card c).activeSlot = some j
  · exact (h.active.words j hj).2.2
  · refine slotWord_congr j 6 fun a h1 h2 => h.active.bytes a (fun i hi => ?_) (slotWord_outside_notices j (by decide) h2)
    exact outside_of_other j i (Or.inl fun e => hj (e ▸ hi)) (by decide) h1 h2

/-- A slot outside the queue keeps its words as the queue ends. -/
theorem queue_slotWord (h : Removal s t x u c) {i : SlotId} (hi : i ∉ (s.card c).queue) (m : Nat) (hm : m < 16) :
    u.slotWord i m = x.slotWord i m :=
  slotWord_congr i m fun a h1 h2 => h.queue.bytes a (fun j hj => outside_of_other i j (Or.inl fun e => hi (e ▸ hj)) hm h1 h2)
    (slotWord_outside_notices i hm h2)

theorem active_words (h : Removal s t x u c) {i : SlotId} (hi : (s.card c).activeSlot = some i) (hq : i ∉ (s.card c).queue) :
    u.slotWord i 4 = JobOutcome.cardRemoved.code ∧ u.slotWord i 5 = s.slotWord i 5 ∧ u.slotWord i 6 = s.slotWord i 6 := by
  obtain ⟨h4, h5, h6⟩ := h.active.words i hi
  rw [h.queue_slotWord hq 4 (by decide), h.queue_slotWord hq 5 (by decide), h.queue_slotWord hq 6 (by decide), h4, h5, h6,
    h.down_slotWord i 5 (by decide), h.down_slotWord i 6 (by decide)]
  exact ⟨rfl, rfl, rfl⟩

theorem queue_words (h : Removal s t x u c) {j : SlotId} (hj : j ∈ (s.card c).queue) :
    u.slotWord j 4 = JobOutcome.cardAbsent.code ∧ u.slotWord j 5 = 0 ∧ u.slotWord j 6 = s.slotWord j 6 := by
  obtain ⟨h4, h5, h6⟩ := h.queue.words j hj
  exact ⟨h4, h5, h6.trans (h.active_word6 j)⟩

/-- The job sequence of a slot stands in word 7, which no end of a slot writes. -/
theorem jobSeq (h : Removal s t x u c) (j : SlotId) : u.slotWord j 7 = s.slotWord j 7 :=
  slotWord_congr j 7 fun a h1 h2 => h.bytes a (fun i _ => outside_of_other j i (Or.inr (Or.inr le_rfl)) (by decide) h1 h2)
    (Or.inl (by
      have := j.isLt
      simp only [slotAddr, profileAddr, Config.slotBase, Config.profileBase] at *
      omega)) (slotWord_outside_notices j (by decide) h2)

theorem unclaimed (h : Removal s t x u c) :
    u.profileWord c 14 = (if (s.card c).claimable then s.profileWord c 14 + 1 else s.profileWord c 14) := by
  rw [← h.down.w14]
  have hlt := c.isLt
  have haddr : ∀ (j : SlotId) (a : Nat), profileAddr c 14 ≤ a → slotAddr j 7 ≤ a := fun j a ha => by
    have := j.isLt
    simp only [slotAddr, profileAddr, Config.slotBase, Config.profileBase] at *
    omega
  have hnotice : ∀ a, a ≤ profileAddr c 14 + 1 → a < 0x0520 := fun a ha => by
    simp only [profileAddr, Config.profileBase] at ha
    omega
  refine profileWord_congr c 14 fun a h1 h2 => ?_
  rw [h.queue.bytes a (fun j _ => Or.inr (haddr j a h1)) (Or.inl (hnotice a h2)),
    h.active.bytes a (fun j _ => Or.inr (haddr j a h1)) (Or.inl (hnotice a h2))]

/-! ### The slots -/

theorem down_slot (h : Removal s t x u c) (j : SlotId) : t.slot j = s.slot j := by
  have hslot := congrArg (fun y : State => y.slot j) h.down.frame
  exact hslot

theorem slot_ended (h : Removal s t x u c) {j : SlotId} (hj : (s.card c).endsWith j) :
    u.slot j = { state := .done, cause := none } := by
  by_cases hq : j ∈ (s.card c).queue
  · exact h.queue.slot j hq
  · rw [h.queue.slots j hq, h.active.ended j (hj.resolve_right hq)]

theorem slot_kept (h : Removal s t x u c) {j : SlotId} (hj : ¬ (s.card c).endsWith j) : u.slot j = s.slot j := by
  rw [h.queue.slots j fun hq => hj (Or.inr hq), h.active.slots j fun ha => hj (Or.inl ha), h.down_slot]

theorem acceptOrder (h : Removal s t x u c) : u.acceptOrder =
    s.acceptOrder.filter fun j => decide ((s.card c).activeSlot ≠ some j) && decide (j ∉ (s.card c).queue) := by
  have hdown : t.acceptOrder = s.acceptOrder := by
    have horder := congrArg State.acceptOrder h.down.frame
    exact horder
  rw [h.queue.order, h.active.order, hdown, List.filter_filter]
  exact List.filter_congr fun j _ => Bool.and_comm _ _

/-! ### The cards and the engine -/

/-- The removed card, but for its baseline and a lease grant, holds nothing of the part's work. -/
theorem card (h : Removal s t x u c) : ∃ g b, u.card c = { s.card c with
    presence := .absent, queue := [], jobReq := none, crst := false, seq := (s.card c).seq.toIdle, stream := none, endReport := none
    cancelNotice := (u.card c).cancelNotice, leaseGrant := g, profile := Profile.default, detector := .disarmed, attnPhase := .quiet
    attnReq := none, voidRead := false, claimable := false, baseline := b } := by
  obtain ⟨g, b, hdown⟩ := h.down.card
  obtain ⟨n, hqueue⟩ := h.queue.cardc
  have hactive := h.active.card c
  rw [hdown] at hactive
  refine ⟨g, b, ?_⟩
  have hkept : x.card c = { t.card c with cancelNotice := (x.card c).cancelNotice } := by
    rw [hdown]
    exact congrArg (fun k : Card => { k with cancelNotice := (x.card c).cancelNotice }) hactive
  have hempty : (if (s.card c).queue = [] then (x.card c).queue else []) = [] := by
    split
    · rw [hkept, hdown]
      assumption
    · rfl
  rw [hqueue, hempty, hkept, hdown]

/-- Another card keeps everything but the messages to it. -/
theorem other_card (h : Removal s t x u c) {d : CardId} (hd : d ≠ c) :
    { u.card d with cancelNotice := (s.card d).cancelNotice, leaseGrant := (s.card d).leaseGrant } = s.card d := by
  obtain ⟨g, n, hdown⟩ := h.down.cards d hd
  have hactive := h.active.card d
  have hqueue := h.queue.card d hd
  have hmessages : ∀ {k m : Card}, { m with cancelNotice := k.cancelNotice } = k →
      { m with cancelNotice := (s.card d).cancelNotice, leaseGrant := (s.card d).leaseGrant } =
        ({ k with cancelNotice := (s.card d).cancelNotice, leaseGrant := (s.card d).leaseGrant } : Card) := fun hk =>
    congrArg (fun k : Card => { k with cancelNotice := (s.card d).cancelNotice, leaseGrant := (s.card d).leaseGrant }) hk
  rw [hmessages hqueue, hmessages hactive, hdown]

theorem queue_frame (h : Removal s t x u c) :
    { u with mem := t.mem, slots := t.slots, acceptOrder := t.acceptOrder, cards := t.cards, produced := t.produced
             lost := t.lost, engine := t.engine } = t := by
  have hlast := congrArg (fun y : State =>
    { y with mem := t.mem, slots := t.slots, acceptOrder := t.acceptOrder, cards := t.cards, produced := t.produced
             lost := t.lost, engine := t.engine }) h.queue.frame
  exact hlast.trans h.active.frame

theorem frame (h : Removal s t x u c) :
    { u with mem := s.mem, slots := s.slots, acceptOrder := s.acceptOrder, cards := s.cards, tenure := s.tenure
             pageHolder := s.pageHolder, breach := s.breach, leaseWaiting := s.leaseWaiting, produced := s.produced
             lost := s.lost, engine := s.engine } = s := by
  have hlast := congrArg (fun y : State =>
    { y with mem := s.mem, slots := s.slots, acceptOrder := s.acceptOrder, cards := s.cards, tenure := s.tenure
             pageHolder := s.pageHolder, breach := s.breach, leaseWaiting := s.leaseWaiting, produced := s.produced
             lost := s.lost, engine := s.engine }) h.queue_frame
  have hfirst := congrArg (fun y : State =>
    { y with slots := s.slots, acceptOrder := s.acceptOrder, produced := s.produced, lost := s.lost, engine := s.engine })
    h.down.frame
  exact hlast.trans hfirst

theorem leases (h : Removal s t x u c) :
    u.pageHolder = t.pageHolder ∧ u.breach = t.breach ∧ u.leaseWaiting = t.leaseWaiting ∧ u.tenure = t.tenure := by
  have hpages := congrArg State.pageHolder h.queue_frame
  have hbreach := congrArg State.breach h.queue_frame
  have hwaiting := congrArg State.leaseWaiting h.queue_frame
  have htenure := congrArg State.tenure h.queue_frame
  exact ⟨hpages, hbreach, hwaiting, htenure⟩

theorem down_engine (h : Removal s t x u c) : t.engine = s.engine := by
  have hengine := congrArg State.engine h.down.frame
  exact hengine

theorem engine_idle (h : Removal s t x u c) (hn : (s.card c).activeSlot = none) : u.engine = s.engine := by
  rw [h.queue.engine, h.active.idle hn, h.down_engine]

/-- The end of the active slot may be the last of DRAINING (R201). -/
theorem engine_active (h : Removal s t x u c) {i : SlotId} (hi : (s.card c).activeSlot = some i) :
    u.engine = if s.engine = .draining ∧ ∀ j, j ≠ i → (s.slot j).state ≠ .active ∧ (s.slot j).state ≠ .cancelling then .halted
      else s.engine := by
  rw [h.queue.engine, h.active.engine i hi, h.down_engine]
  simp only [h.down_slot]

theorem engine_undrained (h : Removal s t x u c) (hd : s.engine ≠ .draining) : u.engine = s.engine := by
  cases hslot : (s.card c).activeSlot with
  | none => exact h.engine_idle hslot
  | some i => rw [h.engine_active hslot, if_neg fun hx => hd hx.1]

/-! ### The notices -/

theorem down_sameRing (h : Removal s t x u c) : SameRing s t := by
  have hproduced := congrArg State.produced h.down.frame
  have hlost := congrArg State.lost h.down.frame
  have hconsumed := congrArg State.consumed h.down.frame
  have hclock := congrArg State.msClock h.down.frame
  refine ⟨hproduced, hlost, hconsumed, hclock, by rw [h.down_engine], fun a h1 _ => h.down.bytes a (Or.inr ?_)⟩
  have := c.isLt
  simp only [profileAddr, Config.profileBase]
  omega

theorem down_sameHeads (h : Removal s t x u c) : SameHeads s t :=
  ⟨fun j => h.down_slotWord j 1 (by decide), fun j => h.down_slotWord j 6 (by decide), fun j => h.down_slotWord j 7 (by decide)⟩

end Removal

/-- The notices of a removal's slots, the active slot's first (R22, R149). -/
theorem removed_posts (s : State) (c : CardId) : s.postsInOrder (s.removed c)
    ((match (s.card c).activeSlot with | some i => s.doneNotices i .cardRemoved (s.slotWord i 5) (s.slotWord i 6) | none => []) ++
      (s.card c).queue.flatMap fun j => s.doneNotices j .cardAbsent 0 (s.slotWord j 6)) := by
  have h := removed_removal s c
  obtain ⟨hring, hheads⟩ := endRemoved_posts s _ s (s.card c).activeSlot h.down_sameHeads h.down_sameRing
    fun i _ => h.down_slotWord i 5 (by decide)
  refine SameRing.postsInOrder ?_
  rw [List.foldl_append]
  exact drainQueue_posts c (s.card c).queue s _ _ hheads hring

/-- The sample that finds a card in service gone removes it (R147). -/
theorem exec_presenceSample_gone {s : State} {c : CardId} (h : s.engine.closed = false)
    (hp : (s.card c).presence = .ready ∨ (s.card c).presence = .faulted) :
    exec (.presenceSample c false) s = .next (s.remove c) := by
  refine next_congr ?_
  rw [State.presenceSample, if_neg (by simp [h])]
  unfold State.sample
  rcases hp with hp | hp <;> rw [hp]

theorem removed_jobSeqOf (s : State) (c : CardId) (slot : Option SlotId) : (s.removed c).jobSeqOf slot = s.jobSeqOf slot := by
  cases slot with
  | none => rfl
  | some i => exact (removed_removal s c).jobSeq i

/-- The CARD_REMOVED notice of a removal (R149). -/
theorem remove_eq_post (s : State) (c : CardId) : s.remove c = (s.removed c).post
    { kind := .cardRemoved, card := some c, slot := (s.card c).activeSlot, jobSeq := s.jobSeqOf (s.card c).activeSlot
      code := 0, valueA := BitVec.ofNat 16 (s.card c).queue.length, valueB := (s.card c).presence.code } := by
  rw [← removed_jobSeqOf]
  rfl

/-- Settles O60: the clauses are those of `Removal`, for the three acts of `State.remove`. -/
theorem removalTakesCardDown : Obligations.RemovalTakesCardDown := by
  intro s c hopen hpresence k ended
  have h := removed_removal s c
  obtain ⟨hpages, hbreach, hwaiting, htenure⟩ := h.leases
  obtain ⟨g, b, hcard⟩ := h.card
  have hattnPtr := congrArg State.attnPtr h.frame
  have hjobPtr := congrArg State.jobPtr h.frame
  refine ⟨s.removed c, (exec_presenceSample_gone hopen hpresence).trans (next_congr (remove_eq_post s c)), removed_posts s c, ?_,
    fun d hd => h.other_card hd, htenure.trans h.down.tenure, hattnPtr, hjobPtr, fun j hj => h.slot_ended hj,
    fun j hj => h.slot_kept hj, fun i hi hq => h.active_words hi hq, fun j hj => h.queue_words hj, h.acceptOrder, h.unclaimed,
    h.bytes, fun i hi hst => ?_, fun hst => ?_, h.engine_undrained, fun i hd hi => ⟨fun hall => ?_, fun hex => ?_⟩, h.engine_idle,
    h.frame⟩
  · rw [hcard]
    exact ⟨rfl, rfl, rfl, rfl, rfl, rfl, rfl, rfl, rfl, rfl, rfl, rfl, rfl, rfl, rfl, rfl, rfl, rfl, rfl, rfl⟩
  · rw [hpages, hbreach, hwaiting]
    exact h.down.leases i hi hst
  · rw [hpages, hbreach, hwaiting]
    exact h.down.noleases hst
  · rw [h.engine_active hi, if_pos ⟨hd, hall⟩]
  · obtain ⟨j, hj, hst⟩ := hex
    rw [h.engine_active hi, if_neg, hd]
    rintro ⟨-, hall⟩
    exact hst.elim (hall j hj).1 (hall j hj).2

end Sys2Proof.Machine

/-! ## Cards and requests in order -/

namespace Sys2Proof.Machine

/-- Settles O5: each command's operation keeps the card positions and the tenure in flight in order (`exec_preserves`). -/
theorem stepKeepsCardsInOrder : Obligations.StepKeepsCardsInOrder := fun _ _ hs h =>
  (step_preserves h).serviceOk trivial hs

end Sys2Proof.Machine

/-! ## Waits that run out -/

namespace Sys2Proof.Machine

theorem runningIn_of {k : Card} {p : SeqPhase} (ha : k.seq.active.isSome = true) (hp : k.seq.phase = p) : k.runningIn p = true := by
  simp [Card.runningIn, ha, hp]

/-- The request of a step whose copy is `e` names the register of `e` (R36). -/
theorem requestJob_asks {s : State} {c : CardId} {e : StepRecord} (h : (s.card c).seq.copy = some e) (kind : TenureKind) (n : Nat)
    (d : Word) (opening : Bool) : s.requestJob c kind n d opening = s.updCard c fun k =>
      k.asks { card := c, kind := kind, regs := [e.register], count := n, data := d, opening := opening } := by
  refine updCard_congr _ _ _ _ ?_
  rw [Sequencer.record, h]
  rfl

theorem pollIntervalEnd_asks {s : State} {c : CardId} {e : StepRecord} (ha : (s.card c).seq.active.isSome = true)
    (hp : (s.card c).seq.phase = .timedWait) (hc : (s.card c).seq.copy = some e) (hk : e.kind = some .poll) :
    s.pollIntervalEnd c = s.requestJob c .registerRead 1 0 false := by
  rw [State.pollIntervalEnd, record_of_copy s c e hc, if_pos (by simp [runningIn_of ha hp, hk])]

theorem awaitTimeout_fails {s : State} {c : CardId} (ha : (s.card c).seq.active.isSome = true)
    (hp : (s.card c).seq.phase = .attentionWait) : s.awaitTimeout c = s.failJob c .awaitTimeout none :=
  if_pos (runningIn_of ha hp)

theorem pauseEnd_finishes {s : State} {c : CardId} {e : StepRecord} (ha : (s.card c).seq.active.isSome = true)
    (hp : (s.card c).seq.phase = .timedWait) (hc : (s.card c).seq.copy = some e) (hk : e.kind = some .pause) :
    s.pauseEnd c = s.finishStep c := by
  rw [State.pauseEnd, record_of_copy s c e hc, if_pos (by simp [runningIn_of ha hp, hk])]

theorem settleWaitEnd_finishes {s : State} {c : CardId} (ha : (s.card c).seq.active.isSome = true)
    (hp : (s.card c).seq.phase = .settleWait) : s.settleWaitEnd c = s.finishStep c :=
  if_pos (runningIn_of ha hp)

/-- Settles O52: each wait's end, by the lemma of its command. -/
theorem waitsRunOut : Obligations.WaitsRunOut := fun _ _ _ ha hc =>
  ⟨fun hp hk => next_congr ((pollIntervalEnd_asks ha hp hc hk).trans (requestJob_asks hc _ _ _ _)),
    fun hp => next_congr (awaitTimeout_fails ha hp),
    fun hp hk => next_congr (pauseEnd_finishes ha hp hc hk),
    fun hp => next_congr (settleWaitEnd_finishes ha hp)⟩

end Sys2Proof.Machine

/-! ## The ends of register tenures -/

namespace Sys2Proof.Machine

/-- A register tenure has one strobe, so it is over once that one's recovery width has run out (R103, R104). -/
theorem registerTenure_over {t : Tenure} (hp : t.phase = .recovery) (hm : t.mark = .going)
    (hk : t.req.kind = .registerWrite ∨ t.req.kind = .registerRead) : t.over = true := by
  refine over_of_strobes t hp hm ?_
  rcases hk with hk | hk <;> simp [Request.strobes, hk]

theorem registerWriteEnd_finishes {s : State} {t : Tenure} {i : SlotId} {e : StepRecord} (h : s.jobTenureOver t i e)
    (hm : t.mark = .going) (hk : t.req.kind = .registerWrite) :
    s.registerWriteEnd = ({ s with tenure := none } : State).finishStep t.req.card := by
  obtain ⟨-, hp, -⟩ := id h
  exact jobTenureEnd_eq s _ _ t i e h (by simp [registerTenure_over hp hm (.inl hk), hk])

/-- A value read goes to a POLL's judgement or to a GET's capture by the step copy's kind (R39, R40). -/
theorem registerReadEnd_takes {s : State} {t : Tenure} {i : SlotId} {e : StepRecord} {v : Word} (h : s.jobTenureOver t i e)
    (hm : t.mark = .going) (hk : t.req.kind = .registerRead) (hv : t.values = [v]) : s.registerReadEnd =
      if e.kind = some .poll then ({ s with tenure := none } : State).judgePoll t.req.card i v
      else ({ s with tenure := none } : State).captureGet t.req.card i v := by
  obtain ⟨-, hp, -, -, hc⟩ := id h
  refine (jobTenureEnd_eq s _ _ t i e h (by simp [registerTenure_over hp hm (.inr hk), hk])).trans ?_
  simp only [record_of_copy ({ s with tenure := none } : State) t.req.card e hc, hv, List.headD_cons]

theorem captureGet_finishes {s : State} {c : CardId} {e : StepRecord} (hc : (s.card c).seq.copy = some e) (hw : e.w1.toNat ≤ 7)
    (i : SlotId) (v : Word) : s.captureGet c i v = (s.setSlotWord i (8 + e.w1.toNat) v).finishStep c := by
  rw [State.captureGet, record_of_copy s c e hc, State.setCapture, if_pos (show e.captureIndex < 8 by
    rw [StepRecord.captureIndex]; omega)]
  rfl

/-- A POLL with its attempt counted and the value read kept in word 6 (R40 steps 1 and 2). -/
def State.polled (s : State) (c : CardId) (i : SlotId) (v : Word) : State :=
  (s.updSeq c fun q => { q with attempts := (s.card c).seq.attempts + 1 }).setSlotWord i 6 v

/-- The judgement of a POLL whose copy is `e` (R40, R41, R42). -/
theorem judgePoll_eq {s : State} {c : CardId} {e : StepRecord} (hc : (s.card c).seq.copy = some e) (i : SlotId) (v : Word) :
    s.judgePoll c i v =
      if v &&& e.w1 = e.w2 then (s.polled c i v).finishStep c
      else if (s.card c).seq.attempts + 1 < lowByte e.w3 then
        if (s.card c).seq.stop then (s.polled c i v).endJob c .stopped
        else (s.polled c i v).updSeq c fun q => { q with phase := .timedWait }
      else (s.polled c i v).failJob c .pollExhausted (some v) := by
  rw [State.judgePoll, record_of_copy s c e hc]
  rfl

/-- Settles O47: the tenure's end hands its result to the sequencer, and a POLL judges it by `judgePoll_eq`. -/
theorem registerTenureTaken : Obligations.RegisterTenureTaken := by
  intro s t i e h hm c u
  have hcard : u.card c = s.card c := rfl
  obtain ⟨-, -, -, -, hcopy⟩ := id h
  have hc : (u.card c).seq.copy = some e := hcopy
  refine ⟨fun hk => next_congr (registerWriteEnd_finishes h hm hk), fun v hk hv => ?_⟩
  have htake := registerReadEnd_takes h hm hk hv
  refine ⟨fun hget hw => next_congr ?_, fun hpoll => ?_⟩
  · rw [htake, if_neg (by rw [hget]; decide)]
    exact captureGet_finishes hc hw i v
  · rw [if_pos hpoll, judgePoll_eq hc i v, hcard] at htake
    refine ⟨fun hmatch => next_congr ?_, fun hno hleft => ⟨fun hstop => next_congr ?_, fun hstop => next_congr ?_⟩,
      fun hno hlast => next_congr ?_⟩
    · rw [htake, if_pos hmatch]
      rfl
    · rw [htake, if_neg hno, if_pos hleft, if_neg (ne_true_of_eq_false hstop)]
      rfl
    · rw [htake, if_neg hno, if_pos hleft, if_pos hstop]
      rfl
    · rw [htake, if_neg hno, if_neg (not_lt.mpr hlast)]
      rfl

end Sys2Proof.Machine

/-! ## The end of a job's run -/

namespace Sys2Proof.Machine

/-- A sequencer without a stream record gives up no lease (R33). -/
theorem dropStream_none {s : State} {c : CardId} (h : (s.card c).stream = none) : s.dropStream c = s := by
  rw [State.dropStream, h]
  cases (s.card c).seq.active <;> rfl

/-- The sequencer's report changes its own card alone. -/
theorem endJob_card_other (s : State) {c d : CardId} (e : Ending) (h : d ≠ c) : (s.endJob c e).card d = (s.dropStream c).card d :=
  card_updCard_other _ _ _ _ h

/-- Settles O41: the card is that of `endJob_card`; the rest is what giving up the stream's leases leaves. -/
theorem endedJobMakesReport : Obligations.EndedJobMakesReport := by
  intro s c i e ha t
  obtain ⟨g, hcard⟩ := endJob_card s c i e ha
  have hkeeps : Keeps False s t := endJob_keeps s c e False.elim
  refine ⟨congrArg Card.endReport hcard, congrArg (·.seq.active) hcard, congrArg (·.seq.phase) hcard, congrArg (·.seq.copy) hcard,
    congrArg (·.seq.stop) hcard, congrArg (·.seq.stepIndex) hcard, congrArg Card.jobReq hcard, congrArg Card.stream hcard,
    fun a => ?_, hkeeps.slot, rfl, fun d hd => endJob_card_other s e hd, dropStream_none, fun o d he => ?_⟩
  · rw [endJob_mem]
  · rw [State.failJob, ← he]

end Sys2Proof.Machine

/-! ## The step boundary -/

namespace Sys2Proof.Machine

/-- The state with the step in flight counted: word 5 and the index rise by one (R31). -/
def State.counted (s : State) (c : CardId) (i : SlotId) : State :=
  (s.setSlotWord i 5 (wordOf ((s.card c).seq.stepIndex + 1))).updSeq c fun q => { q with stepIndex := (s.card c).seq.stepIndex + 1 }

theorem card_counted (s : State) (c : CardId) (i : SlotId) : (s.counted c i).card c =
    { s.card c with seq := { (s.card c).seq with stepIndex := (s.card c).seq.stepIndex + 1 } } :=
  card_updSeq_same _ _ _

theorem counted_updCard_frame (s : State) (c d : CardId) (i : SlotId) (f : Card → Card) :
    { (s.counted c i).updCard d f with mem := s.mem, cards := s.cards } = s := by
  unfold State.counted State.setSlotWord State.setWord
  generalize writeWord _ _ _ = m
  rfl

/-- The ending a completed step's boundary gives: COMPLETE after the last step, STOPPED on the stop flag, none otherwise (R31). -/
theorem boundary_eq {s : State} {c : CardId} {i : SlotId} (h : (s.card c).seq.active = some i) : s.boundary c =
    if (s.card c).seq.stepCount ≤ (s.card c).seq.stepIndex + 1 then ((s.counted c i).endJob c .complete, false)
    else if (s.card c).seq.stop then ((s.counted c i).endJob c .stopped, false)
    else (s.counted c i, true) := by
  rw [State.boundary, h]
  rfl

/-- After its last step, or stopped, the job ends at the boundary (R31, R32). -/
theorem finishStep_ends {s : State} {c : CardId} {i : SlotId} (h : (s.card c).seq.active = some i)
    (hend : (s.card c).seq.stepCount ≤ (s.card c).seq.stepIndex + 1 ∨ (s.card c).seq.stop = true) :
    s.finishStep c = (s.counted c i).endJob c
      (if (s.card c).seq.stepCount ≤ (s.card c).seq.stepIndex + 1 then .complete else .stopped) := by
  rw [State.finishStep, boundary_eq h]
  by_cases hlast : (s.card c).seq.stepCount ≤ (s.card c).seq.stepIndex + 1
  · rw [if_pos hlast, if_pos hlast]
  · rw [if_neg hlast, if_neg hlast, if_pos (hend.resolve_left hlast)]

/-- With steps left and no stop flag the next step begins (R31). -/
theorem finishStep_goesOn {s : State} {c : CardId} {i : SlotId} (h : (s.card c).seq.active = some i)
    (hleft : (s.card c).seq.stepIndex + 1 < (s.card c).seq.stepCount) (hstop : (s.card c).seq.stop = false) :
    s.finishStep c = runSteps ((s.card c).seq.stepCount - ((s.card c).seq.stepIndex + 1)) c (s.counted c i) := by
  rw [State.finishStep, boundary_eq h, if_neg (not_le.mpr hleft), if_neg (ne_true_of_eq_false hstop)]
  simp only [State.stepsLeft, card_counted]

/-- Settles O40: the boundary of the counted state, whose end is `endJob_plain` where no stream is in progress. -/
theorem completedStepTakesBoundary : Obligations.CompletedStepTakesBoundary := by
  intro s c i ha hstream
  refine ⟨fun hend => ?_, fun hleft hstop => finishStep_goesOn ha hleft hstop⟩
  have hactive : ((s.counted c i).card c).seq.active = some i := by rw [card_counted]; exact ha
  have hnone : ((s.counted c i).card c).stream = none := by rw [card_counted]; exact hstream
  rw [finishStep_ends ha hend, endJob_plain _ c i _ hactive hnone, card_updCard_same, card_counted]
  refine ⟨readWord_writeWord_same _ _ _, rfl, rfl, rfl, rfl, rfl, rfl, fun d hd => ?_, fun a hout => ?_,
    counted_updCard_frame _ _ _ _ _⟩
  · rw [card_updCard_other _ _ _ _ hd]
    exact card_updCard_other _ _ _ _ hd
  · exact readByte_writeWord_other _ _ _ _ (by simp only [slotAddr] at *; omega)

end Sys2Proof.Machine

/-! ## Grants of the bus -/

namespace Sys2Proof.Machine

theorem busFree_iff (s : State) : s.busFree = true ↔ s.tenure = none ∧ s.engine.closed = false := by
  simp [State.busFree]

theorem closed_iff (e : EngineState) : e.closed = true ↔ e = .initializing ∨ e = .resetting := by
  cases e <;> simp [EngineState.closed]

theorem isBurst_iff (k : TenureKind) : k.isBurst = true ↔ k = .burstOut ∨ k = .burstIn := by
  cases k <;> simp [TenureKind.isBurst]

/-- A bus that is taken, or held by a reset, is not granted (R116). -/
theorem grantBus_taken {s : State} (h : s.tenure.isSome = true ∨ s.engine.closed = true) : s.grantBus = s := by
  refine if_neg fun hfree => ?_
  obtain ⟨htenure, hopen⟩ := (busFree_iff s).1 hfree
  simp [htenure, hopen] at h

/-- A side on which no card waits is passed over (R117). -/
theorem attentionChoice_none {s : State} (h : ∀ c, (s.card c).attnReq = none) : s.attentionChoice = none :=
  roundRobin_none _ _ fun c => by rw [h c]; rfl

theorem jobChoice_none {s : State} (h : ∀ c, (s.card c).jobReq = none) : s.jobChoice = none :=
  roundRobin_none _ _ fun c => by rw [h c]; rfl

theorem grantBus_unasked {s : State} (h : ∀ c, (s.card c).attnReq = none ∧ (s.card c).jobReq = none) : s.grantBus = s := by
  rw [State.grantBus, attentionChoice_none fun c => (h c).1, jobChoice_none fun c => (h c).2]
  exact ite_self s

/-- The first attention read that waits, from the card after the pointer on, is granted (R117, R129). -/
theorem grantBus_attention {s : State} {n : CardId} {r : Request} (hfree : s.busFree = true)
    (hr : (s.card (s.attnPtr + 1 + n)).attnReq = some r) (hfirst : ∀ m, m < n → (s.card (s.attnPtr + 1 + m)).attnReq = none) :
    s.grantBus = s.grantAttention (s.attnPtr + 1 + n) r := by
  have hchoice : s.attentionChoice = some (s.attnPtr + 1 + n) :=
    roundRobin_eq _ _ _ (by rw [hr]; rfl) fun m hm => by rw [hfirst m hm]; rfl
  rw [State.grantBus, if_pos hfree, hchoice]
  simp only [hr]

/-- With no attention read waiting, the first job request from the card after the pointer on is granted (R117). -/
theorem grantBus_job {s : State} {n : CardId} {r : Request} (hfree : s.busFree = true) (hattn : ∀ d, (s.card d).attnReq = none)
    (hr : (s.card (s.jobPtr + 1 + n)).jobReq = some r) (hfirst : ∀ m, m < n → (s.card (s.jobPtr + 1 + m)).jobReq = none) :
    s.grantBus = s.grantJob (s.jobPtr + 1 + n) r := by
  have hchoice : s.jobChoice = some (s.jobPtr + 1 + n) :=
    roundRobin_eq _ _ _ (by rw [hr]; rfl) fun m hm => by rw [hfirst m hm]; rfl
  rw [State.grantBus, if_pos hfree, attentionChoice_none hattn, hchoice]
  simp only [hr]

theorem grantAttention_begins (s : State) (c : CardId) (r : Request) : ∃ t, s.begins r t ∧ s.grantAttention c r =
    { (s.updCard c fun k => { k with attnReq := none, attnPhase := .reading }) with attnPtr := c, tenure := some t } := by
  obtain ⟨t, ht, hbegin⟩ := beginTenure_begins s r
  exact ⟨t, ht, by rw [State.grantAttention, hbegin]; rfl⟩

theorem grantJob_begins (s : State) (c : CardId) (r : Request) : ∃ t, s.begins r t ∧ s.grantJob c r =
    { (s.updCard c fun k => { k with
        jobReq := none
        seq := { k.seq with phase := .tenure }
        stream := if r.kind = .burstOut ∨ r.kind = .burstIn then k.stream.map (fun m => { m with begun := true }) else k.stream })
      with jobPtr := c, tenure := some t } := by
  obtain ⟨t, ht, hbegin⟩ := beginTenure_begins s r
  refine ⟨t, ht, ?_⟩
  rw [State.grantJob, hbegin]
  simp only [isBurst_iff]
  rfl

/-- Settles O42: no grant without a free bus and a request, and otherwise the choice `roundRobin_eq` makes on each side. -/
theorem busGrantTakesAttentionFirst : Obligations.BusGrantTakesAttentionFirst := by
  refine fun s => ⟨fun h => next_congr ?_, fun htenure hopen => ⟨fun n c r hc hr _ hfirst => ?_, fun n c r hattn hc hr _ hfirst => ?_⟩⟩
  · rcases h with h | h | h | h
    · exact grantBus_taken (.inl h)
    · exact grantBus_taken (.inr ((closed_iff _).2 (.inl h)))
    · exact grantBus_taken (.inr ((closed_iff _).2 (.inr h)))
    · exact grantBus_unasked h
  · subst hc
    obtain ⟨t, ht, hgrant⟩ := grantAttention_begins s (s.attnPtr + 1 + n) r
    exact ⟨t, ht, next_congr ((grantBus_attention ((busFree_iff s).2 ⟨htenure, hopen⟩) hr hfirst).trans hgrant)⟩
  · subst hc
    obtain ⟨t, ht, hgrant⟩ := grantJob_begins s (s.jobPtr + 1 + n) r
    exact ⟨t, ht, next_congr ((grantBus_job ((busFree_iff s).2 ⟨htenure, hopen⟩) hattn hr hfirst).trans hgrant)⟩

end Sys2Proof.Machine

/-! ## The bus fault -/

namespace Sys2Proof.Machine

/-- A fault of tenure `t` recorded before its notice: the tenure in recovery, word 15, and the card FAULTED with its attention state as
the fault leaves it (R112, R139, R140). -/
def State.faulted (s : State) (t : Tenure) : State :=
  ((s.setTenure { t with phase := .recovery, mark := .faulted }).setProfileWord t.req.card 15 t.fault).updCard t.req.card fun k =>
    { k.attnFault (t.req.kind = .attentionRead) with presence := .faulted }

/-- The CARD_FAULTED notice of tenure `t` (R113). -/
def State.faultNotice (s : State) (t : Tenure) : Notice :=
  { kind := .cardFaulted, card := some t.req.card, slot := (s.card t.req.card).activeSlot
    jobSeq := s.jobSeqOf (s.card t.req.card).activeSlot, code := 0, valueA := t.fault, valueB := (s.card t.req.card).presence.code }

/-- The attention unit's acts at a fault (R139, R140), field by field. -/
theorem attnFault_eq (k : Card) (read : Bool) : k.attnFault read = { k with
    detector := .disarmed
    attnPhase := if read || decide (k.attnPhase = .waiting) then .quiet else k.attnPhase
    attnReq := if read || decide (k.attnPhase = .waiting) then none else k.attnReq
    voidRead := if read then false else k.voidRead } := by
  by_cases hw : k.attnPhase = .waiting <;> cases read <;> simp [Card.attnFault, hw]

theorem card_faulted (s : State) (t : Tenure) : (s.faulted t).card t.req.card =
    { (s.card t.req.card).attnFault (t.req.kind = .attentionRead) with presence := .faulted } :=
  card_updCard_same _ _ _

theorem seq_faulted (s : State) (t : Tenure) : ((s.faulted t).card t.req.card).seq = (s.card t.req.card).seq := by
  rw [card_faulted, attnFault_eq]

theorem faulted_frame (s : State) (t : Tenure) :
    { s.faulted t with tenure := s.tenure, mem := s.mem, cards := s.cards } = s := by
  unfold State.faulted State.setProfileWord State.setWord
  generalize writeWord _ _ _ = m
  rfl

/-- READY_TIMEOUT on a stretched strobe: the fault is recorded and reported, and the requester is told (R112). -/
theorem readyTimeout_eq {s : State} {t : Tenure} (ht : s.tenure = some t) (hp : t.phase = .stretch) (hm : t.mark = .going)
    (hf : t.req.kind.faults = true) : s.readyTimeout =
      if t.req.kind = .attentionRead then
        ((s.faulted t).post (s.faultNotice t)).takeAttentionFault t.req.card t.values t.fault
      else ((s.faulted t).post (s.faultNotice t)).takeJobFault t.req.card t.req.kind t.fault := by
  rw [State.readyTimeout, ht]
  simp only [Tenure.held, hp, hm, hf, decide_true, Bool.and_self, if_true]
  by_cases hk : t.req.kind = .attentionRead
  · rw [if_pos hk, if_pos (decide_eq_true hk)]
    rfl
  · rw [if_neg hk, if_neg (by simpa using hk)]
    rfl

/-- The fault detail is the register of the strobe held, with the tenure kind's code (R212). -/
theorem fault_eq {t : Tenure} {reg : Reg} (hread : t.req.kind = .attentionRead → t.req.regs[t.strobe]? = some reg)
    (hone : t.req.kind ≠ .attentionRead → t.req.regs.head? = some reg) :
    t.fault = BitVec.ofNat 16 (reg.toNat + 256 * t.req.kind.code) := by
  have hreg : t.reg = reg := by
    by_cases hk : t.req.kind = .attentionRead
    · simp [Tenure.reg, hk, List.getD_eq_getElem?_getD, hread hk]
    · have hhead : t.req.regs.headD 0 = reg := by rw [List.headD_eq_head?_getD, hone hk]; rfl
      unfold Tenure.reg
      split
      · exact absurd ‹_› hk
      all_goals exact hhead
  rw [Tenure.fault, hreg]
  rfl

/-- The job of a register tenure that faults fails with BUS_TIMEOUT (R37). -/
theorem takeJobFault_register {s : State} {c : CardId} {k : TenureKind} (hr : (s.card c).runningIn .tenure = true)
    (hk : k = .registerWrite ∨ k = .registerRead) (d : Word) : s.takeJobFault c k d = s.failJob c .busTimeout (some d) := by
  unfold State.takeJobFault
  rw [if_pos hr]
  rcases hk with rfl | rfl <;> rfl

/-- The job of a closing tenure that faults fails with BUS_TIMEOUT, its detail handed over for word 6 (R88). -/
theorem takeJobFault_closing {s : State} {c : CardId} {i : SlotId} {k : TenureKind} (ha : (s.card c).seq.active = some i)
    (hp : (s.card c).seq.phase = .tenure) (hk : k = .checkOut ∨ k = .checkIn) (d : Word) :
    s.takeJobFault c k d = (s.setSlotWord i 6 d).failJob c .busTimeout (some d) := by
  unfold State.takeJobFault
  rw [if_pos (runningIn_of (by rw [ha]; rfl) hp), ← failWithDetail_eq s c i _ d ha]
  rcases hk with rfl | rfl <;> rfl

/-- Settles O46: the fault is recorded as `State.faulted`, and its notice and the requester follow by `readyTimeout_eq`. -/
theorem readyTimeoutFaultsCard : Obligations.ReadyTimeoutFaultsCard := by
  intro s t reg code ht hp hm hkinds hread hone
  obtain ⟨hfaults, rfl⟩ := faults_and_code _ _ hkinds
  have hexec := readyTimeout_eq ht hp hm hfaults
  have hdetail := fault_eq hread hone
  have hseq : (((s.faulted t).post (s.faultNotice t)).card t.req.card).seq = (s.card t.req.card).seq := by
    rw [card_post, seq_faulted]
  rw [← hdetail]
  refine ⟨s.faulted t, rfl, profileWord_setProfileWord_get _ _ _ _, setProfileWord_bytes _ _ _ _, ?_,
    fun d hd => card_updCard_other _ _ _ _ hd, faulted_frame s t, fun hk => ⟨fun ha => next_congr ?_, fun ha => next_congr ?_⟩,
    fun i ha hph => ⟨fun hk => next_congr ?_, fun hk => next_congr ?_⟩⟩
  · rw [card_faulted, attnFault_eq]
  · rw [hexec, if_pos hk]
    refine failJob_idle _ _ _ _ ?_
    rw [card_updCard_same, card_writeSnapshot, hseq, ha]
  · rw [hexec, if_pos hk]
    rfl
  · rw [hexec, if_neg (by rcases hk with hk | hk <;> simp [hk])]
    exact takeJobFault_register (runningIn_of (by rw [hseq, ha]; rfl) (by rw [hseq, hph])) hk _
  · rw [hexec, if_neg (by rcases hk with hk | hk <;> simp [hk])]
    exact takeJobFault_closing (by rw [hseq, ha]) (by rw [hseq, hph]) hk _

end Sys2Proof.Machine

/-! ## An AWAIT consumes an attention -/

namespace Sys2Proof.Machine

/-- From `s` to `p` the first `n` snapshot words of card `c` have gone to the captures of slot `i` from `base` on, none past capture 7,
and nothing else has changed (R44 step 1). -/
structure Captured (s p : State) (c : CardId) (i : SlotId) (base n : Nat) : Prop where
  taken : ∀ m, m < n → base + m < 8 → p.slotWord i (8 + (base + m)) = s.profileWord c (9 + m)
  kept : ∀ m, m < 8 → (m < base ∨ base + n ≤ m) → p.slotWord i (8 + m) = s.slotWord i (8 + m)
  bytes : s.sameBytesBut p (slotAddr i 8) (slotAddr i 16)
  frame : { p with mem := s.mem } = s

theorem Captured.card {s p : State} {c : CardId} {i : SlotId} {base n : Nat} (h : Captured s p c i base n) (d : CardId) :
    p.card d = s.card d :=
  congrArg (fun u => u.card d) h.frame

theorem copySnapshot_captured (s : State) (c : CardId) (i : SlotId) (base : Nat) {n : Nat} (hn : n ≤ 4) :
    Captured s (s.copySnapshot c i base (List.range n)) c i base n := by
  have hword := copySnapshot_slotWord c i base (List.range n) (fun j hj => by rw [List.mem_range] at hj; omega) List.nodup_range s
  refine ⟨fun m hm hlt => ?_, fun m hm hout => ?_, copySnapshot_bytes _ _ _ _ _, copySnapshot_frame _ _ _ _ _⟩
  · exact (hword 0 (by decide)).1 m (List.mem_range.2 hm) hlt
  · refine (hword (8 + m) (by omega)).2 fun j hj => ?_
    rw [List.mem_range] at hj
    omega

/-- The mask test of an AWAIT whose copy is `e` passes for snapshot word `v` (R44 step 2). -/
def StepRecord.accepts (e : StepRecord) (v : Word) : Prop := e.w2 = 0 ∨ v &&& e.w2 = e.w3

theorem accepts_iff (e : StepRecord) (v : Word) : (e.w2 = 0 || (v &&& e.w2) = e.w3 : Bool) = true ↔ e.accepts v := by
  simp [StepRecord.accepts]

/-- An AWAIT of slot `i` fails on snapshot word `v`, which goes to word 6 (R44). -/
def State.mismatched (p : State) (c : CardId) (i : SlotId) (v : Word) : State :=
  (p.setSlotWord i 6 v).failJob c .awaitMismatch (some v)

/-- The end of a run writes no slot word. -/
theorem failJob_slotWord (s : State) (c : CardId) (o : JobOutcome) (d : Option Word) (j : SlotId) (m : Nat) :
    (s.failJob c o d).slotWord j m = s.slotWord j m := by
  rw [State.slotWord, State.word, State.failJob, endJob_mem]
  rfl

theorem slotWord_mismatched (p : State) (c : CardId) (i : SlotId) (v : Word) {m : Nat} (hm : m < 16) :
    (p.mismatched c i v).slotWord i m = if m = 6 then v else p.slotWord i m := by
  rw [State.mismatched, failJob_slotWord, slotWord_setSlotWord _ _ _ _ _ _ (by decide) hm]
  simp

theorem card_mismatched {p : State} {c : CardId} {i : SlotId} (v : Word) (h : (p.card c).seq.active = some i) :
    ((p.mismatched c i v).card c).claimable = (p.card c).claimable ∧ ((p.mismatched c i v).card c).endReport =
      some { slot := i, ending := .failure .awaitMismatch (some v), stepsDone := (p.card c).seq.stepIndex } := by
  obtain ⟨g, hcard⟩ := failJob_card (p.setSlotWord i 6 v) c i .awaitMismatch (some v) h
  rw [State.mismatched, hcard]
  exact ⟨rfl, rfl⟩

/-- An AWAIT consumes an attention: the captures, then the mask test decides (R44). -/
theorem awaitConsume_captured {s : State} {c : CardId} {i : SlotId} {e : StepRecord} (ha : (s.card c).seq.active = some i)
    (hc : (s.card c).seq.copy = some e) (hn : (s.card c).profile.readCount ≤ 4) :
    ∃ p, Captured s p c i (highByte e.w0) (s.card c).profile.readCount ∧
      (e.accepts (s.profileWord c 9) → s.awaitConsume c = (p, true)) ∧
      (¬ e.accepts (s.profileWord c 9) → s.awaitConsume c = (p.mismatched c i (s.profileWord c 9), false)) := by
  have hcaptured := copySnapshot_captured s c i e.captureBase hn
  have hword := copySnapshot_profileWord c i e.captureBase 9 (by decide) (List.range (s.card c).profile.readCount) s
  have hactive := (congrArg (·.seq.active) (hcaptured.card c)).trans ha
  refine ⟨_, hcaptured, fun h => ?_, fun h => ?_⟩
  · rw [State.awaitConsume, ha]
    simp only [record_of_copy s c e hc, hword]
    exact if_pos ((accepts_iff e _).2 h)
  · rw [State.awaitConsume, ha]
    simp only [record_of_copy s c e hc, hword, failWithDetail_eq _ c i _ _ hactive]
    exact if_neg fun hx => h ((accepts_iff e _).1 hx)

end Sys2Proof.Machine

/-! ## The begin of MARK, POLL, PULSE and AWAIT -/

namespace Sys2Proof.Machine

/-- A MARK has no field a check could fail (R9, R49). -/
theorem mark_valid {r : StepRecord} (h : r.kind = some .mark) : r.invalid = none :=
  (invalid_none_iff r .mark h).2 ⟨rfl, fun hs => absurd hs (by decide)⟩

/-- A pulse's start at the attention unit (R138), field by field. -/
theorem attnPulseStart_eq (k : Card) : k.attnPulseStart = { k with
    detector := .disarmed
    attnPhase := if k.attnPhase = .waiting then .held else k.attnPhase
    attnReq := if k.attnPhase = .waiting then none else k.attnReq } := by
  unfold Card.attnPulseStart
  split
  · rfl
  · rfl

/-- The state in which an AWAIT that finds an attention consumes it: its copy fetched and the claimable flag cleared (R133). -/
def State.claimed (s : State) (c : CardId) (r : StepRecord) : State :=
  (s.updSeq c fun q => { q with copy := some r }).updCard c fun k => { k with claimable := false }

theorem card_claimed (s : State) (c : CardId) (r : StepRecord) : (s.claimed c r).card c =
    { s.card c with claimable := false, seq := { (s.card c).seq with copy := some r } } := by
  rw [State.claimed, card_updCard_same, card_updSeq_same]

theorem profileWord_claimed (s : State) (c : CardId) (r : StepRecord) (m : Nat) :
    (s.claimed c r).profileWord c m = s.profileWord c m := rfl

theorem startAwait_waits {s : State} {c : CardId} (h : (s.card c).claimable = false) :
    s.startAwait c = (s.updSeq c fun q => { q with phase := .attentionWait }, false) :=
  if_neg (ne_true_of_eq_false h)

theorem startAwait_claims {s : State} {c : CardId} (h : (s.card c).claimable = true) :
    s.startAwait c = (s.updCard c fun k => { k with claimable := false }).awaitConsume c :=
  if_pos h

/-- Settles O38: each kind begins as `State.beginKind` gives it from the state with its record fetched. -/
theorem markPollPulseAwaitBegin : Obligations.MarkPollPulseAwaitBegin := by
  refine ⟨fun s c i r ha hr hmark => ?_, fun s c i r ha hr hok => ⟨fun hk => ?_, fun hk => ?_⟩,
    fun s c i r ha hr hok hk hn => ⟨fun hno => ?_, fun hyes => ?_⟩⟩
  · have hk : r.kind = some .mark := (kind_eq_some_iff r .mark).2 hmark
    rw [startStep_valid s c i r .mark ha hr (mark_valid hk) hk, State.beginKind, State.postMark, record_updSeq_copy,
      card_updSeq_same]
    rfl
  · rw [startStep_valid s c i r .poll ha hr hok hk, State.beginKind,
      requestJob_asks (e := r) (by rw [card_updSeq_same, card_updSeq_same])]
    simp only [State.updSeq, updCard_updCard]
    rfl
  · rw [startStep_valid s c i r .pulse ha hr hok hk, State.beginKind]
    simp only [State.startPulse, attnPulseStart_eq, State.updSeq, updCard_updCard]
  · rw [startStep_valid s c i r .await ha hr hok hk, State.beginKind, startAwait_waits (by rw [card_updSeq_same]; exact hno)]
    simp only [State.updSeq, updCard_updCard]
  · have hstart : s.startStep c = (s.claimed c r).awaitConsume c := by
      rw [startStep_valid s c i r .await ha hr hok hk, State.beginKind, startAwait_claims (by rw [card_updSeq_same]; exact hyes)]
      rfl
    have hcard := card_claimed s c r
    have hactive : ((s.claimed c r).card c).seq.active = some i := by rw [hcard]; exact ha
    obtain ⟨p, hp, hpass, hfail⟩ := awaitConsume_captured (e := r) hactive (by rw [hcard]) (by rw [hcard]; exact hn)
    rw [profileWord_claimed] at hpass hfail
    rw [hcard] at hp
    have hkept := (hp.card c).trans hcard
    by_cases hmask : r.accepts (s.profileWord c 9)
    · exact ⟨p, true, hstart.trans (hpass hmask), congrArg Card.claimable hkept, hp.taken, hp.kept, iff_of_true rfl hmask,
        fun h => absurd h (by decide)⟩
    · obtain ⟨hclaimable, hreport⟩ := card_mismatched (s.profileWord c 9) ((congrArg (·.seq.active) hkept).trans ha)
      refine ⟨p.mismatched c i (s.profileWord c 9), false, hstart.trans (hfail hmask), ?_, fun m hm hlt => ?_,
        fun m hm hout => ?_, iff_of_false (by decide) hmask, fun _ => ⟨slotWord_mismatched p c i _ (by decide), ?_⟩⟩
      · rw [hclaimable, hkept]
      · rw [slotWord_mismatched p c i _ (by omega), if_neg (by omega)]
        exact hp.taken m hm hlt
      · rw [slotWord_mismatched p c i _ (by omega), if_neg (by omega)]
        exact hp.kept m hm hout
      · rw [hreport, hkept]

end Sys2Proof.Machine

/-! ## The disposition of an attention -/

namespace Sys2Proof.Machine

theorem readOver_quieted (k : Card) : k.readOver = k.quieted := by
  unfold Card.readOver Card.quieted
  split <;> rfl

/-- A snapshot leaves word 14 alone (R131). -/
theorem snapshotTaken_unclaimed {s u : State} {c : CardId} {values : List Word} (h : s.snapshotTaken u c values)
    (hl : values.length ≤ 4) : u.profileWord c 14 = s.profileWord c 14 := by
  obtain ⟨-, -, hbytes, -⟩ := h
  refine profileWord_congr c 14 fun a h1 h2 => hbytes a (.inr ?_) (.inr h1)
  simp only [profileAddr] at *
  omega

/-- A running job that waits for no attention keeps it as claimable, an earlier one counted unclaimed (R132 case 2). -/
theorem dispose_toJob {u : State} {c : CardId} (hp : (u.card c).seq.phase ≠ .attentionWait)
    (ha : (u.card c).activeSlot.isSome = true) : u.dispose c =
      (if (u.card c).claimable then u.setProfileWord c 14 (u.profileWord c 14 + 1) else u).updCard c fun k =>
        { k.quieted with claimable := true } := by
  rw [State.dispose, if_neg hp, if_pos ha, State.disposeToJob]
  simp only [readOver_quieted]
  rfl

/-- With no active slot an attention is counted unclaimed and its notice is handed on (R132 case 3). -/
theorem dispose_unclaimed {u : State} {c : CardId} (hp : (u.card c).seq.phase ≠ .attentionWait)
    (ha : (u.card c).activeSlot = none) : u.dispose c =
      ((u.setProfileWord c 14 (u.profileWord c 14 + 1)).updCard c Card.quieted).post
        { kind := .unsolicited, card := some c, slot := none, jobSeq := 0, code := 0, valueA := u.profileWord c 9
          valueB := u.profileWord c 10 } := by
  have hover : Card.readOver = Card.quieted := funext readOver_quieted
  have hkept : ∀ m, m < 14 → ((u.setProfileWord c 14 (u.profileWord c 14 + 1)).updCard c Card.quieted).profileWord c m =
      u.profileWord c m := fun m hm => by
    rw [profileWord_updCard, profileWord_setProfileWord _ _ _ _ _ _ (by decide) (by omega), if_neg (by omega)]
  rw [State.dispose, if_neg hp, if_neg (by simp [ha]), State.disposeUnsolicited, State.countUnclaimed, hover,
    State.postUnsolicited, hkept 9 (by decide), hkept 10 (by decide)]

/-- The AWAIT that waits for the attention consumes it (R132 case 1, R44). -/
theorem dispose_awaited {u : State} {c : CardId} (hp : (u.card c).seq.phase = .attentionWait) :
    u.dispose c = (u.updCard c Card.quieted).awaitHandOver c := by
  rw [State.dispose, if_pos hp, funext readOver_quieted]

theorem awaitHandOver_passes {s t : State} {c : CardId} (h : s.awaitConsume c = (t, true)) :
    s.awaitHandOver c = t.finishStep c := by
  rw [State.awaitHandOver, h]

theorem awaitHandOver_fails {s t : State} {c : CardId} (h : s.awaitConsume c = (t, false)) : s.awaitHandOver c = t := by
  rw [State.awaitHandOver, h]

/-- Settles O57: the snapshot, then the disposition of the state it leaves, by the sequencer's phase and the card's active slot. -/
theorem completedAttentionDisposed : Obligations.CompletedAttentionDisposed := by
  intro s c values hl
  have hsnap := writeSnapshot_snapshotTaken s c values hl
  have hcard : ((s.writeSnapshot c values).countCompleted c).card c = s.card c := by simp
  refine ⟨_, hsnap, ?_⟩
  rw [State.completeAttention]
  generalize (s.writeSnapshot c values).countCompleted c = u at hsnap hcard ⊢
  have h14 := snapshotTaken_unclaimed hsnap hl
  refine ⟨fun hp ha => ?_, fun hp ha => ?_, fun i e hp ha hc hn => ?_⟩
  · rw [dispose_toJob (by rwa [hcard]) (by rwa [hcard]), hcard, h14]
  · rw [dispose_unclaimed (by rwa [hcard]) (by rwa [hcard]), h14]
  · have hquiet : (u.updCard c Card.quieted).card c = (s.card c).quieted := by rw [card_updCard_same, hcard]
    obtain ⟨p, hcap, hpass, hfail⟩ := awaitConsume_captured (s := u.updCard c Card.quieted) (i := i) (e := e)
      (by rw [hquiet]; exact ha) (by rw [hquiet]; exact hc) (by rw [hquiet]; exact hn)
    rw [hquiet] at hcap
    have hdispose := dispose_awaited (u := u) (by rwa [hcard])
    refine ⟨p, hcap.taken, hcap.kept, hcap.bytes, hcap.frame, fun hmask => ?_, fun h2 hmask => ?_⟩
    · exact hdispose.trans (awaitHandOver_passes (hpass hmask))
    · exact hdispose.trans (awaitHandOver_fails (hfail (by rintro (h | h); exacts [h2 h, hmask h])))

end Sys2Proof.Machine

/-! ## The slots and their lists, step by step -/

namespace Sys2Proof.Machine

theorem writeControl_lists (s : State) (i : SlotId) (v : Word) (hl : s.listsOk) : (s.writeControl i v).listsOk :=
  hostAccess_lists s _ _ hl fun he => slotRequest_lists s i v he hl

theorem writeExchange_lists (s : State) (a : WordAddr) (v : Word) (hl : s.listsOk) : (s.writeExchange a v).listsOk :=
  hostAccess_lists s _ _ hl fun he => judgeWrite_lists s a v he hl

theorem takeConsumed_lists (s : State) (v : Word) (hl : s.listsOk) : (s.takeConsumed v).listsOk := by
  unfold State.takeConsumed
  split <;> exact listsOk_inert rfl rfl rfl rfl rfl rfl rfl hl

theorem takeLost_lists (s : State) (v : Word) (hl : s.listsOk) : (s.takeLost v).listsOk := by
  unfold State.takeLost
  split <;> exact listsOk_inert rfl rfl rfl rfl rfl rfl rfl hl

theorem msClockTick_lists (s : State) (hl : s.listsOk) : s.msClockTick.listsOk := by
  unfold State.msClockTick
  split
  · exact hl
  · exact listsOk_inert rfl rfl rfl rfl rfl rfl rfl hl

/-- Every command answers a next state whose slots and lists agree, each by the lemma of its operation. -/
theorem exec_lists (c : Instr) {s : State} (hl : s.listsOk) : ∃ t, exec c s = .next t ∧ t.listsOk := by
  cases c with
  | file i => exact ⟨_, rfl, writeControl_lists s i fileCode hl⟩
  | cancel i => exact ⟨_, rfl, writeControl_lists s i cancelCode hl⟩
  | release i => exact ⟨_, rfl, writeControl_lists s i releaseCode hl⟩
  | unknownRequest i v => exact ⟨_, rfl, writeControl_lists s i v hl⟩
  | hostExchangeWrite a v => exact ⟨_, rfl, writeExchange_lists s a v hl⟩
  | presenceTallyWrite v => exact ⟨_, rfl, hostAccess_lists s 4 _ hl fun _ => tally_lists s v hl⟩
  | noticesConsumedWrite v => exact ⟨_, rfl, hostAccess_lists s 8 _ hl fun _ => takeConsumed_lists s v hl⟩
  | noticesLostWrite v => exact ⟨_, rfl, hostAccess_lists s 10 _ hl fun _ => takeLost_lists s v hl⟩
  | runSet w | runClear w | presenceLevel w | interruptLevel w | resume w | engineReset w =>
    exact ⟨_, rfl, writeCtrl_lists s w hl⟩
  | statClearDiscard w | statClearRefused w =>
    exact ⟨s.writeStat w, rfl, listsOk_inert rfl rfl rfl rfl rfl rfl rfl hl⟩
  | ignoredWindowWrite target v => exact ⟨s, rfl, hl⟩
  | hardwareReset => exact ⟨_, rfl, hardwareReset_lists s⟩
  | resetRelease => exact ⟨_, rfl, resetRelease_lists s hl⟩
  | bclrPulseEnd => exact ⟨_, rfl, bclrPulseEnd_lists s hl⟩
  | jobStart k => exact ⟨_, rfl, jobStart_lists s k hl⟩
  | cancelNoticeTaken k => exact ⟨_, rfl, cancelNoticeTaken_lists s k hl⟩
  | endReportTaken k => exact ⟨_, rfl, endReportTaken_lists s k hl⟩
  | busGrant => exact ⟨_, rfl, grantBus_lists s hl⟩
  | registerWriteEnd => exact ⟨_, rfl, registerWriteEnd_lists s hl⟩
  | registerReadEnd => exact ⟨_, rfl, registerReadEnd_lists s hl⟩
  | attentionReadEnd => exact ⟨_, rfl, attentionReadEnd_lists s hl⟩
  | burstEnd => exact ⟨_, rfl, burstEnd_lists s hl⟩
  | burstStop => exact ⟨_, rfl, burstStop_lists s hl⟩
  | stallTimeout => exact ⟨_, rfl, stallTimeout_lists s hl⟩
  | burstStallEnd => exact ⟨_, rfl, burstStallEnd_lists s hl⟩
  | checkOutEnd => exact ⟨_, rfl, checkOutEnd_lists s hl⟩
  | checkInEnd => exact ⟨_, rfl, checkInEnd_lists s hl⟩
  | abandonEnd => exact ⟨_, rfl, abandonEnd_lists s hl⟩
  | readyTimeout => exact ⟨_, rfl, readyTimeout_lists s hl⟩
  | recoveryWidthEnd => exact ⟨_, rfl, recoveryWidthEnd_lists s hl⟩
  | pollIntervalEnd k => exact ⟨_, rfl, pollIntervalEnd_lists s k hl⟩
  | awaitTimeout k => exact ⟨_, rfl, awaitTimeout_lists s k hl⟩
  | pauseEnd k => exact ⟨_, rfl, pauseEnd_lists s k hl⟩
  | pulseEnd k => exact ⟨_, rfl, pulseEnd_lists s k hl⟩
  | settleWaitEnd k => exact ⟨_, rfl, settleWaitEnd_lists s k hl⟩
  | presenceTick => exact ⟨_, rfl, presenceTick_lists s hl⟩
  | standstillEntry => exact ⟨_, rfl, standstillEntry_lists s hl⟩
  | msClockTick => exact ⟨_, rfl, msClockTick_lists s hl⟩
  | presenceSample k level => exact ⟨_, rfl, presenceSample_lists s k level hl⟩
  | cardArrival k => exact ⟨_, rfl, cardArrival_lists s k hl⟩
  | atnChange k level => exact ⟨_, rfl, atnChange_lists s k level hl⟩
  | leaseGrantTaken k => exact ⟨_, rfl, leaseGrantTaken_lists s k hl⟩
  | strobeWidthEnd rdy stop data => exact ⟨_, rfl, strobeWidthEnd_lists s rdy stop data hl⟩
  | rdyRise stop data => exact ⟨_, rfl, rdyRise_lists s stop data hl⟩
  | strobeRecoveryEnd => exact ⟨_, rfl, strobeRecoveryEnd_lists s hl⟩

/-- Taking a command off the queue leaves the slots and every list alone, so a step keeps them in agreement. -/
theorem step_lists {s t : State} (hl : s.listsOk) (h : step s = .next t) : t.listsOk := by
  unfold step at h
  split at h
  · cases h
    exact hl
  · rename_i c rest _
    have hrest : ({ s with pending := rest } : State).listsOk := listsOk_inert rfl rfl rfl rfl rfl rfl rfl hl
    obtain ⟨u, hu, hk⟩ := exec_lists c hrest
    obtain rfl : u = t := Host.Outcome.next.inj (hu.symm.trans h)
    exact hk

/-- Settles O6: each command's operation keeps the lists, and two slots in progress on one card are both its active slot. -/
theorem stepKeepsSlotsListed : Obligations.StepKeepsSlotsListed := by
  refine ⟨fun s t hl h => step_lists hl h, fun s c i j hl hi hj hpi hpj => ?_⟩
  have hactive : (s.card c).activeSlot = some i := active_of_progress hl hpi hi
  exact Option.some.inj (hactive.symm.trans (active_of_progress hl hpj hj))

end Sys2Proof.Machine

/-! ## The checks of a profile -/

namespace Sys2Proof.Machine

/-- The eight checks of R66, in word order. -/
def ProfileWords.checks (p : ProfileWords) : List Bool :=
  [decide (2 ≤ p.w0.toNat ∧ p.w0.toNat ≤ 63), decide (1 ≤ p.w1.toNat ∧ p.w1.toNat ≤ 63),
   decide (1 ≤ p.w2.toNat ∧ p.w2.toNat ≤ 1000), decide (1 ≤ p.w3.toNat ∧ p.w3.toNat ≤ 1000), decide (p.w4.toNat ≤ 4),
   decide (p.w5.toNat ≤ 4), decide (lowByte p.w6 ≤ 63 ∧ highByte p.w6 ≤ 63), decide (lowByte p.w7 ≤ 63 ∧ highByte p.w7 ≤ 63)]

theorem registersOk_eq (w : Word) : registersOk w = decide (lowByte w ≤ 63 ∧ highByte w ≤ 63) := by
  rw [Bool.eq_iff_iff]
  simp only [registersOk, Bool.and_eq_true, decide_eq_true_eq]
  omega

theorem outOfRange_iff (n lo hi : Nat) : (decide (n < lo) || decide (hi < n)) = true ↔ ¬ (lo ≤ n ∧ n ≤ hi) := by
  simp only [Bool.or_eq_true, decide_eq_true_eq]
  omega

/-- The number the dispatcher reports is that of the first check that fails. -/
theorem ProfileWords.invalid_eq_findIdx (p : ProfileWords) : p.invalid = p.checks.findIdx? (fun b => !b) := by
  simp only [ProfileWords.invalid, ProfileWords.checks, registersOk_eq, outOfRange_iff, Nat.not_le, List.findIdx?_cons,
    List.findIdx?_nil, Bool.not_eq_true', decide_eq_false_iff_not, apply_ite (Option.map _), Option.map_some, Option.map_none,
    Nat.zero_add, Nat.reduceAdd]

/-- Settles O33: a first failing check is a first index of the list of checks. -/
theorem profileChecksInOrder : Obligations.ProfileChecksInOrder := by
  intro p
  show (p.invalid = none ↔ ∀ b ∈ p.checks, b = true) ∧
    ∀ n : Nat, p.invalid = some n ↔ p.checks[n]? = some false ∧ ∀ m, m < n → p.checks[m]? = some true
  rw [p.invalid_eq_findIdx]
  refine ⟨by simp [List.findIdx?_eq_none_iff], fun n => ?_⟩
  rw [List.findIdx?_eq_some_iff_getElem]
  constructor
  · rintro ⟨hn, hfail, hpass⟩
    refine ⟨?_, fun m hm => ?_⟩
    · simpa [List.getElem?_eq_getElem hn] using hfail
    · simpa [List.getElem?_eq_getElem (hm.trans hn)] using hpass m hm
  · rintro ⟨hfail, hpass⟩
    obtain ⟨hn, hfail⟩ := List.getElem?_eq_some_iff.1 hfail
    refine ⟨hn, by simp [hfail], fun m hm => ?_⟩
    obtain ⟨_, hm⟩ := List.getElem?_eq_some_iff.1 (hpass m hm)
    simp [hm]

end Sys2Proof.Machine

/-! ## The latch of a profile at the attention unit -/

namespace Sys2Proof.Machine

/-- A latch with another sense drops a WAITING attention, makes a READING one void, and re-arms (R126, R136). -/
theorem latchNewSense_eq (k : Card) : k.latchNewSense = { k with
    detector := if k.presence = .ready then rearmed k.sense k.atnLine else .disarmed
    baseline := k.atnLine
    attnPhase := if k.attnPhase = .waiting ∨ k.attnPhase = .reading then .quiet else k.attnPhase
    attnReq := if k.attnPhase = .waiting then none else k.attnReq
    voidRead := if k.attnPhase = .reading then true else k.voidRead } := by
  unfold Card.latchNewSense Card.rearm
  cases k.attnPhase <;> simp [Card.sense]

/-- The state in which a started job's sequencer takes its slot is the one its queue and its latch leave. -/
theorem jobStart_latched {s : State} {c : CardId} {i : SlotId} (hrun : s.engine = .running)
    (hslot : (s.card c).activeSlot = none) (hidle : (s.card c).seq.phase = .idle) (hstarts : s.startsSlot c i)
    (hvalid : (s.profileWords c).invalid = none) {u : State}
    (hu : (s.updCard c fun k => { k with queue := k.queue.filter fun j => j ≠ i }).latchProfile c (s.profileWords c).latch = u) :
    s.jobStart c = runSteps (s.slotWord i 3).toNat c (u.activate c i) ∧
      (u.activate c i).card c = { u.card c with
        startedFaulted := decide ((s.card c).presence = .faulted)
        seq := { (s.card c).seq with active := some i, listAddr := s.slotWord i 2, stepCount := (s.slotWord i 3).toNat
                                     stepIndex := 0, copy := none, stop := false } } := by
  generalize hq : (s.updCard c fun k => { k with queue := k.queue.filter fun j => j ≠ i }) = q at hu
  have hcard : q.card c = { s.card c with queue := (s.card c).queue.filter fun j => j ≠ i } := by rw [← hq, card_updCard_same]
  obtain ⟨hseq, -, -, hpresence⟩ := card_latchProfile q c (s.profileWords c).latch (by rw [hcard]; exact hidle)
  have hkeeps := setProfile_keeps q c (s.profileWords c).latch
  rw [hu] at hseq hpresence hkeeps
  have hhead : ∀ n, n < 4 → u.slotWord i n = s.slotWord i n := fun n hn => by
    rw [hkeeps.slotHead i n hn, ← hq]
    rfl
  have hactive : (u.activate c i).card c = { u.card c with
      startedFaulted := decide ((s.card c).presence = .faulted)
      seq := { (s.card c).seq with active := some i, listAddr := s.slotWord i 2, stepCount := (s.slotWord i 3).toNat
                                   stepIndex := 0, copy := none, stop := false } } := by
    rw [card_activate_same, hseq, hpresence, hhead 2 (by decide), hhead 3 (by decide), hcard]
  refine ⟨?_, hactive⟩
  rw [jobStart_eq s c i hrun hslot hidle hstarts, State.startSlot, hvalid]
  simp only [hq, hu, State.stepsLeft, hactive, Nat.sub_zero]

theorem slot_activate_same (u : State) (c : CardId) (i : SlotId) :
    (u.activate c i).slot i = { state := .active, cause := none } := by
  rw [State.activate, slot_updCard, slot_setSlot, if_pos rfl]

theorem activate_sameSlotsBut (u : State) (c : CardId) (i : SlotId) : u.sameSlotsBut (u.activate c i) i := fun j hj => by
  rw [State.activate, slot_updCard, slot_setSlot, if_neg hj]

/-- Settles O36: the latch acts by its sense and the attention's phase (`latchProfile_eq`), and then the sequencer takes the slot. -/
theorem latchActsOnAttention : Obligations.LatchActsOnAttention := by
  intro s c i hrun hslot hidle hstarts hvalid k p latched
  obtain ⟨hstart, hcard⟩ := jobStart_latched hrun hslot hidle hstarts hvalid rfl
  obtain ⟨hother, hsame, hlist, hempty⟩ :=
    latchProfile_eq s c (fun k => { k with queue := k.queue.filter fun j => j ≠ i }) p k latched rfl rfl rfl rfl
  refine ⟨_, _, next_congr hstart, hcard, fun d hd => card_activate_other _ c d i hd, slot_activate_same _ c i,
    activate_sameSlotsBut _ c i, activate_frame _ c i, fun hsense => ?_, hsame, hlist, hempty⟩
  exact ⟨_, rearm_rearmsTo { k with profile := p },
    (hother hsense).trans (congrArg (fun x => s.updCard c fun _ => x) (latchNewSense_eq latched))⟩

end Sys2Proof.Machine

/-! ## Card arrival -/

namespace Sys2Proof.Machine

/-- Settles O59: the arrival and the sample that makes it are one act, `State.arrive`. -/
theorem cardArrivalMakesReady : Obligations.CardArrivalMakesReady := by
  intro s c hopen hsettling hcount
  refine ⟨s.updCard c fun k => { k with presence := .ready, settle := 0, profile := Profile.default }.rearm, ⟨?_, ?_⟩, ?_, ?_, rfl⟩
  · refine next_congr ?_
    rw [State.cardArrival, if_pos (by simp [hopen, hsettling, hcount, Config.settleFull])]
    rfl
  · refine next_congr ?_
    unfold State.presenceSample State.sample
    rw [if_neg (by simp [hopen]), hsettling]
    exact if_pos (by simp [hcount, Config.settleFull])
  · rw [card_updCard_same]
    rfl
  · exact fun d hd => card_updCard_other _ _ _ _ hd

end Sys2Proof.Machine

/-! ## What the host reads -/

namespace Sys2Proof.Machine

/-! ### Bits of the words read -/

/-- A bit above a number that fits below it is 0. -/
theorem getLsbD_of_toNat_lt {w : Word} {n : Nat} (h : w.toNat < 2 ^ n) {m : Nat} (hm : n ≤ m) : w.getLsbD m = false := by
  rw [← BitVec.testBit_toNat]
  exact Nat.testBit_lt_two_pow (h.trans_le (Nat.pow_le_pow_right (by decide) hm))

theorem engineCode_high (e : EngineState) {n : Nat} (hn : 3 ≤ n) : e.code.getLsbD n = false :=
  getLsbD_of_toNat_lt (n := 3) (by cases e <;> decide) hn

theorem presenceCode_high (p : Presence) {n : Nat} (hn : 2 ≤ n) : p.code.getLsbD n = false :=
  getLsbD_of_toNat_lt (n := 2) (by cases p <;> decide) hn

theorem getLsbD_flagAt (b : Bool) {n : Nat} (hn : n < 16) (m : Nat) : (flagAt b n).getLsbD m = (b && decide (m = n)) := by
  cases b with
  | false => simp [flagAt]
  | true =>
    rw [flagAt, if_pos rfl, wordOf, BitVec.getLsbD_ofNat, Nat.testBit_two_pow, Bool.eq_iff_iff]
    simp only [Bool.and_eq_true, decide_eq_true_eq, true_and]
    omega

/-- A number written into a word from bit `n` on. -/
theorem getLsbD_shifted (n x m : Nat) :
    (wordOf (2 ^ n * x)).getLsbD m = (decide (m < 16) && (decide (n ≤ m) && x.testBit (m - n))) := by
  rw [wordOf, BitVec.getLsbD_ofNat, Nat.testBit_two_pow_mul]

theorem getLsbD_statWord (s : State) (n : Nat) : s.statWord.getLsbD n =
    (s.engine.code.getLsbD n || s.noticesWaiting && decide (n = 4) || s.lostNonzero && decide (n = 5) ||
      s.statDiscard && decide (n = 8) || s.statRefused && decide (n = 9)) := by
  simp [State.statWord, getLsbD_flagAt]

theorem getLsbD_ctrlWord (s : State) (n : Nat) : s.ctrlWord.getLsbD n =
    (s.ctrlRun && decide (n = 0) || s.ctrlPresence && decide (n = 1) || s.ctrlInterrupt && decide (n = 2)) := by
  simp [State.ctrlWord, getLsbD_flagAt]

/-- The fields of the card state word (11.4): presence, the pending and claimable flags, the active slot with its mark, and the length of
the queue. -/
theorem getLsbD_stateWord (k : Card) (n : Nat) : k.stateWord.getLsbD n =
    (k.presence.code.getLsbD n || k.pendingFlag && decide (n = 2) || k.claimable && decide (n = 3) ||
      (k.activeSlot.any (fun i => decide (n < 16) && (decide (4 ≤ n) && i.val.testBit (n - 4))) ||
        k.activeSlot.isSome && decide (n = 9)) ||
      decide (n < 16) && (decide (10 ≤ n) && k.queue.length.testBit (n - 10))) := by
  have hslot : ∀ x, (wordOf (16 * x)).getLsbD n = (decide (n < 16) && (decide (4 ≤ n) && x.testBit (n - 4))) :=
    fun x => getLsbD_shifted 4 x n
  have hlength : ∀ x, (wordOf (1024 * x)).getLsbD n = (decide (n < 16) && (decide (10 ≤ n) && x.testBit (n - 10))) :=
    fun x => getLsbD_shifted 10 x n
  unfold Card.stateWord
  cases k.activeSlot with
  | none => simp [getLsbD_flagAt, hlength]
  | some i => simp [getLsbD_flagAt, hslot, hlength]

/-- A field of a word holds the number whose bits stand in it. -/
theorem extract_toNat {w : Word} {start len x : Nat} (hx : x < 2 ^ len)
    (h : ∀ m, m < len → w.getLsbD (start + m) = x.testBit m) : (w.extractLsb' start len).toNat = x := by
  refine Nat.eq_of_testBit_eq fun m => ?_
  rw [BitVec.testBit_toNat, BitVec.getLsbD_extractLsb']
  by_cases hm : m < len
  · simp [hm, h m hm]
  · have hhigh : x.testBit m = false := Nat.testBit_lt_two_pow (hx.trans_le (Nat.pow_le_pow_right (by decide) (by omega)))
    simp [hm, hhigh]

/-! ### The card state word -/

theorem testBit_slot_high (i : SlotId) {n : Nat} (hn : 5 ≤ n) : i.val.testBit n = false :=
  Nat.testBit_lt_two_pow (i.isLt.trans_le (Nat.pow_le_pow_right (by decide : 0 < 2) hn : 2 ^ 5 ≤ 2 ^ n))

theorem stateWord_presence (k : Card) : k.stateWord.extractLsb' 0 2 = k.presence.code.extractLsb' 0 2 := by
  refine BitVec.eq_of_getLsbD_eq fun m hm => ?_
  rw [BitVec.getLsbD_extractLsb', BitVec.getLsbD_extractLsb', getLsbD_stateWord]
  simp [show m ≠ 2 by omega, show m ≠ 3 by omega, show m ≠ 9 by omega, show ¬ 4 ≤ m by omega, show ¬ 10 ≤ m by omega]

theorem stateWord_pending (k : Card) : k.stateWord.getLsbD 2 = (k.attnPhase != .quiet) := by
  rw [getLsbD_stateWord, presenceCode_high _ (by decide)]
  simp [Card.pendingFlag]

theorem stateWord_claimable (k : Card) : k.stateWord.getLsbD 3 = k.claimable := by
  rw [getLsbD_stateWord, presenceCode_high _ (by decide)]
  simp

/-- From bit 4 on the card state word holds the active slot, its mark and the queue length alone. -/
theorem getLsbD_stateWord_high (k : Card) {n : Nat} (hn : 4 ≤ n) : k.stateWord.getLsbD n =
    (k.activeSlot.any (fun i => decide (n < 16) && i.val.testBit (n - 4)) || k.activeSlot.isSome && decide (n = 9) ||
      decide (n < 16) && (decide (10 ≤ n) && k.queue.length.testBit (n - 10))) := by
  rw [getLsbD_stateWord, presenceCode_high _ (by omega)]
  simp [hn, show n ≠ 2 by omega, show n ≠ 3 by omega]

theorem stateWord_marksSlot (k : Card) : k.stateWord.getLsbD 9 = k.activeSlot.isSome := by
  rw [getLsbD_stateWord_high k (by decide)]
  simp [testBit_slot_high]

theorem stateWord_slot {k : Card} {i : SlotId} (h : k.activeSlot = some i) : (k.stateWord.extractLsb' 4 5).toNat = i.val := by
  refine extract_toNat i.isLt fun m hm => ?_
  rw [getLsbD_stateWord_high k (by omega), h]
  simp [show 4 + m < 16 by omega, show 4 + m ≠ 9 by omega, show ¬ 10 ≤ 4 + m by omega]

theorem stateWord_noSlot {k : Card} (h : k.activeSlot = none) : k.stateWord.extractLsb' 4 5 = 0 := by
  refine BitVec.eq_of_toNat_eq (extract_toNat (by decide) fun m hm => ?_)
  rw [getLsbD_stateWord_high k (by omega), h]
  simp [show ¬ 10 ≤ 4 + m by omega]

theorem stateWord_queue {k : Card} (h : k.queue.length ≤ 32) : (k.stateWord.extractLsb' 10 6).toNat = k.queue.length := by
  refine extract_toNat (by omega) fun m hm => ?_
  have hslot : ∀ i : SlotId, i.val.testBit (10 + m - 4) = false := fun i => testBit_slot_high i (by omega)
  rw [getLsbD_stateWord_high k (by omega)]
  simp [hslot, show 10 + m < 16 by omega, show 10 + m ≠ 9 by omega]

/-! ### The register window -/

theorem windowRead_ctrl {s : State} (h : s.resetPin = false) : s.windowRead 0 = s.ctrlWord := by simp [State.windowRead, h]

theorem windowRead_stat {s : State} (h : s.resetPin = false) : s.windowRead 1 = s.statWord := by simp [State.windowRead, h]

theorem windowRead_fourth {s : State} (h : s.resetPin = false) : s.windowRead 3 = 0 := by simp [State.windowRead, h]

theorem statWord_engine (s : State) : s.statWord.extractLsb' 0 4 = s.engine.code.extractLsb' 0 4 := by
  refine BitVec.eq_of_getLsbD_eq fun m hm => ?_
  rw [BitVec.getLsbD_extractLsb', BitVec.getLsbD_extractLsb', getLsbD_statWord]
  simp [show m ≠ 4 by omega, show m ≠ 5 by omega, show m ≠ 8 by omega, show m ≠ 9 by omega]

theorem statWord_flags (s : State) : s.statWord.getLsbD 4 = s.noticesWaiting ∧ s.statWord.getLsbD 5 = s.lostNonzero ∧
    s.statWord.getLsbD 8 = s.statDiscard ∧ s.statWord.getLsbD 9 = s.statRefused := by
  have hflags : ∀ n, 3 ≤ n → s.statWord.getLsbD n = (s.noticesWaiting && decide (n = 4) || s.lostNonzero && decide (n = 5) ||
      s.statDiscard && decide (n = 8) || s.statRefused && decide (n = 9)) := fun n hn => by
    rw [getLsbD_statWord, engineCode_high _ hn, Bool.false_or]
  rw [hflags 4 (by decide), hflags 5 (by decide), hflags 8 (by decide), hflags 9 (by decide)]
  simp

/-- The bits of STAT that are no flag and no part of the engine code read 0 (R215). -/
theorem statWord_unused (s : State) {n : Nat} (hn : n = 3 ∨ n = 6 ∨ n = 7 ∨ 10 ≤ n) : s.statWord.getLsbD n = false := by
  rw [getLsbD_statWord, engineCode_high _ (by omega)]
  simp [show n ≠ 4 by omega, show n ≠ 5 by omega, show n ≠ 8 by omega, show n ≠ 9 by omega]

theorem ctrlWord_levels (s : State) : s.ctrlWord.getLsbD 0 = s.ctrlRun ∧ s.ctrlWord.getLsbD 1 = s.ctrlPresence ∧
    s.ctrlWord.getLsbD 2 = s.ctrlInterrupt := by
  rw [getLsbD_ctrlWord, getLsbD_ctrlWord, getLsbD_ctrlWord]
  simp

theorem ctrlWord_unused (s : State) {n : Nat} (hn : 3 ≤ n) : s.ctrlWord.getLsbD n = false := by
  rw [getLsbD_ctrlWord]
  simp [show n ≠ 0 by omega, show n ≠ 1 by omega, show n ≠ 2 by omega]

/-! ### The exchange memory -/

theorem exchangeRead_initializing {s : State} (h : s.engine = .initializing) (a : WordAddr) : s.exchangeRead a = 0 := by
  simp [State.exchangeRead, h]

theorem exchangeRead_open {s : State} (hpin : s.resetPin = false) (h : s.engine ≠ .initializing) (a : WordAddr) :
    s.exchangeRead a = s.content a := by
  simp [State.exchangeRead, hpin, h]

theorem content_header (s : State) {a : WordAddr} (h : a.toNat < 16) : s.content a = s.headerWord a.toNat := by
  rw [State.content, if_pos h]

theorem content_slot (s : State) {a : WordAddr} {i : SlotId} (h : 2 * a.toNat = slotAddr i 0) :
    s.content a = (s.slot i).state.code := by
  simp only [slotAddr, Config.slotBase] at h
  have ha : a.toNat = 16 * i.val + 16 := by omega
  have hi : (⟨(a.toNat - 16) / 16, by omega⟩ : SlotId) = i := Fin.ext (by simp only; omega)
  rw [State.content, if_neg (by omega), dif_pos (by omega), if_pos (by omega), hi]

theorem content_card (s : State) {a : WordAddr} {c : CardId} (h : 2 * a.toNat = profileAddr c 8) :
    s.content a = (s.card c).stateWord := by
  simp only [profileAddr, Config.profileBase] at h
  have ha : a.toNat = 0x210 + 16 * c.val + 8 := by omega
  have hc : (⟨(a.toNat - 0x210) / 16, by omega⟩ : CardId) = c := Fin.ext (by simp only; omega)
  rw [State.content, if_neg (by omega), dif_neg (by omega), dif_pos (by omega), if_pos (by omega), hc]

/-- Past the header, a word that is neither a slot control word nor a card state word reads as stored (R190). -/
theorem content_stored (s : State) {a : WordAddr} (h : 0x0020 ≤ 2 * a.toNat) (hslot : ∀ i : SlotId, 2 * a.toNat ≠ slotAddr i 0)
    (hcard : ∀ c : CardId, 2 * a.toNat ≠ profileAddr c 8) : s.content a = s.word (2 * a.toNat) := by
  simp only [slotAddr, Config.slotBase, profileAddr, Config.profileBase] at hslot hcard
  rw [State.content, if_neg (by omega)]
  split
  · rename_i hlt
    refine if_neg fun hmod => hslot ⟨(a.toNat - 16) / 16, by omega⟩ ?_
    simp only
    omega
  · split
    · rename_i hlt
      refine if_neg fun hmod => hcard ⟨(a.toNat - 0x210) / 16, by omega⟩ ?_
      simp only
      omega
    · rfl

/-- Settles O27: the reads by the word they name, the register window and the card state word by their bits. -/
theorem hostReadsShowState : Obligations.HostReadsShowState := by
  refine ⟨fun s => ⟨rfl, fun _ => rfl, fun _ => rfl⟩, fun s hpin => ⟨exchangeRead_initializing, fun hopen => ?_, ?_, ?_,
    windowRead_fourth hpin, rfl⟩, fun k hqueue => ?_⟩
  · have hread := exchangeRead_open hpin hopen
    have hheader : ∀ a : WordAddr, a.toNat < 16 → s.exchangeRead a = s.headerWord a.toNat :=
      fun a ha => (hread a).trans (content_header s ha)
    refine ⟨fun hok => ?_, hheader 2 (by decide), hheader 3 (by decide), hheader 4 (by decide), hheader 5 (by decide),
      hheader 6 (by decide), hheader 7 (by decide), hheader 8 (by decide), hheader 9 (by decide), hheader 10 (by decide),
      hheader 11 (by decide), fun a => ⟨fun i hi => (hread a).trans (content_slot s hi),
        fun c hc => (hread a).trans (content_card s hc), fun ha hslot hcard => (hread a).trans (content_stored s ha hslot hcard)⟩⟩
    obtain ⟨h0, h1, h12, h13, h14, h15⟩ := hok hpin
    exact ⟨(hheader 0 (by decide)).trans h0, (hheader 1 (by decide)).trans h1, (hheader 12 (by decide)).trans h12,
      (hheader 13 (by decide)).trans h13, (hheader 14 (by decide)).trans h14, (hheader 15 (by decide)).trans h15⟩
  · rw [windowRead_stat hpin]
    obtain ⟨hnotices, hlost, hdiscard, hrefused⟩ := statWord_flags s
    exact ⟨statWord_engine s, hnotices, hlost, hdiscard, hrefused, fun n hn => statWord_unused s hn⟩
  · rw [windowRead_ctrl hpin]
    obtain ⟨hrun, hpresence, hinterrupt⟩ := ctrlWord_levels s
    exact ⟨hrun, hpresence, hinterrupt, fun n hn => ctrlWord_unused s hn⟩
  · exact ⟨stateWord_presence k, stateWord_pending k, stateWord_claimable k, stateWord_marksSlot k, fun i => stateWord_slot,
      stateWord_noSlot, stateWord_queue hqueue⟩

end Sys2Proof.Machine

/-! ## Leases given up -/

namespace Sys2Proof.Machine

theorem pageHolder_freePages (s : State) (i : SlotId) (p : PageId) :
    (s.freePages i).pageHolder.get p = if s.pageHolder.get p = some i then none else s.pageHolder.get p := get_tab _ p

theorem freePages_free_iff (s : State) (i : SlotId) (p : PageId) :
    (s.freePages i).pageHolder.get p = none ↔ s.pageHolder.get p = none ∨ s.pageHolder.get p = some i := by
  rw [pageHolder_freePages]
  by_cases hown : s.pageHolder.get p = some i <;> simp [hown]

theorem freePages_keeps_other {s : State} {i j : SlotId} {p : PageId} (hj : j ≠ i) (h : s.pageHolder.get p = some j) :
    (s.freePages i).pageHolder.get p = some j := by
  rw [pageHolder_freePages, h, if_neg fun he => hj (Option.some.inj he)]

theorem freePages_not_held (s : State) (i : SlotId) (p : PageId) : (s.freePages i).pageHolder.get p ≠ some i := by
  rw [pageHolder_freePages]
  split
  · exact nofun
  · assumption

/-- A freed table names no holder it did not name before. -/
theorem held_of_freePages {s : State} {i j : SlotId} {p : PageId} (h : (s.freePages i).pageHolder.get p = some j) :
    s.pageHolder.get p = some j := by
  rw [pageHolder_freePages] at h
  split at h
  · exact nomatch h
  · exact h

theorem breach_freePages (s : State) (i : SlotId) : (s.freePages i).breach.get i = none := get_upd_same _ _ _

/-- A stream step in progress gives up what it has at the lease table, and then its record (R33, R96). -/
theorem dropStream_active {s : State} {c : CardId} {i : SlotId} (ha : (s.card c).seq.active = some i)
    (hst : (s.card c).stream.isSome = true) : s.dropStream c = (s.dropLease c i).updCard c fun k => { k with stream := none } := by
  obtain ⟨m, hm⟩ := Option.isSome_iff_exists.1 hst
  rw [State.dropStream, ha, hm]

theorem dropLease_releases {s : State} {c : CardId} {i : SlotId} (h : ∀ q ∈ s.leaseWaiting, q.slot ≠ i) :
    s.dropLease c i = (s.releaseLeases i).updCard c fun k => { k with leaseGrant := false } := by
  have hnone : (s.leaseWaiting.any fun q => q.slot = i) = false := by simpa using h
  rw [State.dropLease, hnone]
  rfl

theorem dropLease_withdraws {s : State} {c : CardId} {i : SlotId} (h : ∃ q ∈ s.leaseWaiting, q.slot = i) :
    s.dropLease c i = ({ s with leaseWaiting := s.leaseWaiting.filter fun q => q.slot ≠ i } : State).updCard c fun k =>
      { k with leaseGrant := false } := by
  have hsome : (s.leaseWaiting.any fun q => q.slot = i) = true := by simpa using h
  rw [State.dropLease, hsome]
  rfl

/-- Settles O51: what an examination does (`examineLeases_spec`, `examineLeases_inOrder`), of the list with the slot's pages freed. -/
theorem leasesGivenUp : Obligations.LeasesGivenUp := by
  refine ⟨fun s i hwait => ?_, fun s i => ?_, fun s c i ha hst => ⟨fun hnone => ?_, fun hsome => ?_⟩⟩
  · obtain ⟨hfree, hkept, hbreach, hfewer, hblocked, -, htaken⟩ := examineLeases_spec i s.leaseWaiting (s.freePages i) hwait
    refine ⟨hfree (freePages_not_held s i), fun p j hj h => hkept p j (freePages_keeps_other hj h), hbreach (breach_freePages s i),
      fun q hq => hblocked q hq (hfewer q hq), fun p j h hnew => htaken p j h fun hold => hnew (held_of_freePages hold), fun a => ?_⟩
    exact congrArg (readByte · a) (examineLeases_mem s.leaseWaiting (s.freePages i))
  · obtain ⟨granted, hgranted, huntaken, -, -, hsub, hleft⟩ := examineLeases_inOrder s.leaseWaiting (s.freePages i)
    simp only [freePages_free_iff] at hgranted
    simp only [pageHolder_freePages] at huntaken
    exact ⟨granted, hgranted, huntaken, hsub, fun q hq => (hleft q).trans (and_iff_right hq)⟩
  · rw [dropStream_active ha hst, dropLease_releases hnone, updCard_updCard]
  · rw [dropStream_active ha hst, dropLease_withdraws hsome, updCard_updCard]

end Sys2Proof.Machine

/-! ## Writes into a leased page -/

namespace Sys2Proof.Machine

theorem pageOf_eq {n : Nat} {p : PageId} (hlo : 0x4000 + 128 * p.val ≤ n) (hhi : n < 0x4000 + 128 * (p.val + 1)) : pageOf n = p := by
  refine Fin.ext ?_
  simp only [pageOf, Config.pageBase]
  omega

theorem reportPageWrite_free {s : State} {p : PageId} (h : s.pageHolder.get p = none) : s.reportPageWrite p = s := by
  rw [State.reportPageWrite, h]

/-- The holder of a page written has the page as its breach, unless it has one already (R91). -/
theorem breach_reportPageWrite {s : State} {p : PageId} {i : SlotId} (h : s.pageHolder.get p = some i) (j : SlotId) :
    (s.reportPageWrite p).breach.get j = if j = i ∧ s.breach.get i = none then some p else s.breach.get j := by
  rw [State.reportPageWrite, h]
  by_cases hfirst : s.breach.get i = none
  · simp [hfirst, get_upd]
  · simp [hfirst]

/-- A host write into a data page stores its word and reaches the lease table (R91, R183). -/
theorem hostExchangeWrite_page {s : State} {a : WordAddr} {v : Word} {p : PageId} (hopen : s.engine.closed = false)
    (hlo : 0x4000 + 128 * p.val ≤ 2 * a.toNat) (hhi : 2 * a.toNat < 0x4000 + 128 * (p.val + 1)) :
    exec (.hostExchangeWrite a v) s = .next ((s.setWord (2 * a.toNat) v).reportPageWrite p) := by
  refine next_congr ((open_access s _ _ hopen).trans ?_)
  rw [State.judgeWrite, classOf_page s a (by omega), pageOf_eq hlo hhi]

/-- Settles O22: the page written is reported to the lease table, whose breach records change as `breach_reportPageWrite` says. -/
theorem pageWriteBreachesLease : Obligations.PageWriteBreachesLease := by
  intro s a v p hopen hlo hhi
  have hholder : (s.setWord (2 * a.toNat) v).pageHolder = s.pageHolder := rfl
  have hbreach : (s.setWord (2 * a.toNat) v).breach = s.breach := rfl
  refine ⟨_, hostExchangeWrite_page hopen hlo hhi, fun hfree => ?_, fun i hheld => ⟨?_, fun j hj => ?_⟩⟩
  · rw [reportPageWrite_free (by rw [hholder, hfree]), hbreach]
  · rw [breach_reportPageWrite (i := i) (by rw [hholder, hheld]), hbreach]
    simp only [true_and]
  · rw [breach_reportPageWrite (i := i) (by rw [hholder, hheld]), hbreach, if_neg fun h => hj h.1]

end Sys2Proof.Machine

/-! ## A stream step asks for its pages -/

namespace Sys2Proof.Machine

/-- The request for burst `b` of a stream step with copy `e` (R73, R80). -/
def burstRequest (c : CardId) (dir : StreamDir) (e : StepRecord) (b : Nat) : Request :=
  { card := c, kind := dir.burstKind, regs := [e.register], count := min 64 (e.w3.toNat - 64 * b), data := 0, opening := b == 0 }

/-- A stream step's record is changed and its next tenure requested (R36, R74). -/
theorem updStream_requestJob {s : State} {c : CardId} {e : StepRecord} {m : StreamRec} (hc : (s.card c).seq.copy = some e)
    (hst : (s.card c).stream = some m) (f : StreamRec → StreamRec) (kind : TenureKind) (n : Nat) (d : Word) (opening : Bool) :
    (s.updStream c f).requestJob c kind n d opening = s.updCard c fun k =>
      { k.asks { card := c, kind := kind, regs := [e.register], count := n, data := d, opening := opening } with
        stream := some (f m) } := by
  rw [State.updStream, requestJob_asks (e := e) (by rw [card_updCard_same]; exact hc), updCard_updCard]
  refine updCard_congr _ _ _ _ ?_
  rw [hst]
  rfl

/-- A granted stream step bursts, with burst 0 requested (R78). -/
theorem beginBursts_eq {s : State} {c : CardId} {e : StepRecord} {m : StreamRec} (hc : (s.card c).seq.copy = some e)
    (hst : (s.card c).stream = some m) (dir : StreamDir) : s.beginBursts c dir = s.updCard c fun k =>
      { k.asks (burstRequest c dir e 0) with stream := some { m with stage := .bursting } } := by
  have hrecord : (s.updStream c fun m => { m with stage := .bursting }).record c = e := record_updCard_copy s c _ e hc
  rw [State.beginBursts, State.requestBurst, hrecord, updStream_requestJob hc hst]
  rfl

/-- Pages that are all free are leased at once, and burst 0 is requested (R76, R78). -/
theorem startStream_granted {s : State} {c : CardId} {e : StepRecord} (hc : (s.card c).seq.copy = some e) (i : SlotId)
    (dir : StreamDir) (hfree : s.pagesFree e.firstPage e.pageCount = true) : s.startStream c i dir =
      (s.holdPages i e.firstPage e.pageCount).updCard c fun k =>
        { k.asks (burstRequest c dir e 0) with
          leaseGrant := false, stream := some { StreamRec.start dir with stage := .bursting } } := by
  have hstart : s.startStream c i dir = ((s.holdPages i e.firstPage e.pageCount).updCard c fun k =>
      { k with stream := some (StreamRec.start dir), leaseGrant := false }).beginBursts c dir := by
    rw [State.startStream, record_of_copy s c e hc]
    exact if_pos hfree
  rw [hstart, beginBursts_eq (e := e) (m := StreamRec.start dir) (by rw [card_updCard_same]; exact hc) (by rw [card_updCard_same]),
    updCard_updCard]
  rfl

/-- Pages that are not all free make the step wait for them (R74, R76). -/
theorem startStream_waits {s : State} {c : CardId} {e : StepRecord} (hc : (s.card c).seq.copy = some e) (i : SlotId)
    (dir : StreamDir) (hheld : ¬ s.pagesFree e.firstPage e.pageCount = true) : s.startStream c i dir =
      (s.waitLease { slot := i, card := c, first := e.firstPage, count := e.pageCount }).updCard c fun k =>
        { k with leaseGrant := false, stream := some (StreamRec.start dir), seq := { k.seq with phase := .leaseWait } } := by
  have hstart : s.startStream c i dir =
      ((s.waitLease { slot := i, card := c, first := e.firstPage, count := e.pageCount }).updCard c fun k =>
        { k with stream := some (StreamRec.start dir), leaseGrant := false }).updSeq c fun q => { q with phase := .leaseWait } := by
    rw [State.startStream, record_of_copy s c e hc]
    exact if_neg hheld
  rw [hstart, State.updSeq, updCard_updCard]

/-- A request that waits stands behind the older slots of the acceptance-order list and ahead of the younger (R76). -/
theorem waitLease_place (s : State) (r : LeaseRequest) : ∃ front back, s.leaseWaiting = front ++ back ∧
    (s.waitLease r).leaseWaiting = front ++ r :: back ∧
    (∀ q ∈ front, s.acceptOrder.idxOf q.slot < s.acceptOrder.idxOf r.slot) ∧
    ∀ q, back.head? = some q → s.acceptOrder.idxOf r.slot ≤ s.acceptOrder.idxOf q.slot := by
  refine ⟨_, _, List.takeWhile_append_dropWhile.symm, rfl, fun q hq => ?_, fun q hq => ?_⟩
  · simpa [State.older] using List.mem_takeWhile_imp hq
  · have hnot := List.head?_dropWhile_not (fun q : LeaseRequest => s.older q.slot r.slot) s.leaseWaiting
    rw [hq] at hnot
    simpa [State.older] using hnot

/-- The step kind of a direction (R72). -/
def StreamDir.stepKind : StreamDir → StepKind
  | .into => .streamIn
  | .out => .streamOut

theorem beginKind_stream (s : State) (c : CardId) (i : SlotId) (dir : StreamDir) :
    s.beginKind c i dir.stepKind = (s.startStream c i dir, false) := by
  cases dir <;> rfl

theorem leaseGrantTaken_begins {s : State} {c : CardId} {m : StreamRec} (hg : (s.card c).leaseGrant = true)
    (hst : (s.card c).stream = some m) (ha : (s.card c).seq.active.isSome = true) (hp : (s.card c).seq.phase = .leaseWait) :
    s.leaseGrantTaken c = (s.updCard c fun k => { k with leaseGrant := false }).beginBursts c m.dir := by
  rw [State.leaseGrantTaken, hst]
  exact if_pos (by rw [hg, runningIn_of ha hp]; rfl)

/-- Settles O39: a stream step begins granted or waiting, and a grant taken later begins its bursts in the same way. -/
theorem streamAsksForPages : Obligations.StreamAsksForPages := by
  refine ⟨fun s c i r way ha hr hok hk => ?_, fun s c e m hg hst ha hp hc => next_congr ?_⟩
  · have hkind : r.kind = some way.stepKind := by
      rw [hk]
      cases way <;> rfl
    have hcopy : ((s.updSeq c fun q => { q with copy := some r }).card c).seq.copy = some r := by rw [card_updSeq_same]
    refine ⟨_, (startStep_valid s c i r _ ha hr hok hkind).trans (beginKind_stream _ c i way), fun hfree => ?_, fun hheld => ?_⟩
    · rw [startStream_granted hcopy i way ((pagesFree_iff _ _ _).2 fun p hp => hfree p hp), card_updCard_same]
      refine ⟨fun p hp => ?_, fun p hp => ?_, ?_, rfl, rfl, rfl, ?_⟩
      · exact (holdPages_get _ _ _ _ _).trans (if_pos hp)
      · exact (holdPages_get _ _ _ _ _).trans (if_neg hp)
      · exact (holdPages_breach _ _ _ r.firstPage r.pageCount).trans (if_pos rfl)
      · cases way <;> rfl
    · obtain ⟨p, hp, hholder⟩ := hheld
      rw [startStream_waits hcopy i way fun hfree => hholder ((pagesFree_iff _ _ _).1 hfree p hp), card_updCard_same]
      exact ⟨rfl, rfl, rfl, waitLease_place _ _⟩
  · rw [leaseGrantTaken_begins hg hst ha hp, beginBursts_eq (e := e) (m := m) (by rw [card_updCard_same]; exact hc)
      (by rw [card_updCard_same]; exact hst), updCard_updCard]
    cases hdir : m.dir <;> rfl

end Sys2Proof.Machine

/-! ## The strobes of a burst -/

namespace Sys2Proof.Machine

/-- A word moved is counted and folded at the card's stream record (R81, R84). -/
theorem updStream_move {s : State} {c : CardId} {m : StreamRec} (hst : (s.card c).stream = some m) (w : Word) :
    (s.updStream c (StreamRec.move w)).card c = { s.card c with stream := some (m.move w) } := by
  rw [State.updStream, card_updCard_same, hst]
  rfl

theorem updStream_other {s : State} {c d : CardId} (h : d ≠ c) (f : StreamRec → StreamRec) : (s.updStream c f).card d = s.card d :=
  card_updCard_other _ _ _ _ h

theorem releaseStrobe_out {t : Tenure} (hk : t.req.kind = .burstOut) (s : State) (data : Word) : s.releaseStrobe t false data =
    (s.moveOut t.req.card t.driven).setTenure { t with phase := .recovery, moved := t.moved + 1 } := by
  rw [State.releaseStrobe, hk]
  rfl

theorem releaseStrobe_in {t : Tenure} (hk : t.req.kind = .burstIn) (s : State) (data : Word) : s.releaseStrobe t false data =
    (s.moveIn t.req.card data).setTenure { t with phase := .recovery, moved := t.moved + 1 } := by
  rw [State.releaseStrobe, hk]
  rfl

theorem moveOut_frame (s : State) (c : CardId) (w : Word) (t : Tenure) :
    { (s.moveOut c w).setTenure t with tenure := s.tenure, cards := s.cards, mem := s.mem } = s := rfl

theorem moveIn_frame (s : State) (c : CardId) (w : Word) (t : Tenure) :
    { (s.moveIn c w).setTenure t with tenure := s.tenure, cards := s.cards, mem := s.mem } = s := by
  unfold State.moveIn State.setWord
  generalize writeWord _ _ _ = mem
  rfl

theorem wordsMoved_of_stream {k : Card} {m : StreamRec} (h : k.stream = some m) : k.wordsMoved = m.wordsMoved := by
  rw [Card.wordsMoved, h]
  rfl

/-- The next word of a stream, in the pages its step copy names (R72). -/
theorem streamAddr_next {s : State} {c : CardId} {e : StepRecord} {m : StreamRec} {a : Nat} (hc : (s.card c).seq.copy = some e)
    (hst : (s.card c).stream = some m) (ha : a = 0x4000 + 128 * e.w1.toNat + 2 * m.wordsMoved) (hlt : a < 0x8000) :
    s.streamAddr c (s.card c).wordsMoved = a := by
  rw [State.streamAddr, record_of_copy s c e hc, wordsMoved_of_stream hst]
  simp only [Config.pageBase, StepRecord.firstPage]
  omega

/-- Settles O44: the word moved is the one driven or the one read, and a burst in writes it first. -/
theorem burstStrobeMovesWord : Obligations.BurstStrobeMovesWord := by
  intro s t data w c m hrel hkind hst
  refine ⟨_, exec_releases s t false data c hrel, ?_⟩
  rcases hkind with ⟨hk, rfl⟩ | ⟨hk, rfl⟩
  · rw [releaseStrobe_out hk]
    exact ⟨rfl, updStream_move hst _, fun d hd => updStream_other hd (StreamRec.move t.driven), fun _ _ => rfl,
      fun hin => absurd (hk.symm.trans hin) (by decide), moveOut_frame s _ _ _⟩
  · rw [releaseStrobe_in hk]
    refine ⟨rfl, updStream_move (s := s.setWord _ w) hst _, fun d hd => updStream_other hd (StreamRec.move w),
      fun hout => absurd (hk.symm.trans hout) (by decide), fun _ e a hc ha hlt => ?_, moveIn_frame s _ _ _⟩
    have haddr := streamAddr_next hc hst ha hlt
    refine ⟨?_, fun b hb => ?_⟩
    · rw [← haddr]
      exact word_setWord_same _ _ _
    · rw [← haddr] at hb
      exact readByte_writeWord_other _ _ _ _ (by omega)

end Sys2Proof.Machine

/-! ## The widths of a tenure -/

namespace Sys2Proof.Machine

/-- The strobes of an attention read are its registers, those of a burst its words (R97). -/
theorem strobes_left {t : Tenure} (h : t.req.kind = .attentionRead ∧ t.strobe + 1 < t.req.regs.length ∨
    (t.req.kind = .burstOut ∨ t.req.kind = .burstIn) ∧ t.strobe + 1 < t.req.count) : t.strobe + 1 < t.req.strobes := by
  rcases h with ⟨hk, hlt⟩ | ⟨hk | hk, hlt⟩ <;> rw [Request.strobes, hk] <;> exact hlt

theorem strobeRecoveryEnd_next {s : State} {t : Tenure} (ht : s.tenure = some t) (hp : t.phase = .recovery) (hm : t.mark = .going)
    (hleft : t.strobe + 1 < t.req.strobes) : s.strobeRecoveryEnd =
      s.setTenure { t with strobe := t.strobe + 1, phase := .strobe, driven := s.wordToDrive t.req } := by
  rw [State.strobeRecoveryEnd, ht]
  exact if_pos (by simp [Tenure.held, hp, hm, hleft])

theorem stallTimeout_stalls {s : State} {t : Tenure} (ht : s.tenure = some t) (hp : t.phase = .stretch) (hm : t.mark = .going)
    (hk : t.req.kind = .burstOut ∨ t.req.kind = .burstIn) :
    s.stallTimeout = s.setTenure { t with phase := .recovery, mark := .stalled } := by
  rw [State.stallTimeout, ht]
  exact if_pos (by simp [Tenure.held, hp, hm, (isBurst_iff _).2 hk])

/-- After a cut or a fault the recovery width frees the bus, and a reset that waited for it pulses BCLR (R111, R112, R208). -/
theorem recoveryWidthEnd_frees {s : State} {t : Tenure} (ht : s.tenure = some t) (hp : t.phase = .recovery)
    (hm : t.mark = .cut ∨ t.mark = .faulted) :
    s.recoveryWidthEnd = { s with tenure := none, bclr := s.bclr || s.engine = .resetting } := by
  rw [State.recoveryWidthEnd, ht]
  exact if_pos (by simp [hp, hm])

/-- Settles O45: each width's end, by the lemma of its command. -/
theorem tenureWidthsRunOut : Obligations.TenureWidthsRunOut := by
  refine fun s t ht => ⟨fun hp hm hleft => ?_, fun hp hm hk => next_congr (stallTimeout_stalls ht hp hm hk),
    fun hp hm => ⟨fun he => next_congr ?_, fun he => next_congr ?_⟩⟩
  · exact ⟨s.wordToDrive t.req, wordToDrive_drives s t.req, next_congr (strobeRecoveryEnd_next ht hp hm (strobes_left hleft))⟩
  · simp [recoveryWidthEnd_frees ht hp hm, he]
  · simp [recoveryWidthEnd_frees ht hp hm, he]

end Sys2Proof.Machine

/-! ## The end of a burst -/

namespace Sys2Proof.Machine

theorem burst_over {t : Tenure} (hp : t.phase = .recovery) (hm : t.mark = .going)
    (hk : t.req.kind = .burstOut ∨ t.req.kind = .burstIn) (hlast : t.req.count ≤ t.strobe + 1) : t.over = true := by
  refine over_of_strobes t hp hm ?_
  rcases hk with hk | hk <;> rw [Request.strobes, hk] <;> exact hlast

theorem burstEnd_takes {s : State} {t : Tenure} {i : SlotId} {e : StepRecord} (h : s.jobTenureOver t i e) (hm : t.mark = .going)
    (hk : t.req.kind = .burstOut ∨ t.req.kind = .burstIn) (hlast : t.req.count ≤ t.strobe + 1) :
    s.burstEnd = ({ s with tenure := none } : State).takeBurstEnd t.req.card i := by
  obtain ⟨-, hp, -⟩ := id h
  exact jobTenureEnd_eq s _ _ t i e h (by rw [burst_over hp hm hk hlast, (isBurst_iff _).2 hk]; rfl)

/-- Another burst follows burst `b` of a stream of `n` words where words are left past it (R73). -/
theorem lt_burstCount_iff (n b : Nat) : b + 1 < burstCount n ↔ 64 * (b + 1) < n := by
  simp only [burstCount, Config.pageWords]
  omega

/-- The order in which the end of a burst decides (R83). -/
theorem takeBurstEnd_eq {s : State} {c : CardId} {e : StepRecord} {m : StreamRec} (hc : (s.card c).seq.copy = some e)
    (hst : (s.card c).stream = some m) (i : SlotId) : s.takeBurstEnd c i =
      let t := s.setSlotWord i 6 (wordOf m.wordsMoved)
      if (s.breach.get i).isSome then t.beginAbandon c .breach
      else if (s.card c).seq.stop then t.beginAbandon c .stop
      else if 64 * (m.nextBurst + 1) < e.w3.toNat then t.nextBurst c m
      else t.beginClosing c m := by
  rw [State.takeBurstEnd, hst]
  simp only [record_setDetail, record_of_copy s c e hc, lt_burstCount_iff]
  rfl

/-- The closing tenure of a stream sent carries its running check (R85). -/
theorem beginClosing_out {s : State} {c : CardId} {e : StepRecord} {m : StreamRec} (hc : (s.card c).seq.copy = some e)
    (hst : (s.card c).stream = some m) (hdir : m.dir = .out) : s.beginClosing c m = s.updCard c fun k =>
      { k.asks { card := c, kind := .checkOut, regs := [e.register], count := 1, data := m.check, opening := false } with
        stream := some { m with stage := .closing } } := by
  refine Eq.trans ?_ (updStream_requestJob hc hst (fun m => { m with stage := .closing }) .checkOut 1 m.check false)
  rw [State.beginClosing, hdir]

/-- The closing tenure of a stream received carries nothing (R86). -/
theorem beginClosing_into {s : State} {c : CardId} {e : StepRecord} {m : StreamRec} (hc : (s.card c).seq.copy = some e)
    (hst : (s.card c).stream = some m) (hdir : m.dir = .into) : s.beginClosing c m = s.updCard c fun k =>
      { k.asks { card := c, kind := .checkIn, regs := [e.register], count := 1, data := 0, opening := false } with
        stream := some { m with stage := .closing } } := by
  refine Eq.trans ?_ (updStream_requestJob hc hst (fun m => { m with stage := .closing }) .checkIn 1 0 false)
  rw [State.beginClosing, hdir]

theorem burstEnd_decides {s : State} {t : Tenure} {i : SlotId} {e : StepRecord} {m : StreamRec} (h : s.jobTenureOver t i e)
    (hm : t.mark = .going) (hk : t.req.kind = .burstOut ∨ t.req.kind = .burstIn) (hlast : t.req.count ≤ t.strobe + 1)
    (hst : (s.card t.req.card).stream = some m) : s.burstEnd =
      let u := ({ s with tenure := none } : State).setSlotWord i 6 (wordOf m.wordsMoved)
      if (s.breach.get i).isSome then u.beginAbandon t.req.card .breach
      else if (s.card t.req.card).seq.stop then u.beginAbandon t.req.card .stop
      else if 64 * (m.nextBurst + 1) < e.w3.toNat then u.nextBurst t.req.card m
      else u.beginClosing t.req.card m := by
  obtain ⟨-, -, -, -, hcopy⟩ := id h
  exact (burstEnd_takes h hm hk hlast).trans (takeBurstEnd_eq (s := { s with tenure := none }) hcopy hst i)

/-- Settles O48: the burst's end decides as `burstEnd_decides` says, and each decision asks for its tenure. -/
theorem burstEndDecidesNextTenure : Obligations.BurstEndDecidesNextTenure := by
  intro s t i e m h hm hk hlast hst
  obtain ⟨-, -, -, -, hcopy⟩ := id h
  have hexec := burstEnd_decides h hm hk hlast hst
  refine ⟨fun hbreach => next_congr ?_, fun hno hstop => next_congr ?_, fun hno hstop hmore => next_congr ?_,
    fun hno hstop hdone => ⟨fun hdir => next_congr ?_, fun hdir => next_congr ?_⟩⟩
  · rw [hexec, if_pos (Option.isSome_iff_ne_none.2 hbreach)]
    exact beginAbandon_eq _ _ e m .breach hcopy hst
  · rw [hexec, if_neg (by simp [hno]), if_pos hstop]
    exact beginAbandon_eq _ _ e m .stop hcopy hst
  · rw [hexec, if_neg (by simp [hno]), if_neg (ne_true_of_eq_false hstop), if_pos hmore]
    exact nextBurst_eq _ _ e m hcopy hst
  · rw [hexec, if_neg (by simp [hno]), if_neg (ne_true_of_eq_false hstop), if_neg (not_lt.2 hdone)]
    exact beginClosing_out hcopy hst hdir
  · rw [hexec, if_neg (by simp [hno]), if_neg (ne_true_of_eq_false hstop), if_neg (not_lt.2 hdone)]
    exact beginClosing_into hcopy hst hdir

end Sys2Proof.Machine

/-! ## Streams cut short -/

namespace Sys2Proof.Machine

theorem burstEnded_iff (t : Tenure) (m : TenureMark) :
    t.burstEnded m = true ↔ t.phase = .recovery ∧ t.mark = m ∧ t.req.kind.isBurst = true := by
  simp [Tenure.burstEnded, and_assoc]

theorem burstStop_fails {s : State} {t : Tenure} {i : SlotId} {e : StepRecord} {m : StreamRec} (h : s.jobTenureOver t i e)
    (hst : (s.card t.req.card).stream = some m) (hm : t.mark = .stopped) (hk : t.req.kind = .burstOut ∨ t.req.kind = .burstIn) :
    s.burstStop = ({ s with tenure := none } : State).failWithDetail t.req.card .shortStream (wordOf m.wordsMoved) := by
  obtain ⟨-, hp, -⟩ := id h
  rw [← wordsMoved_of_stream hst]
  exact jobTenureEnd_eq s _ _ t i e h ((burstEnded_iff t _).2 ⟨hp, hm, (isBurst_iff _).2 hk⟩)

theorem burstStallEnd_abandons {s : State} {t : Tenure} {i : SlotId} {e : StepRecord} (h : s.jobTenureOver t i e)
    (hm : t.mark = .stalled) (hk : t.req.kind = .burstOut ∨ t.req.kind = .burstIn) :
    s.burstStallEnd = ({ s with tenure := none } : State).beginAbandon t.req.card .stall := by
  obtain ⟨-, hp, -⟩ := id h
  exact jobTenureEnd_eq s _ _ t i e h ((burstEnded_iff t _).2 ⟨hp, hm, (isBurst_iff _).2 hk⟩)

/-- An abandon tenure has no strobe, only its recovery width (R109). -/
theorem abandonEnd_takes {s : State} {t : Tenure} {i : SlotId} {e : StepRecord} (h : s.jobTenureOver t i e) (hm : t.mark = .going)
    (hk : t.req.kind = .abandon) : s.abandonEnd = ({ s with tenure := none } : State).takeAbandonEnd t.req.card i := by
  obtain ⟨-, hp, -⟩ := id h
  have hover : t.over = true := over_of_strobes t hp hm (by rw [Request.strobes, hk]; exact Nat.zero_le _)
  exact jobTenureEnd_eq s _ _ t i e h (by simp [hover, hk])

/-- The end of an abandon tenure by its reason (R90, R92, R94). -/
theorem takeAbandonEnd_reasons {s : State} {c : CardId} {m : StreamRec} (hst : (s.card c).stream = some m) (i : SlotId) :
    (m.stage = .abandoning .breach →
      s.takeAbandonEnd c i = s.failWithDetail c .leaseBreach (breachWord (s.breach.get i))) ∧
    (m.stage = .abandoning .stall → s.takeAbandonEnd c i = s.failWithDetail c .streamStalled (wordOf m.wordsMoved)) ∧
    (m.stage = .abandoning .stop → s.takeAbandonEnd c i = s.endJob c .stopped) := by
  rw [State.takeAbandonEnd, hst, Option.map_some, wordsMoved_of_stream hst]
  exact ⟨fun h => by rw [h], fun h => by rw [h], fun h => by rw [h]⟩

/-- Settles O49: each end hands its result to the sequencer, which fails the step, abandons the stream or stops. -/
theorem streamCutShortEnds : Obligations.StreamCutShortEnds := by
  intro s t i e m h hst c u fails
  obtain ⟨-, -, hactive, -, hcopy⟩ := id h
  have hfails : ∀ o w, u.failWithDetail c o w = (u.setSlotWord i 6 w).failJob c o (some w) := fun o w =>
    failWithDetail_eq u c i o w hactive
  refine ⟨fun hk hm => next_congr ((burstStop_fails h hst hm hk).trans (hfails _ _)), fun hk hm => next_congr ?_,
    fun hk hm => ?_⟩
  · exact (burstStallEnd_abandons h hm hk).trans (beginAbandon_eq u c e m .stall hcopy hst)
  · have hexec : s.abandonEnd = u.takeAbandonEnd c i := abandonEnd_takes h hm hk
    obtain ⟨hbreached, hstalled, hstopped⟩ := takeAbandonEnd_reasons (s := u) (c := c) hst i
    refine ⟨fun p hwhy hp => next_congr ?_, fun hwhy => next_congr ?_, fun hwhy => next_congr ?_⟩
    · have hword : breachWord (u.breach.get i) = wordOf p.val := congrArg breachWord hp
      rw [hexec, hbreached hwhy, hword]
      exact hfails _ _
    · rw [hexec, hstalled hwhy]
      exact hfails _ _
    · rw [hexec, hstopped hwhy]

end Sys2Proof.Machine

/-! ## The closing tenure -/

namespace Sys2Proof.Machine

/-- A check word sent is refused by STOP, and otherwise the stream is accepted (R85). -/
theorem checkOutEnd_takes {s : State} {t : Tenure} {i : SlotId} {e : StepRecord} (h : s.jobTenureOver t i e)
    (hm : t.mark = .going ∨ t.mark = .refused) (hk : t.req.kind = .checkOut) : s.checkOutEnd =
      if t.mark = .refused then ({ s with tenure := none } : State).failWithDetail t.req.card .checkRefused t.req.data
      else ({ s with tenure := none } : State).recheck t.req.card i t.req.data := by
  obtain ⟨-, hp, -⟩ := id h
  exact jobTenureEnd_eq s _ _ t i e h (by simp [hp, hm, hk])

/-- A check word received is compared with the running check (R86). -/
theorem checkInEnd_takes {s : State} {t : Tenure} {i : SlotId} {e : StepRecord} {m : StreamRec} {w : Word}
    (h : s.jobTenureOver t i e) (hst : (s.card t.req.card).stream = some m) (hm : t.mark = .going) (hk : t.req.kind = .checkIn)
    (hw : t.values = [w]) : s.checkInEnd =
      if w = m.check then ({ s with tenure := none } : State).recheck t.req.card i w
      else ({ s with tenure := none } : State).failWithDetail t.req.card .checkMismatch w := by
  obtain ⟨-, hp, -⟩ := id h
  have hover : t.over = true := over_of_strobes t hp hm (by rw [Request.strobes, hk]; exact Nat.le_add_left _ _)
  have hcheck : (s.card t.req.card).runningCheck = m.check := by rw [Card.runningCheck, hst]; rfl
  rw [← hcheck]
  refine (jobTenureEnd_eq s _ _ t i e h (by simp [hover, hk])).trans ?_
  simp only [hw, List.headD_cons]
  rfl

theorem recheck_breached {s : State} {c : CardId} {i : SlotId} {p : PageId} (ha : (s.card c).seq.active = some i)
    (hp : s.breach.get i = some p) (w : Word) :
    s.recheck c i w = (s.setSlotWord i 6 (wordOf p.val)).failJob c .leaseBreach (some (wordOf p.val)) := by
  rw [State.recheck, hp]
  exact failWithDetail_eq s c i _ _ ha

theorem recheck_unbreached {s : State} {i : SlotId} (hno : s.breach.get i = none) (c : CardId) (w : Word) :
    s.recheck c i w = ((s.setSlotWord i 6 w).dropStream c).finishStep c := by
  rw [State.recheck, hno]
  rfl

/-- A closing tenure with nothing against its check word is checked for a breach (R85, R86, R87). -/
theorem closingEnd_rechecks {s : State} {t : Tenure} {i : SlotId} {e : StepRecord} {m : StreamRec} {w : Word} {c : Instr}
    (h : s.jobTenureOver t i e) (hst : (s.card t.req.card).stream = some m)
    (hkind : t.req.kind = .checkOut ∧ w = t.req.data ∧ c = .checkOutEnd ∨
      t.req.kind = .checkIn ∧ t.values = [w] ∧ c = .checkInEnd)
    (hm : t.mark = .going) (hmatch : t.req.kind = .checkIn → w = m.check) :
    exec c s = .next (({ s with tenure := none } : State).recheck t.req.card i w) := by
  rcases hkind with ⟨hk, rfl, rfl⟩ | ⟨hk, hw, rfl⟩
  · exact next_congr ((checkOutEnd_takes h (.inl hm) hk).trans (if_neg (by rw [hm]; decide)))
  · exact next_congr ((checkInEnd_takes h hst hm hk hw).trans (if_pos (hmatch hk)))

/-- Settles O50: a check word refused or mismatched fails the step, and any other stream is rechecked. -/
theorem closingTenureTaken : Obligations.ClosingTenureTaken := by
  intro s t i e m w c h hst hkind d u
  obtain ⟨-, -, hactive, -, -⟩ := id h
  have hfails : ∀ o, ({ s with tenure := none } : State).failWithDetail d o w = u.failJob d o (some w) := fun o =>
    failWithDetail_eq _ d i o w hactive
  refine ⟨fun hk hm => ?_, fun hk hm hdiffers => ?_, fun hm hmatch => ?_⟩
  · rcases hkind with ⟨-, rfl, rfl⟩ | ⟨hin, -⟩
    · exact next_congr ((checkOutEnd_takes h (.inr hm) hk).trans ((if_pos hm).trans (hfails _)))
    · exact absurd (hk.symm.trans hin) (by decide)
  · rcases hkind with ⟨hout, -⟩ | ⟨-, hw, rfl⟩
    · exact absurd (hk.symm.trans hout) (by decide)
    · exact next_congr ((checkInEnd_takes h hst hm hk hw).trans ((if_neg hdiffers).trans (hfails _)))
  · have hexec := closingEnd_rechecks h hst hkind hm hmatch
    exact ⟨fun p hp => hexec.trans (next_congr (recheck_breached (s := { s with tenure := none }) hactive hp w)),
      fun hno => hexec.trans (next_congr (recheck_unbreached (s := { s with tenure := none }) hno d w))⟩

end Sys2Proof.Machine


/-! ## Initialisation -/

namespace Sys2Proof.Machine

/-- The exchange memory as initialisation leaves it: all 0 but for the signature and the revision (R187, R195). -/
def initialMemory : Memory := writeWord (writeWord [] 0 Config.signature) 2 Config.revision

theorem readWord_initialMemory_signature : readWord initialMemory 0 = Config.signature :=
  (readWord_writeWord_other _ 2 0 _ (.inl (by decide))).trans (readWord_writeWord_same _ _ _)

theorem readWord_initialMemory_revision : readWord initialMemory 2 = Config.revision := readWord_writeWord_same _ _ _

theorem readByte_initialMemory_zero {a : Nat} (h : 4 ≤ a) : readByte initialMemory a = 0 := by
  rw [initialMemory, readByte_writeWord_other _ _ _ _ (by omega), readByte_writeWord_other _ _ _ _ (by omega)]
  rfl

/-- The release of RESET begins the pulse on BCLR over the zero-filled memory (R121, R195, R197). -/
theorem resetRelease_initialises {s : State} (h : s.resetPin = true) : s.resetRelease =
    { s with resetPin := false, engine := .initializing, bclr := true, mem := initialMemory } := if_pos h

/-- The end of the pulse ends an initialisation and an engine reset alike (R197, R211). -/
theorem bclrPulseEnd_halts {s : State} (hb : s.bclr = true) (he : s.engine.closed = true) :
    s.bclrPulseEnd = { s with bclr := false, engine := .halted } := if_pos (by rw [hb, he]; rfl)

/-- Settles O10: the two ends of the pulse on BCLR, with the memory read through `initialMemory`. -/
theorem initialisationRunsToHalted : Obligations.InitialisationRunsToHalted := by
  refine ⟨fun s hpin => ⟨_, next_congr (resetRelease_initialises hpin), rfl, rfl, rfl, readWord_initialMemory_signature,
    readWord_initialMemory_revision, fun a ha => readByte_initialMemory_zero ha, rfl⟩, fun s hb he => ?_⟩
  exact next_congr (bclrPulseEnd_halts hb ((closed_iff _).2 he))

end Sys2Proof.Machine

/-! ## The end of a strobe's width -/

namespace Sys2Proof.Machine

/-- A strobe that finds RDY low at the end of its width is stretched (R98). -/
theorem strobeWidthEnd_stretches {s : State} {t : Tenure} (ht : s.tenure = some t) (hm : t.mark = .going) (hp : t.phase = .strobe)
    (stop : Bool) (data : Word) : s.strobeWidthEnd false stop data = s.setTenure { t with phase := .stretch } := by
  rw [State.strobeWidthEnd, ht]
  exact if_pos (by simp [Tenure.held, hp, hm])

/-- A register write's strobe is released whatever STOP is (R102, R103). -/
theorem releaseStrobe_write {t : Tenure} (hk : t.req.kind = .registerWrite) (s : State) (stop : Bool) (data : Word) :
    s.releaseStrobe t stop data = s.setTenure { t with phase := .recovery } := by
  rw [State.releaseStrobe, hk]

/-- A strobe that reads takes the word on D0–D15 (R98, R104, R105, R108). -/
theorem releaseStrobe_read {t : Tenure} (hk : t.req.kind = .registerRead ∨ t.req.kind = .attentionRead ∨ t.req.kind = .checkIn)
    (s : State) (stop : Bool) (data : Word) :
    s.releaseStrobe t stop data = s.setTenure { t with phase := .recovery, values := t.values ++ [data] } := by
  rcases hk with hk | hk | hk <;> rw [State.releaseStrobe, hk]

/-- STOP at the release of a check word sent refuses it (R102, R108). -/
theorem releaseStrobe_checkOut {t : Tenure} (hk : t.req.kind = .checkOut) (s : State) (stop : Bool) (data : Word) :
    s.releaseStrobe t stop data = s.setTenure { t with phase := .recovery, mark := if stop then .refused else .going } := by
  rw [State.releaseStrobe, hk]

/-- STOP at the release of a burst's strobe ends the burst, and the stream unit sees no word (R102). -/
theorem releaseStrobe_stopped {t : Tenure} (hk : t.req.kind = .burstOut ∨ t.req.kind = .burstIn) (s : State) (data : Word) :
    s.releaseStrobe t true data = s.setTenure { t with phase := .recovery, mark := .stopped } := by
  rcases hk with hk | hk <;> rw [State.releaseStrobe, hk] <;> rfl

/-- Settles O43: RDY low stretches the strobe, and its release goes by the kind of its tenure. -/
theorem strobeStretchesOrReleases : Obligations.StrobeStretchesOrReleases := by
  refine fun s t stop data c => ⟨fun ht hm hp => next_congr (strobeWidthEnd_stretches ht hm hp stop data), fun hrel => ?_⟩
  have hexec := exec_releases s t stop data c hrel
  refine ⟨fun hk => ?_, fun hk => ?_, fun hk => ?_, fun hk hstop => ?_⟩
  · exact hexec.trans (next_congr (releaseStrobe_write hk s stop data))
  · exact hexec.trans (next_congr (releaseStrobe_read hk s stop data))
  · exact hexec.trans (next_congr (releaseStrobe_checkOut hk s stop data))
  · subst hstop
    exact hexec.trans (next_congr (releaseStrobe_stopped hk s data))

end Sys2Proof.Machine

/-! ## The end of a pulse -/

namespace Sys2Proof.Machine

/-- The card a pulse's end leaves: CRST released, no attention pending or claimable, and a re-arm (R126, R138, R157). -/
theorem endPulse_card (s : State) (c : CardId) : (s.endPulse c).card c =
    { s.card c with crst := false, attnPhase := .quiet, attnReq := none, claimable := false
                    baseline := (s.card c).atnLine
                    detector := if (s.card c).presence = .ready then rearmed (s.card c).sense (s.card c).atnLine else .disarmed } := by
  rw [State.endPulse, card_updCard_same, card_clearClaimable, card_updCard_same]
  rfl

theorem endPulse_card_other (s : State) {c d : CardId} (h : d ≠ c) : (s.endPulse c).card d = s.card d := by
  rw [State.endPulse, card_updCard_other _ _ _ _ h, clearClaimable_other _ _ _ h, card_updCard_other _ _ _ _ h]

/-- A claimable attention that a pulse's end clears is counted in word 14 (R138). -/
theorem endPulse_unclaimed (s : State) (c : CardId) : (s.endPulse c).profileWord c 14 =
    if (s.card c).claimable then s.profileWord c 14 + 1 else s.profileWord c 14 := by
  rw [State.endPulse, profileWord_updCard, clearClaimable_word, card_updCard_same, profileWord_updCard]

theorem endPulse_bytes (s : State) (c : CardId) : s.sameBytesBut (s.endPulse c) (profileAddr c 14) (profileAddr c 15) :=
  fun a h => clearClaimable_bytes (s.updCard c fun k => { k with crst := false, attnPhase := .quiet, attnReq := none }) c a h

theorem endPulse_frame (s : State) (c : CardId) : { s.endPulse c with mem := s.mem, cards := s.cards } = s :=
  congrArg (fun x : State => { x with cards := s.cards })
    (clearClaimable_frame (s.updCard c fun k => { k with crst := false, attnPhase := .quiet, attnReq := none }) c)

/-- After the pulse's end the step goes on by its settle field and the stop flag (R157, R158, R159). -/
theorem pulseEnd_goesOn {s : State} {c : CardId} {e : StepRecord} (ha : (s.card c).seq.active.isSome = true)
    (hc : (s.card c).seq.copy = some e) (hp : (s.card c).seq.phase = .pulsing) : s.pulseEnd c =
      if e.w2 = 0 then (s.endPulse c).finishStep c
      else if (s.card c).seq.stop then (s.endPulse c).endJob c .stopped
      else (s.endPulse c).updSeq c fun q => { q with phase := .settleWait } := by
  rw [State.pulseEnd, if_pos (runningIn_of ha hp), record_of_copy s c e hc]

/-- Settles O53: `State.endPulse` at the line, the attention unit and word 14, then the step by `pulseEnd_goesOn`. -/
theorem pulseEndReleasesCardReset : Obligations.PulseEndReleasesCardReset := by
  intro s c e ha hc hp
  have hexec := pulseEnd_goesOn ha hc hp
  refine ⟨s.endPulse c, _, rearm_rearmsTo (s.card c), endPulse_card s c, endPulse_unclaimed s c,
    fun _ hd => endPulse_card_other s hd, endPulse_bytes s c, endPulse_frame s c, fun h0 => next_congr ?_,
    fun h0 hstop => next_congr ?_, fun h0 hstop => next_congr ?_⟩
  · rw [hexec, if_pos h0]
  · rw [hexec, if_neg h0, if_pos hstop]
  · rw [hexec, if_neg h0, if_neg (ne_true_of_eq_false hstop)]

end Sys2Proof.Machine

/-! ## The judgement of a line's change -/

namespace Sys2Proof.Machine

/-- The detector unit's functions agree with the judgement the chapter gives (R124, R125). -/
theorem takeLine_detects_of_judges {k : Card} {level detected : Bool} {d : Detector} (h : k.judges level d detected) :
    k.takeLine level = { k with atnLine := level, baseline := level, detector := d } ∧ k.detects level = detected := by
  rcases h with ⟨hoff, rfl, rfl⟩ | ⟨harmed, hsense, rfl, rfl⟩ | ⟨harmed, hsense, rfl, rfl⟩ |
    ⟨harmed, ⟨hsense, rfl⟩ | ⟨hsense, rfl⟩, rfl, rfl⟩ | ⟨hmasked, ⟨hsense, rfl⟩ | ⟨hsense, rfl⟩, rfl, rfl⟩
  case inl => cases hsense : k.profile.sense <;> simp [Card.takeLine, Card.detects, Card.sense, Sense.activeLevel, hoff, hsense]
  all_goals simp [Card.takeLine, Card.detects, Card.sense, Sense.activeLevel, *]

/-- While the engine runs, a change of the line takes the detector where the judgement says, and a detection is handed on (R124). -/
theorem atnChange_judged {s : State} {c : CardId} {level detected : Bool} {d : Detector} (hchange : level ≠ (s.card c).atnLine)
    (hopen : s.engine.closed = false) (hjudges : (s.card c).judges level d detected) :
    let u := s.updCard c fun k => { k with atnLine := level, baseline := level, detector := d }
    s.atnChange c level = if detected then u.detection c else u := by
  obtain ⟨htake, hdetects⟩ := takeLine_detects_of_judges hjudges
  have hcard : s.updCard c (fun k => k.takeLine level) =
      s.updCard c fun k => { k with atnLine := level, baseline := level, detector := d } := updCard_congr _ _ _ _ htake
  rw [State.atnChange, if_neg hchange.symm, if_neg (ne_true_of_eq_false hopen), hdetects, hcard]

/-- A detection with an attention pending is merged into it (R128). -/
theorem detection_merges {u : State} {c : CardId} (h : (u.card c).attnPhase ≠ .quiet) : u.detection c = u := if_neg h

/-- A detection with an empty read list completes at once (R127). -/
theorem detection_completes {u : State} {c : CardId} (hquiet : (u.card c).attnPhase = .quiet)
    (hlist : (u.card c).profile.readList = []) : u.detection c = u.completeAttention c [] :=
  (if_pos hquiet).trans (if_pos hlist)

/-- A detection with a read list requests the card's attention read (R127). -/
theorem detection_requests {u : State} {c : CardId} (hquiet : (u.card c).attnPhase = .quiet)
    (hlist : (u.card c).profile.readList ≠ []) : u.detection c =
      u.updCard c fun k => { k with attnPhase := .waiting, attnReq := some (attentionRequest c k.profile.readList) } :=
  (if_pos hquiet).trans (if_neg hlist)

/-- Settles O55: the change as `atnChange_judged` says, and a detection by the phase and the read list. -/
theorem lineChangeJudged : Obligations.LineChangeJudged := by
  intro s c level k
  refine ⟨fun hsame => next_congr (if_pos hsame.symm), fun hchange hclosed => next_congr ?_, ?_⟩
  · exact (if_neg hchange.symm).trans (if_pos hclosed)
  · intro d detected hchange hopen hjudges u
    have hexec : s.atnChange c level = if detected then u.detection c else u := atnChange_judged hchange hopen hjudges
    have hcard : u.card c = { k with atnLine := level, baseline := level, detector := d } := card_updCard_same _ _ _
    refine ⟨fun hnone => next_congr ?_, fun hdet hquiet hlist => next_congr ?_, fun hdet hquiet hlist => next_congr ?_⟩
    · rcases hnone with rfl | hpending
      · exact hexec
      · rw [hexec, detection_merges (by rwa [hcard]), ite_self]
    · rw [hexec, if_pos hdet, detection_completes (by rwa [hcard]) (by rwa [hcard])]
    · rw [hexec, if_pos hdet, detection_requests (by rwa [hcard]) (by rwa [hcard])]
      rfl

end Sys2Proof.Machine

/-! ## The end of an attention read -/

namespace Sys2Proof.Machine

/-- The end of a whole attention read completes its attention, or the void read it was (R130, R136). -/
theorem attentionReadEnd_takes {s : State} {t : Tenure} (ht : s.tenure = some t) (hp : t.phase = .recovery) (hm : t.mark = .going)
    (hk : t.req.kind = .attentionRead) (hlast : t.req.regs.length ≤ t.strobe + 1) : s.attentionReadEnd =
      if (s.card t.req.card).voidRead then ({ s with tenure := none } : State).completeVoid t.req.card t.values
      else ({ s with tenure := none } : State).completeAttention t.req.card t.values := by
  have hover : t.over = true := over_of_strobes t hp hm (by rwa [Request.strobes, hk])
  rw [State.attentionReadEnd, ht]
  exact if_pos (by simp [hover, hk])

/-- An attention counted in word 14 is announced with snapshot words 0 and 1 as they stood (R132 case 3, R136). -/
theorem postUnsolicited_counted (v : State) (c : CardId) (f : Card → Card) :
    ((v.countUnclaimed c).updCard c f).postUnsolicited c =
      ((v.setProfileWord c 14 (v.profileWord c 14 + 1)).updCard c f).post
        { kind := .unsolicited, card := some c, slot := none, jobSeq := 0, code := 0, valueA := v.profileWord c 9
          valueB := v.profileWord c 10 } := by
  have hkept : ∀ m, m < 14 → ((v.countUnclaimed c).updCard c f).profileWord c m = v.profileWord c m := fun m hm => by
    rw [profileWord_updCard, State.countUnclaimed, profileWord_setProfileWord _ _ _ _ _ _ (by decide) (by omega),
      if_neg (by omega)]
  rw [State.postUnsolicited, hkept 9 (by decide), hkept 10 (by decide)]
  rfl

/-- A void read that ended with its values: the snapshot, both counts and the notice (R131, R136). -/
theorem completeVoid_counted {s : State} {c : CardId} {values : List Word} (hl : values.length ≤ 4) :
    ∃ v, s.snapshotTaken v c values ∧ s.completeVoid c values =
      ((v.setProfileWord c 14 (s.profileWord c 14 + 1)).updCard c fun k => { k with voidRead := false }).post
        { kind := .unsolicited, card := some c, slot := none, jobSeq := 0, code := 0, valueA := v.profileWord c 9
          valueB := v.profileWord c 10 } := by
  have hsnap := writeSnapshot_snapshotTaken s c values hl
  refine ⟨_, hsnap, ?_⟩
  rw [← snapshotTaken_unclaimed hsnap hl]
  exact postUnsolicited_counted _ c _

/-- Settles O56: the read's end hands its values to the attention, or to the void read by `completeVoid_counted`. -/
theorem attentionReadTaken : Obligations.AttentionReadTaken := by
  intro s t ht hp hm hk hlast hl c u
  have hexec := attentionReadEnd_takes ht hp hm hk hlast
  refine ⟨fun hvalid => next_congr (hexec.trans (if_neg (ne_true_of_eq_false hvalid))), fun hvoid => ?_⟩
  obtain ⟨v, hsnap, hcomplete⟩ := completeVoid_counted (s := u) (c := c) hl
  exact ⟨v, hsnap, next_congr ((hexec.trans (if_pos hvoid)).trans hcomplete)⟩

end Sys2Proof.Machine

/-! ## Settling -/

namespace Sys2Proof.Machine

theorem presenceSample_closed {s : State} (h : s.engine.closed = true) (c : CardId) (present : Bool) :
    s.presenceSample c present = s := if_pos h

theorem presenceSample_open {s : State} (h : s.engine.closed = false) (c : CardId) (present : Bool) :
    s.presenceSample c present = s.sample c present := if_neg (ne_true_of_eq_false h)

/-- An ABSENT position starts to settle on a present sample, and stays as it is on an absent one (R144). -/
theorem sample_absent {s : State} {c : CardId} (h : (s.card c).presence = .absent) (present : Bool) : s.sample c present =
    if present then s.updCard c fun k => { k with presence := .settling, settle := 1 } else s := by
  unfold State.sample
  rw [h]
  cases present <;> rfl

/-- A present sample short of the full settle count is counted, and the position goes on settling (R144). -/
theorem sample_settling_counts {s : State} {c : CardId} (h : (s.card c).presence = .settling)
    (hcount : (s.card c).settle + 1 < Config.settleFull) : s.sample c true =
      s.updCard c fun k => { k with presence := .settling, settle := (s.card c).settle + 1 } := by
  have hcard : s.updCard c (fun k => { k with settle := k.settle + 1 }) =
      s.updCard c fun k => { k with presence := .settling, settle := (s.card c).settle + 1 } :=
    updCard_congr _ _ _ _ (by rw [← h])
  unfold State.sample
  rw [h]
  exact (if_neg (Nat.not_le.2 hcount)).trans hcard

/-- An absent sample breaks settling off (R144). -/
theorem sample_settling_broken {s : State} {c : CardId} (h : (s.card c).presence = .settling) :
    s.sample c false = s.updCard c fun k => { k with presence := .absent, settle := 0 } := by
  unfold State.sample
  rw [h]

/-- A present sample of a card in service changes nothing (R147). -/
theorem sample_inService {s : State} {c : CardId} (h : (s.card c).presence = .ready ∨ (s.card c).presence = .faulted) :
    s.sample c true = s := by
  unfold State.sample
  rcases h with h | h <;> rw [h]

/-- Settles O58: while sampling runs, the sample goes by the presence of its position. -/
theorem presenceSampleSettles : Obligations.PresenceSampleSettles := by
  intro s c present becomes
  refine ⟨fun hclosed => next_congr (presenceSample_closed hclosed c present), fun hopen => ?_⟩
  have hexec : ∀ {level : Bool} {t : State}, s.sample c level = t → exec (.presenceSample c level) s = .next t := fun h =>
    next_congr ((presenceSample_open hopen c _).trans h)
  refine ⟨fun habsent => ⟨?_, ?_⟩, fun hsettling => ⟨fun hcount => ?_, ?_⟩, fun hservice => ?_⟩
  · exact hexec (sample_absent habsent true)
  · exact hexec (sample_absent habsent false)
  · exact hexec (sample_settling_counts hsettling (Nat.succ_lt_succ hcount))
  · exact hexec (sample_settling_broken hsettling)
  · exact hexec (sample_inService hservice)

end Sys2Proof.Machine

/-! ## Guarded header words -/

namespace Sys2Proof.Machine

theorem takeConsumed_takes {s : State} {v : Word} (h : (v - s.consumed).toNat ≤ (s.produced - s.consumed).toNat) :
    s.takeConsumed v = { s with consumed := v } := if_pos h

theorem takeConsumed_refuses {s : State} {v : Word} (h : (s.produced - s.consumed).toNat < (v - s.consumed).toNat) :
    s.takeConsumed v = s.countRefusal := if_neg (Nat.not_le.2 h)

theorem takeLost_zero (s : State) : s.takeLost 0 = { s with lost := 0 } := if_pos rfl

theorem takeLost_refuses {s : State} {v : Word} (h : v ≠ 0) : s.takeLost v = s.countRefusal := if_neg h

/-- Settles O25: in an open engine the owner of each guarded word takes or refuses the value written. -/
theorem guardedHeaderWritesJudged : Obligations.GuardedHeaderWritesJudged := by
  intro s v hopen refused
  have hjudged : ∀ {a : Nat} {judge : State → State} {t : State}, judge s = t →
      (Host.Outcome.next (s.hostAccess a judge) : Host.Outcome State Fault Refusal) = .next t := fun ht =>
    next_congr ((open_access s _ _ hopen).trans ht)
  refine ⟨hjudged rfl, fun hspan => ?_, fun hbeyond => ?_, fun hzero => ?_, fun hother => ?_⟩
  · exact hjudged (takeConsumed_takes hspan)
  · exact hjudged (takeConsumed_refuses hbeyond)
  · subst hzero
    exact hjudged (takeLost_zero s)
  · exact hjudged (takeLost_refuses hother)

end Sys2Proof.Machine

/-! ## Changes of RUN -/

namespace Sys2Proof.Machine

theorem runChange_set_runs {s : State} (h : s.engine = .halted ∨ s.engine = .draining) :
    s.runChange false true = .running := by
  rcases h with h | h <;> simp only [State.runChange, h]

theorem runChange_standstill {s : State} (h : s.engine = .standstill) (was now : Bool) :
    s.runChange was now = .standstill := by
  cases was <;> cases now <;> simp only [State.runChange, h]

theorem runChange_clear_running {s : State} (h : s.engine = .running) :
    s.runChange true false = if s.anyInProgress then .draining else .halted := by
  simp only [State.runChange, h]

theorem runChange_same (s : State) (run : Bool) : s.runChange run run = s.engine := by
  cases run <;> rfl

/-- The levels of a CTRL write, with the engine state its change of RUN leads to (R198). -/
theorem takeLevels_to {s : State} {w : Word} {was now : Bool} {e : EngineState} (hwas : s.ctrlRun = was)
    (hnow : w.getLsbD 0 = now) (h : s.runChange was now = e) : s.takeLevels w =
      { s with ctrlRun := w.getLsbD 0, ctrlPresence := w.getLsbD 1, ctrlInterrupt := w.getLsbD 2, engine := e } := by
  subst hwas hnow h
  rfl

/-- A CTRL write that keeps RUN takes the two other levels only (R198). -/
theorem takeLevels_keepsRun {s : State} {w : Word} (h : w.getLsbD 0 = s.ctrlRun) :
    s.takeLevels w = { s with ctrlPresence := w.getLsbD 1, ctrlInterrupt := w.getLsbD 2 } := by
  rw [takeLevels_to h.symm rfl (runChange_same s _), h]

/-- Settles O28: a CTRL write without RESUME and ENGINE_RESET is `State.takeLevels`, and `State.runChange` gives the engine state. -/
theorem runChangesEngineState : Obligations.RunChangesEngineState := by
  refine ⟨?_, fun s w hopen hrun h8 h9 => ?_⟩
  · intro s w h8 h9 next
    have hwrite : ∀ {was now : Bool} {e : EngineState}, s.engine.closed = false → s.ctrlRun = was → w.getLsbD 0 = now →
        s.runChange was now = e → (Host.Outcome.next (s.writeCtrl w) : Host.Outcome State Fault Refusal) = next e :=
      fun hopen hwas hnow he => next_congr ((writeCtrl_levels s w hopen h8 h9).trans (takeLevels_to hwas hnow he))
    refine ⟨fun hset hclear => ⟨fun he => ?_, fun he => ?_⟩, fun hclear hset => ⟨fun he hbusy => ?_, fun he hidle => ?_, fun he => ?_⟩⟩
    · exact hwrite (closed_of_open _ (by tauto)) hclear hset (runChange_set_runs he)
    · exact hwrite (closed_of_open _ (by tauto)) hclear hset (runChange_standstill he _ _)
    · exact hwrite (closed_of_open _ (by tauto)) hset hclear
        ((runChange_clear_running he).trans (if_pos ((anyInProgress_iff s).2 hbusy)))
    · exact hwrite (closed_of_open _ (by tauto)) hset hclear
        ((runChange_clear_running he).trans (if_neg (ne_true_of_eq_false (anyInProgress_false s hidle))))
    · exact hwrite (closed_of_open _ (by tauto)) hset hclear (runChange_standstill he _ _)
  · have hwrite : s.writeCtrl w = { s with ctrlPresence := w.getLsbD 1, ctrlInterrupt := w.getLsbD 2 } :=
      (writeCtrl_levels s w hopen h8 h9).trans (takeLevels_keepsRun hrun)
    exact ⟨next_congr hwrite, s.writeCtrl w, rfl, hwrite, congrArg State.intr hwrite⟩

end Sys2Proof.Machine

/-! ## Notices -/

namespace Sys2Proof.Machine

theorem satInc_below {w : Word} (h : w.toNat < 65535) : satInc w = w + 1 :=
  if_neg fun hw => by rw [hw] at h; exact absurd h (by decide)

theorem satInc_full {w : Word} (h : w.toNat = 65535) : satInc w = w := if_pos (BitVec.eq_of_toNat_eq h)

/-- A notice handed on in RESETTING and INITIALIZING is dropped uncounted (R176). -/
theorem post_closed {s : State} (h : s.engine.closed = true) (n : Notice) : s.post n = s := if_pos h

/-- A notice to a full list is counted lost (R166). -/
theorem post_full {s : State} (hopen : s.engine.closed = false) (hfull : s.inList = 64) (n : Notice) :
    s.post n = { s with lost := satInc s.lost } :=
  (if_neg (ne_true_of_eq_false hopen)).trans (if_pos hfull)

/-- A notice with room in the list writes its entry, and the count goes on (R165, R167). -/
theorem post_room {s : State} (hopen : s.engine.closed = false) (hroom : s.inList ≠ 64) (n : Notice) :
    s.post n = { s with
      mem := (s.setWords (noticeAddr s.produced.toNat 0) (n.entry s.msClock s.produced)).mem
      produced := s.produced + 1 } := by
  have hframe := setWords_frame (n.entry s.msClock s.produced) s (noticeAddr s.produced.toNat 0)
  rw [State.post, if_neg (ne_true_of_eq_false hopen), if_neg (show ¬ s.inList = Config.ringSize from hroom)]
  generalize s.setWords (noticeAddr s.produced.toNat 0) (n.entry s.msClock s.produced) = u at hframe ⊢
  exact congrArg (fun t : State => { t with mem := u.mem, produced := t.produced + 1 }) hframe

theorem post_room_mem {s : State} (hopen : s.engine.closed = false) (hroom : s.inList ≠ 64) (n : Notice) :
    (s.post n).mem = (s.setWords (noticeAddr s.produced.toNat 0) (n.entry s.msClock s.produced)).mem := by
  rw [post_room hopen hroom]

/-- The entry of a posted notice reads as its eight words (R167). -/
theorem post_room_word {s : State} (hopen : s.engine.closed = false) (hroom : s.inList ≠ 64) (n : Notice) {k : Nat} (hk : k < 8) :
    (s.post n).word (noticeAddr s.produced.toNat 0 + 2 * k) = (n.entry s.msClock s.produced)[k]'hk := by
  rw [State.word, post_room_mem hopen hroom, ← State.word]
  exact setWords_get (n.entry s.msClock s.produced) s _ k hk

/-- A posted notice leaves every byte outside its entry (R165). -/
theorem post_room_bytes {s : State} (hopen : s.engine.closed = false) (hroom : s.inList ≠ 64) (n : Notice) :
    s.sameBytesBut (s.post n) (noticeAddr s.produced.toNat 0) (noticeAddr s.produced.toNat 0 + 16) := fun a ha => by
  rw [post_room_mem hopen hroom]
  exact setWords_other (n.entry s.msClock s.produced) s _ a ha

theorem toNat_wordOf {n : Nat} (h : n < 65536) : (wordOf n).toNat = n := Nat.mod_eq_of_lt h

theorem NoticeKind.code_le (k : NoticeKind) : k.code ≤ 8 := by cases k <;> decide

theorem Notice.word0_toNat (n : Notice) : n.word0.toNat = n.kind.code + 256 * (match n.card with | some c => c.val | none => 15) := by
  obtain ⟨kind, card, slot, jobSeq, code, valueA, valueB⟩ := n
  have hkind := kind.code_le
  cases card with
  | none => exact toNat_wordOf (show kind.code + 256 * 15 < 65536 by omega)
  | some c => exact toNat_wordOf (show kind.code + 256 * c.val < 65536 by omega)

theorem Notice.word1_toNat (n : Notice) : n.word1.toNat = match n.slot with | some i => i.val | none => 0x00FF := by
  obtain ⟨kind, card, slot, jobSeq, code, valueA, valueB⟩ := n
  cases slot with
  | none => rfl
  | some i => exact toNat_wordOf (show i.val < 65536 by omega)

/-- Settles O32: `State.post` in its three cases, with the entry read back word by word. -/
theorem noticePostedLostOrDropped : Obligations.NoticePostedLostOrDropped := by
  refine ⟨?_, fun s n => ⟨fun hopen hfull hbelow => ?_, fun hopen hfull hmost => ?_, fun hclosed => ?_⟩⟩
  · intro s n hopen hroom entry t
    have hword : ∀ (k : Nat) (hk : k < 8), t.word (entry + 2 * k) = (n.entry s.msClock s.produced)[k]'hk := fun _ hk =>
      post_room_word hopen hroom n hk
    refine ⟨?_, ?_, ?_, hword 2 (by decide), hword 3 (by decide), hword 4 (by decide), hword 5 (by decide), hword 6 (by decide),
      hword 7 (by decide), post_room_bytes hopen hroom n, ?_⟩
    · exact congrArg State.produced (post_room hopen hroom n)
    · exact (congrArg BitVec.toNat (hword 0 (by decide))).trans (Notice.word0_toNat n)
    · exact (congrArg BitVec.toNat (hword 1 (by decide))).trans (Notice.word1_toNat n)
    · exact congrArg (fun u : State => { u with mem := s.mem, produced := s.produced }) (post_room hopen hroom n)
  · rw [post_full hopen hfull, satInc_below hbelow]
  · rw [post_full hopen hfull, satInc_full hmost]
  · exact post_closed ((closed_iff _).2 hclosed.symm) n

end Sys2Proof.Machine

/-! ## The ownership map -/

namespace Sys2Proof.Machine

theorem classOf_header (s : State) {a : WordAddr} (h : a.toNat < 16) : s.classOf a = headerClassOf a.toNat := if_pos h

theorem headerClassOf_unguarded {n : Nat} (h2 : n ≠ 2) (h4 : n ≠ 4) (h5 : n ≠ 5) : headerClassOf n = .partOwned := by
  rw [headerClassOf, if_neg h2, if_neg h4, if_neg h5]

theorem headerClassOf_not_hostOwned (n : Nat) : headerClassOf n ≠ .hostOwned := by
  unfold headerClassOf
  split_ifs <;> exact WordClass.noConfusion

theorem headerClassOf_not_dataPage (n : Nat) (p : PageId) : headerClassOf n ≠ .dataPage p := by
  unfold headerClassOf
  split_ifs <;> exact WordClass.noConfusion

/-- The host owns no header word, so a word a host write stores stands past the header (R180). -/
theorem past_header_of_hostOwned {s : State} {a : WordAddr} (h : s.classOf a = .hostOwned) : 16 ≤ a.toNat := by
  by_contra hlt
  rw [classOf_header s (by omega)] at h
  exact headerClassOf_not_hostOwned _ h

theorem past_header_of_dataPage {s : State} {a : WordAddr} {p : PageId} (h : s.classOf a = .dataPage p) : 16 ≤ a.toNat := by
  by_contra hlt
  rw [classOf_header s (by omega)] at h
  exact headerClassOf_not_dataPage _ p h

theorem slotClassOf_free {s : State} {i : SlotId} {w : Nat} (hfree : (s.slot i).state = .free) (h1 : 1 ≤ w) (h3 : w ≤ 3) :
    s.slotClassOf i w = .hostOwned := by
  rw [State.slotClassOf, if_neg (by omega), if_pos h3, if_pos hfree]

theorem slotClassOf_part {s : State} {i : SlotId} {w : Nat} (h1 : 1 ≤ w) (h : (s.slot i).state ≠ .free ∨ 4 ≤ w) :
    s.slotClassOf i w = .partOwned := by
  rw [State.slotClassOf, if_neg (by omega)]
  by_cases h3 : w ≤ 3
  · rw [if_pos h3, if_neg (h.resolve_right (by omega))]
  · exact if_neg h3

theorem classOf_notices (s : State) {a : WordAddr} (hlo : 0x0520 ≤ 2 * a.toNat) (hhi : 2 * a.toNat ≤ 0x091F) :
    s.classOf a = .partOwned := by
  unfold State.classOf
  simp only
  rw [if_neg (by omega), dif_neg (by omega), if_neg (by omega), if_pos (by omega)]

/-! ### Writes by class -/

theorem judgeWrite_hostOwned {s : State} {a : WordAddr} (h : s.classOf a = .hostOwned) (v : Word) :
    s.judgeWrite a v = s.setWord (2 * a.toNat) v := by rw [State.judgeWrite, h]

theorem judgeWrite_dataPage {s : State} {a : WordAddr} {p : PageId} (h : s.classOf a = .dataPage p) (v : Word) :
    s.judgeWrite a v = (s.setWord (2 * a.toNat) v).reportPageWrite p := by rw [State.judgeWrite, h]

theorem judgeWrite_partOwned {s : State} {a : WordAddr} (h : s.classOf a = .partOwned) (v : Word) :
    s.judgeWrite a v = s.discard (2 * a.toNat) := by rw [State.judgeWrite, h]

/-- Settles O23: each of the four kinds of word is part-owned, and its write is `State.discard`. -/
theorem hostWriteDiscarded : Obligations.HostWriteDiscarded := by
  intro s a v hopen hwhere
  have hclass : s.classOf a = .partOwned := by
    rcases hwhere with ⟨hlt, h2, h4, h5⟩ | ⟨i, w, h1, h15, hpart, ha⟩ | ⟨c, w, h8, h15, ha⟩ | ⟨hlo, hhi⟩
    · rw [classOf_header s (by omega)]
      exact headerClassOf_unguarded (by omega) (by omega) (by omega)
    · rw [classOf_slot s a i w (by omega) ha]
      exact slotClassOf_part h1 hpart
    · rw [classOf_profile s a c w (by omega) ha]
      exact if_neg (by omega)
    · exact classOf_notices s hlo hhi
  exact next_congr ((open_access s _ _ hopen).trans (judgeWrite_partOwned hclass v))

/-- A word the host owns and a word of the data pages read as stored (R179, R180). -/
theorem content_of_stored {s : State} {a : WordAddr} (h : s.classOf a = .hostOwned ∨ 0x4000 ≤ 2 * a.toNat) (t : State) :
    t.content a = t.word (2 * a.toNat) := by
  have hpast : 0x0020 ≤ 2 * a.toNat := by
    rcases h with howned | hpage
    · have := past_header_of_hostOwned howned
      omega
    · omega
  refine content_stored t hpast (fun i hi => ?_) fun c hc => ?_
  · rcases h with howned | hpage
    · rw [classOf_slot s a i 0 (by decide) hi] at howned
      exact WordClass.noConfusion howned
    · simp only [slotAddr, Config.slotBase] at hi
      omega
  · rcases h with howned | hpage
    · rw [classOf_profile s a c 8 (by decide) hc] at howned
      exact WordClass.noConfusion howned
    · simp only [profileAddr, Config.profileBase] at hc
      omega

/-- A host write to such a word stores it, and at most a breach record changes besides (R91, R182, R183). -/
theorem judgeWrite_stores {s : State} {a : WordAddr} (h : s.classOf a = .hostOwned ∨ 0x4000 ≤ 2 * a.toNat) (v : Word) :
    { s.judgeWrite a v with breach := s.breach } = s.setWord (2 * a.toNat) v := by
  rcases h with howned | hpage
  · rw [judgeWrite_hostOwned howned]
    rfl
  · rw [judgeWrite_dataPage (classOf_page s a hpage)]
    exact reportPageWrite_frame (s.setWord (2 * a.toNat) v) _

/-- Settles O21: the class of the word has it stored, and its read is that of a stored word. -/
theorem hostWriteStored : Obligations.HostWriteStored := by
  intro s a v hopen hpin hwhere
  have hclass : s.classOf a = .hostOwned ∨ 0x4000 ≤ 2 * a.toNat := by
    rcases hwhere with ⟨i, w, hfree, h1, h3, ha⟩ | ⟨c, w, h7, ha⟩ | hpast
    · exact .inl ((classOf_slot s a i w (by omega) ha).trans (slotClassOf_free hfree h1 h3))
    · exact .inl ((classOf_profile s a c w (by omega) ha).trans (if_pos (by omega)))
    · exact (Nat.lt_or_ge (2 * a.toNat) 0x4000).imp_left (classOf_step s a hpast)
  have hstores := judgeWrite_stores hclass v
  have hmem : (s.judgeWrite a v).mem = writeWord s.mem (2 * a.toNat) v := (congrArg State.mem hstores).trans rfl
  refine ⟨s.judgeWrite a v, next_congr (open_access s _ _ hopen), ?_, fun b hb => ?_, ?_, fun hlow => ?_⟩
  · have hpin' : (s.judgeWrite a v).resetPin = false := (congrArg State.resetPin hstores).trans hpin
    have hengine : (s.judgeWrite a v).engine = s.engine := (congrArg State.engine hstores).trans rfl
    have hread : (s.judgeWrite a v).engine ≠ .initializing := fun he => by
      rw [← hengine, he] at hopen
      exact absurd hopen (by decide)
    rw [exchangeRead_open hpin' hread, content_of_stored hclass, State.word, hmem]
    exact readWord_writeWord_same _ _ _
  · rw [hmem]
    exact readByte_writeWord_other _ _ _ _ (by omega)
  · exact congrArg (fun u : State => { u with mem := s.mem }) hstores
  · rw [judgeWrite_hostOwned (hclass.resolve_right (by omega))]
    rfl

end Sys2Proof.Machine

/-! ## STAT and the window's ignored writes -/

namespace Sys2Proof.Machine

theorem windowRead_ident {s : State} (h : s.resetPin = false) : s.windowRead 2 = Config.ident := by simp [State.windowRead, h]

/-- A STAT write clears each flag whose bit is written 1 (R192). -/
theorem writeStat_to {s : State} {w : Word} {discard refused : Bool} (hdiscard : (s.statDiscard && !w.getLsbD 8) = discard)
    (hrefused : (s.statRefused && !w.getLsbD 9) = refused) :
    s.writeStat w = { s with statDiscard := discard, statRefused := refused } := by
  subst hdiscard hrefused
  rfl

theorem flag_cleared (b : Bool) {w : Word} {n : Nat} (h : w.getLsbD n = true) : (b && !w.getLsbD n) = false := by
  rw [h, Bool.not_true, Bool.and_false]

/-- Settles O26: `State.writeStat` for the flags, and the constant word at IDENT's position. -/
theorem statAndIgnoredWrites : Obligations.StatAndIgnoredWrites := fun _ _ =>
  ⟨fun h8 => next_congr (writeStat_to (flag_cleared _ h8) rfl), fun h9 => next_congr (writeStat_to rfl (flag_cleared _ h9)),
    fun _ => rfl, windowRead_ident⟩

end Sys2Proof.Machine

/-! ## Ticks -/

namespace Sys2Proof.Machine

theorem msClockTick_initializing {s : State} (h : s.engine = .initializing) : s.msClockTick = s := if_pos h

theorem msClockTick_runs {s : State} (h : s.engine ≠ .initializing) : s.msClockTick = { s with msClock := s.msClock + 1 } := if_neg h

theorem tickCounts_iff (s : State) :
    s.tickCounts = true ↔ s.ctrlPresence = true ∧ (s.engine = .running ∨ s.engine = .draining) := by
  simp only [State.tickCounts, Bool.and_eq_true, Bool.or_eq_true, decide_eq_true_eq]

/-- A counted tick with a tally of 2 or more takes one from it (R202). -/
theorem presenceTick_counts {s : State} (hcounts : s.tickCounts = true) (htally : 2 ≤ s.tally.toNat) :
    s.presenceTick = { s with tally := s.tally - 1 } := by
  have hends : ¬ s.tallyEnds = true := by
    rw [State.tallyEnds, decide_eq_true_eq]
    omega
  rw [State.presenceTick, if_pos hcounts, if_neg hends]

theorem presenceTick_idle {s : State} (h : ¬ s.tickCounts = true) : s.presenceTick = s := if_neg h

/-- Settles O30: the clock by its engine state, the tally by whether the tick counts. -/
theorem ticksCount : Obligations.TicksCount := by
  refine fun s => ⟨fun h => next_congr (msClockTick_initializing h), fun h => next_congr (msClockTick_runs h),
    fun hpresence hengine htally => ?_, fun hidle => ?_⟩
  · exact next_congr (presenceTick_counts ((tickCounts_iff s).2 ⟨hpresence, hengine⟩) htally)
  · refine next_congr (presenceTick_idle fun hcounts => ?_)
    obtain ⟨hpresence, hengine⟩ := (tickCounts_iff s).1 hcounts
    rcases hidle with hclear | ⟨hrunning, hdraining⟩
    · exact absurd (hclear.symm.trans hpresence) (by decide)
    · exact hengine.elim hrunning hdraining

end Sys2Proof.Machine

/-! ## What each command leaves of the exchange memory -/

namespace Sys2Proof.Machine

/-! ### The part's own work -/

theorem failJob_stays (s : State) (c : CardId) (o : JobOutcome) (d : Option Word) : Stays s (s.failJob c o d) :=
  stays_of_keeps (failJob_keeps s c o d fun h => h.elim)

theorem requestJob_stays (s : State) (c : CardId) (k : TenureKind) (n : Nat) (d : Word) (o : Bool) :
    Stays s (s.requestJob c k n d o) := stays_of_mem rfl rfl

theorem writeControl_stays (s : State) (i : SlotId) (v : Word) : Stays s (s.writeControl i v) :=
  hostAccess_stays s _ _ (slotRequest_stays s i v)

theorem reportPageWrite_stays (s : State) (p : PageId) : Stays s (s.reportPageWrite p) := by
  unfold State.reportPageWrite
  split
  · split
    · exact stays_of_mem rfl rfl
    · exact Stays.refl s
  · exact Stays.refl s

theorem takeConsumed_stays (s : State) (v : Word) : Stays s (s.takeConsumed v) := by
  unfold State.takeConsumed
  split <;> exact stays_of_mem rfl rfl

theorem takeLost_stays (s : State) (v : Word) : Stays s (s.takeLost v) := by
  unfold State.takeLost
  split <;> exact stays_of_mem rfl rfl

theorem bclrPulseEnd_stays (s : State) : Stays s s.bclrPulseEnd := by
  unfold State.bclrPulseEnd
  split
  · exact stays_of_mem rfl rfl
  · exact Stays.refl s

theorem msClockTick_stays (s : State) : Stays s s.msClockTick := by
  unfold State.msClockTick
  split
  · exact Stays.refl s
  · exact stays_of_mem rfl rfl

theorem tally_stays (s : State) (v : Word) : Stays s { s with tally := v } := stays_of_mem rfl rfl

theorem presenceTick_stays (s : State) : Stays s s.presenceTick := by
  unfold State.presenceTick
  split
  · split
    · exact (tally_stays s 0).trans (enterStandstill_stays _)
    · exact tally_stays s _
  · exact Stays.refl s

theorem standstillEntry_stays (s : State) : Stays s s.standstillEntry := by
  unfold State.standstillEntry
  split
  · exact (tally_stays s 0).trans (enterStandstill_stays _)
  · exact Stays.refl s

theorem cardArrival_stays (s : State) (c : CardId) : Stays s (s.cardArrival c) := by
  unfold State.cardArrival
  split
  · exact arrive_stays s c
  · exact Stays.refl s

theorem atnChange_stays (s : State) (c : CardId) (level : Bool) : Stays s (s.atnChange c level) := by
  unfold State.atnChange
  split
  · exact Stays.refl s
  · split
    · exact updCard_stays _ _ _
    · simp only
      split
      · exact (updCard_stays _ _ _).trans (stays_of_keeps (detection_keeps _ c (fun h => h.elim) fun h => h.elim))
      · exact updCard_stays _ _ _

/-! ### The ends of tenures and waits -/

theorem registerWriteEnd_stays (s : State) : Stays s s.registerWriteEnd :=
  jobTenureEnd_stays s _ _ fun _ _ u => finishStep_stays u _

theorem registerReadEnd_stays (s : State) : Stays s s.registerReadEnd := by
  refine jobTenureEnd_stays s _ _ fun t i u => ?_
  simp only
  split
  · exact stays_of_keeps (judgePoll_keeps _ _ _ _ fun h => h.elim)
  · exact (stays_of_keeps (setCapture_keeps _ _ _ _)).trans (finishStep_stays _ _)

theorem burstEnd_stays (s : State) : Stays s s.burstEnd :=
  jobTenureEnd_stays s _ _ fun _ _ u => stays_of_keeps (takeBurstEnd_keeps u _ _ fun h => h.elim)

theorem burstStop_stays (s : State) : Stays s s.burstStop :=
  jobTenureEnd_stays s _ _ fun _ _ u => failWithDetail_stays u _ _ _

theorem burstStallEnd_stays (s : State) : Stays s s.burstStallEnd :=
  jobTenureEnd_stays s _ _ fun _ _ u => beginAbandon_stays u _ _

theorem recheck_stays (s : State) (c : CardId) (i : SlotId) (v : Word) : Stays s (s.recheck c i v) :=
  stays_of_keeps (recheck_keeps s c i v fun h => h.elim)

theorem checkOutEnd_stays (s : State) : Stays s s.checkOutEnd := by
  refine jobTenureEnd_stays s _ _ fun t i u => ?_
  split
  · exact failWithDetail_stays _ _ _ _
  · exact recheck_stays _ _ _ _

theorem checkInEnd_stays (s : State) : Stays s s.checkInEnd := by
  refine jobTenureEnd_stays s _ _ fun t i u => ?_
  simp only
  split
  · exact recheck_stays _ _ _ _
  · exact failWithDetail_stays _ _ _ _

theorem abandonEnd_stays (s : State) : Stays s s.abandonEnd := by
  refine jobTenureEnd_stays s _ _ fun t i u => ?_
  unfold State.takeAbandonEnd
  split
  · exact failWithDetail_stays _ _ _ _
  · exact failWithDetail_stays _ _ _ _
  · exact endJob_stays _ _ _
  all_goals exact Stays.refl u

theorem recoveryWidthEnd_stays (s : State) : Stays s s.recoveryWidthEnd := by
  unfold State.recoveryWidthEnd
  split
  · split
    · exact stays_of_mem rfl rfl
    · exact Stays.refl s
  · exact Stays.refl s

theorem stallTimeout_stays (s : State) : Stays s s.stallTimeout := by
  unfold State.stallTimeout
  split
  · split
    · exact tenure_stays s _
    · exact Stays.refl s
  · exact Stays.refl s

theorem strobeRecoveryEnd_stays (s : State) : Stays s s.strobeRecoveryEnd := by
  unfold State.strobeRecoveryEnd
  split
  · split
    · exact tenure_stays s _
    · exact Stays.refl s
  · exact Stays.refl s

theorem pollIntervalEnd_stays (s : State) (c : CardId) : Stays s (s.pollIntervalEnd c) := by
  unfold State.pollIntervalEnd
  split
  · exact requestJob_stays _ _ _ _ _ _
  · exact Stays.refl s

theorem awaitTimeout_stays (s : State) (c : CardId) : Stays s (s.awaitTimeout c) := by
  unfold State.awaitTimeout
  split
  · exact failJob_stays _ _ _ _
  · exact Stays.refl s

theorem pauseEnd_stays (s : State) (c : CardId) : Stays s (s.pauseEnd c) := by
  unfold State.pauseEnd
  split
  · exact finishStep_stays s c
  · exact Stays.refl s

theorem settleWaitEnd_stays (s : State) (c : CardId) : Stays s (s.settleWaitEnd c) := by
  unfold State.settleWaitEnd
  split
  · exact finishStep_stays s c
  · exact Stays.refl s

theorem pulseEnd_stays (s : State) (c : CardId) : Stays s (s.pulseEnd c) := by
  have hpulse : Stays s (s.endPulse c) := stays_of_keeps (endPulse_keeps s c)
  unfold State.pulseEnd
  split
  · simp only
    split
    · exact hpulse.trans (finishStep_stays _ _)
    · split
      · exact hpulse.trans (endJob_stays _ _ _)
      · exact hpulse.trans (updSeq_stays _ _ _)
  · exact Stays.refl s

theorem leaseGrantTaken_stays (s : State) (c : CardId) : Stays s (s.leaseGrantTaken c) := by
  unfold State.leaseGrantTaken
  split
  · split
    · exact (updCard_stays _ _ _).trans (stays_of_keeps (beginBursts_keeps _ _ _ (fun h => h.elim) fun h => h.elim))
    · exact Stays.refl s
  · exact Stays.refl s

/-! ### The bytes a command spares -/

/-- The bytes that satisfy `Q` read as before, and RESET is not released. -/
structure Spares (Q : Nat → Prop) (s t : State) : Prop where
  bytes : ∀ a, Q a → readByte t.mem a = readByte s.mem a
  reset : t.resetPin = false → s.resetPin = false

theorem Spares.mono {Q R : Nat → Prop} {s t : State} (h : Spares Q s t) (hR : ∀ a, R a → Q a) : Spares R s t :=
  ⟨fun a ha => h.bytes a (hR a ha), h.reset⟩

theorem Spares.trans {Q : Nat → Prop} {s t u : State} (h : Spares Q s t) (g : Spares Q t u) : Spares Q s u :=
  ⟨fun a ha => (g.bytes a ha).trans (h.bytes a ha), fun hrel => h.reset (g.reset hrel)⟩

theorem spares_of_mem {Q : Nat → Prop} {s t : State} (hmem : t.mem = s.mem) (hpin : t.resetPin = s.resetPin) : Spares Q s t :=
  ⟨fun _ _ => by rw [hmem], fun hrel => hpin.symm.trans hrel⟩

theorem Stays.spares {s t : State} (h : Stays s t) : Spares stableByte s t := by
  obtain ⟨hbytes, -, hpin⟩ := h
  exact ⟨hbytes, fun hrel => hpin.symm.trans hrel⟩

/-- The header's bytes (R180). -/
def headerByte (a : Nat) : Prop := a < 0x0020

/-- The stable bytes below the data pages. -/
def stableBelowPages (a : Nat) : Prop := stableByte a ∧ a < 0x4000

theorem stableByte_of_header {a : Nat} (h : headerByte a) : stableByte a := .inl h

/-- A host write stores no word of the header (R180, R184, R190). -/
theorem judgeWrite_spares_header (s : State) (a : WordAddr) (v : Word) : Spares headerByte s (s.judgeWrite a v) := by
  have hstore : 16 ≤ a.toNat → Spares headerByte s (s.setWord (2 * a.toNat) v) := fun hpast =>
    ⟨fun b hb => readByte_writeWord_other _ _ _ _ (by unfold headerByte at hb; omega), id⟩
  cases hclass : s.classOf a with
  | hostOwned =>
    rw [judgeWrite_hostOwned hclass]
    exact hstore (past_header_of_hostOwned hclass)
  | dataPage p =>
    rw [judgeWrite_dataPage hclass]
    exact (hstore (past_header_of_dataPage hclass)).trans ((reportPageWrite_stays _ p).spares.mono fun _ => stableByte_of_header)
  | partOwned =>
    rw [judgeWrite_partOwned hclass]
    exact spares_of_mem rfl rfl
  | slotControl i =>
    rw [State.judgeWrite, hclass]
    exact (slotRequest_stays s i v).spares.mono fun _ => stableByte_of_header
  | presenceTally =>
    rw [State.judgeWrite, hclass]
    exact spares_of_mem rfl rfl
  | noticesConsumed =>
    rw [State.judgeWrite, hclass]
    exact (takeConsumed_stays s v).spares.mono fun _ => stableByte_of_header
  | noticesLost =>
    rw [State.judgeWrite, hclass]
    exact (takeLost_stays s v).spares.mono fun _ => stableByte_of_header

theorem writeExchange_spares_header (s : State) (a : WordAddr) (v : Word) : Spares headerByte s (s.writeExchange a v) := by
  unfold State.writeExchange State.hostAccess
  split
  · exact spares_of_mem rfl rfl
  · exact spares_of_mem rfl rfl
  all_goals exact judgeWrite_spares_header s a v

/-- A word of a burst in is written into the data pages (R72, R82). -/
theorem moveIn_spares (s : State) (c : CardId) (w : Word) : Spares stableBelowPages s (s.moveIn c w) := by
  refine ⟨fun a ⟨_, hlow⟩ => readByte_writeWord_other _ _ _ _ ?_, id⟩
  simp only [State.streamAddr, Config.pageBase]
  omega

/-- The release of a strobe writes no stable byte below the data pages, whatever its kind (R98, R102). -/
theorem releaseStrobe_spares (s : State) (t : Tenure) (stop : Bool) (data : Word) :
    Spares stableBelowPages s (s.releaseStrobe t stop data) := by
  cases hk : t.req.kind with
  | registerWrite | registerRead | attentionRead | checkOut | checkIn | abandon =>
    rw [State.releaseStrobe, hk]
    exact spares_of_mem rfl rfl
  | burstOut =>
    cases stop with
    | true =>
      rw [releaseStrobe_stopped (.inl hk)]
      exact spares_of_mem rfl rfl
    | false =>
      rw [releaseStrobe_out hk]
      exact spares_of_mem rfl rfl
  | burstIn =>
    cases stop with
    | true =>
      rw [releaseStrobe_stopped (.inr hk)]
      exact spares_of_mem rfl rfl
    | false =>
      rw [releaseStrobe_in hk]
      exact (moveIn_spares s t.req.card data).trans (spares_of_mem rfl rfl)

theorem strobeWidthEnd_spares (s : State) (rdy stop : Bool) (data : Word) :
    Spares stableBelowPages s (s.strobeWidthEnd rdy stop data) := by
  unfold State.strobeWidthEnd
  split
  · split
    · split
      · exact releaseStrobe_spares s _ stop data
      · exact spares_of_mem rfl rfl
    · exact spares_of_mem rfl rfl
  · exact spares_of_mem rfl rfl

theorem rdyRise_spares (s : State) (stop : Bool) (data : Word) : Spares stableBelowPages s (s.rdyRise stop data) := by
  unfold State.rdyRise
  split
  · split
    · exact releaseStrobe_spares s _ stop data
    · exact spares_of_mem rfl rfl
  · exact spares_of_mem rfl rfl

/-- The bytes a command other than the release of RESET leaves as they are, by what it may write: a host write any word past the header, the
end of a strobe a word of the data pages, and every other command the part's own words. -/
def sparedBy (c : Instr) : Nat → Prop :=
  match c with
  | .hostExchangeWrite _ _ => headerByte
  | .strobeWidthEnd _ _ _ | .rdyRise _ _ => stableBelowPages
  | _ => stableByte

theorem exec_spares {c : Instr} (s : State) (hc : c ≠ .resetRelease) : ∃ t, exec c s = .next t ∧ Spares (sparedBy c) s t := by
  cases c with
  | resetRelease => exact absurd rfl hc
  | hostExchangeWrite a v => exact ⟨_, rfl, writeExchange_spares_header s a v⟩
  | strobeWidthEnd rdy stop data => exact ⟨_, rfl, strobeWidthEnd_spares s rdy stop data⟩
  | rdyRise stop data => exact ⟨_, rfl, rdyRise_spares s stop data⟩
  | hardwareReset => exact ⟨_, rfl, fun _ _ => rfl, fun hrel => Bool.noConfusion hrel⟩
  | file i => exact ⟨_, rfl, (writeControl_stays s i fileCode).spares⟩
  | cancel i => exact ⟨_, rfl, (writeControl_stays s i cancelCode).spares⟩
  | release i => exact ⟨_, rfl, (writeControl_stays s i releaseCode).spares⟩
  | unknownRequest i v => exact ⟨_, rfl, (writeControl_stays s i v).spares⟩
  | presenceTallyWrite v => exact ⟨_, rfl, (hostAccess_stays s 4 _ (tally_stays s v)).spares⟩
  | noticesConsumedWrite v => exact ⟨_, rfl, (hostAccess_stays s 8 _ (takeConsumed_stays s v)).spares⟩
  | noticesLostWrite v => exact ⟨_, rfl, (hostAccess_stays s 10 _ (takeLost_stays s v)).spares⟩
  | runSet w | runClear w | presenceLevel w | interruptLevel w | resume w | engineReset w =>
    exact ⟨_, rfl, (writeCtrl_stays s w).spares⟩
  | statClearDiscard w | statClearRefused w => exact ⟨s.writeStat w, rfl, spares_of_mem rfl rfl⟩
  | ignoredWindowWrite target v => exact ⟨s, rfl, spares_of_mem rfl rfl⟩
  | bclrPulseEnd => exact ⟨_, rfl, (bclrPulseEnd_stays s).spares⟩
  | jobStart k => exact ⟨_, rfl, (jobStart_stays s k).spares⟩
  | cancelNoticeTaken k => exact ⟨_, rfl, (cancelNoticeTaken_stays s k).spares⟩
  | endReportTaken k => exact ⟨_, rfl, (endReportTaken_stays s k).spares⟩
  | busGrant => exact ⟨_, rfl, (grantBus_stays s).spares⟩
  | registerWriteEnd => exact ⟨_, rfl, (registerWriteEnd_stays s).spares⟩
  | registerReadEnd => exact ⟨_, rfl, (registerReadEnd_stays s).spares⟩
  | attentionReadEnd => exact ⟨_, rfl, (attentionReadEnd_stays s).spares⟩
  | burstEnd => exact ⟨_, rfl, (burstEnd_stays s).spares⟩
  | burstStop => exact ⟨_, rfl, (burstStop_stays s).spares⟩
  | stallTimeout => exact ⟨_, rfl, (stallTimeout_stays s).spares⟩
  | burstStallEnd => exact ⟨_, rfl, (burstStallEnd_stays s).spares⟩
  | checkOutEnd => exact ⟨_, rfl, (checkOutEnd_stays s).spares⟩
  | checkInEnd => exact ⟨_, rfl, (checkInEnd_stays s).spares⟩
  | abandonEnd => exact ⟨_, rfl, (abandonEnd_stays s).spares⟩
  | readyTimeout => exact ⟨_, rfl, (readyTimeout_stays s).spares⟩
  | recoveryWidthEnd => exact ⟨_, rfl, (recoveryWidthEnd_stays s).spares⟩
  | pollIntervalEnd k => exact ⟨_, rfl, (pollIntervalEnd_stays s k).spares⟩
  | awaitTimeout k => exact ⟨_, rfl, (awaitTimeout_stays s k).spares⟩
  | pauseEnd k => exact ⟨_, rfl, (pauseEnd_stays s k).spares⟩
  | pulseEnd k => exact ⟨_, rfl, (pulseEnd_stays s k).spares⟩
  | settleWaitEnd k => exact ⟨_, rfl, (settleWaitEnd_stays s k).spares⟩
  | presenceTick => exact ⟨_, rfl, (presenceTick_stays s).spares⟩
  | standstillEntry => exact ⟨_, rfl, (standstillEntry_stays s).spares⟩
  | msClockTick => exact ⟨_, rfl, (msClockTick_stays s).spares⟩
  | presenceSample k level => exact ⟨_, rfl, (presenceSample_stays s k level).spares⟩
  | cardArrival k => exact ⟨_, rfl, (cardArrival_stays s k).spares⟩
  | atnChange k level => exact ⟨_, rfl, (atnChange_stays s k level).spares⟩
  | leaseGrantTaken k => exact ⟨_, rfl, (leaseGrantTaken_stays s k).spares⟩
  | strobeRecoveryEnd => exact ⟨_, rfl, (strobeRecoveryEnd_stays s).spares⟩

theorem spares_of_exec {c : Instr} {s t : State} (hc : c ≠ .resetRelease) (h : exec c s = .next t) : Spares (sparedBy c) s t := by
  obtain ⟨u, hu, hspares⟩ := exec_spares s hc
  exact Host.Outcome.next.inj (hu.symm.trans h) ▸ hspares

/-! ### The host's bytes -/

theorem sparedBy_of_stableBelowPages {c : Instr} (hc : ∀ adr v, c ≠ .hostExchangeWrite adr v) {a : Nat} (h : stableBelowPages a) :
    sparedBy c a := by
  unfold sparedBy
  split
  · exact absurd rfl (hc _ _)
  · exact h
  · exact h
  · exact h.1

theorem sparedBy_of_stableByte {c : Instr} (hc : ∀ adr v, c ≠ .hostExchangeWrite adr v) (hwidth : ∀ r p d, c ≠ .strobeWidthEnd r p d)
    (hrise : ∀ p d, c ≠ .rdyRise p d) {a : Nat} (h : stableByte a) : sparedBy c a := by
  unfold sparedBy
  split
  · exact absurd rfl (hc _ _)
  · exact absurd rfl (hwidth _ _ _)
  · exact absurd rfl (hrise _ _)
  · exact h

theorem stableBelowPages_slot (i : SlotId) {w a : Nat} (hw : w ≤ 3) (h : a = slotAddr i w ∨ a = slotAddr i w + 1) :
    stableBelowPages a := by
  simp only [slotAddr, Config.slotBase] at h
  simp only [stableBelowPages, stableByte]
  omega

theorem stableBelowPages_profile (k : CardId) {w a : Nat} (hw : w ≤ 7) (h : a = profileAddr k w ∨ a = profileAddr k w + 1) :
    stableBelowPages a := by
  simp only [profileAddr, Config.profileBase] at h
  simp only [stableBelowPages, stableByte]
  omega

/-- Settles O8: the host's bytes are among those the command spares. -/
theorem partLeavesHostWordsAlone : Obligations.PartLeavesHostWordsAlone := by
  intro c s t a h hhost hrelease hwhere
  refine (spares_of_exec hrelease h).bytes a ?_
  rcases hwhere with ⟨i, w, _, hw, ha⟩ | ⟨k, w, hw, ha⟩ | ⟨hlo, hhi⟩ | ⟨hpage, hwidth, hrise⟩
  · exact sparedBy_of_stableBelowPages hhost (stableBelowPages_slot i hw ha)
  · exact sparedBy_of_stableBelowPages hhost (stableBelowPages_profile k hw ha)
  · exact sparedBy_of_stableBelowPages hhost ⟨.inr (.inr (.inr hlo)), by omega⟩
  · exact sparedBy_of_stableByte hhost hwidth hrise (.inr (.inr (.inr (by omega))))

/-! ### The constant header words -/

theorem sparedBy_of_header (c : Instr) {a : Nat} (h : headerByte a) : sparedBy c a := by
  have hlow : stableBelowPages a := ⟨stableByte_of_header h, Nat.lt_trans h (by decide)⟩
  by_cases hc : ∃ adr v, c = .hostExchangeWrite adr v
  · obtain ⟨adr, v, rfl⟩ := hc
    exact h
  · exact sparedBy_of_stableBelowPages (fun adr v he => hc ⟨adr, v, he⟩) hlow

theorem Spares.word {Q : Nat → Prop} {s t : State} (h : Spares Q s t) {a : Nat} (hlo : Q a) (hhi : Q (a + 1)) :
    t.word a = s.word a := by
  unfold State.word readWord
  rw [h.bytes a hlo, h.bytes (a + 1) hhi]

theorem Spares.headerOk {s t : State} (h : Spares headerByte s t) (hs : s.headerOk) : t.headerOk := by
  have hword : ∀ a, a < 31 → t.word a = s.word a := fun a ha =>
    h.word (Nat.lt_succ_of_lt ha) (Nat.succ_lt_succ ha)
  intro hpin
  rw [hword 0 (by decide), hword 2 (by decide), hword 24 (by decide), hword 26 (by decide), hword 28 (by decide),
    hword 30 (by decide)]
  exact hs (h.reset hpin)

/-- Initialisation writes the constant header words over the zero-fill (R187, R195). -/
theorem resetRelease_headerOk {s : State} (hs : s.headerOk) : s.resetRelease.headerOk := by
  by_cases hpin : s.resetPin = true
  · have hzero : ∀ a, 4 ≤ a → readWord initialMemory a = 0 := fun a ha => by
      rw [readWord, readByte_initialMemory_zero ha, readByte_initialMemory_zero (Nat.le_succ_of_le ha)]
      rfl
    rw [resetRelease_initialises hpin]
    exact fun _ => ⟨readWord_initialMemory_signature, readWord_initialMemory_revision, hzero 24 (by decide), hzero 26 (by decide),
      hzero 28 (by decide), hzero 30 (by decide)⟩
  · rw [State.resetRelease, if_neg hpin]
    exact hs

theorem exec_headerOk {c : Instr} {s t : State} (h : exec c s = .next t) (hs : s.headerOk) : t.headerOk := by
  by_cases hc : c = .resetRelease
  · subst hc
    exact Host.Outcome.next.inj h ▸ resetRelease_headerOk hs
  · exact ((spares_of_exec hc h).mono fun _ => sparedBy_of_header c).headerOk hs

theorem step_headerOk {s t : State} (h : step s = .next t) (hs : s.headerOk) : t.headerOk := by
  unfold step at h
  split at h
  · exact Host.Outcome.next.inj h ▸ hs
  · rename_i c rest _
    exact exec_headerOk (s := { s with pending := rest }) h hs

/-- Settles O3: each command's operation keeps the canonical form, and all but the release of RESET spare the header's bytes. -/
theorem stepKeepsMemoryCanonical : Obligations.StepKeepsMemoryCanonical := fun _ _ h =>
  ⟨(step_preserves h).memOk, step_headerOk h⟩

end Sys2Proof.Machine

/-! ## Leaving STANDSTILL -/

namespace Sys2Proof.Machine

theorem writeCtrl_resume {s : State} {w : Word} (hopen : s.engine.closed = false) (hresume : w.getLsbD 8 = true)
    (hreset : w.getLsbD 9 = false) : s.writeCtrl w = (s.takeLevels w).takeResume := by
  have hnoReset : ¬ ctrlResetBit w = true := ne_true_of_eq_false hreset
  rw [State.writeCtrl, if_neg (ne_true_of_eq_false hopen), if_neg hnoReset, if_pos (show ctrlResumeBit w = true from hresume)]

/-! ### The RESUME itself -/

/-- With PRESENCE set and the tally run out, the RESUME is a refused write (R189, R206). -/
theorem takeResume_refused {s : State} (he : s.engine = .standstill) (hp : s.ctrlPresence = true) (ht : s.tally = 0) :
    s.takeResume = s.countRefusal := by
  rw [State.takeResume, if_pos he, if_pos (by simp [hp, ht])]

/-- A RESUME that is not refused leaves STANDSTILL by RUN and the slots in progress (R206). -/
theorem takeResume_to {s : State} {e : EngineState} (he : s.engine = .standstill) (h : s.ctrlPresence = false ∨ s.tally ≠ 0)
    (hto : (if s.ctrlRun then .running else if s.anyInProgress then .draining else .halted) = e) :
    s.takeResume = { s with engine := e } := by
  have hnot : ¬ (s.ctrlPresence && decide (s.tally = 0)) = true := by
    simpa [← Bool.not_eq_true, imp_iff_not_or] using h
  rw [State.takeResume, if_pos he, if_neg hnot, hto]

theorem takeResume_elsewhere {s : State} (h : s.engine ≠ .standstill) : s.takeResume = s := if_neg h

/-! ### The levels taken before it -/

/-- In STANDSTILL a change of RUN leaves the engine state, so the write takes its three levels and no more (R198, R199, R200). -/
theorem takeLevels_standstill {s : State} (he : s.engine = .standstill) (w : Word) :
    s.takeLevels w = { s with ctrlRun := w.getLsbD 0, ctrlPresence := w.getLsbD 1, ctrlInterrupt := w.getLsbD 2 } := by
  rw [takeLevels_to rfl rfl (runChange_standstill he _ _), ← he]

/-- A change of RUN never enters STANDSTILL (R199, R200). -/
theorem runChange_ne_standstill {s : State} (h : s.engine ≠ .standstill) (was now : Bool) :
    s.runChange was now ≠ .standstill := by
  unfold State.runChange
  split
  · split
    · simp
    · simp
    all_goals exact h
  · split
    · split <;> simp
    all_goals exact h
  all_goals exact h

/-- The levels stand in bits 2:0 of the word (R191). -/
theorem takeLevels_levelBits (s : State) (w : Word) : s.takeLevels (w &&& 0x0007) = s.takeLevels w := by
  simp [State.takeLevels, ctrlRunBit, ctrlPresenceBit, ctrlInterruptBit, bitOf]

/-- Outside STANDSTILL a RESUME adds nothing to the levels of its write (R206). -/
theorem writeCtrl_resume_elsewhere {s : State} {w : Word} (hopen : s.engine.closed = false) (he : s.engine ≠ .standstill)
    (hresume : w.getLsbD 8 = true) (hreset : w.getLsbD 9 = false) : s.writeCtrl w = s.takeLevels w :=
  (writeCtrl_resume hopen hresume hreset).trans (takeResume_elsewhere (runChange_ne_standstill he _ _))

/-- Settles O29: the write takes its levels, and `State.takeResume` judges the state they leave. -/
theorem resumeLeavesStandstill : Obligations.ResumeLeavesStandstill := by
  constructor
  · intro s w he hresume hreset levels
    have hopen : s.engine.closed = false := closed_of_open _ (by tauto)
    have hwrite : s.writeCtrl w = levels.takeResume :=
      (writeCtrl_resume hopen hresume hreset).trans (congrArg State.takeResume (takeLevels_standstill he w))
    have hto {e : EngineState} (hgo : w.getLsbD 1 = false ∨ s.tally ≠ 0)
        (h : (if levels.ctrlRun then .running else if levels.anyInProgress then .draining else .halted) = e) :
        exec (.resume w) s = .next { levels with engine := e } :=
      next_congr (hwrite.trans (takeResume_to (s := levels) he hgo h))
    refine ⟨fun hp ht => next_congr (hwrite.trans (takeResume_refused (s := levels) he hp ht)),
      fun hgo => ⟨fun hset => hto hgo (if_pos hset), fun hclear hbusy => hto hgo ?_, fun hclear hidle => hto hgo ?_⟩⟩
    · rw [if_neg (ne_true_of_eq_false hclear), if_pos ((anyInProgress_iff levels).2 hbusy)]
    · rw [if_neg (ne_true_of_eq_false hclear), if_neg (ne_true_of_eq_false (anyInProgress_false levels hidle))]
  · intro s w v he hresume hreset hv
    subst hv
    have hopen : s.engine.closed = false := closed_of_open _ (by tauto)
    have hne : s.engine ≠ .standstill := by rcases he with he | he | he <;> simp [he]
    have hwith : s.writeCtrl w = s.takeLevels w := writeCtrl_resume_elsewhere hopen hne hresume hreset
    have hwithout : s.writeCtrl (w &&& 0x0007) = s.takeLevels w :=
      (writeCtrl_levels s _ hopen (by simp) (by simp)).trans (takeLevels_levelBits s w)
    exact ⟨next_congr (hwith.trans hwithout.symm), fun hrun => next_congr (hwith.trans (takeLevels_keepsRun hrun))⟩

end Sys2Proof.Machine

/-! ## Hardware reset -/

namespace Sys2Proof.Machine

theorem hardwareReset_card (s : State) (c : CardId) :
    s.hardwareReset.card c = { Card.reset with atnLine := (s.card c).atnLine } := get_tab _ c

theorem hardwareReset_slot (s : State) (i : SlotId) : s.hardwareReset.slot i = SlotCtl.reset := slot_replicate i

theorem hardwareReset_pageHolder (s : State) (p : PageId) : s.hardwareReset.pageHolder.get p = none :=
  Vector.getElem_replicate p.isLt

theorem hardwareReset_breach (s : State) (i : SlotId) : s.hardwareReset.breach.get i = none :=
  Vector.getElem_replicate i.isLt

/-- A card position in reset is the chapters' initial one, whatever the level of its ATN line (log 25). -/
theorem reset_card_initial (level : Bool) : ({ Card.reset with atnLine := level } : Card).initial := by
  unfold Card.initial
  and_intros <;> rfl

theorem hardwareReset_initial (s : State) : s.hardwareReset.initial := by
  have hcard : ∀ c, (s.hardwareReset.card c).initial := fun c => hardwareReset_card s c ▸ reset_card_initial _
  exact ⟨rfl, rfl, rfl, rfl, rfl, rfl, rfl, rfl, rfl, rfl, rfl, rfl, rfl, rfl, rfl, hardwareReset_slot s, rfl, hcard,
    hardwareReset_pageHolder s, hardwareReset_breach s, rfl, rfl, rfl, rfl⟩

/-- `State.reset` is a state that HARDWARE_RESET leaves, so what is proved of every such state holds of it (log 12). -/
theorem hardwareReset_reset : State.reset.hardwareReset = State.reset := by
  have hcards : (tab fun c => { Card.reset with atnLine := (State.reset.card c).atnLine }) = State.reset.cards := by decide
  exact congrArg (fun cards => { State.reset with cards := cards }) hcards

/-- Settles O9: `State.hardwareReset` leaves the initial state from every state, `State.reset` among them. -/
theorem hardwareResetHoldsInitialState : Obligations.HardwareResetHoldsInitialState :=
  ⟨fun s => ⟨s.hardwareReset, rfl, hardwareReset_initial s, rfl, rfl, fun _ => rfl,
      fun c => (congrArg Card.atnLine (hardwareReset_card s c) :)⟩,
    hardwareReset_reset ▸ hardwareReset_initial State.reset, rfl, rfl⟩

/-! ### The invariants at reset -/

theorem hardwareReset_ringOk (s : State) : s.hardwareReset.ringOk := by
  change ((0 : Word) - 0).toNat ≤ Config.ringSize
  decide

theorem hardwareReset_runOk (s : State) : s.hardwareReset.runOk :=
  ⟨(nomatch ·), fun _ => rfl, fun _ => rfl, (nomatch ·)⟩

theorem hardwareReset_serviceOk (s : State) : s.hardwareReset.serviceOk :=
  ⟨fun c => hardwareReset_card s c ▸ reset_card_ok c _, fun _ => (nomatch ·)⟩

/-- Settles O7: the memory is empty with RESET asserted, and the other invariants hold of every state HARDWARE_RESET leaves. -/
theorem invariantsHoldAtReset : Obligations.InvariantsHoldAtReset := by
  have hlists : State.reset.listsOk := hardwareReset_reset ▸ hardwareReset_lists State.reset
  have ⟨_, _, _, _, _, _, hcauses⟩ := hlists
  exact ⟨rfl, (nomatch ·), hardwareReset_reset ▸ hardwareReset_ringOk State.reset, hcauses,
    hardwareReset_reset ▸ hardwareReset_runOk State.reset, hardwareReset_reset ▸ hardwareReset_serviceOk State.reset, hlists⟩

end Sys2Proof.Machine

/-! ## The queue of waiting commands -/

namespace Sys2Proof.Machine

/-! ### Taking the front command -/

theorem step_of_waiting {s : State} {c : Instr} {rest : List Instr} (h : s.pending = c :: rest) :
    step s = exec c { s with pending := rest } := by rw [step, h]

theorem step_of_idle {s : State} (h : s.pending = []) : step s = .next s := by rw [step, h]

/-- Settles O1: the two branches of `step`. -/
theorem stepRunsFrontCommand : Obligations.StepRunsFrontCommand :=
  ⟨fun _ _ _ hwaiting => step_of_waiting hwaiting, fun _ hidle => step_of_idle hidle⟩

/-! ### The queue behind a command -/

theorem Stays.pending {s t : State} (h : Stays s t) : t.pending = s.pending := h.2.1

theorem pending_judgeWrite (s : State) (a : WordAddr) (v : Word) : (s.judgeWrite a v).pending = s.pending := by
  cases hclass : s.classOf a with
  | hostOwned => rw [judgeWrite_hostOwned hclass, pending_setWord]
  | dataPage p => rw [judgeWrite_dataPage hclass, (reportPageWrite_stays _ p).pending, pending_setWord]
  | partOwned =>
    rw [judgeWrite_partOwned hclass]
    rfl
  | slotControl i =>
    rw [State.judgeWrite, hclass]
    exact (slotRequest_stays s i v).pending
  | presenceTally =>
    rw [State.judgeWrite, hclass]
    rfl
  | noticesConsumed =>
    rw [State.judgeWrite, hclass]
    exact (takeConsumed_stays s v).pending
  | noticesLost =>
    rw [State.judgeWrite, hclass]
    exact (takeLost_stays s v).pending

theorem pending_writeExchange (s : State) (a : WordAddr) (v : Word) : (s.writeExchange a v).pending = s.pending := by
  unfold State.writeExchange State.hostAccess
  split
  · rfl
  · rfl
  all_goals exact pending_judgeWrite s a v

theorem pending_resetRelease (s : State) : s.resetRelease.pending = s.pending := by
  unfold State.resetRelease
  split <;> rfl

theorem pending_strobeWidthEnd (s : State) (rdy stop : Bool) (data : Word) :
    (s.strobeWidthEnd rdy stop data).pending = s.pending := by
  unfold State.strobeWidthEnd
  split
  · split
    · split
      · exact strobe_pending s _ stop data
      · rfl
    · rfl
  · rfl

theorem pending_rdyRise (s : State) (stop : Bool) (data : Word) : (s.rdyRise stop data).pending = s.pending := by
  unfold State.rdyRise
  split
  · split
    · exact strobe_pending s _ stop data
    · rfl
  · rfl

/-- Every command answers a next state with the queue it was given, HARDWARE_RESET among them (log 25, log 27). -/
theorem exec_keeps_pending (c : Instr) (s : State) : ∃ t, exec c s = .next t ∧ t.pending = s.pending := by
  cases c with
  | hostExchangeWrite a v => exact ⟨_, rfl, pending_writeExchange s a v⟩
  | strobeWidthEnd rdy stop data => exact ⟨_, rfl, pending_strobeWidthEnd s rdy stop data⟩
  | rdyRise stop data => exact ⟨_, rfl, pending_rdyRise s stop data⟩
  | hardwareReset => exact ⟨s.hardwareReset, rfl, rfl⟩
  | resetRelease => exact ⟨_, rfl, pending_resetRelease s⟩
  | file i => exact ⟨_, rfl, (writeControl_stays s i fileCode).pending⟩
  | cancel i => exact ⟨_, rfl, (writeControl_stays s i cancelCode).pending⟩
  | release i => exact ⟨_, rfl, (writeControl_stays s i releaseCode).pending⟩
  | unknownRequest i v => exact ⟨_, rfl, (writeControl_stays s i v).pending⟩
  | presenceTallyWrite v => exact ⟨_, rfl, (hostAccess_stays s 4 _ (tally_stays s v)).pending⟩
  | noticesConsumedWrite v => exact ⟨_, rfl, (hostAccess_stays s 8 _ (takeConsumed_stays s v)).pending⟩
  | noticesLostWrite v => exact ⟨_, rfl, (hostAccess_stays s 10 _ (takeLost_stays s v)).pending⟩
  | runSet w | runClear w | presenceLevel w | interruptLevel w | resume w | engineReset w =>
    exact ⟨_, rfl, (writeCtrl_stays s w).pending⟩
  | statClearDiscard w | statClearRefused w => exact ⟨s.writeStat w, rfl, rfl⟩
  | ignoredWindowWrite target v => exact ⟨s, rfl, rfl⟩
  | bclrPulseEnd => exact ⟨_, rfl, (bclrPulseEnd_stays s).pending⟩
  | jobStart k => exact ⟨_, rfl, (jobStart_stays s k).pending⟩
  | cancelNoticeTaken k => exact ⟨_, rfl, (cancelNoticeTaken_stays s k).pending⟩
  | endReportTaken k => exact ⟨_, rfl, (endReportTaken_stays s k).pending⟩
  | busGrant => exact ⟨_, rfl, (grantBus_stays s).pending⟩
  | registerWriteEnd => exact ⟨_, rfl, (registerWriteEnd_stays s).pending⟩
  | registerReadEnd => exact ⟨_, rfl, (registerReadEnd_stays s).pending⟩
  | attentionReadEnd => exact ⟨_, rfl, (attentionReadEnd_stays s).pending⟩
  | burstEnd => exact ⟨_, rfl, (burstEnd_stays s).pending⟩
  | burstStop => exact ⟨_, rfl, (burstStop_stays s).pending⟩
  | stallTimeout => exact ⟨_, rfl, (stallTimeout_stays s).pending⟩
  | burstStallEnd => exact ⟨_, rfl, (burstStallEnd_stays s).pending⟩
  | checkOutEnd => exact ⟨_, rfl, (checkOutEnd_stays s).pending⟩
  | checkInEnd => exact ⟨_, rfl, (checkInEnd_stays s).pending⟩
  | abandonEnd => exact ⟨_, rfl, (abandonEnd_stays s).pending⟩
  | readyTimeout => exact ⟨_, rfl, (readyTimeout_stays s).pending⟩
  | recoveryWidthEnd => exact ⟨_, rfl, (recoveryWidthEnd_stays s).pending⟩
  | pollIntervalEnd k => exact ⟨_, rfl, (pollIntervalEnd_stays s k).pending⟩
  | awaitTimeout k => exact ⟨_, rfl, (awaitTimeout_stays s k).pending⟩
  | pauseEnd k => exact ⟨_, rfl, (pauseEnd_stays s k).pending⟩
  | pulseEnd k => exact ⟨_, rfl, (pulseEnd_stays s k).pending⟩
  | settleWaitEnd k => exact ⟨_, rfl, (settleWaitEnd_stays s k).pending⟩
  | presenceTick => exact ⟨_, rfl, (presenceTick_stays s).pending⟩
  | standstillEntry => exact ⟨_, rfl, (standstillEntry_stays s).pending⟩
  | msClockTick => exact ⟨_, rfl, (msClockTick_stays s).pending⟩
  | presenceSample k level => exact ⟨_, rfl, (presenceSample_stays s k level).pending⟩
  | cardArrival k => exact ⟨_, rfl, (cardArrival_stays s k).pending⟩
  | atnChange k level => exact ⟨_, rfl, (atnChange_stays s k level).pending⟩
  | leaseGrantTaken k => exact ⟨_, rfl, (leaseGrantTaken_stays s k).pending⟩
  | strobeRecoveryEnd => exact ⟨_, rfl, (strobeRecoveryEnd_stays s).pending⟩

/-- A step takes the front command off the queue and no other. -/
theorem step_takes_front (s : State) : ∃ t, step s = .next t ∧ t.pending = s.pending.tail := by
  cases hqueue : s.pending with
  | nil => exact ⟨s, step_of_idle hqueue, hqueue⟩
  | cons c rest =>
    obtain ⟨t, hexec, hrest⟩ := exec_keeps_pending c { s with pending := rest }
    exact ⟨t, (step_of_waiting hqueue).trans hexec, hrest⟩

/-- Settles O2: each command's operation keeps the queue, and a step runs a command on the queue's rest. -/
theorem everyStepGoesOn : Obligations.EveryStepGoesOn := ⟨exec_keeps_pending, step_takes_front⟩

end Sys2Proof.Machine
